-- ==== Sys2Proof/Word.lean ====
section
/-! DEFINITION. The word types of 00_scope.md rules R7 and R9: bytes of 8 bits, register values of 32 bits, bit 0
least significant. -/

namespace Sys2Proof

/-- A data byte, a sub-address byte, a status value: 8 bits (rule R7). -/
abbrev Byte := BitVec 8

/-- A register value: an unsigned 32-bit number (rules R6 and R9, `REG_W`). -/
abbrev Word := BitVec 32

/-- An access word: 41 bits (rule R80). -/
abbrev AccessWord := BitVec 41

end Sys2Proof
end

