-- ==== Sys2Proof/Config.lean ====
section
/-! DEFINITION. What an implementation fixes (00_scope.md rule R6) and the free values: the answers of the Bus oracle
(rule R8), the choice of the agent that moves, and the parameters the spec leaves OPEN. A free value is an opaque
constant, so nothing can be proved of which value it is. -/

namespace Sys2Proof

/-- What the bus may answer when a START condition or a receive completes (41_bus_engine.md rules R144, R145, R147). -/
inductive LineOutcome where
  | ok | arb | berr
  deriving DecidableEq, Repr, Inhabited

/-- What the bus may answer to an address byte (rule R146). -/
inductive AddrOutcome where
  | ack | nak | arb | arbAddressed | berr
  deriving DecidableEq, Repr, Inhabited

/-- What the bus may answer to a transmitted data byte (rule R148). -/
inductive DataOutcome where
  | ack | nak | arb | berr
  deriving DecidableEq, Repr, Inhabited

/-- One answer of the Bus oracle: whatever the step that draws it needs, each part out of the set its rule allows. -/
structure Draw where
  /-- the outcome `o` of a START, RSTART, STOP_START, ARB_START or RX_DATA completion -/
  line   : LineOutcome
  /-- the outcome `o` of a TX_ADDR completion -/
  addr   : AddrOutcome
  /-- the outcome `o` of a TX_DATA completion -/
  data   : DataOutcome
  /-- the byte `d` the slave drives during a receive -/
  byte   : Byte
  /-- `p = NOW`: a receive uses the current A_ACK, not the copy taken at its trigger (rule R147) -/
  ackNow : Bool
  /-- the line levels, SCL then SDA, an LCR read sees (40_register_access.md rule R127) -/
  levels : BitVec 2
  deriving DecidableEq, Repr, Inhabited

/-- `OFF_*`: the byte offset of each register from the instance base (decision D2). -/
structure Offsets where
  addr  : Nat
  xaddr : Nat
  data  : Nat
  cntr  : Nat
  stat  : Nat
  ccr   : Nat
  srst  : Nat
  efr   : Nat
  lcr   : Nat
  deriving DecidableEq, Repr

/-- Where a field whose width is general knowledge lies in its register: lowest bit and width. -/
structure Field where
  lo    : Nat
  width : Nat
  deriving DecidableEq, Repr

/-- The place of every field in its register (30_encoding.md rule R83, decision D3): the bit of a one-bit field, the lowest
bit of a field whose width the source fixes (`SLA` 7 bits, `DATA` and `STA` 8 bits), lowest bit and width of the others. -/
structure Positions where
  sla      : Nat
  gce      : Nat
  slax     : Field
  data     : Nat
  intEn    : Nat
  busEn    : Nat
  mSta     : Nat
  mStp     : Nat
  iflg     : Nat
  aAck     : Nat
  sta      : Nat
  clkM     : Field
  clkN     : Field
  softRst  : Nat
  dbn      : Field
  sdaCtlEn : Nat
  sdaCtl   : Nat
  sclCtlEn : Nat
  sclCtl   : Nat
  sdaState : Nat
  sclState : Nat
  deriving DecidableEq, Repr

/-- The value of every status code but IDLE, whose value is the source's (30_encoding.md rule R88, decision D4). -/
structure Codes where
  busError  : Byte
  txStart   : Byte
  txRstart  : Byte
  txAwAck   : Byte
  txAwNak   : Byte
  mTxdAck   : Byte
  mTxdNak   : Byte
  arbLost   : Byte
  txArAck   : Byte
  txArNak   : Byte
  mRxdAck   : Byte
  mRxdNak   : Byte
  sAwAck    : Byte
  sArbAwAck : Byte
  sGcAck    : Byte
  sArbGcAck : Byte
  sRxdAck   : Byte
  sRxdNak   : Byte
  sGcdAck   : Byte
  sGcdNak   : Byte
  sStop     : Byte
  sArAck    : Byte
  sArbArAck : Byte
  sTxdAck   : Byte
  sTxdNak   : Byte
  sLtxdAck  : Byte
  tx2AwAck  : Byte
  tx2AwNak  : Byte
  tx2ArAck  : Byte
  tx2ArNak  : Byte
  deriving DecidableEq, Repr

/-- The power-on values that rule R43 lets a model take as parameters (10_state.md, decision D7), each as a value of its
register. CNTR = 0 and STAT = IDLE are required there. -/
structure ResetValues where
  addr  : Word
  xaddr : Word
  data  : Word
  ccr   : Word
  efr   : Word
  lcr   : Word
  deriving DecidableEq, Repr

/-- The parameters of rule R6 as plain data of the state (rule R13 asks for every general-knowledge value to be one). No
step changes them (log entry 1). `N_BUS` is the number of instances; `OWN_ADDR` is an operand of INIT. -/
structure Params where
  /-- `OFF_*` -/
  off               : Offsets
  /-- the bit positions of every field -/
  pos               : Positions
  /-- the status code values -/
  codes             : Codes
  /-- the power-on values of the registers -/
  resets            : ResetValues
  /-- `BASE(i)`, the base address of each instance -/
  bases             : List Nat
  /-- `BLOCK_SIZE` -/
  blockSize         : Nat
  /-- the address width of the host bus, in bits (20_memory.md rule R60, log entry 21) -/
  addrBits          : Nat
  /-- `IFLG_W1C`: writing 1, not 0, clears INT_FLAG -/
  iflgW1c           : Bool
  /-- `STOP_ON_ABORT`: the sequencer sends STOP after a mismatch -/
  stopOnAbort       : Bool
  /-- `DEVICE_READ_ACK_LAST`: DEVICE_READ acknowledges its single byte -/
  deviceReadAckLast : Bool
  /-- `WAIT_BUDGET` -/
  waitBudget        : Nat
  /-- `IDLE_BUDGET` -/
  idleBudget        : Nat
  /-- `START_BUDGET` -/
  startBudget       : Nat
  /-- `RESET_BUDGET` -/
  resetBudget       : Nat
  /-- `N_MAX`: the largest payload length -/
  nMax              : Nat
  /-- `F_IN`, in Hz -/
  fIn               : Nat
  /-- `PREDIV_SHIFT` -/
  predivShift       : Nat
  /-- `CLK_N_VAL` -/
  clkNVal           : Nat
  deriving DecidableEq, Repr

/-- FREE VALUE: the Bus oracle's answer to the draw with the given number on the given instance (rule R8). -/
opaque Config.busDraw : Nat → Nat → Draw

/-- FREE VALUE: which of the agents that may move does, at the choice with the given number (rules R8, R155). -/
opaque Config.pick : Nat → Nat

/-- OPEN parameter `WAIT_BUDGET` (decision D9). -/
opaque Config.waitBudget : Nat

/-- OPEN parameter `IDLE_BUDGET` (decision D9). -/
opaque Config.idleBudget : Nat

/-- OPEN parameter `START_BUDGET` (decision D9). -/
opaque Config.startBudget : Nat

/-- OPEN parameter `RESET_BUDGET` (decision D9). -/
opaque Config.resetBudget : Nat

/-- OPEN parameter `N_MAX`, less one: the spec says `N_MAX` is at least 1 (decision D22). -/
opaque Config.nMaxPred : Nat

/-- `N_BUS`, the number of instances: the general-knowledge default of rule R6 (log entry 10). -/
def Config.nBus : Nat := 5

/-- The default offsets (20_memory.md rule R62; log entry 10). -/
def Config.offsets : Offsets where
  addr  := 0x00
  xaddr := 0x04
  data  := 0x08
  cntr  := 0x0C
  stat  := 0x10
  ccr   := 0x14
  srst  := 0x18
  efr   := 0x1C
  lcr   := 0x20

/-- The default bit positions (30_encoding.md rule R83; log entry 10). -/
def Config.positions : Positions where
  sla      := 1
  gce      := 0
  slax     := ⟨0, 8⟩
  data     := 0
  intEn    := 7
  busEn    := 6
  mSta     := 5
  mStp     := 4
  iflg     := 3
  aAck     := 2
  sta      := 0
  clkM     := ⟨3, 4⟩
  clkN     := ⟨0, 3⟩
  softRst  := 0
  dbn      := ⟨0, 2⟩
  sdaCtlEn := 0
  sdaCtl   := 1
  sclCtlEn := 2
  sclCtl   := 3
  sdaState := 4
  sclState := 5

/-- The default status code values (30_encoding.md rule R88; log entry 10). -/
def Config.codes : Codes where
  busError  := 0x00#8
  txStart   := 0x08#8
  txRstart  := 0x10#8
  txAwAck   := 0x18#8
  txAwNak   := 0x20#8
  mTxdAck   := 0x28#8
  mTxdNak   := 0x30#8
  arbLost   := 0x38#8
  txArAck   := 0x40#8
  txArNak   := 0x48#8
  mRxdAck   := 0x50#8
  mRxdNak   := 0x58#8
  sAwAck    := 0x60#8
  sArbAwAck := 0x68#8
  sGcAck    := 0x70#8
  sArbGcAck := 0x78#8
  sRxdAck   := 0x80#8
  sRxdNak   := 0x88#8
  sGcdAck   := 0x90#8
  sGcdNak   := 0x98#8
  sStop     := 0xA0#8
  sArAck    := 0xA8#8
  sArbArAck := 0xB0#8
  sTxdAck   := 0xB8#8
  sTxdNak   := 0xC0#8
  sLtxdAck  := 0xC8#8
  tx2AwAck  := 0xD0#8
  tx2AwNak  := 0xD8#8
  tx2ArAck  := 0xE0#8
  tx2ArNak  := 0xE8#8

/-- The default power-on values (10_state.md rule R43; log entry 10). -/
def Config.resetValues : ResetValues where
  addr  := 0#32
  xaddr := 0#32
  data  := 0#32
  ccr   := 0#32
  efr   := 0#32
  lcr   := 0xA#32

/-- The parameters at their defaults of rule R6; the OPEN ones are the opaque constants above. -/
def Config.defaults : Params where
  off               := Config.offsets
  pos               := Config.positions
  codes             := Config.codes
  resets            := Config.resetValues
  bases             := (List.range Config.nBus).map fun i => 0x01C2AC00 + 0x400 * i
  blockSize         := 0x400
  addrBits          := 32
  iflgW1c           := false
  stopOnAbort       := true
  deviceReadAckLast := false
  waitBudget        := Config.waitBudget
  idleBudget        := Config.idleBudget
  startBudget       := Config.startBudget
  resetBudget       := Config.resetBudget
  nMax              := Config.nMaxPred + 1
  fIn               := 24000000
  predivShift       := 3
  clkNVal           := 3

end Sys2Proof
end

