-- ==== Sys2Proof/Syntax.lean ====
section
/-! DEFINITION. The instructions: the 34 rows of opcode_table.json, 18 register accesses (30_encoding.md rule R80) and
16 sequencer requests (rule R82), and the terms they are written in. -/

namespace Sys2Proof

/-- The nine registers of an instance (10_state.md rule R20). -/
inductive Reg where
  | addr | xaddr | data | cntr | stat | ccr | srst | efr | lcr
  deriving DecidableEq, Repr

/-- The operations of the polling sequencer: the rows of kind SEQ (rule R90). -/
inductive SeqOp where
  | sendStart | sendStop | sendData | readData | clearIf | isBusy | setAck | clrAck
  | waitStatus | waitIdle | configureClock
  | masterWrite | masterRead | deviceWrite | deviceRead | init
  deriving DecidableEq, Repr

/-- A named operand field of a request, with the number it carries (the table of rule R82). The numbers are not yet
checked against their ranges: rule R230 does that. -/
inductive Operand where
  | bus (i : Nat)
  | chip (a : Nat)
  | sub (b : Nat)
  | bytes (bs : List Nat)
  | n (k : Nat)
  | value (b : Nat)
  | budget (k : Nat)
  | hz (f : Nat)
  | own (a : Option Nat)
  deriving DecidableEq, Repr

/-- What an instruction is written as: an access word in six bytes beside the instance it is issued to (rule R80, log
entry 11), or a request, the operation name plus its operands (rule R82). -/
inductive Term where
  | word (bus : Nat) (bytes : List Byte)
  | request (op : SeqOp) (operands : List Operand)
  deriving DecidableEq, Repr

/-- The instructions, one constructor per row of opcode_table.json. `bus` is the instance. A request's operands are
numbers still to be checked (rule R230). -/
inductive Instr where
  | rdAddr (bus : Nat)
  | wrAddr (bus : Nat) (v : Word)
  | rdXaddr (bus : Nat)
  | wrXaddr (bus : Nat) (v : Word)
  | rdData (bus : Nat)
  | wrData (bus : Nat) (v : Word)
  | rdCntr (bus : Nat)
  | wrCntr (bus : Nat) (v : Word)
  | rdStat (bus : Nat)
  | wrStat (bus : Nat) (v : Word)
  | rdCcr (bus : Nat)
  | wrCcr (bus : Nat) (v : Word)
  | rdSrst (bus : Nat)
  | wrSrst (bus : Nat) (v : Word)
  | rdEfr (bus : Nat)
  | wrEfr (bus : Nat) (v : Word)
  | rdLcr (bus : Nat)
  | wrLcr (bus : Nat) (v : Word)
  | sendStart (bus : Nat)
  | sendStop (bus : Nat)
  | sendData (bus : Nat) (value : Nat)
  | readData (bus : Nat)
  | clearIf (bus : Nat)
  | isBusy (bus : Nat)
  | setAck (bus : Nat)
  | clrAck (bus : Nat)
  | waitStatus (bus : Nat) (budget : Nat)
  | waitIdle (bus : Nat) (budget : Nat)
  | configureClock (bus : Nat) (hz : Nat)
  | masterWrite (bus : Nat) (chip : Nat) (sub : Nat) (bytes : List Nat)
  | masterRead (bus : Nat) (chip : Nat) (sub : Nat) (n : Nat)
  | deviceWrite (bus : Nat) (chip : Nat) (sub : Nat) (value : Nat)
  | deviceRead (bus : Nat) (chip : Nat) (sub : Nat)
  | init (bus : Nat) (hz : Nat) (own : Option Nat)
  deriving DecidableEq, Repr

end Sys2Proof
end

