-- ==== Sys2Proof/WellFormed.lean ====
section
/-! DEFINITION. The operand ranges of 30_encoding.md rule R82, and what the parameters of 00_scope.md rule R6 must satisfy. A
request outside its ranges is still an instruction: it ends in `Fail(Invalid)` (45_transactions.md rule R230) or is refused
for its instance (20_memory.md rule R61). -/

namespace Sys2Proof

/-- A chip or own address: 7 bits. -/
def chipInRange (a : Nat) : Bool := decide (a ≤ 0x7F)

/-- A sub-address, command, payload or value byte: 8 bits. -/
def byteInRange (b : Nat) : Bool := decide (b ≤ 0xFF)

/-- An optional own address: `none` or 7 bits. -/
def ownInRange : Option Nat → Bool
  | none => true
  | some a => chipInRange a

/-- The instance an instruction names. -/
def Instr.bus : Instr → Nat
  | .rdAddr b => b
  | .wrAddr b _ => b
  | .rdXaddr b => b
  | .wrXaddr b _ => b
  | .rdData b => b
  | .wrData b _ => b
  | .rdCntr b => b
  | .wrCntr b _ => b
  | .rdStat b => b
  | .wrStat b _ => b
  | .rdCcr b => b
  | .wrCcr b _ => b
  | .rdSrst b => b
  | .wrSrst b _ => b
  | .rdEfr b => b
  | .wrEfr b _ => b
  | .rdLcr b => b
  | .wrLcr b _ => b
  | .sendStart b => b
  | .sendStop b => b
  | .sendData b _ => b
  | .readData b => b
  | .clearIf b => b
  | .isBusy b => b
  | .setAck b => b
  | .clrAck b => b
  | .waitStatus b _ => b
  | .waitIdle b _ => b
  | .configureClock b _ => b
  | .masterWrite b _ _ _ => b
  | .masterRead b _ _ _ => b
  | .deviceWrite b _ _ _ => b
  | .deviceRead b _ _ => b
  | .init b _ _ => b

/-- The operands other than the instance are in their ranges, for a largest payload of `nMax` (rules R82, R230). -/
def Instr.operandsInRange (nMax : Nat) : Instr → Bool
  | .rdAddr _ => true
  | .wrAddr _ _ => true
  | .rdXaddr _ => true
  | .wrXaddr _ _ => true
  | .rdData _ => true
  | .wrData _ _ => true
  | .rdCntr _ => true
  | .wrCntr _ _ => true
  | .rdStat _ => true
  | .wrStat _ _ => true
  | .rdCcr _ => true
  | .wrCcr _ _ => true
  | .rdSrst _ => true
  | .wrSrst _ _ => true
  | .rdEfr _ => true
  | .wrEfr _ _ => true
  | .rdLcr _ => true
  | .wrLcr _ _ => true
  | .sendStart _ => true
  | .sendStop _ => true
  | .sendData _ value => byteInRange value
  | .readData _ => true
  | .clearIf _ => true
  | .isBusy _ => true
  | .setAck _ => true
  | .clrAck _ => true
  | .waitStatus _ _ => true
  | .waitIdle _ _ => true
  | .configureClock _ hz => decide (0 < hz)
  | .masterWrite _ chip sub bytes =>
      chipInRange chip && byteInRange sub && bytes.all byteInRange && decide (bytes.length ≤ nMax)
  | .masterRead _ chip sub n => chipInRange chip && byteInRange sub && decide (0 < n) && decide (n ≤ nMax)
  | .deviceWrite _ chip sub value => chipInRange chip && byteInRange sub && byteInRange value
  | .deviceRead _ chip sub => chipInRange chip && byteInRange sub
  | .init _ hz own => decide (0 < hz) && ownInRange own

/-- An instruction is well formed for `nBus` instances and a largest payload of `nMax`: its instance exists and its
operands are in range (rules R61, R82). -/
def Instr.wellFormed (nBus nMax : Nat) (i : Instr) : Bool :=
  decide (i.bus < nBus) && i.operandsInRange nMax

/-- The nine offsets, in the order of 20_memory.md rule R62. -/
def Offsets.all (o : Offsets) : List Nat := [o.addr, o.xaddr, o.data, o.cntr, o.stat, o.ccr, o.srst, o.efr, o.lcr]

/-- The 31 code values, in the order of the table of 30_encoding.md rule R88; IDLE is the source's 0xF8. -/
def Codes.all (k : Codes) : List Byte :=
  [k.busError, k.txStart, k.txRstart, k.txAwAck, k.txAwNak, k.mTxdAck, k.mTxdNak, k.arbLost] ++
  [k.txArAck, k.txArNak, k.mRxdAck, k.mRxdNak, k.sAwAck, k.sArbAwAck, k.sGcAck, k.sArbGcAck] ++
  [k.sRxdAck, k.sRxdNak, k.sGcdAck, k.sGcdNak, k.sStop, k.sArAck, k.sArbArAck, k.sTxdAck] ++
  [k.sTxdNak, k.sLtxdAck, k.tx2AwAck, k.tx2AwNak, k.tx2ArAck, k.tx2ArNak, 0xF8#8]

/-- The one-bit fields of CNTR. -/
def Positions.cntr (l : Positions) : List Nat := [l.intEn, l.busEn, l.mSta, l.mStp, l.iflg, l.aAck]

/-- The one-bit fields of LCR. -/
def Positions.lcr (l : Positions) : List Nat := [l.sdaCtlEn, l.sdaCtl, l.sclCtlEn, l.sclCtl, l.sdaState, l.sclState]

/-- A field lies inside its 32-bit register. -/
abbrev Field.fits (f : Field) : Prop := f.lo + f.width ≤ 32

/-- The offsets name nine different aligned places an access word can name (20_memory.md rules R62, R63, rule R80). -/
abbrev Offsets.wf (o : Offsets) : Prop := o.all.Nodup ∧ ∀ x ∈ o.all, x % 4 = 0 ∧ x < 256

/-- Every field lies inside its register and no two of one register overlap (rule R83). -/
abbrev Positions.wf (l : Positions) : Prop :=
  (l.sla + 7 ≤ 32 ∧ l.gce < 32 ∧ (l.gce < l.sla ∨ l.sla + 7 ≤ l.gce)) ∧
  l.slax.fits ∧ l.data + 8 ≤ 32 ∧
  (l.cntr.Nodup ∧ ∀ b ∈ l.cntr, b < 32) ∧
  l.sta + 8 ≤ 32 ∧
  (l.clkM.fits ∧ l.clkN.fits ∧ (l.clkM.lo + l.clkM.width ≤ l.clkN.lo ∨ l.clkN.lo + l.clkN.width ≤ l.clkM.lo)) ∧
  l.softRst < 32 ∧ l.dbn.fits ∧
  (l.lcr.Nodup ∧ ∀ b ∈ l.lcr, b < 32)

/-- The windows of the instances do not meet and lie inside the address space (20_memory.md rule R60). -/
abbrev Params.windowsOk (p : Params) : Prop :=
  p.bases.Pairwise (fun a b => a + p.blockSize ≤ b ∨ b + p.blockSize ≤ a) ∧
  (∀ b ∈ p.bases, b + p.blockSize ≤ 2 ^ p.addrBits) ∧ (∀ x ∈ p.off.all, x + 4 ≤ p.blockSize)

/-- The parameters describe a controller: offsets, positions and windows as above, the code values distinct (rule R88), and
`N_MAX` at least 1 (rule R6). -/
abbrev Params.wf (p : Params) : Prop := p.off.wf ∧ p.pos.wf ∧ p.codes.all.Nodup ∧ p.windowsOk ∧ 1 ≤ p.nMax

end Sys2Proof
end

