-- ==== Sys2Proof/Decode.lean ====
section
/-! DEFINITION. The decoder and, after it, the encoder: access words (30_encoding.md rules R80, R81, R90) and sequencer
requests, which are terms selected by name (rule R82). Decoding is total and rejects by name. -/

namespace Sys2Proof

/-- Why a term is no instruction. -/
inductive DecodeError where
  /-- `OFF` is not one of the nine offsets (rule R81) -/
  | unmappedOffset
  /-- a read word with non-zero bits 31:0 (rule R81) -/
  | readWithData
  /-- not six bytes, or a bit above bit 40 is set: there is no such access word (rule R92, log entry 11) -/
  | notAnAccessWord
  /-- the operands are not those of the operation (rule R82, log entry 12) -/
  | wrongOperands
  deriving DecidableEq, Repr

/-- The byte offset of each register (20_memory.md rule R62). -/
def Reg.offset (o : Offsets) : Reg → Nat
  | .addr => o.addr
  | .xaddr => o.xaddr
  | .data => o.data
  | .cntr => o.cntr
  | .stat => o.stat
  | .ccr => o.ccr
  | .srst => o.srst
  | .efr => o.efr
  | .lcr => o.lcr

/-- The register at a byte offset, `none` where none is mapped. -/
def regAt (o : Offsets) (off : Nat) : Option Reg :=
  [Reg.addr, .xaddr, .data, .cntr, .stat, .ccr, .srst, .efr, .lcr].find? fun r => r.offset o == off

/-- The read access of a register: the rows `RD_<REG>`. -/
def readOf (r : Reg) (bus : Nat) : Instr :=
  match r with
  | .addr => .rdAddr bus
  | .xaddr => .rdXaddr bus
  | .data => .rdData bus
  | .cntr => .rdCntr bus
  | .stat => .rdStat bus
  | .ccr => .rdCcr bus
  | .srst => .rdSrst bus
  | .efr => .rdEfr bus
  | .lcr => .rdLcr bus

/-- The write access of a register: the rows `WR_<REG>`. -/
def writeOf (r : Reg) (bus : Nat) (v : Word) : Instr :=
  match r with
  | .addr => .wrAddr bus v
  | .xaddr => .wrXaddr bus v
  | .data => .wrData bus v
  | .cntr => .wrCntr bus v
  | .stat => .wrStat bus v
  | .ccr => .wrCcr bus v
  | .srst => .wrSrst bus v
  | .efr => .wrEfr bus v
  | .lcr => .wrLcr bus v

/-- Decoding an access word issued to instance `bus` (rules R80 and R81): `W` is bit 40, `OFF` bits 39:32, `D` bits 31:0. -/
def decodeWord (o : Offsets) (bus : Nat) (w : AccessWord) : Except DecodeError Instr :=
  match regAt o (w.extractLsb' 32 8).toNat with
  | none => .error .unmappedOffset
  | some r =>
      if w.getLsbD 40 then .ok (writeOf r bus (w.extractLsb' 0 32))
      else if w.extractLsb' 0 32 = 0#32 then .ok (readOf r bus)
      else .error .readWithData

/-- The 48 bits of six bytes, the first byte lowest (log entry 11). -/
def bits48 (b0 b1 b2 b3 b4 b5 : Byte) : BitVec 48 := b5 ++ b4 ++ b3 ++ b2 ++ b1 ++ b0

/-- The access word held in a list of bytes: six bytes, bits 47:41 zero. -/
def wordOfBytes : List Byte → Option AccessWord
  | [b0, b1, b2, b3, b4, b5] =>
      if (bits48 b0 b1 b2 b3 b4 b5).extractLsb' 41 7 = 0#7 then some ((bits48 b0 b1 b2 b3 b4 b5).extractLsb' 0 41)
      else none
  | _ => none

/-- Decoding the bytes of an access issued to instance `bus`, on any bytes. -/
def decodeBytes (o : Offsets) (bus : Nat) (bs : List Byte) : Except DecodeError Instr :=
  match wordOfBytes bs with
  | none => .error .notAnAccessWord
  | some w => decodeWord o bus w

/-- Decoding a request: the operation is selected by name and takes exactly its operand fields, in the order of the
table (rule R82). Ranges are not checked here (rule R230). -/
def decodeRequest (op : SeqOp) (operands : List Operand) : Except DecodeError Instr :=
  match op with
  | .sendStart => match operands with
    | [.bus b] => .ok (.sendStart b)
    | _ => .error .wrongOperands
  | .sendStop => match operands with
    | [.bus b] => .ok (.sendStop b)
    | _ => .error .wrongOperands
  | .sendData => match operands with
    | [.bus b, .value v] => .ok (.sendData b v)
    | _ => .error .wrongOperands
  | .readData => match operands with
    | [.bus b] => .ok (.readData b)
    | _ => .error .wrongOperands
  | .clearIf => match operands with
    | [.bus b] => .ok (.clearIf b)
    | _ => .error .wrongOperands
  | .isBusy => match operands with
    | [.bus b] => .ok (.isBusy b)
    | _ => .error .wrongOperands
  | .setAck => match operands with
    | [.bus b] => .ok (.setAck b)
    | _ => .error .wrongOperands
  | .clrAck => match operands with
    | [.bus b] => .ok (.clrAck b)
    | _ => .error .wrongOperands
  | .waitStatus => match operands with
    | [.bus b, .budget k] => .ok (.waitStatus b k)
    | _ => .error .wrongOperands
  | .waitIdle => match operands with
    | [.bus b, .budget k] => .ok (.waitIdle b k)
    | _ => .error .wrongOperands
  | .configureClock => match operands with
    | [.bus b, .hz f] => .ok (.configureClock b f)
    | _ => .error .wrongOperands
  | .masterWrite => match operands with
    | [.bus b, .chip a, .sub u, .bytes bs] => .ok (.masterWrite b a u bs)
    | _ => .error .wrongOperands
  | .masterRead => match operands with
    | [.bus b, .chip a, .sub u, .n k] => .ok (.masterRead b a u k)
    | _ => .error .wrongOperands
  | .deviceWrite => match operands with
    | [.bus b, .chip a, .sub u, .value v] => .ok (.deviceWrite b a u v)
    | _ => .error .wrongOperands
  | .deviceRead => match operands with
    | [.bus b, .chip a, .sub u] => .ok (.deviceRead b a u)
    | _ => .error .wrongOperands
  | .init => match operands with
    | [.bus b, .hz f, .own o] => .ok (.init b f o)
    | _ => .error .wrongOperands

/-- Decoding a term. -/
def decode (o : Offsets) : Term → Except DecodeError Instr
  | .word bus bs => decodeBytes o bus bs
  | .request op operands => decodeRequest op operands

/-- The access word `W ++ OFF ++ D` (rule R80). -/
def accessWord (o : Offsets) (write : Bool) (r : Reg) (d : Word) : AccessWord :=
  BitVec.ofBool write ++ BitVec.ofNat 8 (r.offset o) ++ d

/-- The six bytes of an access word, the lowest first. -/
def bytesOfWord (w : AccessWord) : List Byte :=
  [w.extractLsb' 0 8, w.extractLsb' 8 8, w.extractLsb' 16 8, w.extractLsb' 24 8, w.extractLsb' 32 8,
   (w.extractLsb' 40 1).setWidth 8]

/-- The term of a read access: a read carries `D = 0` (rule R81). -/
def readTerm (o : Offsets) (r : Reg) (bus : Nat) : Term := .word bus (bytesOfWord (accessWord o false r 0#32))

/-- The term of a write access of `v`. -/
def writeTerm (o : Offsets) (r : Reg) (bus : Nat) (v : Word) : Term :=
  .word bus (bytesOfWord (accessWord o true r v))

/-- The encoder: the term each instruction is written as (rules R80, R82). -/
def encode (o : Offsets) : Instr → Term
  | .rdAddr b => readTerm o .addr b
  | .wrAddr b v => writeTerm o .addr b v
  | .rdXaddr b => readTerm o .xaddr b
  | .wrXaddr b v => writeTerm o .xaddr b v
  | .rdData b => readTerm o .data b
  | .wrData b v => writeTerm o .data b v
  | .rdCntr b => readTerm o .cntr b
  | .wrCntr b v => writeTerm o .cntr b v
  | .rdStat b => readTerm o .stat b
  | .wrStat b v => writeTerm o .stat b v
  | .rdCcr b => readTerm o .ccr b
  | .wrCcr b v => writeTerm o .ccr b v
  | .rdSrst b => readTerm o .srst b
  | .wrSrst b v => writeTerm o .srst b v
  | .rdEfr b => readTerm o .efr b
  | .wrEfr b v => writeTerm o .efr b v
  | .rdLcr b => readTerm o .lcr b
  | .wrLcr b v => writeTerm o .lcr b v
  | .sendStart b => .request .sendStart [.bus b]
  | .sendStop b => .request .sendStop [.bus b]
  | .sendData b v => .request .sendData [.bus b, .value v]
  | .readData b => .request .readData [.bus b]
  | .clearIf b => .request .clearIf [.bus b]
  | .isBusy b => .request .isBusy [.bus b]
  | .setAck b => .request .setAck [.bus b]
  | .clrAck b => .request .clrAck [.bus b]
  | .waitStatus b k => .request .waitStatus [.bus b, .budget k]
  | .waitIdle b k => .request .waitIdle [.bus b, .budget k]
  | .configureClock b f => .request .configureClock [.bus b, .hz f]
  | .masterWrite b a u bs => .request .masterWrite [.bus b, .chip a, .sub u, .bytes bs]
  | .masterRead b a u k => .request .masterRead [.bus b, .chip a, .sub u, .n k]
  | .deviceWrite b a u v => .request .deviceWrite [.bus b, .chip a, .sub u, .value v]
  | .deviceRead b a u => .request .deviceRead [.bus b, .chip a, .sub u]
  | .init b f o => .request .init [.bus b, .hz f, .own o]

/-- The six bytes whose bits, counted from the first byte's bit 0, are those of the number `w` below bit `nbits`, and
zero above. -/
def tableBytes (nbits w : Nat) : List Byte :=
  let v := BitVec.ofNat 48 (w % 2 ^ nbits)
  [v.extractLsb' 0 8, v.extractLsb' 8 8, v.extractLsb' 16 8, v.extractLsb' 24 8, v.extractLsb' 32 8,
   v.extractLsb' 40 8]

/-- The instruction the decoder reads from an access word given as opcode_table.json numbers its bits; the word itself
names no instance, so it is read as issued to instance 0, and the table's words hold the default offsets. -/
def decodeTableWord (nbits w : Nat) : Option Instr :=
  match decodeBytes Config.offsets 0 (tableBytes nbits w) with
  | .ok i => some i
  | .error _ => none

end Sys2Proof
end

