-- ==== Sys2Proof/Machine/Layout.lean ====
section
/-! DEFINITION. Bits and fields of a 32-bit register value at places that are parameters (30_encoding.md rule R83, 00_scope.md
rule R9). -/

namespace Sys2Proof.Machine

/-- The value with bit `p` alone (the masks of rule R84); 0 where a register has no such bit. -/
def bitMask (p : Nat) : Word := BitVec.twoPow 32 p

/-- The one-bit field `b` at bit `p`. -/
def putBit (p : Nat) (b : Bool) : Word := if b then bitMask p else 0#32

/-- The byte at bits `lo+7:lo`. -/
def getByte (lo : Nat) (v : Word) : Byte := v.extractLsb' lo 8

/-- The byte `b` at bits `lo+7:lo`. -/
def putByte (lo : Nat) (b : Byte) : Word := b.setWidth 32 <<< lo

/-- The 7-bit value at bits `lo+6:lo`. -/
def getSeven (lo : Nat) (v : Word) : BitVec 7 := v.extractLsb' lo 7

/-- The 7-bit value `a` at bits `lo+6:lo`. -/
def putSeven (lo : Nat) (a : BitVec 7) : Word := a.setWidth 32 <<< lo

/-- `width` ones. -/
def onesMask (width : Nat) : Word := BitVec.ofNat 32 (2 ^ width - 1)

/-- The value of a field in a register value, zero-extended. -/
def getField (f : Field) (v : Word) : Word := (v >>> f.lo) &&& onesMask f.width

/-- A field holding `x`, cut to the field's width, in a register value that is 0 elsewhere. -/
def putField (f : Field) (x : Word) : Word := (x &&& onesMask f.width) <<< f.lo

end Sys2Proof.Machine
end

