-- ==== Sys2Proof/Machine/State.lean ====
section
/-! DEFINITION. The state of the machine as plain data: N instances of the controller core with their sequencers
(10_state.md), what the host has still to issue, the schedule, and the reset state (10_state.md section 5). -/

namespace Sys2Proof.Machine

/-- The closed enumeration of status codes (30_encoding.md rule R88, log entry 19); their values are parameters
(`statusCode` in Machine/Flags.lean). -/
inductive Status where
  | busError | txStart | txRstart | txAwAck | txAwNak | mTxdAck | mTxdNak | arbLost | txArAck | txArNak
  | mRxdAck | mRxdNak | sAwAck | sArbAwAck | sGcAck | sArbGcAck | sRxdAck | sRxdNak | sGcdAck | sGcdNak
  | sStop | sArAck | sArbArAck | sTxdAck | sTxdNak | sLtxdAck | tx2AwAck | tx2AwNak | tx2ArAck | tx2ArNak
  | idle
  deriving DecidableEq, Repr

/-- A bus operation the engine has been asked to carry out (41_bus_engine.md rule R141). -/
inductive Action where
  | start | rstart | stopStart | arbStart
  | txAddr (b : Byte)
  | txData (b : Byte)
  | rxData | stop | release | berrRelease
  deriving DecidableEq, Repr

/-- The controller core of one instance: its registers field by field (10_state.md rules R21 to R29) and its hidden
engine state (rules R30 to R34). `SRST.SOFT_RST` is `rstPending`; the line levels of LCR have no storage. A field whose width
is a parameter (SLAX, CLK_M, CLK_N, DBN) is held as a number of 32 bits. -/
structure CoreState where
  sla        : BitVec 7
  gce        : Bool
  slax       : Word
  data       : Byte
  intEn      : Bool
  busEn      : Bool
  mSta       : Bool
  mStp       : Bool
  iflg       : Bool
  aAck       : Bool
  sta        : Status
  clkM       : Word
  clkN       : Word
  dbn        : Word
  sdaCtlEn   : Bool
  sdaCtl     : Bool
  sclCtlEn   : Bool
  sclCtl     : Bool
  act        : Option Action
  rstPending : Bool
  ackTrig    : Bool
  deriving DecidableEq, Repr

/-- Why a request failed (00_scope.md rule R11). -/
inductive FailKind where
  | busy | timeout | mismatch | invalid
  deriving DecidableEq, Repr

/-- How a sequencer operation ends (rule R11). -/
inductive Result where
  | ok (count : Nat) (bytes : List Byte)
  | fail (kind : FailKind) (status : Byte)
  deriving DecidableEq, Repr

/-- The inline result `w` of the status waiter (44_status_waiter.md rule R210). -/
structure WaitResult where
  timedOut : Bool
  status   : Byte
  deriving DecidableEq, Repr

/-- Where in its program a request stands: the outer label (45_transactions.md). `t1` to `t7` are shared by the four
transactions, `w…` belong to MASTER_WRITE, `r…` to MASTER_READ, `d…` are the primed labels of DEVICE_READ, `n…` belong to
INIT, `abort` is the SEND_STOP of ABORT, and `alone` is a primitive or wait run as a request of its own. -/
inductive Place where
  | alone | abort
  | t1 | t2 | t3 | t4 | t5 | t6 | t7
  | w8 | w9 | w10 | w11
  | r8 | r9 | r10 | r11 | r12 | r13 | r14 | r15 | r16 | r17 | r18 | r19 | r20 | r21
  | d14 | d15 | d16 | d21
  | n1 | n2 | n3 | n4 | n5 | n6
  deriving DecidableEq, Repr

/-- The step inside the place: the labels of the primitives (43_primitives.md), the waiters (44_status_waiter.md), the
clock configurator, and the single steps of the transaction programs. -/
inductive Micro where
  | start1 | start2 | start3 | start4
  | stop1 | stop2
  | data1 | data2 | data3
  | read1 | read2 | read3
  | clear1 | clear2
  | busy1
  | setAck1 | setAck2
  | clrAck1 | clrAck2
  | wait1 | wait2 | wait3
  | idle1
  | clock1
  | test | fetch
  | enable1 | enable2 | softReset | poll | own
  deriving DecidableEq, Repr

/-- A value of `pc` (10_state.md rule R41). -/
structure Label where
  place : Place
  micro : Micro
  deriving DecidableEq, Repr

/-- The sequencer's phase (rule R42). `pc` exists only while a request runs. -/
inductive Phase where
  | ready
  | running (pc : Label)
  | done
  deriving DecidableEq, Repr

/-- The sequencer's registers (rule R40), and the locals of its programs that rule R40 does not list: `d`, `w`, the budget, `own`,
`nv` of the clock configurator, `r` of INIT, and `bound`, the local an inline primitive's result is bound to (log entries 9 and 26). -/
structure Seq where
  phase  : Phase
  op     : Option SeqOp
  chip   : BitVec 7
  sub    : Byte
  n      : Nat
  wbuf   : List Byte
  rbuf   : List (Option Byte)
  i      : Nat
  k      : Nat
  c      : Word
  s      : Byte
  exp    : Byte
  hz     : Nat
  m      : Nat
  res    : Option Result
  d      : Word
  w      : WaitResult
  budget : Nat
  own    : Option (BitVec 7)
  nv     : Nat
  r      : Word
  bound  : Option Result
  deriving DecidableEq, Repr

/-- An entry of the event history (20_memory.md rule R68): an access with the value read or written; and, so that the
bus trace (45_transactions.md rule R238) can be read off it, triggers, completions and results taken (log entry 7). -/
inductive Event where
  | read (r : Reg) (v : Word)
  | write (r : Reg) (v : Word)
  | trigger (a : Action)
  | complete (a : Action) (st : Status)
  | resetDone
  | taken (r : Result)
  deriving DecidableEq, Repr

/-- One bus instance: core, sequencer, event history (oldest first), and the Bus oracle as the model holds it: the draws
given as data, and past them a counter into the free value `Config.busDraw` (log entry 3). `stranded` says that a transaction
which ended in a timeout left the action now in flight (45_transactions.md rule R237, log entry 25). -/
structure Inst where
  core     : CoreState
  seq      : Seq
  history  : List Event
  script   : List Draw
  drawn    : Nat
  stranded : Bool
  deriving DecidableEq, Repr

/-- What the host may issue (log entry 4). -/
inductive HostCmd where
  /-- an access word, or a sequencer request -/
  | instr (t : Term)
  /-- a raw access on the register port: width in bits, byte offset, the value of a write (40_register_access.md rule R110) -/
  | port (bus width off : Nat) (value : Option Word)
  /-- MemRead or MemWrite: an absolute byte address, a length in bytes (00_scope.md rule R10) -/
  | mem (addr len : Nat) (value : Option Word)
  /-- taking the posted result of an instance (45_transactions.md rule R230) -/
  | take (bus : Nat)
  deriving DecidableEq, Repr

/-- Who makes a step (00_scope.md rule R8, 41_bus_engine.md rule R159). -/
inductive Agent where
  /-- the host issues its next command -/
  | host
  /-- the sequencer of an instance makes its next labelled step -/
  | seq (bus : Nat)
  /-- the engine of an instance completes the action in flight -/
  | eng (bus : Nat)
  /-- the engine of an instance completes a soft reset -/
  | reset (bus : Nat)
  /-- another master addresses the instance as a slave -/
  | slave (bus : Nat)
  /-- nobody: no enabled step is forced to happen -/
  | wait
  deriving DecidableEq, Repr

/-- Why the machine stops for good because the source gives the event no meaning (60_exceptions.md rule R262). All are
safe: the model stops where the hardware would go on. -/
inductive Fault where
  /-- safe; a clear write with M_STA latched while paused after a START, before any byte (rule R142) -/
  | startWithoutByte
  /-- safe; a plain clear write while paused after a NAKed receive or a NAKed read address (rule R142) -/
  | releaseAfterNak
  /-- safe; a clear write with M_STA latched while paused in BUS_ERROR (rule R142) -/
  | startInBusError
  /-- safe; a plain clear write while paused in BUS_ERROR (rule R142) -/
  | releaseInBusError
  /-- safe; a new START or STOP request while an action is in flight (rule R153) -/
  | requestInFlight
  /-- safe; a DATA write while an action is in flight (rule R116) -/
  | writeDataInFlight
  /-- safe; a write other than to STAT while a soft reset is pending (rule R110) -/
  | writeDuringReset
  /-- safe; the sequencer uses a buffer entry nothing has written (rules R40, R262) -/
  | unwrittenBuffer
  /-- safe; a clear write while paused in a status the trigger table has no row for, which rule R36 excludes (log entry 14) -/
  | noTriggerRow
  deriving DecidableEq, Repr

/-- Why an event is outside what the spec admits (rule R262). All are safe: the model stops. -/
inductive Refusal where
  /-- safe; an instruction that has no meaning yet, rejected in exec's arm -/
  | notModelled (mnemonic : String)
  /-- safe; an engine step that would enter a slave status (rule R151) -/
  | slaveMode
  /-- safe; a trigger with BUS_EN = 0 (rule R152) -/
  | busDisabled
  /-- safe; a trigger with EFR.DBN not 0 (rule R152) -/
  | extFeature
  /-- safe; a trigger with SDA or SCL under direct control (rule R152) -/
  | lineControl
  /-- safe; BUS_EN cleared while an action is in flight (rule R153) -/
  | busDisableInFlight
  /-- safe; an instance index out of range (rules R61, R110, R230) -/
  | badInstance
  /-- safe; an access that is not 32 bits wide (rule R63) -/
  | badWidth
  /-- safe; an access at an offset that is no multiple of 4 (rule R63) -/
  | misaligned
  /-- safe; an access at an offset that is not mapped (rules R62, R81) -/
  | unmappedOffset
  /-- safe; a request while another is running or its result is not taken (rule R265) -/
  | concurrentRequest
  /-- safe; a direct access while the sequencer owns the port (rule R265) -/
  | portContention
  /-- safe; an access word no row of the table matches although its offset is mapped, which rules R81 and R91 call malformed.
  They give the refusal no name and rule R262 lists none: this name is the model's own (log entry 22) -/
  | malformedWord
  /-- safe; a request whose operands are not those of its operation (rule R82): the model's own name (log entry 12) -/
  | malformedRequest
  /-- safe; an address in no instance's register window (rule R60): the model's own name (log entry 13) -/
  | unmappedAddress
  deriving DecidableEq, Repr

/-- The whole machine. -/
structure State where
  /-- the parameters, which no step changes -/
  params  : Params
  /-- the instances; their number is N_BUS -/
  insts   : List Inst
  /-- what the host issues, oldest first -/
  inbox   : List HostCmd
  /-- who moves next, as data; when it is empty the choice is free (log entry 2) -/
  sched   : List Agent
  /-- how many free choices of the agent have been made -/
  tick    : Nat
  /-- the fault reasons of the model (10_state.md rule R35, log entry 6) -/
  faulted : List Fault
  /-- the refusal reasons of the model (rule R35, log entry 6) -/
  refused : List Refusal
  deriving DecidableEq, Repr

/-- What an operation on a part of the state answers: the part after it, a fault or a refusal. -/
abbrev Out (α : Type) := Host.Outcome α Fault Refusal

/-- First `o`, then `f` on what it answers; a fault or a refusal ends it. -/
def Out.bind {α β : Type} (o : Out α) (f : α → Out β) : Out β :=
  match o with
  | .next a => f a
  | .fault r => .fault r
  | .refused r => .refused r

/-- The core after power-on reset (10_state.md rule R43) with the parameters `p`: the registers of `p.resets`, CNTR 0, STAT
IDLE, no action, no reset pending. -/
def CoreState.powerOn (p : Params) : CoreState where
  sla        := getSeven p.pos.sla p.resets.addr
  gce        := p.resets.addr.getLsbD p.pos.gce
  slax       := getField p.pos.slax p.resets.xaddr
  data       := getByte p.pos.data p.resets.data
  intEn      := false
  busEn      := false
  mSta       := false
  mStp       := false
  iflg       := false
  aAck       := false
  sta        := .idle
  clkM       := getField p.pos.clkM p.resets.ccr
  clkN       := getField p.pos.clkN p.resets.ccr
  dbn        := getField p.pos.dbn p.resets.efr
  sdaCtlEn   := p.resets.lcr.getLsbD p.pos.sdaCtlEn
  sdaCtl     := p.resets.lcr.getLsbD p.pos.sdaCtl
  sclCtlEn   := p.resets.lcr.getLsbD p.pos.sclCtlEn
  sclCtl     := p.resets.lcr.getLsbD p.pos.sclCtl
  act        := none
  rstPending := false
  ackTrig    := false

/-- The sequencer in phase Ready with every register unwritten (rules R40, R44); the zeros are the model's (log entry 8). -/
def Seq.unwritten : Seq where
  phase  := .ready
  op     := none
  chip   := 0#7
  sub    := 0#8
  n      := 0
  wbuf   := []
  rbuf   := []
  i      := 0
  k      := 0
  c      := 0#32
  s      := 0#8
  exp    := 0#8
  hz     := 0
  m      := 0
  res    := none
  d      := 0#32
  w      := ⟨false, 0#8⟩
  budget := 0
  own    := none
  nv     := 0
  r      := 0#32
  bound  := none

/-- An instance after power-on reset. -/
def Inst.powerOn (p : Params) : Inst where
  core     := CoreState.powerOn p
  seq      := Seq.unwritten
  history  := []
  script   := []
  drawn    := 0
  stranded := false

/-- A machine of `n` instances with the parameters `p` after power-on reset (70_reset_and_hazards.md rule R290). The host has
issued nothing. -/
def State.powerOn (p : Params) (n : Nat) : State where
  params  := p
  insts   := List.replicate n (Inst.powerOn p)
  inbox   := []
  sched   := []
  tick    := 0
  faulted := []
  refused := []

/-- The machine after power-on reset with the parameters at their defaults (00_scope.md rule R6). -/
def State.reset : State := State.powerOn Config.defaults Config.nBus

end Sys2Proof.Machine
end

