-- ==== Sys2Proof/Machine/Operands.lean ====
section
/-! DEFINITION. The operand forms: the clear and keep forms of a CNTR value, the address byte, the CCR
value and the divider (30_encoding.md rules R85 to R87, 42_clock.md rule R180), and the reduction of a request's numbers
to the widths of the sequencer's registers. -/

namespace Sys2Proof.Machine

/-- `clr(c)`, the value that makes a clear write (rule R85). -/
def clrForm (p : Params) (c : Word) : Word :=
  if p.iflgW1c then c ||| bitMask p.pos.iflg else c &&& ~~~bitMask p.pos.iflg

/-- `keep(c)`, the value that must not clear the flag (rule R85). -/
def keepForm (p : Params) (c : Word) : Word := if p.iflgW1c then c &&& ~~~bitMask p.pos.iflg else c

/-- `addr_byte(chip, rw)` (rule R86). -/
def addrByte (chip : BitVec 7) (read : Bool) : Byte := chip ++ BitVec.ofBool read

/-- `ccr_val(m, nv)` (rule R87): M is cut to the width of CLK_M, N to that of CLK_N. -/
def ccrVal (l : Positions) (m nv : Nat) : Word :=
  putField l.clkM (BitVec.ofNat 32 m) ||| putField l.clkN (BitVec.ofNat 32 nv)

/-- The computed divider `(F_IN >> PREDIV_SHIFT) / hz` (42_clock.md rule R180). -/
def divider (p : Params) (hz : Nat) : Nat := (p.fIn >>> p.predivShift) / hz

/-- The value INIT writes to ADDR: `own << 1`, the own address as SLA with GCE 0 (45_transactions.md rule R235). -/
def ownWord (l : Positions) (a : BitVec 7) : Word := putSeven l.sla a

/-- A chip address operand in the 7-bit register (10_state.md rule R40). -/
def chipReg (a : Nat) : BitVec 7 := BitVec.ofNat 7 a

/-- A byte operand in an 8-bit register. -/
def byteReg (b : Nat) : Byte := BitVec.ofNat 8 b

/-- An optional own address in its register. -/
def ownReg : Option Nat → Option (BitVec 7)
  | none => none
  | some a => some (chipReg a)

/-- A chip address operand is valid: 7 bits (45_transactions.md rule R230). -/
def validChip (a : Nat) : Bool := decide (a ≤ 0x7F)

/-- A byte operand is valid: 8 bits (rule R230). -/
def validByte (b : Nat) : Bool := decide (b ≤ 0xFF)

/-- An own-address operand is valid: `none` or 7 bits (rule R230). -/
def validOwn : Option Nat → Bool
  | none => true
  | some a => validChip a

end Sys2Proof.Machine
end

