-- ==== Sys2Proof/Machine/Flags.lean ====
section
/-! DEFINITION. The flags: the status codes and their sets (30_encoding.md rules R88, R89), INT_FLAG and the clear write
(10_state.md rule R30), the latched requests (rule R32), the trigger table (41_bus_engine.md rule R142), and the interrupt
line (rule R38). -/

namespace Sys2Proof.Machine

/-- The value of each status code (rule R88): a parameter, but for IDLE, whose 0xF8 is the source's. -/
def statusCode (p : Params) : Status → Byte
  | .busError => p.codes.busError
  | .txStart => p.codes.txStart
  | .txRstart => p.codes.txRstart
  | .txAwAck => p.codes.txAwAck
  | .txAwNak => p.codes.txAwNak
  | .mTxdAck => p.codes.mTxdAck
  | .mTxdNak => p.codes.mTxdNak
  | .arbLost => p.codes.arbLost
  | .txArAck => p.codes.txArAck
  | .txArNak => p.codes.txArNak
  | .mRxdAck => p.codes.mRxdAck
  | .mRxdNak => p.codes.mRxdNak
  | .sAwAck => p.codes.sAwAck
  | .sArbAwAck => p.codes.sArbAwAck
  | .sGcAck => p.codes.sGcAck
  | .sArbGcAck => p.codes.sArbGcAck
  | .sRxdAck => p.codes.sRxdAck
  | .sRxdNak => p.codes.sRxdNak
  | .sGcdAck => p.codes.sGcdAck
  | .sGcdNak => p.codes.sGcdNak
  | .sStop => p.codes.sStop
  | .sArAck => p.codes.sArAck
  | .sArbArAck => p.codes.sArbArAck
  | .sTxdAck => p.codes.sTxdAck
  | .sTxdNak => p.codes.sTxdNak
  | .sLtxdAck => p.codes.sLtxdAck
  | .tx2AwAck => p.codes.tx2AwAck
  | .tx2AwNak => p.codes.tx2AwNak
  | .tx2ArAck => p.codes.tx2ArAck
  | .tx2ArNak => p.codes.tx2ArNak
  | .idle => 0xF8#8

/-- `AFTER_START` (rule R89). -/
def afterStart : List Status := [.txStart, .txRstart]

/-- `MTX`: master transmitter after a byte (rule R89). -/
def masterTx : List Status := [.txAwAck, .txAwNak, .mTxdAck, .mTxdNak]

/-- `MRX_GO`: master receiver, may receive another byte (rule R89). -/
def masterRxGo : List Status := [.txArAck, .mRxdAck]

/-- `MRX_END`: master receiver, must STOP or repeat START (rule R89). -/
def masterRxEnd : List Status := [.txArNak, .mRxdNak]

/-- `BYTE_DONE` (rule R89). -/
def byteDone : List Status := masterTx ++ masterRxGo ++ masterRxEnd

/-- `MASTER`: the codes in which this controller holds the bus (rule R89). -/
def master : List Status := afterStart ++ byteDone

/-- The codes the engine of the admitted model writes: error, master, lost and idle (rule R88). -/
def admitted : List Status := master ++ [.busError, .arbLost, .idle]

/-- A CNTR write of `v` made while IFLG = 1 is a clear write: the bit of IFLG is 0, or 1 under `IFLG_W1C` (rule R30). -/
def isClearValue (p : Params) (v : Word) : Bool := v.getLsbD p.pos.iflg == p.iflgW1c

/-- A latched request bit after a write: write 0 has no effect (rule R32). -/
def latch (old written : Bool) : Bool := old || written

/-- `TriggerAction(s, sta, stp)`, the table of 41_bus_engine.md rule R142; `b` is DATA at the trigger (rule R141). -/
def triggerAction (s : Status) (sta stp : Bool) (b : Byte) : Out Action :=
  if s ∈ master then
    match sta, stp with
    | true, true => .next .stopStart
    | false, true => .next .stop
    | true, false => if s ∈ byteDone then .next .rstart else .fault .startWithoutByte
    | false, false =>
        if s ∈ afterStart then .next (.txAddr b)
        else if s ∈ masterTx then .next (.txData b)
        else if s ∈ masterRxGo then .next .rxData
        else .fault .releaseAfterNak
  else if s = .arbLost then .next (if sta then .arbStart else .release)
  else if s = .busError then
    match sta, stp with
    | false, true => .next .berrRelease
    | true, _ => .fault .startInBusError
    | false, false => .fault .releaseInBusError
  else .fault .noTriggerRow

/-- The status a START, RSTART, STOP_START, ARB_START or RX_DATA completion reports, `ok` being the one of success
(rules R144, R145, R147). -/
def lineStatus (o : LineOutcome) (ok : Status) : Status :=
  match o with
  | .ok => ok
  | .arb => .arbLost
  | .berr => .busError

/-- The acknowledge bit of a receive: the copy taken at the trigger, or A_ACK now (rule R147). -/
def ackUsed (now : Bool) (c : CoreState) : Bool := if now then c.aAck else c.ackTrig

/-- `irq = CNTR.INT_EN & CNTR.IFLG` (10_state.md rule R38). Its delivery is out of scope (log entry 18). -/
def CoreState.irq (c : CoreState) : Bool := c.intEn && c.iflg

end Sys2Proof.Machine
end

