-- ==== Sys2Proof/Machine/Engine.lean ====
section
/-! DEFINITION. The bus engine (41_bus_engine.md): the CNTR write and its triggers (rules R140, R143, R152, R153), the
completions (rules R144 to R150), and soft reset (rules R157, R158). -/

namespace Sys2Proof.Machine

/-- `CheckTrigger()` (rule R152), on the registers after the write's field updates. -/
def checkTrigger (c : CoreState) : Out CoreState :=
  if c.busEn = false then .refused .busDisabled
  else if c.dbn ≠ 0#32 then .refused .extFeature
  else if c.sdaCtlEn || c.sclCtlEn then .refused .lineControl
  else .next c

/-- `CntrWriteInFlight(v)` (rule R153). -/
def cntrWriteInFlight (p : Params) (v : Word) (c : CoreState) : Out CoreState :=
  if v.getLsbD p.pos.busEn = false then .refused .busDisableInFlight
  else if (v.getLsbD p.pos.mSta && !c.mSta) || (v.getLsbD p.pos.mStp && !c.mStp) then .fault .requestInFlight
  else .next { c with intEn := v.getLsbD p.pos.intEn, aAck := v.getLsbD p.pos.aAck }

/-- The field updates every CNTR write makes with no action in flight (rule R140). -/
def cntrFields (p : Params) (v : Word) (c : CoreState) : CoreState :=
  { c with
    intEn := v.getLsbD p.pos.intEn
    busEn := v.getLsbD p.pos.busEn
    aAck  := v.getLsbD p.pos.aAck
    mSta  := latch c.mSta (v.getLsbD p.pos.mSta)
    mStp  := latch c.mStp (v.getLsbD p.pos.mStp) }

/-- The core right after a clear write has triggered `a`: INT_FLAG is cleared, and a receive copies A_ACK (rules R34, R140). -/
def triggered (c : CoreState) (a : Action) : CoreState :=
  { c with iflg := false, act := some a, ackTrig := if a = .rxData then c.aAck else c.ackTrig }

/-- What a clear write does after its field updates (rule R140). -/
def clearWrite (c : CoreState) : Out CoreState :=
  Out.bind (checkTrigger c) fun c =>
    Out.bind (triggerAction c.sta c.mSta c.mStp c.data) fun a => .next (triggered c a)

/-- `IdleWrite()` (rule R143): a START request triggers START, a STOP request is dropped. -/
def idleWrite (c : CoreState) : Out CoreState :=
  if c.mSta then Out.bind (checkTrigger c) fun c => .next { c with mStp := false, act := some .start }
  else .next { c with mStp := false }

/-- `CntrWrite(v)` (rule R140). The bits the rule numbers are those of the fields it names (log entry 23). -/
def cntrWrite (p : Params) (v : Word) (c : CoreState) : Out CoreState :=
  if c.act.isSome then cntrWriteInFlight p v c
  else if c.iflg then
    if isClearValue p v then clearWrite (cntrFields p v c) else .next (cntrFields p v c)
  else idleWrite (cntrFields p v c)

/-- `SoftResetStart()` (rule R157). -/
def softResetStart (c : CoreState) : CoreState :=
  { c with act := none, iflg := false, mSta := false, mStp := false, sta := .idle, rstPending := true }

/-- The reset completion (rule R158). -/
def resetComplete (c : CoreState) : CoreState := { c with rstPending := false }

/-- The end of a completion that pauses the core in status `s` (rule R144 and section 2). -/
def pauseIn (s : Status) (c : CoreState) : CoreState :=
  { c with sta := s, mSta := false, mStp := false, iflg := true, act := none }

/-- The end of a STOP, RELEASE or BERR_RELEASE: idle, and IFLG stays as it is (rules R149, R150). -/
def goIdle (c : CoreState) : CoreState :=
  { c with sta := .idle, mSta := false, mStp := false, act := none }

/-- The TX_ADDR completion (rule R146). The core answers its own address only when it would acknowledge it, so with
A_ACK = 0 a draw of `ARB_ADDRESSED` is not admissible and stands for plain arbitration loss (log entry 16). -/
def completeAddr (o : AddrOutcome) (b : Byte) (c : CoreState) : Out CoreState :=
  match o with
  | .ack => .next (pauseIn (if b.getLsbD 0 then .txArAck else .txAwAck) c)
  | .nak => .next (pauseIn (if b.getLsbD 0 then .txArNak else .txAwNak) c)
  | .arb => .next (pauseIn .arbLost c)
  | .arbAddressed => if c.aAck then .refused .slaveMode else .next (pauseIn .arbLost c)
  | .berr => .next (pauseIn .busError c)

/-- The status of a TX_DATA completion (rule R148). -/
def dataStatus : DataOutcome → Status
  | .ack => .mTxdAck
  | .nak => .mTxdNak
  | .arb => .arbLost
  | .berr => .busError

/-- The RX_DATA completion (rule R147): the received byte is stored unless there is a bus error. -/
def completeRx (d : Draw) (c : CoreState) : CoreState :=
  pauseIn (lineStatus d.line (if ackUsed d.ackNow c then .mRxdAck else .mRxdNak))
    { c with data := if d.line = .berr then c.data else d.byte }

/-- The completion of action `a` with the bus's answer `d` (rules R144 to R150). -/
def complete (d : Draw) (a : Action) (c : CoreState) : Out CoreState :=
  match a with
  | .start => .next (pauseIn (lineStatus d.line .txStart) c)
  | .rstart => .next (pauseIn (lineStatus d.line .txRstart) c)
  | .stopStart => .next (pauseIn (lineStatus d.line .txStart) c)
  | .arbStart => .next (pauseIn (lineStatus d.line .txStart) c)
  | .txAddr b => completeAddr d.addr b c
  | .txData _ => .next (pauseIn (dataStatus d.data) c)
  | .rxData => .next (completeRx d c)
  | .stop => .next (goIdle c)
  | .release => .next (goIdle c)
  | .berrRelease => .next (goIdle c)

/-- The completions that draw an answer (rules R144 to R150). -/
def drawsAnswer : Action → Bool
  | .start => true
  | .rstart => true
  | .stopStart => true
  | .arbStart => true
  | .txAddr _ => true
  | .txData _ => true
  | .rxData => true
  | .stop => false
  | .release => false
  | .berrRelease => false

/-- The spontaneous step "addressed as slave" is enabled (rule R151). -/
def slaveEnabled (c : CoreState) : Bool :=
  c.act.isNone && !c.iflg && !c.rstPending && c.busEn && c.aAck

end Sys2Proof.Machine
end

