-- ==== Sys2Proof/Machine/Registers.lean ====
section
/-! DEFINITION. What a read of each register returns and what a write of each does, on the core alone
(40_register_access.md; the bit layout is 30_encoding.md rule R83, taken from the parameters: log entry 23). -/

namespace Sys2Proof.Machine

/-- ADDR: SLA and GCE (rule R111). -/
def addrWord (l : Positions) (c : CoreState) : Word := putSeven l.sla c.sla ||| putBit l.gce c.gce

/-- XADDR: SLAX (rule R113). -/
def xaddrWord (l : Positions) (c : CoreState) : Word := putField l.slax c.slax

/-- DATA (rule R115). -/
def dataWord (l : Positions) (c : CoreState) : Word := putByte l.data c.data

/-- CNTR: the six fields, reserved bits 0 (rule R117). -/
def cntrWord (l : Positions) (c : CoreState) : Word :=
  putBit l.intEn c.intEn ||| putBit l.busEn c.busEn ||| putBit l.mSta c.mSta ||| putBit l.mStp c.mStp |||
    putBit l.iflg c.iflg ||| putBit l.aAck c.aAck

/-- STAT: the value of the code (rule R119). -/
def statWord (p : Params) (c : CoreState) : Word := putByte p.pos.sta (statusCode p c.sta)

/-- CCR: CLK_M and CLK_N (rule R121). -/
def ccrWord (l : Positions) (c : CoreState) : Word := putField l.clkM c.clkM ||| putField l.clkN c.clkN

/-- SRST: `rst_pending` (rule R123). -/
def srstWord (l : Positions) (c : CoreState) : Word := putBit l.softRst c.rstPending

/-- EFR: DBN (rule R125). -/
def efrWord (l : Positions) (c : CoreState) : Word := putField l.dbn c.dbn

/-- The stored fields of LCR (10_state.md rule R29). -/
def lcrStored (l : Positions) (c : CoreState) : Word :=
  putBit l.sdaCtlEn c.sdaCtlEn ||| putBit l.sdaCtl c.sdaCtl ||| putBit l.sclCtlEn c.sclCtlEn ||| putBit l.sclCtl c.sclCtl

/-- LCR: the stored fields and the drawn line levels, SCL then SDA (rule R127). -/
def lcrWord (l : Positions) (levels : BitVec 2) (c : CoreState) : Word :=
  lcrStored l c ||| putBit l.sdaState (levels.getLsbD 0) ||| putBit l.sclState (levels.getLsbD 1)

/-- The value a read of register `r` returns. -/
def readWord (p : Params) (levels : BitVec 2) (r : Reg) (c : CoreState) : Word :=
  match r with
  | .addr => addrWord p.pos c
  | .xaddr => xaddrWord p.pos c
  | .data => dataWord p.pos c
  | .cntr => cntrWord p.pos c
  | .stat => statWord p c
  | .ccr => ccrWord p.pos c
  | .srst => srstWord p.pos c
  | .efr => efrWord p.pos c
  | .lcr => lcrWord p.pos levels c

/-- ADDR stores SLA and GCE (rule R112). -/
def addrStore (l : Positions) (v : Word) (c : CoreState) : CoreState :=
  { c with sla := getSeven l.sla v, gce := v.getLsbD l.gce }

/-- XADDR stores SLAX (rule R114). -/
def xaddrStore (l : Positions) (v : Word) (c : CoreState) : CoreState := { c with slax := getField l.slax v }

/-- DATA stores its byte, a fault while an action is in flight (rule R116). -/
def dataStore (l : Positions) (v : Word) (c : CoreState) : Out CoreState :=
  if c.act.isSome then .fault .writeDataInFlight else .next { c with data := getByte l.data v }

/-- CCR stores CLK_M and CLK_N (rule R122). -/
def ccrStore (l : Positions) (v : Word) (c : CoreState) : CoreState :=
  { c with clkM := getField l.clkM v, clkN := getField l.clkN v }

/-- SRST: a write of 1 to SOFT_RST starts a soft reset, any other has no effect (rule R124). -/
def srstStore (l : Positions) (v : Word) (c : CoreState) : CoreState :=
  if v.getLsbD l.softRst then softResetStart c else c

/-- EFR stores DBN (rule R126). -/
def efrStore (l : Positions) (v : Word) (c : CoreState) : CoreState := { c with dbn := getField l.dbn v }

/-- LCR stores its four control fields (rule R128). -/
def lcrStore (l : Positions) (v : Word) (c : CoreState) : CoreState :=
  { c with
    sdaCtlEn := v.getLsbD l.sdaCtlEn
    sdaCtl   := v.getLsbD l.sdaCtl
    sclCtlEn := v.getLsbD l.sclCtlEn
    sclCtl   := v.getLsbD l.sclCtl }

/-- What a write of `v` to register `r` does once the common checks are passed. A STAT write is ignored (rule R120). -/
def storeWord (p : Params) (r : Reg) (v : Word) (c : CoreState) : Out CoreState :=
  match r with
  | .addr => .next (addrStore p.pos v c)
  | .xaddr => .next (xaddrStore p.pos v c)
  | .data => dataStore p.pos v c
  | .cntr => cntrWrite p v c
  | .stat => .next c
  | .ccr => .next (ccrStore p.pos v c)
  | .srst => .next (srstStore p.pos v c)
  | .efr => .next (efrStore p.pos v c)
  | .lcr => .next (lcrStore p.pos v c)

/-- A write access on the core: the check of rule R110 step 4, then the register's own rule. -/
def writeReg (p : Params) (r : Reg) (v : Word) (c : CoreState) : Out CoreState :=
  if c.rstPending && r != .stat then .fault .writeDuringReset else storeWord p r v c

end Sys2Proof.Machine
end

