-- ==== Sys2Proof/Machine/Ops.lean ====
section
/-! DEFINITION. The named operations on an instance and on the machine: register-port accesses with their record in the
event history (20_memory.md rules R65 to R69), the oracle's draws, the acceptance and the end of a request
(45_transactions.md rule R230), and ABORT, the nearest thing to taking a trap this hardware has (60_exceptions.md rules
R260, R266), with the taking of the result, the nearest to a return (rule R267), beside it. -/

namespace Sys2Proof.Machine

/-- The instance with its core replaced. An action a timed-out transaction left is no longer there once no action is in
flight: it has completed, or a soft reset has abandoned it (70_reset_and_hazards.md rule R299). -/
def Inst.setCore (x : Inst) (c : CoreState) : Inst := { x with core := c, stranded := c.act.isSome && x.stranded }

/-- The instance with its sequencer replaced. -/
def Inst.setSeq (x : Inst) (q : Seq) : Inst := { x with seq := q }

/-- The instance with a note, where `b`, that a timed-out transaction leaves the action in flight (rule R237). -/
def Inst.noteStranded (b : Bool) (x : Inst) : Inst := { x with stranded := b || x.stranded }

/-- An action left by a timed-out transaction is in flight: a WAIT_IDLE fails while it is (rules R237, R299, log entry 25). -/
def Inst.heldBusy (x : Inst) : Bool := x.stranded && x.core.act.isSome

/-- The instance with events added to its history, in issue order (rule R68). -/
def Inst.log (x : Inst) (es : List Event) : Inst := { x with history := x.history ++ es }

/-- The Bus oracle's next answer: the script's head, and past the script a free value. -/
def Inst.nextDraw (bus : Nat) (x : Inst) : Draw :=
  match x.script with
  | d :: _ => d
  | [] => Config.busDraw bus x.drawn

/-- The oracle after one draw. -/
def Inst.useDraw (x : Inst) : Inst :=
  match x.script with
  | _ :: ds => { x with script := ds }
  | [] => { x with drawn := x.drawn + 1 }

/-- The value a read access of `r` returns now. -/
def Inst.readValue (cfg : Params) (bus : Nat) (r : Reg) (x : Inst) : Word := readWord cfg (x.nextDraw bus).levels r x.core

/-- The instance after a read access of `r`: nothing but the record changes, and for LCR a draw is used (rules R66, R127). -/
def Inst.afterRead (cfg : Params) (bus : Nat) (r : Reg) (x : Inst) : Inst :=
  (if r = .lcr then x.useDraw else x).log [.read r (x.readValue cfg bus r)]

/-- The record of the action a write has triggered, if it has. -/
def triggerEvents (before after : CoreState) : List Event :=
  match before.act, after.act with
  | none, some a => [.trigger a]
  | _, _ => []

/-- A write access of `v` to `r`: its effect on the core and its record. -/
def Inst.write (cfg : Params) (r : Reg) (v : Word) (x : Inst) : Out Inst :=
  Out.bind (writeReg cfg r v x.core) fun c =>
    .next ((x.setCore c).log (.write r v :: triggerEvents x.core c))

/-- The engine completes the action in flight (41_bus_engine.md section 2). -/
def Inst.completeAct (bus : Nat) (x : Inst) : Out Inst :=
  match x.core.act with
  | none => .next x
  | some a =>
      Out.bind (complete (x.nextDraw bus) a x.core) fun c =>
        .next (((if drawsAnswer a then x.useDraw else x).setCore c).log [.complete a c.sta])

/-- The engine completes a pending soft reset (rule R158). -/
def Inst.completeReset (x : Inst) : Inst :=
  if x.core.rstPending then (x.setCore (resetComplete x.core)).log [.resetDone] else x

/-- The sequencer runs a request (10_state.md rule R42). -/
def Phase.isRunning : Phase → Bool
  | .ready => false
  | .running _ => true
  | .done => false

/-- The machine with instance `bus` replaced. -/
def State.setInst (s : State) (bus : Nat) (x : Inst) : State := { s with insts := s.insts.set bus x }

/-- An operation on instance `bus` alone; an index out of range is refused (rule R61). -/
def State.onInst (s : State) (bus : Nat) (f : Inst → Out Inst) : Out State :=
  match s.insts[bus]? with
  | none => .refused .badInstance
  | some x => Out.bind (f x) fun x' => .next (s.setInst bus x')

/-- A direct access to the port is refused while the sequencer owns it (60_exceptions.md rule R265, log entry 15). -/
def Inst.asOwner (f : Inst → Out Inst) (x : Inst) : Out Inst :=
  if x.seq.phase.isRunning then .refused .portContention else f x

/-- A direct read access of register `r` of instance `bus`: it returns the value its event records. -/
def directRead (bus : Nat) (r : Reg) (s : State) : Out State :=
  s.onInst bus (Inst.asOwner fun x => .next (x.afterRead s.params bus r))

/-- A direct write access of `v` to register `r` of instance `bus`. -/
def directWrite (bus : Nat) (r : Reg) (v : Word) (s : State) : Out State :=
  s.onInst bus (Inst.asOwner fun x => x.write s.params r v)

/-- The status a step of a transaction expects from the wait at each place (45_transactions.md rules R231 to R234). -/
def expectedAt : Place → Option Status
  | .t3 => some .txStart
  | .t5 => some .txAwAck
  | .t7 => some .mTxdAck
  | .w10 => some .mTxdAck
  | .r9 => some .txRstart
  | .r11 => some .txArAck
  | .r15 => some .mRxdAck
  | .r19 => some .mRxdNak
  | .d15 => some .mRxdAck
  | _ => none

/-- The first step of each place's line (45_transactions.md rules R231 to R235). -/
def firstMicro : Place → Micro
  | .alone => .start1
  | .abort => .stop1
  | .t1 => .idle1
  | .t2 => .start1
  | .t3 => .wait1
  | .t4 => .data1
  | .t5 => .wait1
  | .t6 => .data1
  | .t7 => .wait1
  | .w8 => .test
  | .w9 => .data1
  | .w10 => .wait1
  | .w11 => .stop1
  | .r8 => .start1
  | .r9 => .wait1
  | .r10 => .data1
  | .r11 => .wait1
  | .r12 => .setAck1
  | .r13 => .test
  | .r14 => .clear1
  | .r15 => .wait1
  | .r16 => .fetch
  | .r17 => .clrAck1
  | .r18 => .clear1
  | .r19 => .wait1
  | .r20 => .fetch
  | .r21 => .stop1
  | .d14 => .clear1
  | .d15 => .wait1
  | .d16 => .fetch
  | .d21 => .stop1
  | .n1 => .clock1
  | .n2 => .enable1
  | .n3 => .enable2
  | .n4 => .softReset
  | .n5 => .poll
  | .n6 => .own

/-- `pc <- l`. -/
def Seq.at (q : Seq) (l : Label) : Seq := { q with phase := .running l }

/-- The expected code of a wait begun at place `p`: the step's own, or what `exp` held. -/
def expCode (cfg : Params) (p : Place) (old : Byte) : Byte :=
  match expectedAt p with
  | some st => statusCode cfg st
  | none => old

/-- `pc <- l`, beginning the line there: a wait starts with `k <- 0` and its expected code, a wait for idle with
`k <- 0` and `s <- BUS_ERROR` (44_status_waiter.md rules R210, R211). -/
def Seq.begin (cfg : Params) (q : Seq) (l : Label) : Seq :=
  match l.micro with
  | .wait1 => { q.at l with k := 0, exp := expCode cfg l.place q.exp }
  | .idle1 => { q.at l with k := 0, s := statusCode cfg .busError }
  | _ => q.at l

/-- Going to the line of place `p`. -/
def Seq.goto (cfg : Params) (q : Seq) (p : Place) : Seq := q.begin cfg ⟨p, firstMicro p⟩

/-- `return r`: the result is posted and the phase is Done (rule R230). -/
def Seq.finish (q : Seq) (r : Result) : Seq := { q with res := some r, phase := .done }

/-- `ABORT(kind, s)` (44_status_waiter.md rule R213): under `STOP_ON_ABORT` a mismatch sends STOP first. -/
def Seq.abort (cfg : Params) (q : Seq) (kind : FailKind) (status : Byte) : Seq :=
  if cfg.stopOnAbort && kind == .mismatch then q.goto cfg .abort else q.finish (.fail kind status)

/-- The acceptance of a request in phase Ready (rule R230): the operands are copied into fresh registers, then validated;
an invalid request posts `Fail(Invalid, 0x00)` with no access, a valid one goes to its first label. -/
def accept (bus : Nat) (op : SeqOp) (valid : Bool) (load : Seq → Seq) (first : Label) (s : State) : Out State :=
  s.onInst bus fun x =>
    if x.seq.phase = .ready then
      .next (x.setSeq
        (if valid then (load { Seq.unwritten with op := some op }).begin s.params first
         else (load { Seq.unwritten with op := some op }).finish (.fail .invalid 0#8)))
    else .refused .concurrentRequest

/-- Taking the posted result (rule R230): the phase returns to Ready and every sequencer register is unwritten again. -/
def Inst.takeResult (x : Inst) : Inst :=
  match x.seq.phase, x.seq.res with
  | .done, some r => (x.setSeq Seq.unwritten).log [.taken r]
  | .done, none => x.setSeq Seq.unwritten
  | .ready, _ => x
  | .running _, _ => x

end Sys2Proof.Machine
end

