-- ==== Sys2Proof/Machine/Access.lean ====
section
/-! DEFINITION. The meanings of the 18 register accesses (40_register_access.md). Each is a direct access by whoever owns
the port; what a read returns and a write does is in Machine/Registers.lean. -/

namespace Sys2Proof.Machine

/-- RD_ADDR (rule R111): a read access of the own slave address. -/
def execRdAddr (bus : Nat) (s : State) : Out State := directRead bus .addr s

/-- WR_ADDR (rule R112): a write access of the own slave address. -/
def execWrAddr (bus : Nat) (v : Word) (s : State) : Out State := directWrite bus .addr v s

/-- RD_XADDR (rule R113): a read access of the extended address. -/
def execRdXaddr (bus : Nat) (s : State) : Out State := directRead bus .xaddr s

/-- WR_XADDR (rule R114): a write access of the extended address. -/
def execWrXaddr (bus : Nat) (v : Word) (s : State) : Out State := directWrite bus .xaddr v s

/-- RD_DATA (rule R115): a read access of the data byte. -/
def execRdData (bus : Nat) (s : State) : Out State := directRead bus .data s

/-- WR_DATA (rule R116): a write access of the data byte, a fault while an action is in flight. -/
def execWrData (bus : Nat) (v : Word) (s : State) : Out State := directWrite bus .data v s

/-- RD_CNTR (rule R117): a read access of the control register. -/
def execRdCntr (bus : Nat) (s : State) : Out State := directRead bus .cntr s

/-- WR_CNTR (rule R118): a write access of the control register: `CntrWrite(v)` of 41_bus_engine.md rule R140. -/
def execWrCntr (bus : Nat) (v : Word) (s : State) : Out State := directWrite bus .cntr v s

/-- RD_STAT (rule R119): a read access of the status code. -/
def execRdStat (bus : Nat) (s : State) : Out State := directRead bus .stat s

/-- WR_STAT (rule R120): a write access of the status code: accepted and ignored. -/
def execWrStat (bus : Nat) (v : Word) (s : State) : Out State := directWrite bus .stat v s

/-- RD_CCR (rule R121): a read access of the clock divider. -/
def execRdCcr (bus : Nat) (s : State) : Out State := directRead bus .ccr s

/-- WR_CCR (rule R122): a write access of the clock divider. -/
def execWrCcr (bus : Nat) (v : Word) (s : State) : Out State := directWrite bus .ccr v s

/-- RD_SRST (rule R123): a read access of the soft-reset bit. -/
def execRdSrst (bus : Nat) (s : State) : Out State := directRead bus .srst s

/-- WR_SRST (rule R124): a write access of the soft-reset bit: a soft reset where it is 1. -/
def execWrSrst (bus : Nat) (v : Word) (s : State) : Out State := directWrite bus .srst v s

/-- RD_EFR (rule R125): a read access of the extended feature. -/
def execRdEfr (bus : Nat) (s : State) : Out State := directRead bus .efr s

/-- WR_EFR (rule R126): a write access of the extended feature. -/
def execWrEfr (bus : Nat) (v : Word) (s : State) : Out State := directWrite bus .efr v s

/-- RD_LCR (rule R127): a read access of the line control. -/
def execRdLcr (bus : Nat) (s : State) : Out State := directRead bus .lcr s

/-- WR_LCR (rule R128): a write access of the line control. -/
def execWrLcr (bus : Nat) (v : Word) (s : State) : Out State := directWrite bus .lcr v s

end Sys2Proof.Machine
end

