-- ==== Sys2Proof/Machine/Sequencer.lean ====
section
/-! DEFINITION. The polling sequencer's programs, one labelled step at a time (10_state.md rule R41): the primitives
(43_primitives.md), the waiters and EXPECT (44_status_waiter.md), the clock configurator (42_clock.md rule R180), and the
transaction programs and INIT (45_transactions.md). A step issues at most one register access. Where a program numbers the bits
of a register value they are those of the field it speaks of (log entry 23), and a timeout reports the value of BUS_ERROR, the
synthetic code of 00_scope.md rule R11 (log entry 24). -/

namespace Sys2Proof.Machine

/-- `rbuf[j] <- d`; entries below `j` that nothing has written stay unwritten. -/
def bufSet : List (Option Byte) → Nat → Byte → List (Option Byte)
  | [], 0, d => [some d]
  | [], j + 1, d => none :: bufSet [] j d
  | _ :: l, 0, d => some d :: l
  | e :: l, j + 1, d => e :: bufSet l j d

/-- `rbuf[0..n-1]`, or `none` if one of these entries is unwritten. -/
def bufRead : Nat → List (Option Byte) → Option (List Byte)
  | 0, _ => some []
  | _ + 1, [] => none
  | _ + 1, none :: _ => none
  | n + 1, some b :: l => (bufRead n l).map fun bs => b :: bs

/-- The request runs the read program rather than the write program after T7 (rules R231 to R234). -/
def readsAfterT7 : Option SeqOp → Bool
  | some .masterRead => true
  | some .deviceRead => true
  | _ => false

/-- DEVICE_READ with `DEVICE_READ_ACK_LAST` leaves MASTER_READ's program after T12 (rule R234). -/
def acksLast (p : Params) (op : Option SeqOp) : Bool := p.deviceReadAckLast && op == some .deviceRead

/-- The end of a read: `Ok(n, rbuf[0..n-1])`; reading an unwritten entry is a fault (60_exceptions.md rule R262). -/
def finishRead (n : Nat) (q : Seq) : Out Seq :=
  match bufRead n q.rbuf with
  | none => .fault .unwrittenBuffer
  | some bs => .next (q.finish (.ok n bs))

/-- The step at place `p` runs a program inline and binds its result to a local (43_primitives.md rule R190): a primitive, or
WAIT_IDLE in T1 and CONFIGURE_CLOCK in N1. A WAIT_STATUS has its own local, `w`. -/
def bindsResult : Place → Bool
  | .t1 | .t2 | .t4 | .t6 | .w9 | .w11 | .r8 | .r10 | .r12 | .r14 | .r17 | .r18 | .r21 | .d14 | .d21 | .abort | .n1 => true
  | .alone | .t3 | .t5 | .t7 | .w8 | .w10 | .r9 | .r11 | .r13 | .r15 | .r16 | .r19 | .r20 | .d15 | .d16 | .n2 | .n3 | .n4
  | .n5 | .n6 => false

/-- The sequencer with the result `r` of the line at place `p` bound to the local of rule R190 (log entry 26). -/
def bindResult (p : Place) (r : Result) (q : Seq) : Seq := if bindsResult p then { q with bound := some r } else q

/-- Where the program goes when the line at place `p` has run to its end; `r` is the result a primitive run alone returns. -/
def nextLine (cfg : Params) (p : Place) (r : Result) (q : Seq) : Out Seq :=
  match p with
  | .alone => .next (q.finish r)
  | .abort => .next (q.finish (.fail .mismatch q.w.status))
  | .t1 => .next (q.goto cfg .t2)
  | .t2 => .next (q.goto cfg .t3)
  | .t3 => .next (q.goto cfg .t4)
  | .t4 => .next (q.goto cfg .t5)
  | .t5 => .next (q.goto cfg .t6)
  | .t6 => .next (q.goto cfg .t7)
  | .t7 => .next ({ q with i := 0 }.goto cfg (if readsAfterT7 q.op then .r8 else .w8))
  | .w8 => .next (q.goto cfg (if q.i = q.n then .w11 else .w9))
  | .w9 => .next (q.goto cfg .w10)
  | .w10 => .next ({ q with i := q.i + 1 }.goto cfg .w8)
  | .w11 => .next (q.finish (.ok q.n []))
  | .r8 => .next (q.goto cfg .r9)
  | .r9 => .next (q.goto cfg .r10)
  | .r10 => .next (q.goto cfg .r11)
  | .r11 => .next (q.goto cfg .r12)
  | .r12 => .next ({ q with exp := statusCode cfg .mRxdAck, i := 0 }.goto cfg (if acksLast cfg q.op then .d14 else .r13))
  | .r13 => .next (q.goto cfg (if q.i = q.n - 1 then .r17 else .r14))
  | .r14 => .next (q.goto cfg .r15)
  | .r15 => .next (q.goto cfg .r16)
  | .r16 => .next ({ q with i := q.i + 1 }.goto cfg .r13)
  | .r17 => .next ({ q with exp := statusCode cfg .mRxdNak }.goto cfg .r18)
  | .r18 => .next (q.goto cfg .r19)
  | .r19 => .next (q.goto cfg .r20)
  | .r20 => .next (q.goto cfg .r21)
  | .r21 => finishRead q.n q
  | .d14 => .next (q.goto cfg .d15)
  | .d15 => .next (q.goto cfg .d16)
  | .d16 => .next (q.goto cfg .d21)
  | .d21 => finishRead 1 q
  | .n1 => .next (q.goto cfg .n2)
  | .n2 => .next (q.goto cfg .n3)
  | .n3 => .next (q.goto cfg .n4)
  | .n4 => .next ({ q with k := 0 }.goto cfg .n5)
  | .n5 => .next (q.goto cfg .n6)
  | .n6 => .next (q.finish (.ok 0 []))

/-- What follows when the line at place `p` has run to its end with result `r`: inline, the result is bound to a local, and the
program goes on (rule R190). -/
def afterLine (cfg : Params) (p : Place) (r : Result) (q : Seq) : Out Seq := nextLine cfg p r (bindResult p r q)

/-- The byte SEND_DATA sends at each place; `none` where the buffer has no such byte. -/
def byteAt (p : Place) (q : Seq) : Option Byte :=
  match p with
  | .t4 => some (addrByte q.chip false)
  | .t6 => some q.sub
  | .w9 => q.wbuf[q.i]?
  | .r10 => some (addrByte q.chip true)
  | _ => q.wbuf[0]?

/-- The entry of `rbuf` a received byte goes to (T16, T20, T16' of rules R232, R234). -/
def entryAt (p : Place) (q : Seq) : Nat :=
  match p with
  | .r16 => q.i
  | .r20 => q.n - 1
  | _ => 0

/-- The poll budget of a WAIT_STATUS: its own operand alone, `WAIT_BUDGET` in a transaction (rule R210). -/
def waitBudgetAt (cfg : Params) (p : Place) (q : Seq) : Nat :=
  match p with
  | .alone => q.budget
  | _ => cfg.waitBudget

/-- The poll budget of a WAIT_IDLE: its own operand alone, `IDLE_BUDGET` in a transaction (rule R211). -/
def idleBudgetAt (cfg : Params) (p : Place) (q : Seq) : Nat :=
  match p with
  | .alone => q.budget
  | _ => cfg.idleBudget

/-- The end of a WAIT_STATUS (W3): alone it returns; in a transaction it is EXPECT, a timeout before a mismatch, a
mismatch by exact inequality (rules R210, R212). -/
def waitEnd (cfg : Params) (p : Place) (q : Seq) : Out Seq :=
  match p with
  | .alone => .next (q.finish (if q.w.timedOut then .fail .timeout (statusCode cfg .busError) else .ok 0 [q.w.status]))
  | p =>
      if q.w.timedOut then .next (q.abort cfg .timeout (statusCode cfg .busError))
      else if q.w.status ≠ q.exp then .next (q.abort cfg .mismatch q.w.status)
      else afterLine cfg p (.ok 0 []) q

/-- A step that reads register `r`; the rest of the step depends on the value read. -/
def readThen (cfg : Params) (bus : Nat) (r : Reg) (f : Word → Seq → Seq) (x : Inst) : Out Inst :=
  .next ((x.afterRead cfg bus r).setSeq (f (x.readValue cfg bus r) x.seq))

/-- A step that reads register `r` and ends its line. -/
def readEnd (cfg : Params) (bus : Nat) (r : Reg) (p : Place) (f : Word → Seq → Seq) (res : Word → Result) (x : Inst) :
    Out Inst :=
  Out.bind (afterLine cfg p (res (x.readValue cfg bus r)) (f (x.readValue cfg bus r) x.seq)) fun q =>
    .next ((x.afterRead cfg bus r).setSeq q)

/-- A step that writes `v` to register `r` and goes on at `l`. -/
def writeThen (cfg : Params) (r : Reg) (v : Word) (f : Seq → Seq) (x : Inst) : Out Inst :=
  Out.bind (x.write cfg r v) fun x' => .next (x'.setSeq (f x.seq))

/-- A step that writes `v` to register `r` and ends its line. -/
def writeEnd (cfg : Params) (r : Reg) (v : Word) (p : Place) (res : Result) (x : Inst) : Out Inst :=
  Out.bind (x.write cfg r v) fun x' =>
    Out.bind (afterLine cfg p res x.seq) fun q => .next (x'.setSeq q)

/-- A step with no access. -/
def silently (o : Out Seq) (x : Inst) : Out Inst := Out.bind o fun q => .next (x.setSeq q)

/-- `RegRead(OFF_STAT)[7:0]`: the status in a STAT value. -/
def statByte (cfg : Params) (v : Word) : Byte := getByte cfg.pos.sta v

/-- `RegRead(OFF_DATA)[7:0]`: the byte in a DATA value. -/
def dataByte (cfg : Params) (v : Word) : Byte := getByte cfg.pos.data v

/-- SEND_START (43_primitives.md rule R191), S3: one poll of M_STA, or the end of the budget. -/
def startPoll (cfg : Params) (bus : Nat) (p : Place) (x : Inst) : Out Inst :=
  if x.seq.k = cfg.startBudget then silently (.next (x.seq.at ⟨p, .start4⟩)) x
  else readThen cfg bus .cntr (fun v q =>
    { q with c := v, k := q.k + 1 }.at ⟨p, if v.getLsbD cfg.pos.mSta then .start3 else .start4⟩) x

/-- SEND_DATA, S1 (rule R193). -/
def dataFirst (cfg : Params) (p : Place) (x : Inst) : Out Inst :=
  match byteAt p x.seq with
  | none => .fault .unwrittenBuffer
  | some b => writeThen cfg .data (putByte cfg.pos.data b) (fun q => q.at ⟨p, .data2⟩) x

/-- WAIT_STATUS, W1 (44_status_waiter.md rule R210): one poll of IFLG, or the end of the budget with the synthetic code. -/
def waitPoll (cfg : Params) (bus : Nat) (p : Place) (x : Inst) : Out Inst :=
  if x.seq.k = waitBudgetAt cfg p x.seq then
    silently (.next ({ x.seq with w := ⟨true, statusCode cfg .busError⟩ }.at ⟨p, .wait3⟩)) x
  else readThen cfg bus .cntr (fun v q =>
    { q with c := v, k := q.k + 1 }.at ⟨p, if v.getLsbD cfg.pos.iflg then .wait2 else .wait1⟩) x

/-- WAIT_STATUS, W3. A transaction that times out leaves the action in flight (45_transactions.md rule R237). -/
def waitLast (cfg : Params) (p : Place) (x : Inst) : Out Inst :=
  silently (waitEnd cfg p x.seq) (x.noteStranded (decide (p ≠ .alone) && x.seq.w.timedOut && x.core.act.isSome))

/-- WAIT_IDLE, I1 (rule R211): one poll of STAT, or `Fail(Busy, s)` at the end of the budget. Where a timed-out transaction
has left an action in flight the wait fails, although STAT reads IDLE if that is a START from idle (45_transactions.md rule R237,
70_reset_and_hazards.md rule R299). The START that rule R211 says it cannot see is one from another requester (log entry 25). -/
def idlePoll (cfg : Params) (bus : Nat) (p : Place) (x : Inst) : Out Inst :=
  if x.seq.k = idleBudgetAt cfg p x.seq then silently (.next (x.seq.finish (.fail .busy x.seq.s))) x
  else if statByte cfg (x.readValue cfg bus .stat) ≠ statusCode cfg .idle ∨ x.heldBusy = true then
    readThen cfg bus .stat (fun v q => { q with s := statByte cfg v, k := q.k + 1 }.at ⟨p, .idle1⟩) x
  else readEnd cfg bus .stat p (fun v q => { q with s := statByte cfg v, k := q.k + 1 }) (fun _ => .ok 0 []) x

/-- CONFIGURE_CLOCK (42_clock.md rule R180), with its registers `m` and `nv` (log entry 9). -/
def clockLine (cfg : Params) (p : Place) (x : Inst) : Out Inst :=
  if x.seq.hz = 0 then silently (.next (x.seq.finish (.fail .invalid 0#8))) x
  else
    let q := { x.seq with m := divider cfg x.seq.hz, nv := cfg.clkNVal }
    Out.bind (x.write cfg .ccr (ccrVal cfg.pos q.m q.nv)) fun x' =>
      Out.bind (afterLine cfg p (.ok 0 []) q) fun q' => .next (x'.setSeq q')

/-- INIT, N5 (45_transactions.md rule R235): one poll of SRST, or a timeout with the synthetic code at the end of the budget. -/
def resetPoll (cfg : Params) (bus : Nat) (p : Place) (x : Inst) : Out Inst :=
  if x.seq.k = cfg.resetBudget then silently (.next (x.seq.finish (.fail .timeout (statusCode cfg .busError)))) x
  else if (x.readValue cfg bus .srst).getLsbD cfg.pos.softRst then
    readThen cfg bus .srst (fun v q => { q with r := v, k := q.k + 1 }.at ⟨p, .poll⟩) x
  else readEnd cfg bus .srst p (fun v q => { q with r := v, k := q.k + 1 }) (fun _ => .ok 0 []) x

/-- INIT, N6: the optional own address. -/
def ownLine (cfg : Params) (p : Place) (x : Inst) : Out Inst :=
  match x.seq.own with
  | none => silently (afterLine cfg p (.ok 0 []) x.seq) x
  | some a => writeEnd cfg .addr (ownWord cfg.pos a) p (.ok 0 []) x

/-- The step at label `⟨p, μ⟩` of the running program. -/
def stepAt (cfg : Params) (bus : Nat) (p : Place) (μ : Micro) (x : Inst) : Out Inst :=
  match μ with
  | .start1 => readThen cfg bus .cntr (fun v q => { q with c := v }.at ⟨p, .start2⟩) x
  | .start2 =>
      writeThen cfg .cntr (clrForm cfg x.seq.c ||| bitMask cfg.pos.mSta) (fun q => { q with k := 0 }.at ⟨p, .start3⟩) x
  | .start3 => startPoll cfg bus p x
  | .start4 => silently (afterLine cfg p (.ok 0 []) x.seq) x
  | .stop1 => readThen cfg bus .cntr (fun v q => { q with c := v }.at ⟨p, .stop2⟩) x
  | .stop2 => writeEnd cfg .cntr (clrForm cfg x.seq.c ||| bitMask cfg.pos.mStp) p (.ok 0 []) x
  | .data1 => dataFirst cfg p x
  | .data2 => readThen cfg bus .cntr (fun v q => { q with c := v }.at ⟨p, .data3⟩) x
  | .data3 => writeEnd cfg .cntr (clrForm cfg x.seq.c) p (.ok 1 []) x
  | .read1 => readThen cfg bus .data (fun v q => { q with d := v }.at ⟨p, .read2⟩) x
  | .read2 => readThen cfg bus .cntr (fun v q => { q with c := v }.at ⟨p, .read3⟩) x
  | .read3 => writeEnd cfg .cntr (clrForm cfg x.seq.c) p (.ok 1 [dataByte cfg x.seq.d]) x
  | .clear1 => readThen cfg bus .cntr (fun v q => { q with c := v }.at ⟨p, .clear2⟩) x
  | .clear2 => writeEnd cfg .cntr (clrForm cfg x.seq.c) p (.ok 0 []) x
  | .busy1 =>
      readEnd cfg bus .stat p (fun v q => { q with s := statByte cfg v })
        (fun v => .ok 0 [if statByte cfg v ≠ statusCode cfg .idle then 0x01#8 else 0x00#8]) x
  | .setAck1 => readThen cfg bus .cntr (fun v q => { q with c := v }.at ⟨p, .setAck2⟩) x
  | .setAck2 => writeEnd cfg .cntr (keepForm cfg x.seq.c ||| bitMask cfg.pos.aAck) p (.ok 0 []) x
  | .clrAck1 => readThen cfg bus .cntr (fun v q => { q with c := v }.at ⟨p, .clrAck2⟩) x
  | .clrAck2 => writeEnd cfg .cntr (keepForm cfg x.seq.c &&& ~~~bitMask cfg.pos.aAck) p (.ok 0 []) x
  | .wait1 => waitPoll cfg bus p x
  | .wait2 =>
      readThen cfg bus .stat (fun v q => { q with s := statByte cfg v, w := ⟨false, statByte cfg v⟩ }.at ⟨p, .wait3⟩) x
  | .wait3 => waitLast cfg p x
  | .idle1 => idlePoll cfg bus p x
  | .clock1 => clockLine cfg p x
  | .test => silently (afterLine cfg p (.ok 0 []) x.seq) x
  | .fetch =>
      readEnd cfg bus .data p
        (fun v q => { q with d := v, rbuf := bufSet q.rbuf (entryAt p q) (dataByte cfg v) })
        (fun _ => .ok 0 []) x
  | .enable1 => readEnd cfg bus .cntr p (fun v q => { q with c := v }) (fun _ => .ok 0 []) x
  | .enable2 => writeEnd cfg .cntr (keepForm cfg x.seq.c ||| bitMask cfg.pos.busEn) p (.ok 0 []) x
  | .softReset => writeEnd cfg .srst (bitMask cfg.pos.softRst) p (.ok 0 []) x
  | .poll => resetPoll cfg bus p x
  | .own => ownLine cfg p x

/-- One step of the sequencer of an instance; it has one only while a request runs (rule R42). -/
def Inst.seqStep (cfg : Params) (bus : Nat) (x : Inst) : Out Inst :=
  match x.seq.phase with
  | .ready => .next x
  | .running l => stepAt cfg bus l.place l.micro x
  | .done => .next x

end Sys2Proof.Machine
end

