-- ==== Sys2Proof/Machine/Clock.lean ====
section
/-! DEFINITION. The meaning of CONFIGURE_CLOCK (42_clock.md rule R180). -/

namespace Sys2Proof.Machine

/-- CONFIGURE_CLOCK: `hz = 0` is invalid (rule R181), any other value is computed and written to CCR. -/
def execConfigureClock (bus hz : Nat) (s : State) : Out State :=
  accept bus .configureClock (decide (0 < hz)) (fun q => { q with hz := hz }) ⟨.alone, .clock1⟩ s

end Sys2Proof.Machine
end

