-- ==== Sys2Proof/Machine/Primitives.lean ====
section
/-! DEFINITION. The meanings of the bus primitives run as requests of their own (43_primitives.md rule R190): the
acceptance of the request (log entry 17). The steps that follow are those of Machine/Sequencer.lean, from the label named
here. -/

namespace Sys2Proof.Machine

/-- SEND_START (rule R191): request START and poll M_STA. -/
def execSendStart (bus : Nat) (s : State) : Out State := accept bus .sendStart true (fun q => q) ⟨.alone, .start1⟩ s

/-- SEND_STOP (rule R192): request STOP. -/
def execSendStop (bus : Nat) (s : State) : Out State := accept bus .sendStop true (fun q => q) ⟨.alone, .stop1⟩ s

/-- SEND_DATA (rule R193): write DATA and clear the flag. `wbuf[0]` holds the byte. -/
def execSendData (bus value : Nat) (s : State) : Out State :=
  accept bus .sendData (validByte value) (fun q => { q with wbuf := [byteReg value] }) ⟨.alone, .data1⟩ s

/-- READ_DATA (rule R194): read DATA and clear the flag. -/
def execReadData (bus : Nat) (s : State) : Out State := accept bus .readData true (fun q => q) ⟨.alone, .read1⟩ s

/-- CLEAR_IF (rule R195): clear the flag. -/
def execClearIf (bus : Nat) (s : State) : Out State := accept bus .clearIf true (fun q => q) ⟨.alone, .clear1⟩ s

/-- IS_BUSY (rule R196): tell whether STAT is other than IDLE. -/
def execIsBusy (bus : Nat) (s : State) : Out State := accept bus .isBusy true (fun q => q) ⟨.alone, .busy1⟩ s

/-- SET_ACK (rule R197): set A_ACK. -/
def execSetAck (bus : Nat) (s : State) : Out State := accept bus .setAck true (fun q => q) ⟨.alone, .setAck1⟩ s

/-- CLR_ACK (rule R198): clear A_ACK. -/
def execClrAck (bus : Nat) (s : State) : Out State := accept bus .clrAck true (fun q => q) ⟨.alone, .clrAck1⟩ s

end Sys2Proof.Machine
end

