-- ==== Sys2Proof/Machine/Transactions.lean ====
section
/-! DEFINITION. The meanings of the transactions and of INIT (45_transactions.md rules R231 to R235): acceptance with the
validation of rule R230. Their programs are in Machine/Sequencer.lean. -/

namespace Sys2Proof.Machine

/-- MASTER_WRITE (rule R231). -/
def execMasterWrite (bus chip sub : Nat) (bytes : List Nat) (s : State) : Out State :=
  accept bus .masterWrite
    (validChip chip && validByte sub && bytes.all validByte && decide (bytes.length ≤ s.params.nMax))
    (fun q => { q with chip := chipReg chip, sub := byteReg sub, n := bytes.length, wbuf := bytes.map byteReg })
    ⟨.t1, .idle1⟩ s

/-- MASTER_READ (rule R232). -/
def execMasterRead (bus chip sub n : Nat) (s : State) : Out State :=
  accept bus .masterRead
    (validChip chip && validByte sub && decide (0 < n) && decide (n ≤ s.params.nMax))
    (fun q => { q with chip := chipReg chip, sub := byteReg sub, n := n })
    ⟨.t1, .idle1⟩ s

/-- DEVICE_WRITE (rule R233): MASTER_WRITE of the one byte `value`. -/
def execDeviceWrite (bus chip sub value : Nat) (s : State) : Out State :=
  accept bus .deviceWrite (validChip chip && validByte sub && validByte value)
    (fun q => { q with chip := chipReg chip, sub := byteReg sub, n := 1, wbuf := [byteReg value] })
    ⟨.t1, .idle1⟩ s

/-- DEVICE_READ (rule R234): MASTER_READ of one byte. -/
def execDeviceRead (bus chip sub : Nat) (s : State) : Out State :=
  accept bus .deviceRead (validChip chip && validByte sub)
    (fun q => { q with chip := chipReg chip, sub := byteReg sub, n := 1 })
    ⟨.t1, .idle1⟩ s

/-- INIT (rule R235). -/
def execInit (bus hz : Nat) (own : Option Nat) (s : State) : Out State :=
  accept bus .init (decide (0 < hz) && validOwn own) (fun q => { q with hz := hz, own := ownReg own })
    ⟨.n1, .clock1⟩ s

end Sys2Proof.Machine
end

