-- ==== Sys2Proof/Machine/Waiter.lean ====
section
/-! DEFINITION. The meanings of the status waiters run as requests of their own (44_status_waiter.md rules R210, R211). -/

namespace Sys2Proof.Machine

/-- WAIT_STATUS (rule R210): up to `budget` polls of IFLG, then the status. -/
def execWaitStatus (bus budget : Nat) (s : State) : Out State :=
  accept bus .waitStatus true (fun q => { q with budget := budget }) ⟨.alone, .wait1⟩ s

/-- WAIT_IDLE (rule R211): up to `budget` polls of STAT until it is IDLE. -/
def execWaitIdle (bus budget : Nat) (s : State) : Out State :=
  accept bus .waitIdle true (fun q => { q with budget := budget }) ⟨.alone, .idle1⟩ s

end Sys2Proof.Machine
end

