-- ==== Sys2Proof/Machine/Dispatch.lean ====
section
/-! DEFINITION. One arm per instruction: the direct call of its meaning. -/

namespace Sys2Proof.Machine

def exec (i : Instr) (s : State) : Host.Outcome State Fault Refusal :=
  match i with
  | .rdAddr bus => Sys2Proof.Machine.execRdAddr bus s
  | .wrAddr bus v => Sys2Proof.Machine.execWrAddr bus v s
  | .rdXaddr bus => Sys2Proof.Machine.execRdXaddr bus s
  | .wrXaddr bus v => Sys2Proof.Machine.execWrXaddr bus v s
  | .rdData bus => Sys2Proof.Machine.execRdData bus s
  | .wrData bus v => Sys2Proof.Machine.execWrData bus v s
  | .rdCntr bus => Sys2Proof.Machine.execRdCntr bus s
  | .wrCntr bus v => Sys2Proof.Machine.execWrCntr bus v s
  | .rdStat bus => Sys2Proof.Machine.execRdStat bus s
  | .wrStat bus v => Sys2Proof.Machine.execWrStat bus v s
  | .rdCcr bus => Sys2Proof.Machine.execRdCcr bus s
  | .wrCcr bus v => Sys2Proof.Machine.execWrCcr bus v s
  | .rdSrst bus => Sys2Proof.Machine.execRdSrst bus s
  | .wrSrst bus v => Sys2Proof.Machine.execWrSrst bus v s
  | .rdEfr bus => Sys2Proof.Machine.execRdEfr bus s
  | .wrEfr bus v => Sys2Proof.Machine.execWrEfr bus v s
  | .rdLcr bus => Sys2Proof.Machine.execRdLcr bus s
  | .wrLcr bus v => Sys2Proof.Machine.execWrLcr bus v s
  | .sendStart bus => Sys2Proof.Machine.execSendStart bus s
  | .sendStop bus => Sys2Proof.Machine.execSendStop bus s
  | .sendData bus value => Sys2Proof.Machine.execSendData bus value s
  | .readData bus => Sys2Proof.Machine.execReadData bus s
  | .clearIf bus => Sys2Proof.Machine.execClearIf bus s
  | .isBusy bus => Sys2Proof.Machine.execIsBusy bus s
  | .setAck bus => Sys2Proof.Machine.execSetAck bus s
  | .clrAck bus => Sys2Proof.Machine.execClrAck bus s
  | .waitStatus bus budget => Sys2Proof.Machine.execWaitStatus bus budget s
  | .waitIdle bus budget => Sys2Proof.Machine.execWaitIdle bus budget s
  | .configureClock bus hz => Sys2Proof.Machine.execConfigureClock bus hz s
  | .masterWrite bus chip sub bytes => Sys2Proof.Machine.execMasterWrite bus chip sub bytes s
  | .masterRead bus chip sub n => Sys2Proof.Machine.execMasterRead bus chip sub n s
  | .deviceWrite bus chip sub value => Sys2Proof.Machine.execDeviceWrite bus chip sub value s
  | .deviceRead bus chip sub => Sys2Proof.Machine.execDeviceRead bus chip sub s
  | .init bus hz own => Sys2Proof.Machine.execInit bus hz own s

end Sys2Proof.Machine
end

