-- ==== Sys2Proof/Machine/Fetch.lean ====
section
/-! DEFINITION. How a step comes about: what the host issues next and how it is decoded (40_register_access.md rule R110,
30_encoding.md rules R81, R82), the agents' steps (00_scope.md rule R8, 41_bus_engine.md rule R159), and which of them is
made (log entry 2). -/

namespace Sys2Proof.Machine

/-- The outcome of issuing a term to instance `bus` that decodes to no instruction: BadInstance first (60_exceptions.md
rule R264), then what the decoder rejects it for. An access word at an offset that is no multiple of 4 is one at
an unmapped offset, as 30_encoding.md rule R81 says of words (log entry 27). The names malformedWord and malformedRequest are the
model's own (log entries 22 and 12). -/
def refuseTerm (e : DecodeError) (t : Term) (s : State) : Out State :=
  match t with
  | .word bus _ =>
      if bus < s.insts.length then
        match e with
        | .unmappedOffset => .refused .unmappedOffset
        | .readWithData => .refused .malformedWord
        | .notAnAccessWord => .refused .malformedWord
        | .wrongOperands => .refused .malformedRequest
      else .refused .badInstance
  | .request _ _ => .refused .malformedRequest

/-- Issuing a term: the decoded instruction is executed. -/
def runTerm (t : Term) (s : State) : Out State :=
  match decode s.params.off t with
  | .ok i => exec i s
  | .error e => refuseTerm e t s

/-- A raw access on the register port: the checks of rule R110 in their order, then the access's own instruction. -/
def runPort (bus width off : Nat) (value : Option Word) (s : State) : Out State :=
  if s.insts.length ≤ bus then .refused .badInstance
  else if width ≠ 32 then .refused .badWidth
  else if off % 4 ≠ 0 then .refused .misaligned
  else
    match regAt s.params.off off with
    | none => .refused .unmappedOffset
    | some r =>
        match value with
        | none => exec (readOf r bus) s
        | some v => exec (writeOf r bus v) s

/-- The instance in whose register window `[BASE(i), BASE(i) + BLOCK_SIZE)` an address lies (20_memory.md rules R60, R62). -/
def windowOf (p : Params) (addr : Nat) : Option Nat :=
  p.bases.findIdx? fun base => decide (base ≤ addr) && decide (addr < base + p.blockSize)

/-- MemRead and MemWrite (00_scope.md rule R10): the access of the register at the address's offset in its window, `len`
bytes being `8 * len` bits (log entry 20). An address beyond the host bus's width (log entry 21) or in no window is refused
(log entry 13). -/
def runMem (addr len : Nat) (value : Option Word) (s : State) : Out State :=
  if 2 ^ s.params.addrBits ≤ addr then .refused .unmappedAddress
  else
    match windowOf s.params addr with
    | none => .refused .unmappedAddress
    | some bus => runPort bus (8 * len) (addr - s.params.bases.getD bus 0) value s

/-- Taking the result of instance `bus` (45_transactions.md rule R230). -/
def runTake (bus : Nat) (s : State) : Out State := s.onInst bus fun x => .next x.takeResult

/-- The host issues a command. -/
def runCmd (cmd : HostCmd) (s : State) : Out State :=
  match cmd with
  | .instr t => runTerm t s
  | .port bus width off value => runPort bus width off value s
  | .mem addr len value => runMem addr len value s
  | .take bus => runTake bus s

/-- The host's next command can be issued: taking a result waits while the request runs (log entry 4). -/
def cmdEnabled (cmd : HostCmd) (s : State) : Bool :=
  match cmd with
  | .instr _ => true
  | .port _ _ _ _ => true
  | .mem _ _ _ => true
  | .take bus =>
      match s.insts[bus]? with
      | none => true
      | some x => !x.seq.phase.isRunning

/-- The host's step. -/
def hostStep (s : State) : Out State :=
  match s.inbox with
  | [] => .next s
  | cmd :: rest => if cmdEnabled cmd s then runCmd cmd { s with inbox := rest } else .next s

/-- The slave-addressed step of an instance: where it is enabled it is the refusal of 41_bus_engine.md rule R151. -/
def slaveStep (x : Inst) : Out Inst := if slaveEnabled x.core then .refused .slaveMode else .next x

/-- An engine or sequencer step of instance `bus`; without that instance there is no such step. -/
def localStep (bus : Nat) (f : Inst → Out Inst) (s : State) : Out State :=
  match s.insts[bus]? with
  | none => .next s
  | some x => Out.bind (f x) fun x' => .next (s.setInst bus x')

/-- The step of an agent; one that is not enabled changes nothing. -/
def agentStep (a : Agent) (s : State) : Out State :=
  match a with
  | .host => hostStep s
  | .seq bus => localStep bus (Inst.seqStep s.params bus) s
  | .eng bus => localStep bus (Inst.completeAct bus) s
  | .reset bus => localStep bus (fun x => .next x.completeReset) s
  | .slave bus => localStep bus slaveStep s
  | .wait => .next s

/-- The enabled steps of one instance (rule R159 for the engine's). -/
def instAgents (bus : Nat) (x : Inst) : List Agent :=
  (if x.seq.phase.isRunning then [.seq bus] else []) ++
    ((if x.core.act.isSome then [.eng bus] else []) ++
      ((if x.core.rstPending then [.reset bus] else []) ++ (if slaveEnabled x.core then [.slave bus] else [])))

/-- The enabled steps of the instances from number `bus` on. -/
def agentsFrom : Nat → List Inst → List Agent
  | _, [] => []
  | bus, x :: xs => instAgents bus x ++ agentsFrom (bus + 1) xs

/-- The host's step is enabled. -/
def hostEnabled (s : State) : Bool :=
  match s.inbox with
  | [] => false
  | cmd :: _ => cmdEnabled cmd s

/-- All enabled steps. -/
def enabledAgents (s : State) : List Agent :=
  (if hostEnabled s then [.host] else []) ++ agentsFrom 0 s.insts

/-- A step whose agent the schedule does not fix: with nothing enabled nothing happens; the host alone goes on; else
any enabled agent or nobody moves, as a free value says (rules R8, R155). -/
def freeStep (s : State) : Out State :=
  match enabledAgents s with
  | [] => .next s
  | [.host] => hostStep s
  | as => agentStep ((as ++ [Agent.wait]).getD (Config.pick s.tick % (as.length + 1)) .wait) { s with tick := s.tick + 1 }

/-- The step of an unmarked machine. -/
def scheduledStep (s : State) : Out State :=
  match s.sched with
  | a :: rest => agentStep a { s with sched := rest }
  | [] => freeStep s

/-- A marked machine has no step: it stays with its first mark (60_exceptions.md rule R262). -/
def markedStep (s : State) : Out State :=
  match s.faulted, s.refused with
  | r :: _, _ => .fault r
  | [], r :: _ => .refused r
  | [], [] => scheduledStep s

/-- The machine with an access word placed as what the host issues next to instance 0, and the host to move. -/
def placeWord (s : State) (nbits w : Nat) : State :=
  { s with inbox := .instr (.word 0 (tableBytes nbits w)) :: s.inbox, sched := .host :: s.sched }

end Sys2Proof.Machine
end

