-- ==== Sys2Proof/Safety.lean ====
section
/-! DEFINITION. What claims speak of: the core's invariants (10_state.md rule R36) and those of the sequencer's programs,
conditions of a core, runs under a schedule (41_bus_engine.md rule R155, 70_reset_and_hazards.md rule R302), the bus trace
(45_transactions.md rule R238), and the bound on a request's steps. -/

namespace Sys2Proof.Machine

/-- The core may trigger an action: the preconditions of rule R152. -/
abbrev CoreState.canTrigger (c : CoreState) : Prop :=
  c.busEn = true ∧ c.dbn = 0#32 ∧ c.sdaCtlEn = false ∧ c.sclCtlEn = false

/-- The core is idle: no action, no flag, no reset pending, no request latched, status IDLE. -/
abbrev CoreState.isIdle (c : CoreState) : Prop :=
  c.act = none ∧ c.iflg = false ∧ c.rstPending = false ∧ c.mSta = false ∧ c.mStp = false ∧ c.sta = .idle

/-- The core is paused in status `st` (00_scope.md rule R12): INT_FLAG = 1, no action, and no request latched. -/
abbrev CoreState.isPausedIn (c : CoreState) (st : Status) : Prop :=
  c.act = none ∧ c.iflg = true ∧ c.rstPending = false ∧ c.mSta = false ∧ c.mStp = false ∧ c.sta = st

/-- The six invariants of 10_state.md rule R36. -/
abbrev CoreState.r36 (c : CoreState) : Prop :=
  (c.act ≠ none → c.iflg = false) ∧
  (c.iflg = true → c.sta ≠ .idle ∧ c.act = none) ∧
  (c.iflg = false → c.act = none → c.rstPending = false → c.sta = .idle) ∧
  (c.act ∈ [some Action.start, some .rstart, some .stopStart, some .arbStart] → c.mSta = true) ∧
  (c.act ∈ [some Action.stop, some .stopStart, some .berrRelease] → c.mStp = true) ∧
  (c.rstPending = true → c.act = none ∧ c.iflg = false)

/-- The invariant of the core: rule R36; a pending reset shows IDLE; STAT holds an admitted code (30_encoding.md rule R88);
and no request is latched while the flag is 0 and no action is in flight. -/
abbrev CoreState.inv (c : CoreState) : Prop :=
  c.r36 ∧ (c.rstPending = true → c.sta = .idle) ∧ c.sta ∈ admitted ∧
  (c.iflg = false → c.act = none → c.mSta = false ∧ c.mStp = false)

/-- The numbers held for fields of a parameter's width fit them. -/
abbrev CoreState.fieldsFit (l : Positions) (c : CoreState) : Prop :=
  c.slax &&& onesMask l.slax.width = c.slax ∧ c.clkM &&& onesMask l.clkM.width = c.clkM ∧
  c.clkN &&& onesMask l.clkN.width = c.clkN ∧ c.dbn &&& onesMask l.dbn.width = c.dbn

/-- The transactions (45_transactions.md). -/
def transactions : List SeqOp := [.masterWrite, .masterRead, .deviceWrite, .deviceRead]

/-- The transactions that write a payload. -/
def writeOps : List SeqOp := [.masterWrite, .deviceWrite]

/-- The transactions that read. -/
def readOps : List SeqOp := [.masterRead, .deviceRead]

/-- The steps of a primitive, a wait or the clock line run as a request of its own. -/
def aloneMicros : SeqOp → List Micro
  | .sendStart => [.start1, .start2, .start3, .start4]
  | .sendStop => [.stop1, .stop2]
  | .sendData => [.data1, .data2, .data3]
  | .readData => [.read1, .read2, .read3]
  | .clearIf => [.clear1, .clear2]
  | .isBusy => [.busy1]
  | .setAck => [.setAck1, .setAck2]
  | .clrAck => [.clrAck1, .clrAck2]
  | .waitStatus => [.wait1, .wait2, .wait3]
  | .waitIdle => [.idle1]
  | .configureClock => [.clock1]
  | _ => []

/-- The steps of the line a place begins with step `μ`. -/
def lineFrom (μ : Micro) : List Micro :=
  match μ with
  | .start1 => [.start1, .start2, .start3, .start4]
  | .stop1 => [.stop1, .stop2]
  | .data1 => [.data1, .data2, .data3]
  | .clear1 => [.clear1, .clear2]
  | .setAck1 => [.setAck1, .setAck2]
  | .clrAck1 => [.clrAck1, .clrAck2]
  | .wait1 => [.wait1, .wait2, .wait3]
  | μ => [μ]

/-- The operations whose program has a place. -/
def opsAt : Place → List SeqOp
  | .alone => [.sendStart, .sendStop, .sendData, .readData, .clearIf, .isBusy, .setAck, .clrAck, .waitStatus, .waitIdle,
      .configureClock]
  | .abort | .t1 | .t2 | .t3 | .t4 | .t5 | .t6 | .t7 => transactions
  | .w8 | .w9 | .w10 | .w11 => writeOps
  | .r8 | .r9 | .r10 | .r11 | .r12 | .r13 | .r14 | .r15 | .r16 | .r17 | .r18 | .r19 | .r20 | .r21 => readOps
  | .d14 | .d15 | .d16 | .d21 => [.deviceRead]
  | .n1 | .n2 | .n3 | .n4 | .n5 | .n6 => [.init]

/-- The steps of operation `op` at a place. -/
def microsAt (op : SeqOp) (p : Place) : List Micro :=
  match p with
  | .alone => aloneMicros op
  | p => lineFrom (firstMicro p)

/-- The label is one of the running operation's program (10_state.md rule R41). -/
abbrev labelOk (op : Option SeqOp) (l : Label) : Prop :=
  match op with
  | none => False
  | some o => o ∈ opsAt l.place ∧ l.micro ∈ microsAt o l.place

/-- The payload registers suit the operation (45_transactions.md rules R230 to R234). -/
abbrev payloadOk (op : Option SeqOp) (q : Seq) : Prop :=
  match op with
  | none => True
  | some o =>
      (o ∈ writeOps → q.wbuf.length = q.n) ∧ (o ∈ readOps → 1 ≤ q.n) ∧ (o = .sendData → q.wbuf.length = 1)

/-- The byte index and the entries of `rbuf` written so far, by place. -/
abbrev bufferOk (p : Place) (q : Seq) : Prop :=
  match p with
  | .w8 => q.i ≤ q.n
  | .w9 | .w10 => q.i < q.n
  | .r13 => q.i + 1 ≤ q.n ∧ (bufRead q.i q.rbuf).isSome
  | .r14 | .r15 | .r16 => q.i + 1 < q.n ∧ (bufRead q.i q.rbuf).isSome
  | .r17 | .r18 | .r19 | .r20 => (bufRead (q.n - 1) q.rbuf).isSome
  | .r21 => (bufRead q.n q.rbuf).isSome
  | .d21 => (bufRead 1 q.rbuf).isSome
  | _ => True

/-- A polling loop has not used more polls than its budget. -/
abbrev pollsOk (cfg : Params) (l : Label) (q : Seq) : Prop :=
  match l.micro with
  | .start3 => q.k ≤ cfg.startBudget
  | .wait1 => q.k ≤ waitBudgetAt cfg l.place q
  | .idle1 => q.k ≤ idleBudgetAt cfg l.place q
  | .poll => q.k ≤ cfg.resetBudget
  | _ => True

/-- During a wait of a transaction `exp` holds the code the step expects (44_status_waiter.md rule R212). -/
abbrev expOk (cfg : Params) (l : Label) (q : Seq) : Prop :=
  l.micro ∈ [Micro.wait1, .wait2, .wait3] → ∀ st, expectedAt l.place = some st → q.exp = statusCode cfg st

/-- The invariant of the sequencer: unwritten in Ready (10_state.md rule R40), a posted result in Done, and in Running a
label of the operation's program with registers that suit it. -/
abbrev Seq.inv (cfg : Params) (q : Seq) : Prop :=
  match q.phase with
  | .ready => q = Seq.unwritten
  | .running l =>
      q.res = none ∧ labelOk q.op l ∧ payloadOk q.op q ∧ bufferOk l.place q ∧ pollsOk cfg l q ∧ expOk cfg l q
  | .done => q.res.isSome

/-- The invariant of an instance: of its core and its sequencer, and what a timed-out transaction left is in flight. -/
abbrev Inst.inv (cfg : Params) (x : Inst) : Prop :=
  x.core.inv ∧ x.core.fieldsFit cfg.pos ∧ x.seq.inv cfg ∧ (x.stranded = true → x.core.act ≠ none)

/-- The parameters describe a controller and name a base address for each instance. -/
abbrev State.described (s : State) : Prop := s.params.wf ∧ s.params.bases.length = s.insts.length

/-- The invariant of the machine: parameters that describe a controller, the invariant of every instance, and no mark. -/
abbrev State.inv (s : State) : Prop :=
  s.described ∧ (∀ x ∈ s.insts, x.inv s.params) ∧ s.faulted = [] ∧ s.refused = []

/-- The steps of the agents of a schedule, in order, stopping at the first fault or refusal. -/
def runSchedule : List Agent → State → Out State
  | [], s => .next s
  | a :: as, s => Out.bind (agentStep a s) (runSchedule as)

/-- `k` sequencer steps of instance `bus` with no engine step between. -/
def seqOnly (bus k : Nat) : List Agent := List.replicate k (.seq bus)

/-- `k` rounds of the eager schedule (95_test_vectors.md section 0): a sequencer step, then whatever completion is enabled. -/
def eager (bus : Nat) : Nat → List Agent
  | 0 => []
  | k + 1 => .seq bus :: .eng bus :: .reset bus :: eager bus k

/-- The bus trace: the actions triggered, in order (rule R238). -/
def busTrace (h : List Event) : List Action :=
  h.filterMap fun e =>
    match e with
    | .trigger a => some a
    | _ => none

/-- The status codes of the completions, in order. -/
def completions (h : List Event) : List Status :=
  h.filterMap fun e =>
    match e with
    | .complete _ st => some st
    | _ => none

/-- The accesses of a history, in issue order. -/
def accesses (h : List Event) : List Event :=
  h.filter fun e =>
    match e with
    | .read _ _ => true
    | .write _ _ => true
    | _ => false

/-- A bus answer that acknowledges everything. -/
abbrev allAcks (d : Draw) : Prop := d.line = .ok ∧ d.addr = .ack ∧ d.data = .ack

/-- How many polls and steps a request can take at most, by operation, payload length and budget (rule R302). -/
def stepBound (cfg : Params) (op : SeqOp) (n budget : Nat) : Nat :=
  match op with
  | .sendStart => cfg.startBudget + 4
  | .sendStop => 2
  | .sendData => 3
  | .readData => 3
  | .clearIf => 2
  | .isBusy => 1
  | .setAck => 2
  | .clrAck => 2
  | .waitStatus => budget + 2
  | .waitIdle => budget + 1
  | .configureClock => 1
  | .masterWrite => cfg.idleBudget + cfg.startBudget + (n + 3) * (cfg.waitBudget + 2) + 4 * n + 16
  | .deviceWrite => cfg.idleBudget + cfg.startBudget + 4 * (cfg.waitBudget + 2) + 20
  | .masterRead => cfg.idleBudget + 2 * cfg.startBudget + (n + 5) * (cfg.waitBudget + 2) + 4 * n + 28
  | .deviceRead => cfg.idleBudget + 2 * cfg.startBudget + 6 * (cfg.waitBudget + 2) + 32
  | .init => cfg.resetBudget + 6

/-- The operation, payload length and budget of a request; `none` for a register access. -/
def requestOf : Instr → Option (SeqOp × Nat × Nat)
  | .rdAddr _ => none
  | .wrAddr _ _ => none
  | .rdXaddr _ => none
  | .wrXaddr _ _ => none
  | .rdData _ => none
  | .wrData _ _ => none
  | .rdCntr _ => none
  | .wrCntr _ _ => none
  | .rdStat _ => none
  | .wrStat _ _ => none
  | .rdCcr _ => none
  | .wrCcr _ _ => none
  | .rdSrst _ => none
  | .wrSrst _ _ => none
  | .rdEfr _ => none
  | .wrEfr _ _ => none
  | .rdLcr _ => none
  | .wrLcr _ _ => none
  | .sendStart _ => some (.sendStart, 0, 0)
  | .sendStop _ => some (.sendStop, 0, 0)
  | .sendData _ _ => some (.sendData, 0, 0)
  | .readData _ => some (.readData, 0, 0)
  | .clearIf _ => some (.clearIf, 0, 0)
  | .isBusy _ => some (.isBusy, 0, 0)
  | .setAck _ => some (.setAck, 0, 0)
  | .clrAck _ => some (.clrAck, 0, 0)
  | .waitStatus _ k => some (.waitStatus, 0, k)
  | .waitIdle _ k => some (.waitIdle, 0, k)
  | .configureClock _ _ => some (.configureClock, 0, 0)
  | .masterWrite _ _ _ bs => some (.masterWrite, bs.length, 0)
  | .masterRead _ _ _ n => some (.masterRead, n, 0)
  | .deviceWrite _ _ _ _ => some (.deviceWrite, 1, 0)
  | .deviceRead _ _ _ => some (.deviceRead, 1, 0)
  | .init _ _ _ => some (.init, 0, 0)

end Sys2Proof.Machine
end

