-- ==== Sys2Proof/Certificates/Slice0/Obligations.lean ====
section
/-! DEFINITION. The statements for the provers, from the numbered rules of spec/. `Sys2Proof.Claims` holds the conditions
and shapes they share, and the tables of spec/ written out. A statement over all parameters (00_scope.md rule R6) takes those
that describe a controller (`Params.wf` of WellFormed.lean) as its premise where it needs them. -/

namespace Sys2Proof.Claims

open Sys2Proof.Machine

/-- Instance `b` of `s` is `x`, and its port is free for direct accesses (60_exceptions.md rule R265). -/
abbrev Free (s : State) (b : Nat) (x : Inst) : Prop := s.insts[b]? = some x ∧ x.seq.phase.isRunning = false

/-- Instance `b` of `s` is `x`, in phase Ready (10_state.md rule R42). -/
abbrev Ready (s : State) (b : Nat) (x : Inst) : Prop := s.insts[b]? = some x ∧ x.seq.phase = .ready

/-! The status codes of 30_encoding.md rules R88 and R89, written out from the spec. -/

/-- Every status with its default value (rule R88). -/
def codeTable : List (Status × Nat) :=
  [(.busError, 0x00), (.txStart, 0x08), (.txRstart, 0x10), (.txAwAck, 0x18), (.txAwNak, 0x20), (.mTxdAck, 0x28),
    (.mTxdNak, 0x30), (.arbLost, 0x38), (.txArAck, 0x40), (.txArNak, 0x48), (.mRxdAck, 0x50), (.mRxdNak, 0x58)] ++
  [(.sAwAck, 0x60), (.sArbAwAck, 0x68), (.sGcAck, 0x70), (.sArbGcAck, 0x78), (.sRxdAck, 0x80), (.sRxdNak, 0x88),
    (.sGcdAck, 0x90), (.sGcdNak, 0x98), (.sStop, 0xA0), (.sArAck, 0xA8), (.sArbArAck, 0xB0), (.sTxdAck, 0xB8)] ++
  [(.sTxdNak, 0xC0), (.sLtxdAck, 0xC8), (.tx2AwAck, 0xD0), (.tx2AwNak, 0xD8), (.tx2ArAck, 0xE0), (.tx2ArNak, 0xE8),
    (.idle, 0xF8)]

/-- The set MASTER of rule R89. -/
def masterSet : List Status :=
  [.txStart, .txRstart, .txAwAck, .txAwNak, .mTxdAck, .mTxdNak, .txArAck, .txArNak, .mRxdAck, .mRxdNak]

/-- The set AFTER_START of rule R89. -/
def afterStartSet : List Status := [.txStart, .txRstart]

/-- The set MTX of rule R89. -/
def mtxSet : List Status := [.txAwAck, .txAwNak, .mTxdAck, .mTxdNak]

/-- The set MRX_GO of rule R89. -/
def mrxGoSet : List Status := [.txArAck, .mRxdAck]

/-- The set MRX_END of rule R89. -/
def mrxEndSet : List Status := [.txArNak, .mRxdNak]

/-- The set BYTE_DONE of rule R89. -/
def byteDoneSet : List Status := [.txAwAck, .txAwNak, .mTxdAck, .mTxdNak, .txArAck, .mRxdAck, .txArNak, .mRxdNak]

/-- The statuses a paused core can be in (rules R88 and R36). -/
def pausedSet : List Status := masterSet ++ [.arbLost, .busError]

/-- Bit `j` of a register value in which the number `x` lies in the `width` bits from `lo` up (00_scope.md rule R9). -/
def fieldBit (lo width x j : Nat) : Bool := decide (lo ≤ j) && decide (j < lo + width) && x.testBit (j - lo)

/-- Bit `j` of register `r` is a stored read-write bit (30_encoding.md rule R83). -/
def storedBit (l : Positions) (r : Reg) (j : Nat) : Bool :=
  match r with
  | .addr => (decide (l.sla ≤ j) && decide (j < l.sla + 7)) || j == l.gce
  | .xaddr => decide (l.slax.lo ≤ j) && decide (j < l.slax.lo + l.slax.width)
  | .ccr => (decide (l.clkM.lo ≤ j) && decide (j < l.clkM.lo + l.clkM.width)) ||
      (decide (l.clkN.lo ≤ j) && decide (j < l.clkN.lo + l.clkN.width))
  | .efr => decide (l.dbn.lo ≤ j) && decide (j < l.dbn.lo + l.dbn.width)
  | .lcr => j == l.sdaCtlEn || j == l.sdaCtl || j == l.sclCtlEn || j == l.sclCtl
  | _ => false

/-- A read of register `r` of core `c` returns the written value `v` with every bit that is not stored at 0; the two line
levels of LCR are not spoken of. -/
def ReadsBack (p : Params) (r : Reg) (v : Word) (c : CoreState) : Prop :=
  ∀ (lv : BitVec 2) (j : Nat), j < 32 → (r = .lcr → j ≠ p.pos.sdaState ∧ j ≠ p.pos.sclState) →
    (readWord p lv r c).getLsbD j = (v.getLsbD j && storedBit p.pos r j)

/-- The instance with core `c` and the events `es` added to its history. The note that a timed-out transaction left the action
in flight stays while one is in flight (45_transactions.md rule R237, log entry 25). -/
def withCore (x : Inst) (c : CoreState) (es : List Event) : Inst :=
  { x with core := c, history := x.history ++ es, stranded := c.act.isSome && x.stranded }

/-- The instance after a performed write access of `v` to `r` that left the core `c` and triggered nothing. -/
def wrote (x : Inst) (r : Reg) (v : Word) (c : CoreState) : Inst := withCore x c [.write r v]

/-- The core after a clear write of `v` that triggered `a` (41_bus_engine.md rule R140): the fields of the write, the
latched requests, the flag cleared, and for a receive the copy of A_ACK. -/
def afterTrigger (l : Positions) (v : Word) (a : Action) (c : CoreState) : CoreState :=
  { c with
    intEn := v.getLsbD l.intEn
    busEn := v.getLsbD l.busEn
    mSta := c.mSta || v.getLsbD l.mSta
    mStp := c.mStp || v.getLsbD l.mStp
    aAck := v.getLsbD l.aAck
    iflg := false
    act := some a
    ackTrig := if a = .rxData then v.getLsbD l.aAck else c.ackTrig }

/-- The core after a completion that pauses it in `st` (41_bus_engine.md section 2). -/
def paused (st : Status) (c : CoreState) : CoreState :=
  { c with sta := st, mSta := false, mStp := false, iflg := true, act := none }

/-- The instance after the engine has completed `a`, leaving core `c` with the oracle as in `x'`. -/
def completed (x' : Inst) (a : Action) (c : CoreState) : Inst := withCore x' c [.complete a c.sta]

/-- An action that a timed-out transaction left is in flight (rules R237, R299, log entry 25). -/
abbrev HeldBusy (x : Inst) : Prop := x.stranded = true ∧ x.core.act ≠ none

/-- Issued to instance `b` (which is `x`), request `i` is accepted, and under the schedule `as` it ends with result `r`
posted, the instance being `y` with `h` added to its history and everything else of the machine as it was. -/
def RunsTo (i : Instr) (as : List Agent) (s : State) (b : Nat) (x : Inst) (r : Result) (y : Inst) (h : List Event) : Prop :=
  ∃ t, exec i s = .next t ∧ runSchedule as t = .next (s.setInst b y) ∧
    y.seq.phase = .done ∧ y.seq.res = some r ∧ y.history = x.history ++ h

/-- As `RunsTo`, but the run ends in fault `f`. -/
def FaultsWith (i : Instr) (as : List Agent) (s : State) (f : Fault) : Prop :=
  ∃ t, exec i s = .next t ∧ runSchedule as t = .fault f

/-- The first label of each operation's program (42_clock.md to 45_transactions.md). -/
def firstLabel : SeqOp → Label
  | .sendStart => ⟨.alone, .start1⟩
  | .sendStop => ⟨.alone, .stop1⟩
  | .sendData => ⟨.alone, .data1⟩
  | .readData => ⟨.alone, .read1⟩
  | .clearIf => ⟨.alone, .clear1⟩
  | .isBusy => ⟨.alone, .busy1⟩
  | .setAck => ⟨.alone, .setAck1⟩
  | .clrAck => ⟨.alone, .clrAck1⟩
  | .waitStatus => ⟨.alone, .wait1⟩
  | .waitIdle => ⟨.alone, .idle1⟩
  | .configureClock => ⟨.alone, .clock1⟩
  | .masterWrite => ⟨.t1, .idle1⟩
  | .masterRead => ⟨.t1, .idle1⟩
  | .deviceWrite => ⟨.t1, .idle1⟩
  | .deviceRead => ⟨.t1, .idle1⟩
  | .init => ⟨.n1, .clock1⟩

/-- The registers of `q` hold the operands of request `i` (45_transactions.md rule R230, 43_primitives.md rule R193,
44_status_waiter.md rules R210, R211). A register access has none. -/
def Loaded (i : Instr) (q : Seq) : Prop :=
  match i with
  | .sendData _ v => q.wbuf.map BitVec.toNat = [v]
  | .waitStatus _ k => q.budget = k
  | .waitIdle _ k => q.budget = k
  | .configureClock _ hz => q.hz = hz
  | .masterWrite _ a u bs => q.chip.toNat = a ∧ q.sub.toNat = u ∧ q.n = bs.length ∧ q.wbuf.map BitVec.toNat = bs
  | .masterRead _ a u n => q.chip.toNat = a ∧ q.sub.toNat = u ∧ q.n = n
  | .deviceWrite _ a u v => q.chip.toNat = a ∧ q.sub.toNat = u ∧ q.n = 1 ∧ q.wbuf.map BitVec.toNat = [v]
  | .deviceRead _ a u => q.chip.toNat = a ∧ q.sub.toNat = u ∧ q.n = 1
  | .init _ hz own => q.hz = hz ∧ q.own.map BitVec.toNat = own
  | _ => True

/-- The conditions of a successful eager transaction (95_test_vectors.md section 0) on instance `b`: parameters that describe a
controller, Ready, idle, the bus enabled, every budget at least one poll, and the next `k` bus answers `ds` acknowledging everything. -/
def EagerStart (s : State) (b : Nat) (x : Inst) (ds rest : List Draw) (k : Nat) : Prop :=
  s.params.wf ∧ Ready s b x ∧ x.core.isIdle ∧ x.core.canTrigger ∧
    1 ≤ s.params.idleBudget ∧ 1 ≤ s.params.startBudget ∧ 1 ≤ s.params.waitBudget ∧
    x.script = ds ++ rest ∧ ds.length = k ∧ (∀ d ∈ ds, allAcks d)

/-- The status the wait at each step of a transaction expects: the EXPECT of 45_transactions.md rules R231 to R234. -/
def expects : Place → Option Status
  | .t3 => some .txStart
  | .t5 => some .txAwAck
  | .t7 => some .mTxdAck
  | .w10 => some .mTxdAck
  | .r9 => some .txRstart
  | .r11 => some .txArAck
  | .r15 => some .mRxdAck
  | .r19 => some .mRxdNak
  | .d15 => some .mRxdAck
  | _ => none

/-- The step after the wait at place `p` returned what it expects: the next label of the program of operation `op` and the
byte index there (45_transactions.md rules R231 to R234). -/
def afterExpected (op : Option SeqOp) (p : Place) (i : Nat) : Option (Label × Nat) :=
  match p with
  | .t3 => some (⟨.t4, .data1⟩, i)
  | .t5 => some (⟨.t6, .data1⟩, i)
  | .t7 => if op = some .masterRead ∨ op = some .deviceRead then some (⟨.r8, .start1⟩, 0) else some (⟨.w8, .test⟩, 0)
  | .w10 => some (⟨.w8, .test⟩, i + 1)
  | .r9 => some (⟨.r10, .data1⟩, i)
  | .r11 => some (⟨.r12, .setAck1⟩, i)
  | .r15 => some (⟨.r16, .fetch⟩, i)
  | .r19 => some (⟨.r20, .fetch⟩, i)
  | .d15 => some (⟨.d16, .fetch⟩, i)
  | _ => none

/-- The statuses in which the primitive or test at each place of a transaction finds the core paused (45_transactions.md
rules R231 to R234): those the EXPECT before it let through. -/
def needs : Place → List Status
  | .t4 => [.txStart]
  | .t6 => [.txAwAck]
  | .w8 | .w9 | .w11 | .r8 => [.mTxdAck]
  | .r10 => [.txRstart]
  | .r12 | .d14 => [.txArAck]
  | .r13 | .r14 | .r17 | .r18 => [.txArAck, .mRxdAck]
  | .r16 | .d16 | .d21 => [.mRxdAck]
  | .r20 | .r21 => [.mRxdNak]
  | .abort => pausedSet
  | _ => []

/-- The core is paused in one of the statuses of a list. -/
abbrev PausedIn (sts : List Status) (c : CoreState) : Prop := ∃ st ∈ sts, c.isPausedIn st

/-- What a wait of a transaction waits for: an action that ends in a pause is in flight, or it has ended. -/
abbrev Awaited (c : CoreState) : Prop :=
  (c.act ∉ [none, some .stop, some .release, some .berrRelease] ∧ c.iflg = false ∧ c.rstPending = false) ∨
    PausedIn pausedSet c

/-- The core suits the label `l` of a transaction's program: what the step there will find, whatever the bus answered. -/
abbrev CoreSuits (cfg : Params) (l : Label) (w : WaitResult) (c : CoreState) : Prop :=
  match l.micro with
  | .idle1 => c.isIdle
  | .start1 => if l.place = .t2 then c.isIdle else PausedIn (needs l.place) c
  | .start2 => if l.place = .t2 then c.isIdle else PausedIn (needs l.place) c
  | .start3 => Awaited c
  | .start4 => Awaited c
  | .wait1 => Awaited c
  | .wait2 => PausedIn pausedSet c
  | .wait3 => Awaited c ∧ (w.timedOut = false → ∃ st ∈ pausedSet, c.isPausedIn st ∧ w.status = statusCode cfg st)
  | _ => PausedIn (needs l.place) c

/-- A transaction's sequencer and its core suit each other: the transaction has ended; or it runs one of the four programs
with registers that meet the sequencer's invariant, triggers are allowed, a CNTR value about to be written back is the one the
core holds, and the core suits the label. -/
def Suits (cfg : Params) (x : Inst) : Prop :=
  match x.seq.phase with
  | .ready => False
  | .done => True
  | .running l =>
      (∃ op ∈ transactions, x.seq.op = some op) ∧ x.seq.inv cfg ∧ x.core.canTrigger ∧
      (l.micro ∈ [Micro.start2, .stop2, .data3, .clear2, .setAck2, .clrAck2] → x.seq.c = readWord cfg 0#2 .cntr x.core) ∧
      CoreSuits cfg l x.seq.w x.core

/-- The instance a command of the host names (20_memory.md rules R60, R61). -/
def busOf (p : Params) : HostCmd → Option Nat
  | .instr tm =>
      match decode p.off tm with
      | .ok i => some i.bus
      | .error _ => none
  | .port b _ _ _ => some b
  | .mem addr _ _ => windowOf p addr
  | .take b => some b

/-- The instance an agent's step is made on (60_exceptions.md rule R272): the one whose sequencer or engine it is, and for
the host the one its next command names. -/
def actsOn (s : State) : Agent → Option Nat
  | .host =>
      match s.inbox with
      | [] => none
      | cmd :: _ => busOf s.params cmd
  | .seq b => some b
  | .eng b => some b
  | .reset b => some b
  | .slave b => some b
  | .wait => none

/-- What an outcome shows of instance `b`: the instance after it, or the fault or refusal. -/
def seenAt (b : Nat) (o : Out State) : Out (Option Inst) := Out.bind o fun t => .next t.insts[b]?

end Sys2Proof.Claims

open Sys2Proof Sys2Proof.Machine Sys2Proof.Claims

/-! Reset, decoding and the step -/

/-- 10_state.md rule R43, 00_scope.md rule R6, 20_memory.md rule R62, 30_encoding.md rules R83, R88: the registers after
power-on, and the parameters there. The values are the spec's general-knowledge defaults (log entry 10), but for STAT's, IDLE's
code and the clock configurator's constants; the address width is the model's (log entry 21). -/
def Obligations.ResetHoldsTheGivenValues : Prop :=
  State.reset.insts.length = 5 ∧ State.reset.faulted = [] ∧ State.reset.refused = [] ∧
  (∀ x ∈ State.reset.insts,
    (∀ lv,
      let reads := fun r => readWord State.reset.params lv r x.core
      reads .addr = 0 ∧ reads .xaddr = 0 ∧ reads .data = 0 ∧ reads .cntr = 0 ∧ reads .stat = 0xF8#32 ∧
      reads .ccr = 0 ∧ reads .srst = 0 ∧ reads .efr = 0 ∧ (reads .lcr).toNat = 16 * lv.toNat + 0xA) ∧
    x.core.act = none ∧ x.core.rstPending = false ∧ x.core.ackTrig = false) ∧
  (let p := State.reset.params;
    p.off = { addr := 0x00, xaddr := 0x04, data := 0x08, cntr := 0x0C, stat := 0x10, ccr := 0x14, srst := 0x18,
              efr := 0x1C, lcr := 0x20 } ∧
    p.pos = { sla := 1, gce := 0, slax := ⟨0, 8⟩, data := 0, intEn := 7, busEn := 6, mSta := 5, mStp := 4, iflg := 3,
              aAck := 2, sta := 0, clkM := ⟨3, 4⟩, clkN := ⟨0, 3⟩, softRst := 0, dbn := ⟨0, 2⟩, sdaCtlEn := 0,
              sdaCtl := 1, sclCtlEn := 2, sclCtl := 3, sdaState := 4, sclState := 5 } ∧
    (∀ e ∈ codeTable, (statusCode p e.1).toNat = e.2) ∧ (∀ st, st ∈ codeTable.map Prod.fst) ∧
    p.bases = [0x01C2AC00, 0x01C2B000, 0x01C2B400, 0x01C2B800, 0x01C2BC00] ∧ p.blockSize = 0x400 ∧ p.addrBits = 32 ∧
    p.fIn = 24000000 ∧ p.predivShift = 3 ∧ p.clkNVal = 3 ∧ p.iflgW1c = false ∧ p.stopOnAbort = true ∧
    p.deviceReadAckLast = false)

/-- 10_state.md rules R36, R43, R44, 70_reset_and_hazards.md rule R290: after power-on a machine of any number of instances
with any parameters that describe a controller meets the invariant, its cores idle with CNTR 0 and its sequencers Ready; the
reset state is the one with the default parameters. -/
def Obligations.ResetIsReadyAndMeetsTheInvariant : Prop :=
  (∀ (p : Params) (n : Nat), p.wf → p.bases.length = n → (State.powerOn p n).inv) ∧
  (∀ (p : Params) (n : Nat), ∀ x ∈ (State.powerOn p n).insts,
    x.core.isIdle ∧ (∀ lv, readWord p lv .cntr x.core = 0) ∧
    x.seq.phase = .ready ∧ x.seq.op = none ∧ x.seq.res = none ∧ x.history = []) ∧
  State.reset = State.powerOn Config.defaults 5 ∧ State.reset.inv

/-- 10_state.md rules R36, R40, R41: every step keeps the invariant of the cores and of the sequencers' programs. -/
def Obligations.StepKeepsTheInvariant : Prop :=
  ∀ s t : State, s.inv → step s = .next t → t.inv

/-- 60_exceptions.md rule R262, 41_bus_engine.md rule R142: from a state that meets the invariant, no step reads an unwritten
buffer entry or finds the trigger table without a row. -/
def Obligations.UnreachableFaultsAreNeverRaised : Prop :=
  ∀ s : State, s.inv → step s ≠ .fault .unwrittenBuffer ∧ step s ≠ .fault .noTriggerRow

/-- 30_encoding.md rules R80 to R82: decoding the encoding of any instruction gives it back. The byte layout of an access
word and the term form of a request are the model's (log entries 11 and 12). The offsets are any that describe a register map
(20_memory.md rule R62). -/
def Obligations.DecodeOfEncodeIsTheInstruction : Prop :=
  ∀ (o : Offsets) (i : Instr), o.wf → decode o (encode o i) = .ok i

/-- 30_encoding.md rules R80, R81, R90: an access word that decodes is the encoding of what it decodes to, so each word has
one meaning and no bit is dropped. -/
def Obligations.EncodeOfDecodedWordIsTheWord : Prop :=
  ∀ (o : Offsets) (b : Nat) (w : AccessWord) (i : Instr),
    decodeWord o b w = .ok i → encode o i = .word b (bytesOfWord w)

/-- 30_encoding.md rule R80 and 95_test_vectors.md: words written out in the spec decode to what they stand for. -/
def Obligations.WordsOfTheSpecDecode : Prop :=
  decodeTableWord 48 0x10C00000060 = some (.wrCntr 0 0x60#32) ∧
  decodeTableWord 48 0x00C00000000 = some (.rdCntr 0) ∧
  decodeTableWord 48 0x108000000B0 = some (.wrData 0 0xB0#32) ∧
  decodeTableWord 48 0x01000000000 = some (.rdStat 0) ∧
  decodeTableWord 48 0x02000000000 = some (.rdLcr 0) ∧
  decodeTableWord 48 0x100FFFFFF02 = some (.wrAddr 0 0xFFFFFF02#32) ∧
  decodeTableWord 48 0x00C00000001 = none ∧
  decodeTableWord 48 0x12400000000 = none

/-- 30_encoding.md rule R81: `OFF` selects the register and `W` read or write; a read word with non-zero data and a word
at an unmapped offset are rejected. -/
def Obligations.AccessWordsDecodeByOffsetAndDirection : Prop :=
  ∀ (o : Offsets) (b : Nat) (w : AccessWord), o.wf →
    (∀ r : Reg, (w.extractLsb' 32 8).toNat = r.offset o →
      (w.getLsbD 40 = true → decodeWord o b w = .ok (writeOf r b (w.extractLsb' 0 32))) ∧
      (w.getLsbD 40 = false → w.extractLsb' 0 32 = 0 → decodeWord o b w = .ok (readOf r b)) ∧
      (w.getLsbD 40 = false → w.extractLsb' 0 32 ≠ 0 → decodeWord o b w = .error .readWithData)) ∧
    ((∀ r : Reg, (w.extractLsb' 32 8).toNat ≠ r.offset o) → decodeWord o b w = .error .unmappedOffset)

/-- 00_scope.md rule R8: where the host is to move and the term it issues decodes to `i`, the step is `exec i` on the state
with the command taken off the queue and the turn off the schedule; so it is for a word placed by `withFetchWord` where the
offsets are the table's. A term that decodes to nothing is refused (30_encoding.md rules R81, R91, 60_exceptions.md rule R264): a
word for its instance first, then as unmappedOffset or, under the model's own name, malformedWord (log entry 22); a request as
malformedRequest (log entry 12). A word at an offset that is no multiple of 4 is one at an unmapped offset (log entry 27). -/
def Obligations.StepRunsTheDecodedInstruction : Prop :=
  (∀ (s : State) (tm : Term) (i : Instr) (rest : List HostCmd) (sc : List Agent),
    s.faulted = [] → s.refused = [] → s.inbox = .instr tm :: rest → s.sched = .host :: sc →
    decode s.params.off tm = .ok i →
    step s = exec i { s with inbox := rest, sched := sc }) ∧
  (∀ (s : State) (b : Nat) (bs : List Byte) (e : DecodeError) (rest : List HostCmd) (sc : List Agent),
    s.faulted = [] → s.refused = [] → s.inbox = .instr (.word b bs) :: rest → s.sched = .host :: sc →
    decode s.params.off (.word b bs) = .error e →
    (s.insts.length ≤ b → step s = .refused .badInstance) ∧
    (b < s.insts.length → e = .unmappedOffset → step s = .refused .unmappedOffset) ∧
    (b < s.insts.length → e ≠ .unmappedOffset → step s = .refused .malformedWord)) ∧
  (∀ (s : State) (op : SeqOp) (os : List Operand) (e : DecodeError) (rest : List HostCmd) (sc : List Agent),
    s.faulted = [] → s.refused = [] → s.inbox = .instr (.request op os) :: rest → s.sched = .host :: sc →
    decode s.params.off (.request op os) = .error e → step s = .refused .malformedRequest) ∧
  (∀ (s : State) (nbits w : Nat) (i : Instr),
    s.faulted = [] → s.refused = [] → s.params.off = Config.offsets → decodeTableWord nbits w = some i →
    step (s.withFetchWord nbits w) = exec i s)

/-- 60_exceptions.md rule R262: a marked machine has no step. -/
def Obligations.MarkedMachineHasNoStep : Prop :=
  ∀ s : State, (s.faulted ≠ [] ∨ s.refused ≠ []) → ∀ t, step s ≠ .next t

/-- 40_register_access.md rule R110 steps 1 to 3, 60_exceptions.md rule R264: the checks of a raw access in their order;
one that passes them is the access of its register. -/
def Obligations.RawAccessChecksInOrder : Prop :=
  ∀ (s : State) (b width off : Nat) (value : Option Word) (rest : List HostCmd) (sc : List Agent),
    s.faulted = [] → s.refused = [] → s.inbox = .port b width off value :: rest → s.sched = .host :: sc →
    (s.insts.length ≤ b → step s = .refused .badInstance) ∧
    (b < s.insts.length → width ≠ 32 → step s = .refused .badWidth) ∧
    (b < s.insts.length → width = 32 → off % 4 ≠ 0 → step s = .refused .misaligned) ∧
    (b < s.insts.length → width = 32 → off % 4 = 0 → (∀ r : Reg, off ≠ r.offset s.params.off) →
      step s = .refused .unmappedOffset) ∧
    (∀ r : Reg, s.params.off.wf → b < s.insts.length → width = 32 → off = r.offset s.params.off →
      (value = none → step s = exec (readOf r b) { s with inbox := rest, sched := sc }) ∧
      (∀ v, value = some v → step s = exec (writeOf r b v) { s with inbox := rest, sched := sc }))

/-- 00_scope.md rule R10, 20_memory.md rules R60, R62, R63: an access of four bytes at `BASE(i)` plus the offset of a register
is the access of that register of instance `i`; any other access in the window of an instance that exists is refused for its
width, its alignment or its offset. That an address in no window or beyond the host bus's width is refused is the model's
choice (log entries 13 and 21), as is the reading of a length as a width (log entry 20). -/
def Obligations.AbsoluteAccessesReachTheirRegister : Prop :=
  ∀ (s : State) (addr len : Nat) (value : Option Word) (rest : List HostCmd) (sc : List Agent),
    s.faulted = [] → s.refused = [] → s.inbox = .mem addr len value :: rest → s.sched = .host :: sc →
    s.params.windowsOk → s.params.off.wf →
    (∀ (i base : Nat) (r : Reg), s.params.bases[i]? = some base → i < s.insts.length → addr = base + r.offset s.params.off →
      len = 4 →
      (value = none → step s = exec (readOf r i) { s with inbox := rest, sched := sc }) ∧
      (∀ v, value = some v → step s = exec (writeOf r i v) { s with inbox := rest, sched := sc })) ∧
    (∀ i base : Nat, s.params.bases[i]? = some base → base ≤ addr → addr < base + s.params.blockSize →
      (s.insts.length ≤ i → step s = .refused .badInstance) ∧
      (i < s.insts.length → len ≠ 4 → step s = .refused .badWidth) ∧
      (i < s.insts.length → len = 4 → (addr - base) % 4 ≠ 0 → step s = .refused .misaligned) ∧
      (i < s.insts.length → len = 4 → (addr - base) % 4 = 0 → (∀ r : Reg, addr ≠ base + r.offset s.params.off) →
        step s = .refused .unmappedOffset)) ∧
    ((∀ base ∈ s.params.bases, addr < base ∨ base + s.params.blockSize ≤ addr) → step s = .refused .unmappedAddress) ∧
    (2 ^ s.params.addrBits ≤ addr → step s = .refused .unmappedAddress)

/-- 20_memory.md rule R61, 45_transactions.md rule R230: every instruction of an instance out of range is refused. -/
def Obligations.BadInstanceIsRefused : Prop :=
  ∀ (i : Instr) (s : State), s.insts.length ≤ i.bus → exec i s = .refused .badInstance

/-- 60_exceptions.md rule R265: a direct access while the sequencer runs, and a request while the phase is not Ready, are
refused. That the port check comes before the one for a pending soft reset, so that such a write is refused and does not fault
(40_register_access.md rule R110 step 4), is the model's reading (log entry 15). -/
def Obligations.OneRequesterAtATime : Prop :=
  ∀ (i : Instr) (s : State) (x : Inst), s.insts[i.bus]? = some x →
    (requestOf i = none → x.seq.phase.isRunning = true → exec i s = .refused .portContention) ∧
    (requestOf i ≠ none → x.seq.phase ≠ .ready → exec i s = .refused .concurrentRequest)

/-! Register accesses -/

/-- 40_register_access.md rules R111, R113, R115, R119, R121, R123, R125: each read returns its fields where 30_encoding.md rule
R83 puts them, every other bit 0, records the access, and changes nothing else. At the default positions the value is the number
the rule gives; at the default codes a STAT value is the one of rule R88's table. -/
def Obligations.ReadsReturnTheirFields : Prop :=
  ∀ (s : State) (b : Nat) (x : Inst), Free s b x → x.core.fieldsFit s.params.pos →
    let l := s.params.pos
    let c := x.core
    let reads := fun (i : Instr) (r : Reg) (bit : Nat → Bool) (n : Nat) =>
      ∃ v : Word, exec i s = .next (s.setInst b (x.log [.read r v])) ∧ (∀ j, j < 32 → v.getLsbD j = bit j) ∧
        (l = Config.positions → v.toNat = n)
    reads (.rdAddr b) .addr (fun j => fieldBit l.sla 7 c.sla.toNat j || (j == l.gce && c.gce))
      (2 * c.sla.toNat + c.gce.toNat) ∧
    reads (.rdXaddr b) .xaddr (fun j => fieldBit l.slax.lo l.slax.width c.slax.toNat j) c.slax.toNat ∧
    reads (.rdData b) .data (fun j => fieldBit l.data 8 c.data.toNat j) c.data.toNat ∧
    reads (.rdStat b) .stat (fun j => fieldBit l.sta 8 (statusCode s.params c.sta).toNat j) (statusCode s.params c.sta).toNat ∧
    (s.params.codes = Config.codes → (c.sta, (statusCode s.params c.sta).toNat) ∈ codeTable) ∧
    reads (.rdCcr b) .ccr (fun j => fieldBit l.clkM.lo l.clkM.width c.clkM.toNat j ||
      fieldBit l.clkN.lo l.clkN.width c.clkN.toNat j) (8 * c.clkM.toNat + c.clkN.toNat) ∧
    reads (.rdSrst b) .srst (fun j => j == l.softRst && c.rstPending) c.rstPending.toNat ∧
    reads (.rdEfr b) .efr (fun j => fieldBit l.dbn.lo l.dbn.width c.dbn.toNat j) c.dbn.toNat

/-- 40_register_access.md rule R117 with the bit positions of 30_encoding.md rule R83: every bit of a CNTR read. -/
def Obligations.CntrReadShowsEveryBit : Prop :=
  ∀ (s : State) (b : Nat) (x : Inst), Free s b x → s.params.pos.wf →
    let l := s.params.pos
    ∃ v : Word, exec (.rdCntr b) s = .next (s.setInst b (x.log [.read .cntr v])) ∧
      v.getLsbD l.intEn = x.core.intEn ∧ v.getLsbD l.busEn = x.core.busEn ∧ v.getLsbD l.mSta = x.core.mSta ∧
      v.getLsbD l.mStp = x.core.mStp ∧ v.getLsbD l.iflg = x.core.iflg ∧ v.getLsbD l.aAck = x.core.aAck ∧
      (∀ j, j ∉ [l.intEn, l.busEn, l.mSta, l.mStp, l.iflg, l.aAck] → v.getLsbD j = false)

/-- 40_register_access.md rule R127: an LCR read returns the stored bits below two drawn line levels, whatever they are, and
uses one draw. -/
def Obligations.LcrReadDrawsTheLevels : Prop :=
  ∀ (s : State) (b : Nat) (x : Inst), Free s b x → s.params.pos.wf →
    let l := s.params.pos
    ∃ v : Word, exec (.rdLcr b) s = .next (s.setInst b (x.useDraw.log [.read .lcr v])) ∧
      v.getLsbD l.sdaCtlEn = x.core.sdaCtlEn ∧ v.getLsbD l.sdaCtl = x.core.sdaCtl ∧
      v.getLsbD l.sclCtlEn = x.core.sclCtlEn ∧ v.getLsbD l.sclCtl = x.core.sclCtl ∧
      v.getLsbD l.sdaState = (x.nextDraw b).levels.getLsbD 0 ∧ v.getLsbD l.sclState = (x.nextDraw b).levels.getLsbD 1 ∧
      (∀ j, j ∉ [l.sdaCtlEn, l.sdaCtl, l.sclCtlEn, l.sclCtl, l.sdaState, l.sclState] → v.getLsbD j = false) ∧
      (l = Config.positions → v.extractLsb' 4 2 = (x.nextDraw b).levels) ∧
      x.useDraw.core = x.core ∧ x.useDraw.seq = x.seq ∧ x.useDraw.history = x.history

/-- 40_register_access.md rules R112, R114, R122, R126, R128 with the positions of 30_encoding.md rule R83: each storing write
changes its own fields only, and a read after it returns the written value with the bits that are reserved or read-only masked
off; at the default positions the masks are those of the rules. -/
def Obligations.StoringWritesReadBackMasked : Prop :=
  ∀ (s : State) (b : Nat) (x : Inst) (v : Word), Free s b x → x.core.rstPending = false → s.params.pos.wf →
    let p := s.params
    let back := fun (r : Reg) (mask : Word) (c : CoreState) =>
      ReadsBack p r v c ∧
      (p.pos = Config.positions → ∀ lv, readWord p lv r c &&& (if r = .lcr then 0xF#32 else 0xFFFFFFFF#32) = v &&& mask)
    (∃ sla gce, exec (.wrAddr b v) s = .next (s.setInst b (wrote x .addr v { x.core with sla := sla, gce := gce })) ∧
      back .addr 0xFF#32 { x.core with sla := sla, gce := gce }) ∧
    (∃ slax, exec (.wrXaddr b v) s = .next (s.setInst b (wrote x .xaddr v { x.core with slax := slax })) ∧
      back .xaddr 0xFF#32 { x.core with slax := slax }) ∧
    (∃ m n, exec (.wrCcr b v) s = .next (s.setInst b (wrote x .ccr v { x.core with clkM := m, clkN := n })) ∧
      back .ccr 0x7F#32 { x.core with clkM := m, clkN := n }) ∧
    (∃ n, exec (.wrEfr b v) s = .next (s.setInst b (wrote x .efr v { x.core with dbn := n })) ∧
      back .efr 0x3#32 { x.core with dbn := n }) ∧
    (∃ e0 e1 e2 e3,
      exec (.wrLcr b v) s = .next (s.setInst b (wrote x .lcr v
        { x.core with sdaCtlEn := e0, sdaCtl := e1, sclCtlEn := e2, sclCtl := e3 })) ∧
      back .lcr 0xF#32 { x.core with sdaCtlEn := e0, sdaCtl := e1, sclCtlEn := e2, sclCtl := e3 })

/-- 40_register_access.md rule R116: a DATA write stores the byte at DATA's place, bits 7:0 by default, and faults while an
action is in flight. -/
def Obligations.DataWriteStoresOrFaults : Prop :=
  ∀ (s : State) (b : Nat) (x : Inst) (v : Word), Free s b x → x.core.rstPending = false →
    (x.core.act = none →
      exec (.wrData b v) s = .next (s.setInst b (wrote x .data v { x.core with data := v.extractLsb' s.params.pos.data 8 }))) ∧
    (x.core.act ≠ none → exec (.wrData b v) s = .fault .writeDataInFlight)

/-- 40_register_access.md rule R120: a STAT write is accepted and ignored, during a soft reset too. -/
def Obligations.StatWriteIsIgnored : Prop :=
  ∀ (s : State) (b : Nat) (x : Inst) (v : Word), Free s b x →
    exec (.wrStat b v) s = .next (s.setInst b (wrote x .stat v x.core))

/-- 41_bus_engine.md rule R157, 40_register_access.md rule R124: a write of 1 to SOFT_RST starts a soft reset, which keeps
everything it does not name; a write of 0 has no effect. -/
def Obligations.SrstWriteStartsSoftReset : Prop :=
  ∀ (s : State) (b : Nat) (x : Inst) (v : Word), Free s b x → x.core.rstPending = false →
    (v.getLsbD s.params.pos.softRst = true → exec (.wrSrst b v) s = .next (s.setInst b (wrote x .srst v
      { x.core with act := none, iflg := false, mSta := false, mStp := false, sta := .idle, rstPending := true }))) ∧
    (v.getLsbD s.params.pos.softRst = false → exec (.wrSrst b v) s = .next (s.setInst b (wrote x .srst v x.core)))

/-- 40_register_access.md rule R110 step 4: while a soft reset is pending every write but one to STAT faults. -/
def Obligations.WritesDuringResetFault : Prop :=
  ∀ (s : State) (b : Nat) (x : Inst) (r : Reg) (v : Word), Free s b x → x.core.rstPending = true → r ≠ .stat →
    exec (writeOf r b v) s = .fault .writeDuringReset

/-- 41_bus_engine.md rule R143: a CNTR write in idle stores its fields; a START request triggers START and drops a STOP
request, a STOP request alone is dropped, and the flag bit has no effect. -/
def Obligations.IdleWriteTriggersStartOnly : Prop :=
  ∀ (s : State) (b : Nat) (x : Inst) (v : Word), Free s b x → x.core.isIdle →
    (v.getLsbD s.params.pos.mSta = true → v.getLsbD s.params.pos.busEn = true → x.core.dbn = 0#32 → x.core.sdaCtlEn = false → x.core.sclCtlEn = false →
      exec (.wrCntr b v) s = .next (s.setInst b (withCore x
        { x.core with intEn := v.getLsbD s.params.pos.intEn, busEn := true, aAck := v.getLsbD s.params.pos.aAck, mSta := true,
                      mStp := false, act := some .start }
        [.write .cntr v, .trigger .start]))) ∧
    (v.getLsbD s.params.pos.mSta = false →
      exec (.wrCntr b v) s = .next (s.setInst b (wrote x .cntr v
        { x.core with intEn := v.getLsbD s.params.pos.intEn, busEn := v.getLsbD s.params.pos.busEn, aAck := v.getLsbD s.params.pos.aAck })))

/-- 10_state.md rules R30, R32, 41_bus_engine.md rule R140: a write that is not a clear write leaves a paused core paused; its
fields are stored and its requests latched. -/
def Obligations.NonClearWriteStaysPaused : Prop :=
  ∀ (s : State) (b : Nat) (x : Inst) (v : Word), Free s b x → x.core.rstPending = false → x.core.act = none →
    x.core.iflg = true → v.getLsbD s.params.pos.iflg ≠ s.params.iflgW1c →
    exec (.wrCntr b v) s = .next (s.setInst b (wrote x .cntr v
      { x.core with intEn := v.getLsbD s.params.pos.intEn, busEn := v.getLsbD s.params.pos.busEn, aAck := v.getLsbD s.params.pos.aAck,
                    mSta := x.core.mSta || v.getLsbD s.params.pos.mSta, mStp := x.core.mStp || v.getLsbD s.params.pos.mStp }))

/-- 41_bus_engine.md rules R140, R142: what a clear write triggers, row by row of the trigger table, with the requests
latched by earlier writes or by this one. The sets are those of 30_encoding.md rule R89, written out in `Claims`. -/
def Obligations.ClearWriteFollowsTheTriggerTable : Prop :=
  ∀ (s : State) (b : Nat) (x : Inst) (v : Word), Free s b x → x.core.rstPending = false → x.core.act = none →
    x.core.iflg = true → v.getLsbD s.params.pos.iflg = s.params.iflgW1c → v.getLsbD s.params.pos.busEn = true → x.core.dbn = 0#32 →
    x.core.sdaCtlEn = false → x.core.sclCtlEn = false →
    let sta := x.core.mSta || v.getLsbD s.params.pos.mSta
    let stp := x.core.mStp || v.getLsbD s.params.pos.mStp
    let st := x.core.sta
    let gives := fun a : Action => exec (.wrCntr b v) s = .next (s.setInst b
      (withCore x (afterTrigger s.params.pos v a x.core) [.write .cntr v, .trigger a]))
    let faults := fun f : Fault => exec (.wrCntr b v) s = .fault f
    (st ∈ masterSet → sta = true → stp = true → gives .stopStart) ∧
    (st ∈ masterSet → sta = false → stp = true → gives .stop) ∧
    (st ∈ byteDoneSet → sta = true → stp = false → gives .rstart) ∧
    (st ∈ afterStartSet → sta = true → stp = false → faults .startWithoutByte) ∧
    (st ∈ afterStartSet → sta = false → stp = false → gives (.txAddr x.core.data)) ∧
    (st ∈ mtxSet → sta = false → stp = false → gives (.txData x.core.data)) ∧
    (st ∈ mrxGoSet → sta = false → stp = false → gives .rxData) ∧
    (st ∈ mrxEndSet → sta = false → stp = false → faults .releaseAfterNak) ∧
    (st = .arbLost → sta = false → gives .release) ∧
    (st = .arbLost → sta = true → gives .arbStart) ∧
    (st = .busError → sta = false → stp = true → gives .berrRelease) ∧
    (st = .busError → sta = true → faults .startInBusError) ∧
    (st = .busError → sta = false → stp = false → faults .releaseInBusError)

/-- 41_bus_engine.md rule R152: the preconditions of a trigger, in their order, on the values after the write, for a clear
write and for a START request in idle. -/
def Obligations.TriggerPreconditionsInOrder : Prop :=
  ∀ (s : State) (b : Nat) (x : Inst) (v : Word), Free s b x → x.core.rstPending = false → x.core.act = none →
    ((x.core.iflg = true ∧ v.getLsbD s.params.pos.iflg = s.params.iflgW1c) ∨ (x.core.iflg = false ∧ v.getLsbD s.params.pos.mSta = true)) →
    (v.getLsbD s.params.pos.busEn = false → exec (.wrCntr b v) s = .refused .busDisabled) ∧
    (v.getLsbD s.params.pos.busEn = true → x.core.dbn ≠ 0#32 → exec (.wrCntr b v) s = .refused .extFeature) ∧
    (v.getLsbD s.params.pos.busEn = true → x.core.dbn = 0#32 → (x.core.sdaCtlEn = true ∨ x.core.sclCtlEn = true) →
      exec (.wrCntr b v) s = .refused .lineControl)

/-- 41_bus_engine.md rule R153: a CNTR write while an action is in flight. -/
def Obligations.CntrWriteInFlightKeepsTheAction : Prop :=
  ∀ (s : State) (b : Nat) (x : Inst) (v : Word), Free s b x → x.core.rstPending = false → x.core.act ≠ none →
    (v.getLsbD s.params.pos.busEn = false → exec (.wrCntr b v) s = .refused .busDisableInFlight) ∧
    (v.getLsbD s.params.pos.busEn = true → ((v.getLsbD s.params.pos.mSta = true ∧ x.core.mSta = false) ∨ (v.getLsbD s.params.pos.mStp = true ∧ x.core.mStp = false)) →
      exec (.wrCntr b v) s = .fault .requestInFlight) ∧
    (v.getLsbD s.params.pos.busEn = true → (v.getLsbD s.params.pos.mSta = true → x.core.mSta = true) → (v.getLsbD s.params.pos.mStp = true → x.core.mStp = true) →
      exec (.wrCntr b v) s = .next (s.setInst b (wrote x .cntr v
        { x.core with intEn := v.getLsbD s.params.pos.intEn, aAck := v.getLsbD s.params.pos.aAck })))

/-- 10_state.md rule R30: no instruction and no sequencer step sets INT_FLAG. -/
def Obligations.SoftwareNeverSetsTheFlag : Prop :=
  ∀ (s t : State) (b : Nat) (x y : Inst), s.insts[b]? = some x → t.insts[b]? = some y → y.core.iflg = true →
    ((∃ i, exec i s = .next t) ∨ (∃ j, agentStep (.seq j) s = .next t)) → x.core.iflg = true

/-- 10_state.md rule R25: among instructions and sequencer steps only the start of a soft reset changes STAT. -/
def Obligations.OnlySoftResetChangesStatBesideTheEngine : Prop :=
  ∀ (s t : State) (b : Nat) (x y : Inst), s.insts[b]? = some x → t.insts[b]? = some y →
    (∀ i, exec i s = .next t → (∀ v, i ≠ .wrSrst b v) → y.core.sta = x.core.sta) ∧
    (∀ j, agentStep (.seq j) s = .next t → (∀ p, x.seq.phase ≠ .running ⟨p, .softReset⟩) → y.core.sta = x.core.sta)

/-! The engine -/

/-- 41_bus_engine.md rules R144, R145: the completion of START, RSTART, STOP_START and ARB_START, for every answer. -/
def Obligations.StartCompletionsReportTheirStatus : Prop :=
  ∀ (s : State) (b : Nat) (x : Inst) (a : Action), s.insts[b]? = some x → x.core.act = some a →
    a ∈ [Action.start, .rstart, .stopStart, .arbStart] →
    agentStep (.eng b) s = .next (s.setInst b (completed x.useDraw a (paused
      (match (x.nextDraw b).line with
        | .ok => if a = .rstart then .txRstart else .txStart
        | .arb => .arbLost
        | .berr => .busError) x.core)))

/-- 41_bus_engine.md rules R146, R151: the completion of an address byte, by the answer and the direction bit. With A_ACK = 0
an ARB_ADDRESSED answer is not admissible and stands for plain arbitration loss (log entry 16). -/
def Obligations.AddressCompletionReportsTheAcknowledge : Prop :=
  ∀ (s : State) (b : Nat) (x : Inst) (a : Byte), s.insts[b]? = some x → x.core.act = some (.txAddr a) →
    let o := (x.nextDraw b).addr
    let ends := fun st : Status =>
      agentStep (.eng b) s = .next (s.setInst b (completed x.useDraw (.txAddr a) (paused st x.core)))
    (o = .ack → a.getLsbD 0 = false → ends .txAwAck) ∧ (o = .ack → a.getLsbD 0 = true → ends .txArAck) ∧
    (o = .nak → a.getLsbD 0 = false → ends .txAwNak) ∧ (o = .nak → a.getLsbD 0 = true → ends .txArNak) ∧
    (o = .arb → ends .arbLost) ∧ (o = .berr → ends .busError) ∧
    (o = .arbAddressed → x.core.aAck = true → agentStep (.eng b) s = .refused .slaveMode) ∧
    (o = .arbAddressed → x.core.aAck = false → ends .arbLost)

/-- 41_bus_engine.md rule R147: the completion of a receive. Where A_ACK was not changed in flight, which copy counts is
immaterial. -/
def Obligations.ReceiveCompletionStoresAndAcknowledges : Prop :=
  ∀ (s : State) (b : Nat) (x : Inst), s.insts[b]? = some x → x.core.act = some .rxData →
    let d := x.nextDraw b
    let ends := fun (st : Status) (c : CoreState) =>
      agentStep (.eng b) s = .next (s.setInst b (completed x.useDraw .rxData (paused st c)))
    (d.line = .ok → d.ackNow = false →
      ends (if x.core.ackTrig then .mRxdAck else .mRxdNak) { x.core with data := d.byte }) ∧
    (d.line = .ok → d.ackNow = true → ends (if x.core.aAck then .mRxdAck else .mRxdNak) { x.core with data := d.byte }) ∧
    (d.line = .ok → x.core.ackTrig = x.core.aAck →
      ends (if x.core.aAck then .mRxdAck else .mRxdNak) { x.core with data := d.byte }) ∧
    (d.line = .arb → ends .arbLost { x.core with data := d.byte }) ∧
    (d.line = .berr → ends .busError x.core)

/-- 41_bus_engine.md rule R148: the completion of a data byte. -/
def Obligations.DataCompletionReportsTheAcknowledge : Prop :=
  ∀ (s : State) (b : Nat) (x : Inst) (a : Byte), s.insts[b]? = some x → x.core.act = some (.txData a) →
    agentStep (.eng b) s = .next (s.setInst b (completed x.useDraw (.txData a) (paused
      (match (x.nextDraw b).data with
        | .ack => .mTxdAck
        | .nak => .mTxdNak
        | .arb => .arbLost
        | .berr => .busError) x.core)))

/-- 41_bus_engine.md rules R149, R150: STOP, RELEASE and BERR_RELEASE end in idle, leave the flag as it is and draw nothing. -/
def Obligations.StopAndReleasesEndInIdle : Prop :=
  ∀ (s : State) (b : Nat) (x : Inst) (a : Action), s.insts[b]? = some x → x.core.act = some a →
    a ∈ [Action.stop, .release, .berrRelease] →
    agentStep (.eng b) s = .next (s.setInst b (completed x a
      { x.core with sta := .idle, mSta := false, mStp := false, act := none }))

/-- 41_bus_engine.md rule R158: the reset completion; before it SRST reads 1, after it 0. -/
def Obligations.ResetCompletionEndsTheReset : Prop :=
  ∀ (s : State) (b : Nat) (x : Inst), s.insts[b]? = some x → s.params.pos.wf → x.core.rstPending = true →
    agentStep (.reset b) s = .next (s.setInst b (withCore x { x.core with rstPending := false } [.resetDone])) ∧
    (∀ lv, (readWord s.params lv .srst x.core).getLsbD s.params.pos.softRst = true ∧
      readWord s.params lv .srst { x.core with rstPending := false } = 0#32)

/-- 41_bus_engine.md rule R151, step 2: being addressed as a slave is refused, exactly where the step is enabled. -/
def Obligations.SlaveAddressedStepIsRefused : Prop :=
  ∀ (s : State) (b : Nat) (x : Inst), s.insts[b]? = some x →
    (agentStep (.slave b) s = .refused .slaveMode ↔
      x.core.act = none ∧ x.core.iflg = false ∧ x.core.rstPending = false ∧ x.core.busEn = true ∧ x.core.aAck = true)

/-! Requests -/

/-- 45_transactions.md rule R230: a request with operands in range is accepted in phase Ready: it runs from its first label
with its operands in fresh registers, and neither core nor history change. -/
def Obligations.ValidRequestsAreAccepted : Prop :=
  ∀ (i : Instr) (s : State) (x : Inst) (op : SeqOp) (n k : Nat), Ready s i.bus x → requestOf i = some (op, n, k) →
    i.operandsInRange s.params.nMax = true →
    ∃ q : Seq, exec i s = .next (s.setInst i.bus { x with seq := q }) ∧ q.phase = .running (firstLabel op) ∧
      q.op = some op ∧ q.res = none ∧ q.rbuf = [] ∧ Loaded i q

/-- 45_transactions.md rule R230: a request with an operand out of range ends at once in `Fail(Invalid, 0x00)`, with no
access. -/
def Obligations.InvalidRequestsFail : Prop :=
  ∀ (i : Instr) (s : State) (x : Inst) (op : SeqOp) (n k : Nat), Ready s i.bus x → requestOf i = some (op, n, k) →
    i.operandsInRange s.params.nMax = false →
    ∃ q : Seq, exec i s = .next (s.setInst i.bus { x with seq := q }) ∧ q.phase = .done ∧
      q.res = some (.fail .invalid 0#8)

/-- 43_primitives.md rule R191: SEND_START from idle and from a paused byte, the START completing before the first poll, after
any number of polls within the budget, or never. -/
def Obligations.SendStartRequestsAStart : Prop :=
  ∀ (s : State) (b : Nat) (x : Inst), Ready s b x → s.params.wf → x.core.canTrigger →
    (x.core.isIdle → (x.nextDraw b).line = .ok → 1 ≤ s.params.startBudget →
      ∃ y h, RunsTo (.sendStart b) (eager b 4) s b x (.ok 0 []) y h ∧ (accesses h).length = 3 ∧
        busTrace h = [.start] ∧ y.core = { x.core with sta := .txStart, iflg := true }) ∧
    (∀ st ∈ byteDoneSet, x.core.isPausedIn st → (x.nextDraw b).line = .ok → 1 ≤ s.params.startBudget →
      ∃ y h, RunsTo (.sendStart b) (eager b 4) s b x (.ok 0 []) y h ∧ (accesses h).length = 3 ∧
        busTrace h = [.rstart] ∧ y.core = { x.core with sta := .txRstart }) ∧
    (∀ j, j < s.params.startBudget → (x.nextDraw b).line = .ok →
      (x.core.isIdle →
        ∃ y h, RunsTo (.sendStart b) (seqOnly b (2 + j) ++ .eng b :: seqOnly b 2) s b x (.ok 0 []) y h ∧
          (accesses h).length = 3 + j ∧ busTrace h = [.start] ∧ y.core = { x.core with sta := .txStart, iflg := true }) ∧
      (∀ st ∈ byteDoneSet, x.core.isPausedIn st →
        ∃ y h, RunsTo (.sendStart b) (seqOnly b (2 + j) ++ .eng b :: seqOnly b 2) s b x (.ok 0 []) y h ∧
          (accesses h).length = 3 + j ∧ busTrace h = [.rstart] ∧ y.core = { x.core with sta := .txRstart })) ∧
    (x.core.isIdle →
      ∃ y h, RunsTo (.sendStart b) (seqOnly b (s.params.startBudget + 4)) s b x (.ok 0 []) y h ∧
        (accesses h).length = 2 + s.params.startBudget ∧ y.core = { x.core with mSta := true, act := some .start })

/-- 43_primitives.md rule R192: SEND_STOP in every situation it can be called in. -/
def Obligations.SendStopRequestsAStop : Prop :=
  ∀ (s : State) (b : Nat) (x : Inst), Ready s b x → s.params.wf → x.core.canTrigger →
    (∀ st a, x.core.isPausedIn st →
      ((st ∈ masterSet ∧ a = .stop) ∨ (st = .busError ∧ a = .berrRelease) ∨ (st = .arbLost ∧ a = Action.release)) →
      ∃ y h, RunsTo (.sendStop b) (seqOnly b 2) s b x (.ok 0 []) y h ∧ (accesses h).length = 2 ∧ busTrace h = [a] ∧
        y.core = { x.core with iflg := false, mStp := true, act := some a }) ∧
    (x.core.isIdle → ∃ y h, RunsTo (.sendStop b) (seqOnly b 2) s b x (.ok 0 []) y h ∧ busTrace h = [] ∧ y.core = x.core) ∧
    (x.core.act ≠ none → x.core.rstPending = false → x.core.mStp = false →
      FaultsWith (.sendStop b) (seqOnly b 2) s .requestInFlight)

/-- 43_primitives.md rule R193: SEND_DATA sends an address or a data byte, or starts a receive; it stores the byte in idle
and faults after a NAKed receive and while an action is in flight. -/
def Obligations.SendDataSendsTheByte : Prop :=
  ∀ (s : State) (b value : Nat) (x : Inst), Ready s b x → s.params.wf → x.core.canTrigger → x.core.rstPending = false → value ≤ 0xFF →
    let byte := BitVec.ofNat 8 value
    let sends := fun (a : Action) (ack : Bool) =>
      ∃ y h, RunsTo (.sendData b value) (seqOnly b 3) s b x (.ok 1 []) y h ∧ (accesses h).length = 3 ∧ busTrace h = [a] ∧
        y.core = { x.core with data := byte, iflg := false, act := some a, ackTrig := ack }
    (∀ st ∈ afterStartSet, x.core.isPausedIn st → sends (.txAddr byte) x.core.ackTrig) ∧
    (∀ st ∈ mtxSet, x.core.isPausedIn st → sends (.txData byte) x.core.ackTrig) ∧
    (∀ st ∈ mrxGoSet, x.core.isPausedIn st → sends .rxData x.core.aAck) ∧
    (∀ st ∈ mrxEndSet, x.core.isPausedIn st →
      FaultsWith (.sendData b value) (seqOnly b 3) s .releaseAfterNak) ∧
    (x.core.isIdle → ∃ y h, RunsTo (.sendData b value) (seqOnly b 3) s b x (.ok 1 []) y h ∧ busTrace h = [] ∧
      y.core = { x.core with data := byte }) ∧
    (x.core.act ≠ none → FaultsWith (.sendData b value) (seqOnly b 1) s .writeDataInFlight)

/-- 43_primitives.md rule R194: READ_DATA returns the byte and starts the next receive; after a NAKed receive it faults. -/
def Obligations.ReadDataReturnsTheByte : Prop :=
  ∀ (s : State) (b : Nat) (x : Inst), Ready s b x → s.params.wf → x.core.canTrigger →
    (x.core.isPausedIn .mRxdAck →
      ∃ y h, RunsTo (.readData b) (seqOnly b 3) s b x (.ok 1 [x.core.data]) y h ∧ (accesses h).length = 3 ∧
        busTrace h = [.rxData] ∧
        y.core = { x.core with iflg := false, act := some .rxData, ackTrig := x.core.aAck }) ∧
    (x.core.isPausedIn .mRxdNak → FaultsWith (.readData b) (seqOnly b 3) s .releaseAfterNak)

/-- 43_primitives.md rule R195: CLEAR_IF lets a paused core proceed and has no effect in idle. -/
def Obligations.ClearIfLetsTheCoreProceed : Prop :=
  ∀ (s : State) (b : Nat) (x : Inst), Ready s b x → s.params.wf → x.core.canTrigger →
    (∀ st a, x.core.isPausedIn st →
      ((st ∈ afterStartSet ∧ a = .txAddr x.core.data) ∨ (st ∈ mtxSet ∧ a = .txData x.core.data) ∨
        (st ∈ mrxGoSet ∧ a = .rxData) ∨ (st = .arbLost ∧ a = Action.release)) →
      ∃ y h, RunsTo (.clearIf b) (seqOnly b 2) s b x (.ok 0 []) y h ∧ (accesses h).length = 2 ∧ busTrace h = [a] ∧
        y.core = { x.core with iflg := false, act := some a,
                               ackTrig := if a = .rxData then x.core.aAck else x.core.ackTrig }) ∧
    (x.core.isIdle → ∃ y h, RunsTo (.clearIf b) (seqOnly b 2) s b x (.ok 0 []) y h ∧ busTrace h = [] ∧ y.core = x.core)

/-- 43_primitives.md rule R196: IS_BUSY is one STAT read, false exactly for IDLE, whatever the core does. -/
def Obligations.IsBusyTellsIdleFromTheRest : Prop :=
  ∀ (s : State) (b : Nat) (x : Inst), Ready s b x → s.params.wf →
    ∃ y h, RunsTo (.isBusy b) (seqOnly b 1) s b x (.ok 0 [if x.core.sta = .idle then 0x00#8 else 0x01#8]) y h ∧
      (accesses h).length = 1 ∧ y.core = x.core

/-- 43_primitives.md rules R197, R198: SET_ACK and CLR_ACK write A_ACK alone, paused, idle or in flight; the flag stays. -/
def Obligations.AckPrimitivesWriteAAckOnly : Prop :=
  ∀ (s : State) (b : Nat) (x : Inst), Ready s b x → s.params.wf → x.core.rstPending = false →
    ((∃ st, x.core.isPausedIn st) ∨ x.core.isIdle ∨ (x.core.act ≠ none ∧ x.core.busEn = true)) →
    (∃ y h, RunsTo (.setAck b) (seqOnly b 2) s b x (.ok 0 []) y h ∧ (accesses h).length = 2 ∧ busTrace h = [] ∧
      y.core = { x.core with aAck := true }) ∧
    (∃ y h, RunsTo (.clrAck b) (seqOnly b 2) s b x (.ok 0 []) y h ∧ (accesses h).length = 2 ∧ busTrace h = [] ∧
      y.core = { x.core with aAck := false })

/-- 44_status_waiter.md rule R210: WAIT_STATUS returns the status once the flag is seen, at the first poll or after `j` polls and
the engine's step that sets it, and times out after exactly its budget of polls while the flag is not set, with the synthetic
BUS_ERROR code (log entry 24); it changes nothing. -/
def Obligations.WaitStatusReturnsOrTimesOut : Prop :=
  ∀ (s : State) (b budget : Nat) (x : Inst), Ready s b x → s.params.wf →
    (x.core.iflg = true → 1 ≤ budget →
      ∃ y h, RunsTo (.waitStatus b budget) (seqOnly b 3) s b x (.ok 0 [statusCode s.params x.core.sta]) y h ∧
        (accesses h).length = 2 ∧ y.core = x.core) ∧
    (∀ (j : Nat) (u : State) (z : Inst), x.core.iflg = false → j < budget →
      agentStep (.eng b) s = .next u → u.insts[b]? = some z → z.core.iflg = true →
      ∃ y h, RunsTo (.waitStatus b budget) (seqOnly b j ++ .eng b :: seqOnly b 3) s b x
          (.ok 0 [statusCode s.params z.core.sta]) y h ∧
        (accesses h).length = j + 2 ∧ y.core = z.core) ∧
    (x.core.iflg = false ∨ budget = 0 →
      ∃ y h, RunsTo (.waitStatus b budget) (seqOnly b (budget + 2)) s b x
        (.fail .timeout (statusCode s.params .busError)) y h ∧
        (accesses h).length = budget ∧ y.core = x.core)

/-- 44_status_waiter.md rule R211: WAIT_IDLE succeeds at an IDLE it reads, at the first poll or after `j` polls and the engine's
step that makes the core idle, and fails Busy with the last status read after exactly its budget of polls; so T1 of a transaction
goes on or fails (45_transactions.md rule R237). THE MODEL'S CHOICE (log entry 25): where a timed-out transaction has left an action
in flight both fail Busy, also where that action is a START from idle and STAT reads IDLE; rule R237 and 70_reset_and_hazards.md
rule R299 say so, while the program of rule R211 by itself would succeed. With no poll the status is BUS_ERROR's code. -/
def Obligations.WaitIdleSucceedsOrFailsBusy : Prop :=
  ∀ (s : State) (b : Nat) (x : Inst), Ready s b x → s.params.wf →
    let busy := fun (i : Instr) (budget : Nat) =>
      ∃ y h, RunsTo i (seqOnly b (budget + 1)) s b x
          (.fail .busy (statusCode s.params (if budget = 0 then .busError else x.core.sta))) y h ∧
        (accesses h).length = budget ∧ y.core = x.core
    (∀ budget, x.core.sta = .idle → ¬ HeldBusy x → 1 ≤ budget →
      ∃ y h, RunsTo (.waitIdle b budget) (seqOnly b 1) s b x (.ok 0 []) y h ∧
        (accesses h).length = 1 ∧ y.core = x.core) ∧
    (∀ (j : Nat) (u : State) (z : Inst), x.core.sta ≠ .idle ∨ HeldBusy x ∨ j = 0 →
      agentStep (.eng b) s = .next u → u.insts[b]? = some z → z.core.sta = .idle → z.core.act = none →
      (∀ budget, j < budget →
        ∃ y h, RunsTo (.waitIdle b budget) (seqOnly b j ++ [.eng b, .seq b]) s b x (.ok 0 []) y h ∧
          (accesses h).length = j + 1 ∧ y.core = z.core) ∧
      (∀ (i : Instr) (op : SeqOp) (n k : Nat), i.bus = b → requestOf i = some (op, n, k) → op ∈ transactions →
        i.operandsInRange s.params.nMax = true → j < s.params.idleBudget →
        ∃ t v y, exec i s = .next t ∧ runSchedule (seqOnly b j ++ [.eng b, .seq b]) t = .next v ∧ v.insts[b]? = some y ∧
          y.seq.phase = .running ⟨.t2, .start1⟩ ∧ y.core = z.core)) ∧
    (∀ budget, x.core.sta ≠ .idle ∨ HeldBusy x ∨ budget = 0 → busy (.waitIdle b budget) budget) ∧
    (∀ (i : Instr) (op : SeqOp) (n k : Nat), i.bus = b → requestOf i = some (op, n, k) → op ∈ transactions →
      i.operandsInRange s.params.nMax = true →
      x.core.sta ≠ .idle ∨ HeldBusy x ∨ s.params.idleBudget = 0 → busy i s.params.idleBudget)

/-- 42_clock.md rules R180, R181: CONFIGURE_CLOCK makes one write, of the divider cut to CLK_M and of CLK_N, and nothing
else; the write faults while a soft reset is pending; a zero rate is invalid and makes none. -/
def Obligations.ConfigureClockWritesTheDivider : Prop :=
  ∀ (s : State) (b hz : Nat) (x : Inst), Ready s b x → s.params.pos.wf →
    let l := s.params.pos
    let m := s.params.fIn / 2 ^ s.params.predivShift / hz
    (hz ≠ 0 → x.core.rstPending = false →
      ∃ y h v, RunsTo (.configureClock b hz) (seqOnly b 1) s b x (.ok 0 []) y h ∧ h = [.write .ccr v] ∧
        (∀ j, j < 32 → v.getLsbD j =
          (fieldBit l.clkM.lo l.clkM.width m j || fieldBit l.clkN.lo l.clkN.width s.params.clkNVal j)) ∧
        (l = Config.positions → v.toNat = 8 * (m % 16) + s.params.clkNVal % 8) ∧
        y.seq.m = m ∧ y.seq.nv = s.params.clkNVal ∧
        y.core = { x.core with
          clkM := BitVec.ofNat 32 (m % 2 ^ l.clkM.width)
          clkN := BitVec.ofNat 32 (s.params.clkNVal % 2 ^ l.clkN.width) }) ∧
    (hz ≠ 0 → x.core.rstPending = true → FaultsWith (.configureClock b hz) (seqOnly b 1) s .writeDuringReset) ∧
    (∃ y, RunsTo (.configureClock b 0) [] s b x (.fail .invalid 0#8) y [] ∧ y.core = x.core)

/-- 42_clock.md rule R182: the bounds of the computed divider where it is at least 1. -/
def Obligations.DividerIsWithinRounding : Prop :=
  ∀ (p : Params) (hz : Nat), 0 < hz → 1 ≤ divider p hz →
    let k := p.fIn >>> p.predivShift
    let m := divider p hz
    k < hz * (m + 1) ∧ hz * m ≤ k ∧ hz ≤ k / m ∧ (k / m - hz) * (m * (m + 1)) < k

/-- 45_transactions.md rule R235: INIT from an idle core, from a paused one (decision D50: its soft reset puts no STOP on the bus)
and with an action in flight (and so the bus enabled) that has not ended when the reset abandons it; the reset completing
after `j` polls within RESET_BUDGET, from none on, or not within it. With and without an own address. That the timeout carries
BUS_ERROR's code where that is not the 0x00 of the rule is the model's reading (log entry 24). With a soft reset already pending the first write
faults; and where a data byte completes between N2 and N3 the N3 write clears its flag unseen and sends the next one
(70_reset_and_hazards.md rule R299). -/
def Obligations.InitProgramsTheInstance : Prop :=
  ∀ (s : State) (b hz : Nat) (own : Option Nat) (x : Inst), Ready s b x → s.params.wf → 0 < hz → (∀ a ∈ own, a ≤ 0x7F) →
    let m := s.params.fIn / 2 ^ s.params.predivShift / hz
    let after : CoreState := { x.core with
      busEn := true
      clkM := BitVec.ofNat 32 (m % 2 ^ s.params.pos.clkM.width)
      clkN := BitVec.ofNat 32 (s.params.clkNVal % 2 ^ s.params.pos.clkN.width)
      act := none
      iflg := false
      mSta := false
      mStp := false
      sta := .idle }
    (x.core.rstPending = false →
      (x.core.isIdle ∨ (∃ st, x.core.isPausedIn st) ∨ (x.core.act ≠ none ∧ x.core.busEn = true)) →
      (∀ j, j < s.params.resetBudget →
        ∃ y h, RunsTo (.init b hz own) (seqOnly b (4 + j) ++ .reset b :: seqOnly b 2) s b x (.ok 0 []) y h ∧
          busTrace h = [] ∧
          (accesses h).length = (match own with
            | none => 5 + j
            | some _ => 6 + j) ∧
          y.core = (match own with
            | none => after
            | some a => { after with sla := BitVec.ofNat 7 a, gce := false })) ∧
      (∃ y h, RunsTo (.init b hz own) (seqOnly b (s.params.resetBudget + 5)) s b x
          (.fail .timeout (statusCode s.params .busError)) y h ∧ busTrace h = [] ∧
        (accesses h).length = 4 + s.params.resetBudget ∧ y.core = { after with rstPending := true })) ∧
    (x.core.rstPending = true → FaultsWith (.init b hz own) (seqOnly b 1) s .writeDuringReset) ∧
    (∀ v, x.core.act = some (.txData v) → x.core.rstPending = false → x.core.iflg = false → x.core.mSta = false →
      x.core.mStp = false → x.core.canTrigger → s.params.iflgW1c = false → (x.nextDraw b).data = .ack →
      ∃ t u y, exec (.init b hz own) s = .next t ∧ runSchedule (seqOnly b 2 ++ [.eng b, .seq b]) t = .next u ∧
        u.insts[b]? = some y ∧ y.core.act = some (.txData x.core.data))

/-- 45_transactions.md rules R231, R238: an eager MASTER_WRITE whose every byte is acknowledged succeeds with its bus trace and
`18 + 5n` accesses, and leaves the core idle. -/
def Obligations.MasterWriteSucceeds : Prop :=
  ∀ (s : State) (b chip sub : Nat) (bytes : List Nat) (x : Inst) (ds rest : List Draw),
    EagerStart s b x ds rest (bytes.length + 3) → chip ≤ 0x7F → sub ≤ 0xFF → (∀ v ∈ bytes, v ≤ 0xFF) →
    bytes.length ≤ s.params.nMax →
    ∃ k y h, RunsTo (.masterWrite b chip sub bytes) (eager b k) s b x (.ok bytes.length []) y h ∧
      (accesses h).length = 18 + 5 * bytes.length ∧
      busTrace h = [.start, .txAddr (BitVec.ofNat 8 (2 * chip)), .txData (BitVec.ofNat 8 sub)] ++
        bytes.map (fun v => .txData (BitVec.ofNat 8 v)) ++ [.stop] ∧
      y.core.isIdle ∧ y.script = rest

/-- 45_transactions.md rules R232, R238: an eager MASTER_READ succeeds with the bytes the slave drove, `32 + 5n` accesses, its
bus trace, every byte but the last acknowledged and the last not. -/
def Obligations.MasterReadSucceeds : Prop :=
  ∀ (s : State) (b chip sub n : Nat) (x : Inst) (ds rest : List Draw),
    EagerStart s b x ds rest (n + 5) → chip ≤ 0x7F → sub ≤ 0xFF → 1 ≤ n → n ≤ s.params.nMax →
    ∃ k y h, RunsTo (.masterRead b chip sub n) (eager b k) s b x (.ok n ((ds.drop 5).map Draw.byte)) y h ∧
      (accesses h).length = 32 + 5 * n ∧
      busTrace h = [.start, .txAddr (BitVec.ofNat 8 (2 * chip)), .txData (BitVec.ofNat 8 sub), .rstart,
        .txAddr (BitVec.ofNat 8 (2 * chip + 1))] ++ List.replicate n .rxData ++ [.stop] ∧
      completions h = [.txStart, .txAwAck, .mTxdAck, .txRstart, .txArAck] ++ List.replicate (n - 1) .mRxdAck ++
        [.mRxdNak, .idle] ∧
      y.core.isIdle ∧ y.core.aAck = false ∧ y.script = rest

/-- 45_transactions.md rules R233, R234: DEVICE_WRITE is MASTER_WRITE of one byte, in 23 accesses; DEVICE_READ returns one
byte, in 37 accesses with the byte NAKed or, under `DEVICE_READ_ACK_LAST`, in 35 with it ACKed. -/
def Obligations.DeviceTransactionsSucceed : Prop :=
  (∀ (s : State) (b chip sub value : Nat) (x : Inst) (ds rest : List Draw),
    EagerStart s b x ds rest 4 → chip ≤ 0x7F → sub ≤ 0xFF → value ≤ 0xFF →
    ∃ k y h, RunsTo (.deviceWrite b chip sub value) (eager b k) s b x (.ok 1 []) y h ∧ (accesses h).length = 23 ∧
      busTrace h = [.start, .txAddr (BitVec.ofNat 8 (2 * chip)), .txData (BitVec.ofNat 8 sub),
        .txData (BitVec.ofNat 8 value), .stop] ∧ y.core.isIdle) ∧
  (∀ (s : State) (b chip sub : Nat) (x : Inst) (ds rest : List Draw) (d : Draw),
    EagerStart s b x (ds ++ [d]) rest 6 → chip ≤ 0x7F → sub ≤ 0xFF →
    ∃ k y h, RunsTo (.deviceRead b chip sub) (eager b k) s b x (.ok 1 [d.byte]) y h ∧
      (accesses h).length = (if s.params.deviceReadAckLast then 35 else 37) ∧
      busTrace h = [.start, .txAddr (BitVec.ofNat 8 (2 * chip)), .txData (BitVec.ofNat 8 sub), .rstart,
        .txAddr (BitVec.ofNat 8 (2 * chip + 1)), .rxData, .stop] ∧
      completions h = [.txStart, .txAwAck, .mTxdAck, .txRstart, .txArAck,
        if s.params.deviceReadAckLast then .mRxdAck else .mRxdNak, .idle] ∧ y.core.isIdle)

/-- 44_status_waiter.md rules R212, R213: EXPECT after a wait in a transaction, and the abort that a mismatch leads to. What
`exp` holds is the code of the status 45_transactions.md rules R231 to R234 give for the step, and where it was seen the program
goes on at the step they give. The code of a timeout is BUS_ERROR's, where the rule writes its default 0x00 (log entry 24). The
action it leaves in flight is noted (45_transactions.md rule R237, log entry 25). The result of the abort's inline SEND_STOP is
bound to a local (43_primitives.md rule R190, log entry 26). -/
def Obligations.ExpectAbortsOnAnyMismatch : Prop :=
  ∀ (s : State) (b : Nat) (x : Inst) (p : Place), s.insts[b]? = some x →
    (∀ st l i, x.seq.phase = .running ⟨p, .wait3⟩ → expects p = some st → afterExpected x.seq.op p x.seq.i = some (l, i) →
      (s.inv → x.seq.exp = statusCode s.params st) ∧
      (x.seq.w.timedOut = true → agentStep (.seq b) s = .next (s.setInst b
        { x with seq := { x.seq with phase := .done, res := some (.fail .timeout (statusCode s.params .busError)) },
                 stranded := x.core.act.isSome || x.stranded })) ∧
      (x.seq.w.timedOut = false → x.seq.w.status ≠ x.seq.exp → s.params.stopOnAbort = true →
        agentStep (.seq b) s = .next (s.setInst b { x with seq := { x.seq with phase := .running ⟨.abort, .stop1⟩ } })) ∧
      (x.seq.w.timedOut = false → x.seq.w.status ≠ x.seq.exp → s.params.stopOnAbort = false →
        agentStep (.seq b) s = .next (s.setInst b
          { x with seq := { x.seq with phase := .done, res := some (.fail .mismatch x.seq.w.status) } })) ∧
      (x.seq.w.timedOut = false → x.seq.w.status = x.seq.exp →
        agentStep (.seq b) s = .next (s.setInst b { x with seq := { x.seq with phase := .running l, i := i } }))) ∧
    (∀ st a, x.seq.phase = .running ⟨.abort, .stop1⟩ → s.params.wf → x.core.canTrigger → x.core.isPausedIn st →
      ((st ∈ masterSet ∧ a = .stop) ∨ (st = .busError ∧ a = .berrRelease) ∨ (st = .arbLost ∧ a = Action.release)) →
      ∃ y h, runSchedule (seqOnly b 2) s = .next (s.setInst b y) ∧ y.seq.phase = .done ∧
        y.seq.res = some (.fail .mismatch x.seq.w.status) ∧ y.seq.bound = some (.ok 0 []) ∧ y.history = x.history ++ h ∧
        busTrace h = [a] ∧ y.core = { x.core with iflg := false, mStp := true, act := some a })

/-- 45_transactions.md rules R231, R232, 70_reset_and_hazards.md rule R302: a transaction begun on an idle, enabled core never
faults, whatever the bus answers and whenever its completions come; the only refusal it can meet is that of slave mode. The
step lemma: its sequencer and core suit each other when it is accepted, and every step of the instance's sequencer and engine
keeps that or is refused slaveMode. -/
def Obligations.TransactionsNeverFault : Prop :=
  (∀ (i : Instr) (s t : State) (x : Inst) (op : SeqOp) (n k : Nat),
    Ready s i.bus x → s.params.wf → x.core.isIdle → x.core.canTrigger → requestOf i = some (op, n, k) → op ∈ transactions →
    exec i s = .next t → ∃ y, t = s.setInst i.bus y ∧ Suits s.params y) ∧
  (∀ (s : State) (b : Nat) (x : Inst) (a : Agent), s.params.wf → s.insts[b]? = some x → Suits s.params x →
    a ∈ [Agent.seq b, .eng b, .reset b, .slave b] →
    (∃ y, agentStep a s = .next (s.setInst b y) ∧ Suits s.params y) ∨ agentStep a s = .refused .slaveMode) ∧
  (∀ (i : Instr) (s t : State) (x : Inst) (op : SeqOp) (n k : Nat) (as : List Agent),
    Ready s i.bus x → s.params.wf → x.core.isIdle → x.core.canTrigger → requestOf i = some (op, n, k) → op ∈ transactions →
    exec i s = .next t → (∀ a ∈ as, a ∈ [Agent.seq i.bus, .eng i.bus, .reset i.bus, .slave i.bus]) →
    (∃ u, runSchedule as t = .next u) ∨ runSchedule as t = .refused .slaveMode)

/-- 70_reset_and_hazards.md rule R302, 44_status_waiter.md rules R210, R211: under every schedule that gives the sequencer as
many steps as the budgets and the payload length allow, an accepted request has ended. `stepBound` is the model's own closed
form of the bound the rule speaks of. -/
def Obligations.RequestsEndWithinABound : Prop :=
  ∀ (i : Instr) (s t u : State) (op : SeqOp) (n k : Nat) (as : List Agent) (y : Inst),
    requestOf i = some (op, n, k) → exec i s = .next t → Agent.host ∉ as →
    stepBound s.params op n k ≤ as.count (.seq i.bus) → runSchedule as t = .next u → u.insts[i.bus]? = some y →
    y.seq.phase = .done

/-- 45_transactions.md rule R230: taking the posted result returns the phase to Ready and makes every sequencer register
unwritten again. -/
def Obligations.TakingTheResultFreesTheSequencer : Prop :=
  ∀ (s : State) (b : Nat) (x : Inst) (r : Result) (rest : List HostCmd) (sc : List Agent),
    s.faulted = [] → s.refused = [] → s.inbox = .take b :: rest → s.sched = .host :: sc →
    s.insts[b]? = some x → x.seq.phase = .done → x.seq.res = some r →
    step s = .next (State.setInst { s with inbox := rest, sched := sc } b
      { x with seq := Seq.unwritten, history := x.history ++ [.taken r] })

/-! The whole machine -/

/-- 60_exceptions.md rule R272, 20_memory.md rule R61: a step on one instance never writes another, and never reads another.
The instance is that of the agent, or of the host's next command; where the schedule leaves the agent open it is one of the
enabled ones (log entry 2). A step changes neither the parameters nor the number of instances. -/
def Obligations.InstancesAreIndependent : Prop :=
  (∀ (a : Agent) (s t : State), agentStep a s = .next t →
    t.params = s.params ∧ t.insts.length = s.insts.length ∧
    ∀ b : Nat, actsOn s a ≠ some b → t.insts[b]? = s.insts[b]?) ∧
  (∀ s t : State, step s = .next t →
    t.params = s.params ∧ t.insts.length = s.insts.length ∧
    ∃ a : Agent, (s.sched.head? = some a ∨ (s.sched = [] ∧ (a = .wait ∨ a ∈ enabledAgents s))) ∧
      ∀ b : Nat, actsOn s a ≠ some b → t.insts[b]? = s.insts[b]?) ∧
  (∀ (a : Agent) (s u : State) (b : Nat) (x : Inst), s.params = u.params → s.inbox = u.inbox →
    s.insts[b]? = some x → u.insts[b]? = some x → actsOn s a = some b →
    seenAt b (agentStep a s) = seenAt b (agentStep a u))

/-- 20_memory.md rule R68, 10_state.md rule R41: a step only adds to an instance's history, and at most one access. -/
def Obligations.HistoryGrowsByAtMostOneAccess : Prop :=
  ∀ (s t : State) (b : Nat) (x y : Inst), step s = .next t → s.insts[b]? = some x → t.insts[b]? = some y →
    ∃ h, y.history = x.history ++ h ∧ (accesses h).length ≤ 1

/-- 10_state.md rule R38, 60_exceptions.md rule R263: the interrupt line is INT_EN and IFLG. The sequencer and the engine never
raise INT_EN, so it stays 0 in every run the sequencer drives. -/
def Obligations.InterruptLineStaysLow : Prop :=
  (∀ c : CoreState, c.irq = true ↔ c.intEn = true ∧ c.iflg = true) ∧
  (∀ (a : Agent) (s t : State) (b : Nat) (x y : Inst), s.params.pos.wf → a ≠ .host → agentStep a s = .next t →
    s.insts[b]? = some x → t.insts[b]? = some y → x.core.intEn = false →
    x.seq.c.getLsbD s.params.pos.intEn = false →
    y.core.intEn = false ∧ y.seq.c.getLsbD s.params.pos.intEn = false ∧ y.core.irq = false)
end

