-- ==== Sys2Proof/Laws/Layout.lean ====
section
/-! SUPPORT. The bits of a register value whose fields lie where the parameters put them: one lemma per form, and that a field
read from a register value is the field that was put there. -/

namespace Sys2Proof.Machine

section Bits
variable (p lo width j : Nat) (b : Bool) (v x : Word)

theorem bitMask_getLsbD : (bitMask p).getLsbD j = (decide (p < 32) && decide (p = j)) := by
  simp [bitMask, BitVec.getLsbD_twoPow]

theorem putBit_getLsbD : (putBit p b).getLsbD j = (b && decide (p < 32) && decide (p = j)) := by
  cases b <;> simp [putBit, bitMask_getLsbD]

theorem onesMask_getLsbD : (onesMask width).getLsbD j = (decide (j < 32) && decide (j < width)) := by
  simp [onesMask, BitVec.getLsbD_ofNat, Nat.testBit_two_pow_sub_one]

theorem putByte_getLsbD (d : Byte) :
    (putByte lo d).getLsbD j = (decide (j < 32) && decide (lo ≤ j) && d.getLsbD (j - lo)) := by
  by_cases hj : j < 32 <;> by_cases hl : lo ≤ j
  · simp [putByte, hj, hl, Nat.not_lt.mpr hl]
  · simp [putByte, hj, hl, Nat.not_le.mp hl]
  · simp [putByte, hj]
  · simp [putByte, hj]

theorem putSeven_getLsbD (a : BitVec 7) :
    (putSeven lo a).getLsbD j = (decide (j < 32) && decide (lo ≤ j) && a.getLsbD (j - lo)) := by
  by_cases hj : j < 32 <;> by_cases hl : lo ≤ j
  · simp [putSeven, hj, hl, Nat.not_lt.mpr hl]
  · simp [putSeven, hj, hl, Nat.not_le.mp hl]
  · simp [putSeven, hj]
  · simp [putSeven, hj]

theorem getField_getLsbD (f : Field) :
    (getField f v).getLsbD j = (decide (j < 32) && decide (j < f.width) && v.getLsbD (f.lo + j)) := by
  simp only [getField, BitVec.getLsbD_and, BitVec.getLsbD_ushiftRight, onesMask_getLsbD]
  rw [Bool.and_comm]

theorem putField_getLsbD (f : Field) :
    (putField f x).getLsbD j =
      (decide (j < 32) && decide (f.lo ≤ j) && decide (j - f.lo < f.width) && x.getLsbD (j - f.lo)) := by
  simp only [putField, BitVec.getLsbD_shiftLeft, BitVec.getLsbD_and, onesMask_getLsbD]
  by_cases hj : j < 32 <;> by_cases hl : f.lo ≤ j
  · simp only [hj, hl, Nat.not_lt.mpr hl, show j - f.lo < 32 by omega, decide_true, decide_false, Bool.not_false,
      Bool.true_and]
    rw [Bool.and_comm]
  · simp [hl, Nat.not_le.mp hl]
  · simp [hj]
  · simp [hj]

/-- A byte put where it fits is read back. -/
theorem getByte_putByte (d : Byte) (h : lo + 8 ≤ 32) : getByte lo (putByte lo d) = d := by
  apply BitVec.eq_of_getLsbD_eq
  intro i hi
  rw [getByte, BitVec.getLsbD_extractLsb', putByte_getLsbD]
  simp [hi, show lo + i < 32 by omega]

/-- A 7-bit value put where it fits is read back. -/
theorem getSeven_putSeven (a : BitVec 7) (h : lo + 7 ≤ 32) : getSeven lo (putSeven lo a) = a := by
  apply BitVec.eq_of_getLsbD_eq
  intro i hi
  rw [getSeven, BitVec.getLsbD_extractLsb', putSeven_getLsbD]
  simp [hi, show lo + i < 32 by omega]

/-- A number put in a field that fits is read back cut to the field's width. -/
theorem getField_putField (f : Field) (h : f.fits) : getField f (putField f x) = x &&& onesMask f.width := by
  apply BitVec.eq_of_getLsbD_eq
  intro i hi
  simp only [getField_getLsbD, putField_getLsbD, BitVec.getLsbD_and, onesMask_getLsbD, hi, decide_true, Bool.true_and]
  by_cases hw : i < f.width
  · simp [hw, show f.lo + i < 32 by unfold Field.fits at h; omega, Bool.and_comm]
  · simp [hw]

/-- A field's value fits the field. -/
theorem getField_fits (f : Field) : getField f v &&& onesMask f.width = getField f v := by
  simp [getField, BitVec.and_assoc]

end Bits

/-- `clr(c)` differs from `c` at most in the flag's bit, which it gives the clearing value (30_encoding.md rule R85). -/
theorem clrForm_getLsbD (cfg : Params) (c : Word) (j : Nat) (hj : j < 32) :
    (clrForm cfg c).getLsbD j = if j = cfg.pos.iflg then cfg.iflgW1c else c.getLsbD j := by
  unfold clrForm
  by_cases h : j = cfg.pos.iflg
  · subst h; cases hw : cfg.iflgW1c <;> simp only [Bool.false_eq_true, if_true, if_false, BitVec.getLsbD_or,
      BitVec.getLsbD_and, BitVec.getLsbD_not, bitMask_getLsbD] <;> simp [hj]
  · cases hw : cfg.iflgW1c <;> simp only [Bool.false_eq_true, if_true, if_false, BitVec.getLsbD_or,
      BitVec.getLsbD_and, BitVec.getLsbD_not, bitMask_getLsbD, h] <;> simp [hj, Ne.symm h]

/-- `keep(c)` differs from `c` at most in the flag's bit, which never has the clearing value in it where `c` shows a set flag
(rule R85). -/
theorem keepForm_getLsbD (cfg : Params) (c : Word) (j : Nat) (hj : j < 32) :
    (keepForm cfg c).getLsbD j = if j = cfg.pos.iflg then !cfg.iflgW1c && c.getLsbD j else c.getLsbD j := by
  unfold keepForm
  by_cases h : j = cfg.pos.iflg
  · subst h; cases hw : cfg.iflgW1c
    · simp
    · simp only [if_true, BitVec.getLsbD_and, BitVec.getLsbD_not, bitMask_getLsbD]
      simp [hj]
  · cases hw : cfg.iflgW1c
    · simp [h]
    · simp only [if_true, BitVec.getLsbD_and, BitVec.getLsbD_not, bitMask_getLsbD, h]
      simp [hj, Ne.symm h]

/-- The six fields of a CNTR value are read where they lie (40_register_access.md rule R117). -/
theorem cntrWord_fields {l : Positions} (h : l.wf) (c : CoreState) :
    (cntrWord l c).getLsbD l.intEn = c.intEn ∧ (cntrWord l c).getLsbD l.busEn = c.busEn ∧
    (cntrWord l c).getLsbD l.mSta = c.mSta ∧ (cntrWord l c).getLsbD l.mStp = c.mStp ∧
    (cntrWord l c).getLsbD l.iflg = c.iflg ∧ (cntrWord l c).getLsbD l.aAck = c.aAck := by
  obtain ⟨hn, hb⟩ := h.2.2.2.1
  simp only [Positions.cntr, List.nodup_cons, List.mem_cons, List.not_mem_nil, or_false, not_or, List.nodup_nil, not_false_eq_true,
    and_true, forall_eq_or_imp, forall_eq] at hn hb
  obtain ⟨⟨a1, a2, a3, a4, a5⟩, ⟨b1, b2, b3, b4⟩, ⟨c1, c2, c3⟩, ⟨d1, d2⟩, e1⟩ := hn
  simp only [cntrWord, BitVec.getLsbD_or, putBit_getLsbD, hb, decide_true, Bool.and_true]
  simp [a1, a2, a3, a4, a5, b1, b2, b3, b4, c1, c2, c3, d1, d2, e1, Ne.symm a1, Ne.symm a2, Ne.symm a3, Ne.symm a4,
    Ne.symm a5, Ne.symm b1, Ne.symm b2, Ne.symm b3, Ne.symm b4, Ne.symm c1, Ne.symm c2, Ne.symm c3, Ne.symm d1, Ne.symm d2,
    Ne.symm e1]

/-- The place of a status code in the table of 30_encoding.md rule R88. -/
def statusIndex : Status → Nat
  | .busError => 0 | .txStart => 1 | .txRstart => 2 | .txAwAck => 3 | .txAwNak => 4 | .mTxdAck => 5 | .mTxdNak => 6
  | .arbLost => 7 | .txArAck => 8 | .txArNak => 9 | .mRxdAck => 10 | .mRxdNak => 11 | .sAwAck => 12 | .sArbAwAck => 13
  | .sGcAck => 14 | .sArbGcAck => 15 | .sRxdAck => 16 | .sRxdNak => 17 | .sGcdAck => 18 | .sGcdNak => 19 | .sStop => 20
  | .sArAck => 21 | .sArbArAck => 22 | .sTxdAck => 23 | .sTxdNak => 24 | .sLtxdAck => 25 | .tx2AwAck => 26
  | .tx2AwNak => 27 | .tx2ArAck => 28 | .tx2ArNak => 29 | .idle => 30

/-- Distinct codes tell statuses apart (rule R88). -/
theorem statusCode_inj {p : Params} (h : p.codes.all.Nodup) {a b : Status} (e : statusCode p a = statusCode p b) : a = b := by
  have at_index : ∀ s : Status, p.codes.all[statusIndex s]? = some (statusCode p s) := by intro s; cases s <;> rfl
  have hi : statusIndex a = statusIndex b := by
    have ha := at_index a
    have hb := at_index b
    rw [← e] at hb
    exact (List.getElem?_inj (List.getElem?_eq_some_iff.mp ha).1 h).mp (ha.trans hb.symm)
  revert hi
  clear e
  cases a <;> cases b <;> decide

/-- The status in a STAT value is the core's code (40_register_access.md rule R119). -/
theorem statByte_statWord {p : Params} (h : p.pos.wf) (c : CoreState) : statByte p (statWord p c) = statusCode p c.sta :=
  getByte_putByte _ _ h.2.2.2.2.1

/-- The byte in a DATA value is the core's byte (rule R115). -/
theorem dataByte_dataWord {p : Params} (h : p.pos.wf) (c : CoreState) : dataByte p (dataWord p.pos c) = c.data :=
  getByte_putByte _ _ h.2.2.1

/-- SOFT_RST of an SRST value is `rst_pending` (rule R123). -/
theorem srstWord_softRst {l : Positions} (h : l.wf) (c : CoreState) : (srstWord l c).getLsbD l.softRst = c.rstPending := by
  rw [srstWord, putBit_getLsbD]
  simp [h.2.2.2.2.2.2.1]

end Sys2Proof.Machine
end

