-- ==== Sys2Proof/Laws/State.lean ====
section
/-! SUPPORT. One lemma per field per update of the state's records, the lemmas of `Out.bind`, and reading an instance after
another has been replaced. -/

namespace Sys2Proof.Machine

section Outcomes
variable {α β : Type}

@[simp] theorem bind_next (a : α) (f : α → Out β) : Out.bind (.next a) f = f a := rfl
@[simp] theorem bind_fault (r : Fault) (f : α → Out β) : Out.bind (.fault r) f = .fault r := rfl
@[simp] theorem bind_refused (r : Refusal) (f : α → Out β) : Out.bind (.refused r) f = .refused r := rfl

/-- A composition answers a next value just where both parts do. -/
theorem bind_eq_next {o : Out α} {f : α → Out β} {b : β} :
    Out.bind o f = .next b ↔ ∃ a, o = .next a ∧ f a = .next b := by
  cases o <;> simp [Out.bind]

/-- A composition faults where its first part does, or its second after it. -/
theorem bind_eq_fault {o : Out α} {f : α → Out β} {r : Fault} :
    Out.bind o f = .fault r ↔ o = .fault r ∨ ∃ a, o = .next a ∧ f a = .fault r := by
  cases o <;> simp [Out.bind]

/-- A composition is refused where its first part is, or its second after it. -/
theorem bind_eq_refused {o : Out α} {f : α → Out β} {r : Refusal} :
    Out.bind o f = .refused r ↔ o = .refused r ∨ ∃ a, o = .next a ∧ f a = .refused r := by
  cases o <;> simp [Out.bind]

end Outcomes

section Instances
variable (x : Inst) (c : CoreState) (q : Seq) (es : List Event)

@[simp] theorem setCore_core : (x.setCore c).core = c := rfl
@[simp] theorem setCore_seq : (x.setCore c).seq = x.seq := rfl
@[simp] theorem setCore_history : (x.setCore c).history = x.history := rfl
@[simp] theorem setCore_script : (x.setCore c).script = x.script := rfl
@[simp] theorem setCore_drawn : (x.setCore c).drawn = x.drawn := rfl
@[simp] theorem setCore_stranded : (x.setCore c).stranded = (c.act.isSome && x.stranded) := rfl

@[simp] theorem setSeq_core : (x.setSeq q).core = x.core := rfl
@[simp] theorem setSeq_seq : (x.setSeq q).seq = q := rfl
@[simp] theorem setSeq_history : (x.setSeq q).history = x.history := rfl
@[simp] theorem setSeq_script : (x.setSeq q).script = x.script := rfl
@[simp] theorem setSeq_drawn : (x.setSeq q).drawn = x.drawn := rfl
@[simp] theorem setSeq_stranded : (x.setSeq q).stranded = x.stranded := rfl

@[simp] theorem noteStranded_core (b : Bool) : (x.noteStranded b).core = x.core := rfl
@[simp] theorem noteStranded_seq (b : Bool) : (x.noteStranded b).seq = x.seq := rfl
@[simp] theorem noteStranded_history (b : Bool) : (x.noteStranded b).history = x.history := rfl
@[simp] theorem noteStranded_script (b : Bool) : (x.noteStranded b).script = x.script := rfl
@[simp] theorem noteStranded_drawn (b : Bool) : (x.noteStranded b).drawn = x.drawn := rfl
@[simp] theorem noteStranded_stranded (b : Bool) : (x.noteStranded b).stranded = (b || x.stranded) := rfl
@[simp] theorem noteStranded_false : x.noteStranded false = x := rfl

@[simp] theorem log_core : (x.log es).core = x.core := rfl
@[simp] theorem log_seq : (x.log es).seq = x.seq := rfl
@[simp] theorem log_history : (x.log es).history = x.history ++ es := rfl
@[simp] theorem log_script : (x.log es).script = x.script := rfl
@[simp] theorem log_drawn : (x.log es).drawn = x.drawn := rfl
@[simp] theorem log_stranded : (x.log es).stranded = x.stranded := rfl

@[simp] theorem useDraw_core : x.useDraw.core = x.core := by unfold Inst.useDraw; split <;> rfl
@[simp] theorem useDraw_seq : x.useDraw.seq = x.seq := by unfold Inst.useDraw; split <;> rfl
@[simp] theorem useDraw_history : x.useDraw.history = x.history := by unfold Inst.useDraw; split <;> rfl
@[simp] theorem useDraw_stranded : x.useDraw.stranded = x.stranded := by unfold Inst.useDraw; split <;> rfl

end Instances

section Machines
variable (s : State) (b : Nat) (x : Inst)

@[simp] theorem setInst_params : (s.setInst b x).params = s.params := rfl
@[simp] theorem setInst_inbox : (s.setInst b x).inbox = s.inbox := rfl
@[simp] theorem setInst_sched : (s.setInst b x).sched = s.sched := rfl
@[simp] theorem setInst_tick : (s.setInst b x).tick = s.tick := rfl
@[simp] theorem setInst_faulted : (s.setInst b x).faulted = s.faulted := rfl
@[simp] theorem setInst_refused : (s.setInst b x).refused = s.refused := rfl
@[simp] theorem setInst_insts : (s.setInst b x).insts = s.insts.set b x := rfl

@[simp] theorem setInst_setInst (y : Inst) : (s.setInst b x).setInst b y = s.setInst b y := by
  simp [State.setInst]

/-- The replaced instance is the new one. -/
theorem setInst_get {y : Inst} (h : s.insts[b]? = some y) : (s.setInst b x).insts[b]? = some x := by
  have : b < s.insts.length := (List.getElem?_eq_some_iff.mp h).1
  simp [this]

/-- Every other instance stays. -/
theorem setInst_get_ne {b' : Nat} (h : b' ≠ b) : (s.setInst b x).insts[b']? = s.insts[b']? := by
  simp [List.getElem?_set_ne h.symm]

/-- Replacing an instance by itself changes nothing. -/
theorem setInst_self (h : s.insts[b]? = some x) : s.setInst b x = s := by
  obtain ⟨hb, rfl⟩ := List.getElem?_eq_some_iff.mp h
  simp [State.setInst]

end Machines

section Sequencers
variable (cfg : Params) (q : Seq) (l : Label) (r : Result)

@[simp] theorem at_phase : (q.at l).phase = .running l := rfl
@[simp] theorem at_c : (q.at l).c = q.c := rfl
@[simp] theorem at_op : (q.at l).op = q.op := rfl
@[simp] theorem at_res : (q.at l).res = q.res := rfl
@[simp] theorem finish_phase : (q.finish r).phase = .done := rfl
@[simp] theorem finish_res : (q.finish r).res = some r := rfl
@[simp] theorem finish_c : (q.finish r).c = q.c := rfl

@[simp] theorem begin_phase : (q.begin cfg l).phase = .running l := by unfold Seq.begin; split <;> rfl
@[simp] theorem begin_op : (q.begin cfg l).op = q.op := by unfold Seq.begin; split <;> rfl
@[simp] theorem begin_c : (q.begin cfg l).c = q.c := by unfold Seq.begin; split <;> rfl
@[simp] theorem begin_i : (q.begin cfg l).i = q.i := by unfold Seq.begin; split <;> rfl
@[simp] theorem begin_n : (q.begin cfg l).n = q.n := by unfold Seq.begin; split <;> rfl
@[simp] theorem begin_wbuf : (q.begin cfg l).wbuf = q.wbuf := by unfold Seq.begin; split <;> rfl
@[simp] theorem begin_rbuf : (q.begin cfg l).rbuf = q.rbuf := by unfold Seq.begin; split <;> rfl
@[simp] theorem begin_res : (q.begin cfg l).res = q.res := by unfold Seq.begin; split <;> rfl
@[simp] theorem begin_budget : (q.begin cfg l).budget = q.budget := by unfold Seq.begin; split <;> rfl
@[simp] theorem begin_w : (q.begin cfg l).w = q.w := by unfold Seq.begin; split <;> rfl
@[simp] theorem begin_chip : (q.begin cfg l).chip = q.chip := by unfold Seq.begin; split <;> rfl
@[simp] theorem begin_sub : (q.begin cfg l).sub = q.sub := by unfold Seq.begin; split <;> rfl
@[simp] theorem at_d : (q.at l).d = q.d := rfl
@[simp] theorem finish_d : (q.finish r).d = q.d := rfl
@[simp] theorem begin_d : (q.begin cfg l).d = q.d := by unfold Seq.begin; split <;> rfl
@[simp] theorem at_r : (q.at l).r = q.r := rfl
@[simp] theorem finish_r : (q.finish r).r = q.r := rfl
@[simp] theorem begin_r : (q.begin cfg l).r = q.r := by unfold Seq.begin; split <;> rfl
@[simp] theorem at_m : (q.at l).m = q.m := rfl
@[simp] theorem finish_m : (q.finish r).m = q.m := rfl
@[simp] theorem begin_m : (q.begin cfg l).m = q.m := by unfold Seq.begin; split <;> rfl
@[simp] theorem at_nv : (q.at l).nv = q.nv := rfl
@[simp] theorem finish_nv : (q.finish r).nv = q.nv := rfl
@[simp] theorem begin_nv : (q.begin cfg l).nv = q.nv := by unfold Seq.begin; split <;> rfl

end Sequencers

end Sys2Proof.Machine
end

