-- ==== Sys2Proof/Laws/Engine.lean ====
section
/-! SUPPORT. What the core's operations can do, each said once: the CNTR write, a write access, a completion
(41_bus_engine.md, 40_register_access.md). -/

namespace Sys2Proof.Machine

/-- `CheckTrigger` answers the core it was given, and only where a trigger is allowed (rule R152). -/
theorem checkTrigger_next {c c' : CoreState} (h : checkTrigger c = .next c') : c' = c ∧ c.canTrigger := by
  unfold checkTrigger at h
  split at h
  · cases h
  · split at h
    · cases h
    · split at h
      · cases h
      · cases h
        refine ⟨rfl, ?_⟩
        simp_all [CoreState.canTrigger]

/-- Where a trigger is allowed `CheckTrigger` passes. -/
theorem checkTrigger_of_canTrigger {c : CoreState} (h : c.canTrigger) : checkTrigger c = .next c := by
  obtain ⟨h1, h2, h3, h4⟩ := h
  simp [checkTrigger, h1, h2, h3, h4]

/-- What the trigger table can answer: an action its latched requests allow (rule R142). -/
theorem triggerAction_next {st : Status} {sta stp : Bool} {b : Byte} {a : Action}
    (h : triggerAction st sta stp b = .next a) :
    (a ∈ [Action.rstart, .stopStart, .arbStart] ∧ sta = true ∧ (a = .stopStart → stp = true)) ∨
    (a ∈ [Action.stop, .berrRelease] ∧ sta = false ∧ stp = true) ∨
    (a = .release ∧ sta = false) ∨
    (a ∈ [Action.txAddr b, .txData b, .rxData] ∧ sta = false ∧ stp = false) := by
  unfold triggerAction at h
  split at h
  · split at h
    · cases h; simp
    · cases h; simp
    · split at h <;> cases h; simp
    · split at h
      · cases h; simp
      · split at h
        · cases h; simp
        · split at h <;> cases h; simp
  · split at h
    · cases sta <;> cases h <;> simp
    · split at h
      · split at h <;> cases h; simp
      · cases h

/-- Every admitted status but IDLE has a row of the trigger table, so the model's own fault is not raised for it. -/
theorem triggerAction_has_row {st : Status} (h : st ∈ admitted) (hi : st ≠ .idle) (sta stp : Bool) (b : Byte) :
    triggerAction st sta stp b ≠ .fault .noTriggerRow := by
  cases st <;> simp [admitted, master, afterStart, byteDone, masterTx, masterRxGo, masterRxEnd] at h hi <;>
    cases sta <;> cases stp <;>
    simp [triggerAction, master, afterStart, byteDone, masterTx, masterRxGo, masterRxEnd]

/-- Everything a CNTR write can do (rules R140, R143, R153): in flight it changes INT_EN and A_ACK only; a clear write
triggers the action of the table; another write to a paused core only stores and latches; in idle a START request triggers
START, and nothing else does anything. -/
theorem cntrWrite_next {p : Params} {v : Word} {c c' : CoreState} (h : cntrWrite p v c = .next c') :
    (c.act ≠ none ∧ v.getLsbD p.pos.busEn = true ∧
      c' = { c with intEn := v.getLsbD p.pos.intEn, aAck := v.getLsbD p.pos.aAck }) ∨
    (c.act = none ∧ c.iflg = true ∧ ∃ a, triggerAction c.sta (cntrFields p v c).mSta (cntrFields p v c).mStp c.data = .next a ∧
      c' = triggered (cntrFields p v c) a) ∨
    (c.act = none ∧ c.iflg = true ∧ c' = cntrFields p v c) ∨
    (c.act = none ∧ c.iflg = false ∧ (cntrFields p v c).mSta = true ∧
      c' = { cntrFields p v c with mStp := false, act := some .start }) ∨
    (c.act = none ∧ c.iflg = false ∧ (cntrFields p v c).mSta = false ∧ c' = { cntrFields p v c with mStp := false }) := by
  unfold cntrWrite at h
  split at h
  · rename_i ha
    left
    refine ⟨by cases hc : c.act <;> simp_all, ?_⟩
    unfold cntrWriteInFlight at h
    split at h
    · cases h
    · split at h
      · cases h
      · cases h
        exact ⟨by simp_all, rfl⟩
  · rename_i ha
    have ha : c.act = none := by cases hc : c.act <;> simp_all
    split at h
    · rename_i hi
      split at h
      · right; left
        obtain ⟨c1, h1, h2⟩ := bind_eq_next.mp h
        obtain ⟨a, h3, h4⟩ := bind_eq_next.mp h2
        obtain ⟨rfl, -⟩ := checkTrigger_next h1
        cases h4
        exact ⟨ha, hi, a, h3, rfl⟩
      · right; right; left
        cases h
        exact ⟨ha, hi, rfl⟩
    · rename_i hi
      have hi : c.iflg = false := by simpa using hi
      unfold idleWrite at h
      split at h
      · rename_i hs
        obtain ⟨c1, h1, h2⟩ := bind_eq_next.mp h
        obtain ⟨rfl, -⟩ := checkTrigger_next h1
        cases h2
        exact .inr (.inr (.inr (.inl ⟨ha, hi, hs, rfl⟩)))
      · rename_i hs
        cases h
        exact .inr (.inr (.inr (.inr ⟨ha, hi, by simpa using hs, rfl⟩)))

/-- What a write access that answers a core is: passed by the common check, and the register's own rule. -/
theorem writeReg_next {p : Params} {r : Reg} {v : Word} {c c' : CoreState} (h : writeReg p r v c = .next c') :
    (c.rstPending = false ∨ r = .stat) ∧ storeWord p r v c = .next c' := by
  unfold writeReg at h
  split at h
  · cases h
  · rename_i hn
    refine ⟨?_, h⟩
    cases hp : c.rstPending
    · exact .inl rfl
    · exact .inr (by simpa [hp] using hn)

/-- What a completion can answer: paused in an admitted status other than IDLE, or idle after STOP or a release. -/
theorem complete_next {d : Draw} {a : Action} {c c' : CoreState} (h : complete d a c = .next c') :
    (∃ st b, st ∈ admitted ∧ st ≠ .idle ∧ c' = pauseIn st { c with data := b }) ∨
    (a ∈ [Action.stop, .release, .berrRelease] ∧ c' = goIdle c) := by
  have line : ∀ (o : LineOutcome) (ok : Status), ok ∈ admitted → ok ≠ .idle →
      lineStatus o ok ∈ admitted ∧ lineStatus o ok ≠ .idle := by
    intro o ok h1 h2
    cases o
    · exact ⟨h1, h2⟩
    · exact ⟨by decide +revert, by decide +revert⟩
    · exact ⟨by decide +revert, by decide +revert⟩
  cases a with
  | start => cases h; exact .inl ⟨_, c.data, (line _ _ (by decide) (by decide)).1, (line _ _ (by decide) (by decide)).2, rfl⟩
  | rstart => cases h; exact .inl ⟨_, c.data, (line _ _ (by decide) (by decide)).1, (line _ _ (by decide) (by decide)).2, rfl⟩
  | stopStart => cases h; exact .inl ⟨_, c.data, (line _ _ (by decide) (by decide)).1, (line _ _ (by decide) (by decide)).2, rfl⟩
  | arbStart => cases h; exact .inl ⟨_, c.data, (line _ _ (by decide) (by decide)).1, (line _ _ (by decide) (by decide)).2, rfl⟩
  | txAddr b =>
      left
      simp only [complete, completeAddr] at h
      split at h
      · cases h; exact ⟨_, c.data, by split <;> decide, by split <;> decide, rfl⟩
      · cases h; exact ⟨_, c.data, by split <;> decide, by split <;> decide, rfl⟩
      · cases h; exact ⟨_, c.data, by decide, by decide, rfl⟩
      · split at h <;> cases h; exact ⟨_, c.data, by decide, by decide, rfl⟩
      · cases h; exact ⟨_, c.data, by decide, by decide, rfl⟩
  | txData b =>
      cases h
      refine .inl ⟨_, c.data, ?_, ?_, rfl⟩ <;> cases d.data <;> decide
  | rxData =>
      cases h
      have hs : (if ackUsed d.ackNow c then Status.mRxdAck else .mRxdNak) ∈ admitted ∧
          (if ackUsed d.ackNow c then Status.mRxdAck else .mRxdNak) ≠ .idle := by
        constructor <;> split <;> decide
      exact .inl ⟨_, _, (line d.line _ hs.1 hs.2).1, (line d.line _ hs.1 hs.2).2, rfl⟩
  | stop => cases h; exact .inr ⟨by decide, rfl⟩
  | release => cases h; exact .inr ⟨by decide, rfl⟩
  | berrRelease => cases h; exact .inr ⟨by decide, rfl⟩

end Sys2Proof.Machine
end

