-- ==== Sys2Proof/Laws/Ops.lean ====
section
/-! SUPPORT. What the operations on an instance and on the machine can do, each said once. -/

namespace Sys2Proof.Machine

/-- A read access changes the history by its event and nothing else of core and sequencer (20_memory.md rule R66). -/
@[simp] theorem afterRead_core (cfg : Params) (bus : Nat) (r : Reg) (x : Inst) : (x.afterRead cfg bus r).core = x.core := by
  unfold Inst.afterRead; split <;> simp

@[simp] theorem afterRead_seq (cfg : Params) (bus : Nat) (r : Reg) (x : Inst) : (x.afterRead cfg bus r).seq = x.seq := by
  unfold Inst.afterRead; split <;> simp

@[simp] theorem afterRead_history (cfg : Params) (bus : Nat) (r : Reg) (x : Inst) :
    (x.afterRead cfg bus r).history = x.history ++ [.read r (x.readValue cfg bus r)] := by
  unfold Inst.afterRead; split <;> simp

@[simp] theorem afterRead_stranded (cfg : Params) (bus : Nat) (r : Reg) (x : Inst) :
    (x.afterRead cfg bus r).stranded = x.stranded := by
  unfold Inst.afterRead; split <;> simp

/-- Nothing is held busy where no action is in flight. -/
theorem heldBusy_of_no_action (x : Inst) (h : x.core.act = none) : x.heldBusy = false := by
  simp [Inst.heldBusy, h]

/-- A read of a register other than LCR uses no draw. -/
theorem afterRead_eq_log (cfg : Params) (bus : Nat) (r : Reg) (x : Inst) (h : r ≠ .lcr) :
    x.afterRead cfg bus r = x.log [.read r (x.readValue cfg bus r)] := by
  simp [Inst.afterRead, h]

/-- A write access that is performed: the core as the register's rule says, the event, and the trigger if there is one. -/
theorem write_next {cfg : Params} {r : Reg} {v : Word} {x y : Inst} (h : x.write cfg r v = .next y) :
    ∃ c, writeReg cfg r v x.core = .next c ∧ y = (x.setCore c).log (.write r v :: triggerEvents x.core c) := by
  obtain ⟨c, h1, h2⟩ := bind_eq_next.mp h
  cases h2
  exact ⟨c, h1, rfl⟩

/-- A write access leaves the sequencer and the oracle. -/
theorem write_keeps {cfg : Params} {r : Reg} {v : Word} {x y : Inst} (h : x.write cfg r v = .next y) :
    y.seq = x.seq ∧ y.script = x.script ∧ y.drawn = x.drawn := by
  obtain ⟨c, -, rfl⟩ := write_next h
  exact ⟨rfl, rfl, rfl⟩

/-- An operation on an instance that answers a next state: the instance exists, and it alone is replaced. -/
theorem onInst_next {s t : State} {b : Nat} {f : Inst → Out Inst} (h : s.onInst b f = .next t) :
    ∃ x y, s.insts[b]? = some x ∧ f x = .next y ∧ t = s.setInst b y := by
  unfold State.onInst at h
  split at h
  · cases h
  · rename_i x hx
    obtain ⟨y, h1, h2⟩ := bind_eq_next.mp h
    cases h2
    exact ⟨x, y, hx, h1, rfl⟩

/-- An operation on an instance that exists. -/
theorem onInst_of_get {s : State} {b : Nat} {x : Inst} (f : Inst → Out Inst) (h : s.insts[b]? = some x) :
    s.onInst b f = Out.bind (f x) fun y => .next (s.setInst b y) := by
  simp [State.onInst, h]

/-- An operation on an instance that does not exist is refused (20_memory.md rule R61). -/
theorem onInst_of_out_of_range {s : State} {b : Nat} (f : Inst → Out Inst) (h : s.insts.length ≤ b) :
    s.onInst b f = .refused .badInstance := by
  simp [State.onInst, List.getElem?_eq_none h]

/-- A direct access that is performed: the sequencer does not run, and the instance changes as the access says. -/
theorem directRead_next {s t : State} {b : Nat} {r : Reg} (h : directRead b r s = .next t) :
    ∃ x, s.insts[b]? = some x ∧ x.seq.phase.isRunning = false ∧ t = s.setInst b (x.afterRead s.params b r) := by
  obtain ⟨x, y, hx, hy, rfl⟩ := onInst_next h
  unfold Inst.asOwner at hy
  split at hy
  · cases hy
  · rename_i hr
    cases hy
    exact ⟨x, hx, by simpa using hr, rfl⟩

theorem directWrite_next {s t : State} {b : Nat} {r : Reg} {v : Word} (h : directWrite b r v s = .next t) :
    ∃ x y, s.insts[b]? = some x ∧ x.seq.phase.isRunning = false ∧ x.write s.params r v = .next y ∧
      t = s.setInst b y := by
  obtain ⟨x, y, hx, hy, rfl⟩ := onInst_next h
  unfold Inst.asOwner at hy
  split at hy
  · cases hy
  · rename_i hr
    exact ⟨x, y, hx, by simpa using hr, hy, rfl⟩

/-- The acceptance of a request: it is in phase Ready, and only its sequencer changes (45_transactions.md rule R230). -/
theorem accept_next {s t : State} {b : Nat} {op : SeqOp} {valid : Bool} {load : Seq → Seq} {first : Label}
    (h : accept b op valid load first s = .next t) :
    ∃ x, s.insts[b]? = some x ∧ x.seq.phase = .ready ∧ t = s.setInst b (x.setSeq
      (if valid then (load { Seq.unwritten with op := some op }).begin s.params first
       else (load { Seq.unwritten with op := some op }).finish (.fail .invalid 0#8))) := by
  obtain ⟨x, y, hx, hy, rfl⟩ := onInst_next h
  split at hy
  · rename_i hr
    cases hy
    exact ⟨x, hx, hr, rfl⟩
  · cases hy

/-- A step of an agent on one instance that answers a next state: nothing, or that instance alone is replaced. -/
theorem localStep_next {s t : State} {b : Nat} {f : Inst → Out Inst} (h : localStep b f s = .next t) :
    t = s ∨ ∃ x y, s.insts[b]? = some x ∧ f x = .next y ∧ t = s.setInst b y := by
  unfold localStep at h
  split at h
  · cases h; exact .inl rfl
  · rename_i x hx
    obtain ⟨y, h1, h2⟩ := bind_eq_next.mp h
    cases h2
    exact .inr ⟨x, y, hx, h1, rfl⟩

/-- A step of an agent on an instance that exists. -/
theorem localStep_of_get {s : State} {b : Nat} {x : Inst} (f : Inst → Out Inst) (h : s.insts[b]? = some x) :
    localStep b f s = Out.bind (f x) fun y => .next (s.setInst b y) := by
  simp [localStep, h]

/-- The completion of the action in flight, or nothing where there is none. -/
theorem completeAct_next {bus : Nat} {x y : Inst} (h : x.completeAct bus = .next y) :
    (x.core.act = none ∧ y = x) ∨
    ∃ a c, x.core.act = some a ∧ complete (x.nextDraw bus) a x.core = .next c ∧
      y = ((if drawsAnswer a then x.useDraw else x).setCore c).log [.complete a c.sta] := by
  unfold Inst.completeAct at h
  split at h
  · rename_i ha
    cases h; exact .inl ⟨ha, rfl⟩
  · rename_i a ha
    obtain ⟨c, h1, h2⟩ := bind_eq_next.mp h
    cases h2
    exact .inr ⟨a, c, ha, h1, rfl⟩

/-- The accesses of a write's record: the write itself. -/
theorem accesses_of_write (r : Reg) (v : Word) (c c' : CoreState) :
    accesses (.write r v :: triggerEvents c c') = [.write r v] := by
  unfold triggerEvents
  split <;> simp [accesses]

end Sys2Proof.Machine
end

