-- ==== Sys2Proof/Laws/Sequencer.lean ====
section
/-! SUPPORT. What one sequencer step can do: at most one register access, and the sequencer's own registers
(10_state.md rule R41). -/

namespace Sys2Proof.Machine

/-! Binding the result of an inline primitive changes the local `bound` alone. -/

section Binding
variable (p : Place) (r : Result) (q : Seq)

@[simp] theorem bindResult_phase : (bindResult p r q).phase = q.phase := by unfold bindResult; split <;> rfl
@[simp] theorem bindResult_op : (bindResult p r q).op = q.op := by unfold bindResult; split <;> rfl
@[simp] theorem bindResult_chip : (bindResult p r q).chip = q.chip := by unfold bindResult; split <;> rfl
@[simp] theorem bindResult_sub : (bindResult p r q).sub = q.sub := by unfold bindResult; split <;> rfl
@[simp] theorem bindResult_n : (bindResult p r q).n = q.n := by unfold bindResult; split <;> rfl
@[simp] theorem bindResult_wbuf : (bindResult p r q).wbuf = q.wbuf := by unfold bindResult; split <;> rfl
@[simp] theorem bindResult_rbuf : (bindResult p r q).rbuf = q.rbuf := by unfold bindResult; split <;> rfl
@[simp] theorem bindResult_i : (bindResult p r q).i = q.i := by unfold bindResult; split <;> rfl
@[simp] theorem bindResult_k : (bindResult p r q).k = q.k := by unfold bindResult; split <;> rfl
@[simp] theorem bindResult_c : (bindResult p r q).c = q.c := by unfold bindResult; split <;> rfl
@[simp] theorem bindResult_exp : (bindResult p r q).exp = q.exp := by unfold bindResult; split <;> rfl
@[simp] theorem bindResult_res : (bindResult p r q).res = q.res := by unfold bindResult; split <;> rfl
@[simp] theorem bindResult_w : (bindResult p r q).w = q.w := by unfold bindResult; split <;> rfl
@[simp] theorem bindResult_budget : (bindResult p r q).budget = q.budget := by unfold bindResult; split <;> rfl

/-- At a place that runs a program inline the result is bound; at any other nothing changes. -/
theorem bindResult_bound : (bindResult p r q).bound = if bindsResult p then some r else q.bound := by
  unfold bindResult; split <;> rfl

end Binding

/-- The three shapes of a sequencer step: no access and maybe a note of an action left, one read access, one write access. -/
inductive OneAccess (cfg : Params) (bus : Nat) (x y : Inst) : Prop where
  | none (q : Seq) (b : Bool) (h : y = (x.noteStranded b).setSeq q)
  | read (r : Reg) (q : Seq) (h : y = (x.afterRead cfg bus r).setSeq q) (hr : r ≠ .lcr)
  | write (r : Reg) (v : Word) (x' : Inst) (q : Seq) (hw : x.write cfg r v = .next x') (h : y = x'.setSeq q)

theorem silently_next {o : Out Seq} {x y : Inst} (h : silently o x = .next y) : ∃ q, o = .next q ∧ y = x.setSeq q := by
  obtain ⟨q, h1, h2⟩ := bind_eq_next.mp h
  cases h2
  exact ⟨q, h1, rfl⟩

theorem readThen_next {cfg : Params} {bus : Nat} {r : Reg} {f : Word → Seq → Seq} {x y : Inst} (h : readThen cfg bus r f x = .next y) :
    y = (x.afterRead cfg bus r).setSeq (f (x.readValue cfg bus r) x.seq) := by
  cases h; rfl

theorem readEnd_next {cfg : Params} {bus : Nat} {r : Reg} {p : Place} {f : Word → Seq → Seq} {res : Word → Result}
    {x y : Inst} (h : readEnd cfg bus r p f res x = .next y) :
    ∃ q, afterLine cfg p (res (x.readValue cfg bus r)) (f (x.readValue cfg bus r) x.seq) = .next q ∧
      y = (x.afterRead cfg bus r).setSeq q := by
  obtain ⟨q, h1, h2⟩ := bind_eq_next.mp h
  cases h2
  exact ⟨q, h1, rfl⟩

theorem writeThen_next {cfg : Params} {r : Reg} {v : Word} {f : Seq → Seq} {x y : Inst}
    (h : writeThen cfg r v f x = .next y) :
    ∃ x', x.write cfg r v = .next x' ∧ y = x'.setSeq (f x.seq) := by
  obtain ⟨x', h1, h2⟩ := bind_eq_next.mp h
  cases h2
  exact ⟨x', h1, rfl⟩

theorem writeEnd_next {cfg : Params} {r : Reg} {v : Word} {p : Place} {res : Result} {x y : Inst}
    (h : writeEnd cfg r v p res x = .next y) :
    ∃ x' q, x.write cfg r v = .next x' ∧ afterLine cfg p res x.seq = .next q ∧ y = x'.setSeq q := by
  obtain ⟨x', h1, h2⟩ := bind_eq_next.mp h
  obtain ⟨q, h3, h4⟩ := bind_eq_next.mp h2
  cases h4
  exact ⟨x', q, h1, h3, rfl⟩

theorem silently_oneAccess {cfg : Params} {bus : Nat} {o : Out Seq} {x y : Inst} (h : silently o x = .next y) :
    OneAccess cfg bus x y := by
  obtain ⟨q, -, hy⟩ := silently_next h
  exact .none q false hy

theorem readThen_oneAccess {cfg : Params} {bus : Nat} {r : Reg} {f : Word → Seq → Seq} {x y : Inst} (hr : r ≠ .lcr)
    (h : readThen cfg bus r f x = .next y) : OneAccess cfg bus x y :=
  .read r _ (readThen_next h) hr

theorem readEnd_oneAccess {cfg : Params} {bus : Nat} {r : Reg} {p : Place} {f : Word → Seq → Seq}
    {res : Word → Result} {x y : Inst} (hr : r ≠ .lcr) (h : readEnd cfg bus r p f res x = .next y) :
    OneAccess cfg bus x y := by
  obtain ⟨q, -, hy⟩ := readEnd_next h
  exact .read r q hy hr

theorem writeThen_oneAccess {cfg : Params} {bus : Nat} {r : Reg} {v : Word} {f : Seq → Seq} {x y : Inst}
    (h : writeThen cfg r v f x = .next y) : OneAccess cfg bus x y := by
  obtain ⟨x', hw, hy⟩ := writeThen_next h
  exact .write r v x' _ hw hy

theorem writeEnd_oneAccess {cfg : Params} {bus : Nat} {r : Reg} {v : Word} {p : Place} {res : Result} {x y : Inst}
    (h : writeEnd cfg r v p res x = .next y) : OneAccess cfg bus x y := by
  obtain ⟨x', q, hw, -, hy⟩ := writeEnd_next h
  exact .write r v x' q hw hy

/-- Every step at every label makes at most one access. -/
theorem stepAt_oneAccess {cfg : Params} {bus : Nat} {p : Place} {μ : Micro} {x y : Inst}
    (h : stepAt cfg bus p μ x = .next y) : OneAccess cfg bus x y := by
  unfold stepAt at h
  cases μ with
  | start1 => exact readThen_oneAccess (by decide) h
  | start2 => exact writeThen_oneAccess h
  | start3 =>
      simp only [startPoll] at h
      split at h
      · exact silently_oneAccess h
      · exact readThen_oneAccess (by decide) h
  | start4 => exact silently_oneAccess h
  | stop1 => exact readThen_oneAccess (by decide) h
  | stop2 => exact writeEnd_oneAccess h
  | data1 =>
      simp only [dataFirst] at h
      split at h
      · cases h
      · exact writeThen_oneAccess h
  | data2 => exact readThen_oneAccess (by decide) h
  | data3 => exact writeEnd_oneAccess h
  | read1 => exact readThen_oneAccess (by decide) h
  | read2 => exact readThen_oneAccess (by decide) h
  | read3 => exact writeEnd_oneAccess h
  | clear1 => exact readThen_oneAccess (by decide) h
  | clear2 => exact writeEnd_oneAccess h
  | busy1 => exact readEnd_oneAccess (by decide) h
  | setAck1 => exact readThen_oneAccess (by decide) h
  | setAck2 => exact writeEnd_oneAccess h
  | clrAck1 => exact readThen_oneAccess (by decide) h
  | clrAck2 => exact writeEnd_oneAccess h
  | wait1 =>
      simp only [waitPoll] at h
      split at h
      · exact silently_oneAccess h
      · exact readThen_oneAccess (by decide) h
  | wait2 => exact readThen_oneAccess (by decide) h
  | wait3 =>
      obtain ⟨q, -, hy⟩ := silently_next h
      exact .none q _ hy
  | idle1 =>
      simp only [idlePoll] at h
      split at h
      · exact silently_oneAccess h
      · split at h
        · exact readThen_oneAccess (by decide) h
        · exact readEnd_oneAccess (by decide) h
  | clock1 =>
      simp only [clockLine] at h
      split at h
      · exact silently_oneAccess h
      · obtain ⟨x', h1, h2⟩ := bind_eq_next.mp h
        obtain ⟨q, -, h4⟩ := bind_eq_next.mp h2
        cases h4
        exact .write .ccr _ x' q h1 rfl
  | test => exact silently_oneAccess h
  | fetch => exact readEnd_oneAccess (by decide) h
  | enable1 => exact readEnd_oneAccess (by decide) h
  | enable2 => exact writeEnd_oneAccess h
  | softReset => exact writeEnd_oneAccess h
  | poll =>
      simp only [resetPoll] at h
      split at h
      · exact silently_oneAccess h
      · split at h
        · exact readThen_oneAccess (by decide) h
        · exact readEnd_oneAccess (by decide) h
  | own =>
      simp only [ownLine] at h
      split at h
      · exact silently_oneAccess h
      · exact writeEnd_oneAccess h

/-- A sequencer step makes at most one access (rule R41). -/
theorem seqStep_oneAccess {cfg : Params} {bus : Nat} {x y : Inst} (h : x.seqStep cfg bus = .next y) :
    OneAccess cfg bus x y := by
  unfold Inst.seqStep at h
  split at h
  · cases h; exact .none x.seq false rfl
  · exact stepAt_oneAccess h
  · cases h; exact .none x.seq false rfl

end Sys2Proof.Machine
end

