-- ==== Sys2Proof/Laws/Invariant.lean ====
section
/-! SUPPORT. The operations of the core and of the sequencer keep the invariants of Safety.lean: one lemma per operation. -/

namespace Sys2Proof.Machine

/-- A core paused in an admitted status other than IDLE meets the invariant. -/
theorem pauseIn_inv {c : CoreState} {st : Status} (h1 : st ∈ admitted) (h2 : st ≠ .idle) (hr : c.rstPending = false) :
    (pauseIn st c).inv := by
  simp [CoreState.inv, CoreState.r36, pauseIn, h1, h2, hr]

/-- IDLE is an admitted status. -/
theorem idle_admitted : Status.idle ∈ admitted := by decide

/-- A core that has gone idle meets the invariant. -/
theorem goIdle_inv {c : CoreState} (hf : c.iflg = false) : (goIdle c).inv := by
  refine ⟨⟨nofun, ?_, fun _ _ _ => rfl, nofun, nofun, fun _ => ⟨rfl, hf⟩⟩, fun _ => rfl, idle_admitted,
    fun _ _ => ⟨rfl, rfl⟩⟩
  simp [goIdle, hf]

/-- A completion keeps the invariant (10_state.md rule R36). -/
theorem complete_inv {d : Draw} {a : Action} {c c' : CoreState} (h : complete d a c = .next c') (hc : c.inv)
    (ha : c.act = some a) : c'.inv := by
  have hi : c.iflg = false := hc.1.1 (by simp [ha])
  have hr : c.rstPending = false := by
    cases hp : c.rstPending
    · rfl
    · simp [(hc.1.2.2.2.2.2 hp).1] at ha
  rcases complete_next h with ⟨st, b, h1, h2, rfl⟩ | ⟨-, rfl⟩
  · exact pauseIn_inv h1 h2 hr
  · exact goIdle_inv hi

/-- The end of a soft reset keeps the invariant. -/
theorem resetComplete_inv {c : CoreState} (hc : c.inv) (hr : c.rstPending = true) : (resetComplete c).inv := by
  obtain ⟨⟨a1, a2, -, a4, a5, -⟩, b, d, e⟩ := hc
  exact ⟨⟨a1, a2, fun _ _ _ => b hr, a4, a5, nofun⟩, nofun, d, e⟩

/-- A CNTR write keeps the invariant. -/
theorem cntrWrite_inv {p : Params} {v : Word} {c c' : CoreState} (h : cntrWrite p v c = .next c') (hc : c.inv)
    (hr : c.rstPending = false) : c'.inv := by
  obtain ⟨⟨a1, a2, a3, a4, a5, a6⟩, b, d, e⟩ := hc
  rcases cntrWrite_next h with ⟨h1, h2, rfl⟩ | ⟨h1, h2, a, h3, rfl⟩ | ⟨h1, h2, rfl⟩ | ⟨h1, h2, h3, rfl⟩ |
    ⟨h1, h2, h3, rfl⟩
  · exact ⟨⟨a1, a2, a3, a4, a5, a6⟩, b, d, e⟩
  · have t := triggerAction_next h3
    refine ⟨⟨by simp [triggered], by simp [triggered], by simp [triggered], ?_, ?_,
      by simp [triggered, cntrFields, hr]⟩, by simp [triggered, cntrFields, hr], d, by simp [triggered]⟩
    · intro hm
      simp only [triggered] at hm
      change (cntrFields p v c).mSta = true
      rcases t with t | t | t | t
      · exact t.2.1
      · simp at t hm; rcases t with ⟨rfl | rfl, _⟩ <;> simp at hm
      · simp at t hm; rcases t with ⟨rfl, _⟩; simp at hm
      · simp at t hm; rcases t with ⟨rfl | rfl | rfl, _⟩ <;> simp at hm
    · intro hm
      simp only [triggered] at hm
      change (cntrFields p v c).mStp = true
      rcases t with t | t | t | t
      · simp at t hm; rcases t with ⟨rfl | rfl | rfl, _⟩ <;> simp_all
      · exact t.2.2
      · simp at t hm; rcases t with ⟨rfl, _⟩; simp at hm
      · simp at t hm; rcases t with ⟨rfl | rfl | rfl, _⟩ <;> simp at hm
  · exact ⟨⟨by simp [cntrFields, h1], by simpa [cntrFields] using a2, by simp [cntrFields, h2],
      by simp [cntrFields, h1], by simp [cntrFields, h1], by simp [cntrFields, hr]⟩, by simp [cntrFields, hr], d,
      by simp [cntrFields, h2]⟩
  · refine ⟨⟨by simp [cntrFields, h2], by simp [cntrFields, h2], by simp, ?_, by simp, by simp [cntrFields, hr]⟩,
      by simp [cntrFields, hr], d, by simp⟩
    intro
    exact h3
  · exact ⟨⟨by simp [cntrFields, h1], by simp [cntrFields, h2], by simpa [cntrFields] using a3,
      by simp [cntrFields, h1], by simp [cntrFields, h1], by simp [cntrFields, hr]⟩, by simp [cntrFields, hr], d,
      fun _ _ => ⟨h3, rfl⟩⟩

/-- The start of a soft reset reaches the invariant from any core (rule R157). -/
theorem softResetStart_inv (c : CoreState) : (softResetStart c).inv :=
  ⟨⟨nofun, nofun, nofun, nofun, nofun, fun _ => ⟨rfl, rfl⟩⟩, fun _ => rfl, idle_admitted, fun _ _ => ⟨rfl, rfl⟩⟩

/-- A write access keeps the invariant of the core. -/
theorem writeReg_inv {p : Params} {r : Reg} {v : Word} {c c' : CoreState} (h : writeReg p r v c = .next c')
    (hc : c.inv) : c'.inv := by
  obtain ⟨h1, h2⟩ := writeReg_next h
  cases r <;> simp only [storeWord] at h2
  case cntr => exact cntrWrite_inv h2 hc (by simpa using h1)
  case srst =>
    cases h2
    unfold srstStore
    split
    · exact softResetStart_inv c
    · exact hc
  case data =>
    unfold dataStore at h2
    split at h2 <;> cases h2
    exact hc
  all_goals cases h2; exact hc

/-- A CNTR write leaves the fields of a parameter's width. -/
theorem cntrWrite_keeps_fields {p : Params} {v : Word} {c c' : CoreState} (h : cntrWrite p v c = .next c') :
    c'.slax = c.slax ∧ c'.clkM = c.clkM ∧ c'.clkN = c.clkN ∧ c'.dbn = c.dbn := by
  rcases cntrWrite_next h with ⟨-, -, rfl⟩ | ⟨-, -, a, -, rfl⟩ | ⟨-, -, rfl⟩ | ⟨-, -, -, rfl⟩ | ⟨-, -, -, rfl⟩ <;>
    exact ⟨rfl, rfl, rfl, rfl⟩

/-- A write access stores numbers that fit their fields. -/
theorem writeReg_fits {p : Params} {r : Reg} {v : Word} {c c' : CoreState} (h : writeReg p r v c = .next c')
    (hc : c.fieldsFit p.pos) : c'.fieldsFit p.pos := by
  obtain ⟨h1, h2, h3, h4⟩ := hc
  obtain ⟨-, hs⟩ := writeReg_next h
  cases r <;> simp only [storeWord] at hs
  case cntr =>
    obtain ⟨e1, e2, e3, e4⟩ := cntrWrite_keeps_fields hs
    exact ⟨by rw [e1, h1], by rw [e2, h2], by rw [e3, h3], by rw [e4, h4]⟩
  case xaddr => cases hs; exact ⟨getField_fits _ _, h2, h3, h4⟩
  case ccr => cases hs; exact ⟨h1, getField_fits _ _, getField_fits _ _, h4⟩
  case efr => cases hs; exact ⟨h1, h2, h3, getField_fits _ _⟩
  case srst => cases hs; unfold srstStore; split <;> exact ⟨h1, h2, h3, h4⟩
  case data => unfold dataStore at hs; split at hs <;> cases hs; exact ⟨h1, h2, h3, h4⟩
  all_goals cases hs; exact ⟨h1, h2, h3, h4⟩

/-- A completion keeps the fields of a parameter's width. -/
theorem complete_fits {l : Positions} {d : Draw} {a : Action} {c c' : CoreState} (h : complete d a c = .next c')
    (hc : c.fieldsFit l) : c'.fieldsFit l := by
  rcases complete_next h with ⟨st, b, -, -, rfl⟩ | ⟨-, rfl⟩ <;> exact hc

/-- The power-on core meets the invariant, whatever the parameters (10_state.md rules R36, R43). -/
theorem powerOn_inv (p : Params) : (CoreState.powerOn p).inv ∧ (CoreState.powerOn p).fieldsFit p.pos :=
  ⟨⟨⟨nofun, nofun, fun _ _ _ => rfl, nofun, nofun, nofun⟩, nofun, idle_admitted, fun _ _ => ⟨rfl, rfl⟩⟩,
    getField_fits _ _, getField_fits _ _, getField_fits _ _, getField_fits _ _⟩

/-- Replacing the core keeps that what a timed-out transaction left is in flight. -/
theorem setCore_stranded_inv (x : Inst) (c : CoreState) : (x.setCore c).stranded = true → (x.setCore c).core.act ≠ none := by
  simp only [setCore_stranded, setCore_core, Bool.and_eq_true]
  rintro ⟨h, -⟩
  exact Option.isSome_iff_ne_none.mp h

/-- Writing the entry after the entries known to be written adds it to them. -/
theorem bufRead_bufSet (l : List (Option Byte)) (n : Nat) (d : Byte) (h : (bufRead n l).isSome) :
    (bufRead (n + 1) (bufSet l n d)).isSome := by
  induction n generalizing l with
  | zero => cases l <;> simp [bufSet, bufRead]
  | succ n ih =>
      match l with
      | [] => simp [bufRead] at h
      | none :: l => simp [bufRead] at h
      | some b :: l =>
          simp only [bufRead, Option.isSome_map] at h
          simpa [bufSet, bufRead] using ih l h

/-- A posted result meets the invariant. -/
theorem finish_inv {cfg : Params} {q : Seq} {r : Result} : (q.finish r).inv cfg := by simp [Seq.inv]

/-- Going to a line of the operation's program meets the invariant, with registers that suit the line. -/
theorem goto_inv {cfg : Params} {q : Seq} {o : SeqOp} {p : Place} (hr : q.res = none) (hop : q.op = some o)
    (hp : o ∈ opsAt p) (hm : p ≠ .alone) (hpay : payloadOk q.op q) (hbuf : bufferOk p q) (hk : p = .n5 → q.k = 0) :
    (q.goto cfg p).inv cfg := by
  unfold Seq.inv
  simp only [Seq.goto, begin_phase, begin_res, begin_op]
  refine ⟨hr, ?_, ?_, ?_, ?_, ?_⟩
  · simp only [labelOk, hop, hp, true_and]
    cases p <;> first | exact absurd rfl hm | simp [microsAt, firstMicro, lineFrom]
  · have h := hpay
    simp only [payloadOk, hop] at h
    simpa [payloadOk, hop] using h
  · cases p <;> simp [bufferOk] at hbuf ⊢ <;> exact hbuf
  · cases p <;> simp [pollsOk, firstMicro, Seq.begin, Seq.at, waitBudgetAt, idleBudgetAt]
    simp [hk]
  · intro hw st hst
    cases p <;> simp only [expectedAt, reduceCtorEq, Option.some.injEq] at hst <;> subst hst <;> rfl

end Sys2Proof.Machine
end

