-- ==== Sys2Proof/Laws/Offsets.lean ====
section
/-! SUPPORT. Where a register lies: the register at an offset (20_memory.md rule R62) and the instance in whose window an
address lies (rule R60), each said once. -/

namespace Sys2Proof.Machine

/-- The nine registers, in the order of `Offsets.all`. -/
def registers : List Reg := [.addr, .xaddr, .data, .cntr, .stat, .ccr, .srst, .efr, .lcr]

/-- Every register's offset is one of the nine. -/
theorem offset_mem_all (o : Offsets) (r : Reg) : r.offset o ∈ o.all := by
  cases r <;> simp [Reg.offset, Offsets.all]

/-- The register at place `i` of the list has the offset there. -/
theorem offset_at (o : Offsets) (r : Reg) : ∃ i, ∃ hi : i < o.all.length, o.all[i] = r.offset o ∧ registers[i]? = some r := by
  cases r
  exacts [⟨0, by simp [Offsets.all], rfl, rfl⟩, ⟨1, by simp [Offsets.all], rfl, rfl⟩, ⟨2, by simp [Offsets.all], rfl, rfl⟩,
    ⟨3, by simp [Offsets.all], rfl, rfl⟩, ⟨4, by simp [Offsets.all], rfl, rfl⟩, ⟨5, by simp [Offsets.all], rfl, rfl⟩,
    ⟨6, by simp [Offsets.all], rfl, rfl⟩, ⟨7, by simp [Offsets.all], rfl, rfl⟩, ⟨8, by simp [Offsets.all], rfl, rfl⟩]

/-- Distinct offsets tell the registers apart. -/
theorem offset_injective (o : Offsets) (h : o.all.Nodup) (r r' : Reg) (he : r.offset o = r'.offset o) : r = r' := by
  obtain ⟨i, hi, hr, hri⟩ := offset_at o r
  obtain ⟨j, hj, hr', hrj⟩ := offset_at o r'
  obtain rfl : i = j := h.getElem_inj_iff.mp (hr.trans (he.trans hr'.symm))
  exact Option.some.inj (hri.symm.trans hrj)

/-- The register at an offset is the one that has it. -/
theorem regAt_eq_some (o : Offsets) (h : o.all.Nodup) (off : Nat) (r : Reg) :
    regAt o off = some r ↔ off = r.offset o := by
  constructor
  · intro hr
    have := List.find?_some hr
    simpa using (beq_iff_eq.mp this).symm
  · rintro rfl
    obtain ⟨r', hr'⟩ : ∃ r', regAt o (r.offset o) = some r' := by
      apply Option.isSome_iff_exists.mp
      unfold regAt
      rw [List.find?_isSome]
      exact ⟨r, by cases r <;> decide, by simp⟩
    have := List.find?_some hr'
    rw [hr', offset_injective o h r' r (beq_iff_eq.mp this)]

/-- Nothing is mapped where no register has the offset. -/
theorem regAt_eq_none (o : Offsets) (off : Nat) : regAt o off = none ↔ ∀ r : Reg, off ≠ r.offset o := by
  unfold regAt
  rw [List.find?_eq_none]
  constructor
  · intro h r he
    exact h r (by cases r <;> decide) (by simp [he])
  · intro h r _ he
    exact h r (beq_iff_eq.mp he).symm

/-- An address in the window of instance `i` is in no other's. -/
theorem windowOf_eq_some (p : Params) (h : p.windowsOk) (addr i base : Nat) (hb : p.bases[i]? = some base)
    (hl : base ≤ addr) (hu : addr < base + p.blockSize) : windowOf p addr = some i := by
  obtain ⟨hlt, he⟩ := List.getElem?_eq_some_iff.mp hb
  unfold windowOf
  rw [List.findIdx?_eq_some_iff_getElem]
  refine ⟨hlt, by simp [he, hl, hu], ?_⟩
  intro j hj
  have := List.pairwise_iff_getElem.mp h.1 j i (by omega) hlt hj
  rw [he] at this
  simp only [Bool.and_eq_true, decide_eq_true_eq, not_and]
  omega

/-- No window holds the address. -/
theorem windowOf_eq_none (p : Params) (addr : Nat) :
    windowOf p addr = none ↔ ∀ base ∈ p.bases, addr < base ∨ base + p.blockSize ≤ addr := by
  unfold windowOf
  rw [List.findIdx?_eq_none_iff]
  refine forall₂_congr fun base _ => ?_
  simp only [Bool.and_eq_false_iff, decide_eq_false_iff_not, Nat.not_le, Nat.not_lt]
end Sys2Proof.Machine
end

