-- ==== Sys2Proof/Laws/PerInstr.lean ====
section
/-! SUPPORT. The family RowOf: every instruction is written as its own row of opcode_table.json says, an access word
matching the row's mask at the table's default offsets, or a request with the row's operation and the instance first. -/

namespace Sys2Proof.Laws.RowOf

/-- A row of opcode_table.json: the mask and the match of an access word, or the operation of a request. -/
inductive Row where
  | access (mask pattern : AccessWord)
  | request (op : SeqOp)

/-- The row of each instruction, copied from opcode_table.json. -/
def row : Instr → Row
  | .rdAddr _ => .access 0x1FFFFFFFFFF#41 0x00000000000#41
  | .wrAddr _ _ => .access 0x1FF00000000#41 0x10000000000#41
  | .rdXaddr _ => .access 0x1FFFFFFFFFF#41 0x00400000000#41
  | .wrXaddr _ _ => .access 0x1FF00000000#41 0x10400000000#41
  | .rdData _ => .access 0x1FFFFFFFFFF#41 0x00800000000#41
  | .wrData _ _ => .access 0x1FF00000000#41 0x10800000000#41
  | .rdCntr _ => .access 0x1FFFFFFFFFF#41 0x00C00000000#41
  | .wrCntr _ _ => .access 0x1FF00000000#41 0x10C00000000#41
  | .rdStat _ => .access 0x1FFFFFFFFFF#41 0x01000000000#41
  | .wrStat _ _ => .access 0x1FF00000000#41 0x11000000000#41
  | .rdCcr _ => .access 0x1FFFFFFFFFF#41 0x01400000000#41
  | .wrCcr _ _ => .access 0x1FF00000000#41 0x11400000000#41
  | .rdSrst _ => .access 0x1FFFFFFFFFF#41 0x01800000000#41
  | .wrSrst _ _ => .access 0x1FF00000000#41 0x11800000000#41
  | .rdEfr _ => .access 0x1FFFFFFFFFF#41 0x01C00000000#41
  | .wrEfr _ _ => .access 0x1FF00000000#41 0x11C00000000#41
  | .rdLcr _ => .access 0x1FFFFFFFFFF#41 0x02000000000#41
  | .wrLcr _ _ => .access 0x1FF00000000#41 0x12000000000#41
  | .sendStart _ => .request .sendStart
  | .sendStop _ => .request .sendStop
  | .sendData _ _ => .request .sendData
  | .readData _ => .request .readData
  | .clearIf _ => .request .clearIf
  | .isBusy _ => .request .isBusy
  | .setAck _ => .request .setAck
  | .clrAck _ => .request .clrAck
  | .waitStatus _ _ => .request .waitStatus
  | .waitIdle _ _ => .request .waitIdle
  | .configureClock _ _ => .request .configureClock
  | .masterWrite _ _ _ _ => .request .masterWrite
  | .masterRead _ _ _ _ => .request .masterRead
  | .deviceWrite _ _ _ _ => .request .deviceWrite
  | .deviceRead _ _ _ => .request .deviceRead
  | .init _ _ _ => .request .init

/-- The instruction is written as its row says. -/
def Statement (i : Instr) : Prop :=
  match row i with
  | .access mask pattern =>
      ∃ bs w, encode Config.offsets i = .word i.bus bs ∧ wordOfBytes bs = some w ∧ w &&& mask = pattern
  | .request op => ∃ os, encode Config.offsets i = .request op (.bus i.bus :: os)

/-- Six bytes of an access word hold that word. -/
theorem wordOfBytes_bytesOfWord (w : AccessWord) : wordOfBytes (bytesOfWord w) = some w := by
  have h : bits48 (w.extractLsb' 0 8) (w.extractLsb' 8 8) (w.extractLsb' 16 8) (w.extractLsb' 24 8)
      (w.extractLsb' 32 8) ((w.extractLsb' 40 1).setWidth 8) = w.setWidth 48 := by
    apply BitVec.eq_of_getLsbD_eq
    intro i hi
    simp only [bits48, BitVec.getLsbD_append, BitVec.getLsbD_extractLsb', BitVec.getLsbD_setWidth]
    rcases (by omega : i < 8 ∨ (8 ≤ i ∧ i < 16) ∨ (16 ≤ i ∧ i < 24) ∨ (24 ≤ i ∧ i < 32) ∨ (32 ≤ i ∧ i < 40) ∨ 40 ≤ i)
      with h | h | h | h | h | h
    · simp [h, hi]
    · simp [show ¬ i < 8 by omega, show i - 8 < 8 by omega, show 8 + (i - 8) = i by omega, hi]
    · simp [show ¬ i < 8 by omega, show ¬ i - 8 < 8 by omega, show i - 8 - 8 < 8 by omega,
        show 16 + (i - 8 - 8) = i by omega, hi]
    · simp [show ¬ i < 8 by omega, show ¬ i - 8 < 8 by omega, show ¬ i - 8 - 8 < 8 by omega,
        show i - 8 - 8 - 8 < 8 by omega, show 24 + (i - 8 - 8 - 8) = i by omega, hi]
    · simp [show ¬ i < 8 by omega, show ¬ i - 8 < 8 by omega, show ¬ i - 8 - 8 < 8 by omega,
        show ¬ i - 8 - 8 - 8 < 8 by omega, show i - 8 - 8 - 8 - 8 < 8 by omega,
        show 32 + (i - 8 - 8 - 8 - 8) = i by omega, hi]
    · simp [show ¬ i < 8 by omega, show ¬ i - 8 < 8 by omega, show ¬ i - 8 - 8 < 8 by omega,
        show ¬ i - 8 - 8 - 8 < 8 by omega, show ¬ i - 8 - 8 - 8 - 8 < 8 by omega,
        show 40 + (i - 8 - 8 - 8 - 8 - 8) = i by omega, hi]
      rcases Nat.eq_or_lt_of_le h with rfl | h
      · simp
      · simp [BitVec.getLsbD_of_ge w i (by omega)]
  have hi : (w.setWidth 48).extractLsb' 41 7 = 0#7 := by
    apply BitVec.eq_of_getLsbD_eq
    intro i hi
    simp
  have lo : (w.setWidth 48).extractLsb' 0 41 = w := by
    apply BitVec.eq_of_getLsbD_eq
    intro i hi
    simp [hi, show i < 48 by omega]
  simp only [bytesOfWord, wordOfBytes, h, hi, lo, if_true]

/-- A write word has its direction and its offset above the data. -/
theorem writeWord_masked (r : Reg) (v : Word) :
    accessWord Config.offsets true r v &&& 0x1FF00000000#41 = (BitVec.ofBool true ++ BitVec.ofNat 8 (r.offset Config.offsets)) ++ 0#32 := by
  have h : (0x1FF00000000#41) = (BitVec.allOnes 9 ++ 0#32 : BitVec 41) := by decide
  rw [h]
  show ((BitVec.ofBool true ++ BitVec.ofNat 8 (r.offset Config.offsets)) ++ v) &&& (BitVec.allOnes 9 ++ 0#32) = _
  rw [BitVec.and_append, BitVec.and_allOnes, BitVec.and_zero]

theorem rdAddr (bus : Nat) : Statement (.rdAddr bus) :=
  ⟨_, _, rfl, wordOfBytes_bytesOfWord _, by decide⟩

theorem wrAddr (bus : Nat) (v : Word) : Statement (.wrAddr bus v) :=
  ⟨_, _, rfl, wordOfBytes_bytesOfWord _, (writeWord_masked .addr v).trans (by decide)⟩

theorem rdXaddr (bus : Nat) : Statement (.rdXaddr bus) :=
  ⟨_, _, rfl, wordOfBytes_bytesOfWord _, by decide⟩

theorem wrXaddr (bus : Nat) (v : Word) : Statement (.wrXaddr bus v) :=
  ⟨_, _, rfl, wordOfBytes_bytesOfWord _, (writeWord_masked .xaddr v).trans (by decide)⟩

theorem rdData (bus : Nat) : Statement (.rdData bus) :=
  ⟨_, _, rfl, wordOfBytes_bytesOfWord _, by decide⟩

theorem wrData (bus : Nat) (v : Word) : Statement (.wrData bus v) :=
  ⟨_, _, rfl, wordOfBytes_bytesOfWord _, (writeWord_masked .data v).trans (by decide)⟩

theorem rdCntr (bus : Nat) : Statement (.rdCntr bus) :=
  ⟨_, _, rfl, wordOfBytes_bytesOfWord _, by decide⟩

theorem wrCntr (bus : Nat) (v : Word) : Statement (.wrCntr bus v) :=
  ⟨_, _, rfl, wordOfBytes_bytesOfWord _, (writeWord_masked .cntr v).trans (by decide)⟩

theorem rdStat (bus : Nat) : Statement (.rdStat bus) :=
  ⟨_, _, rfl, wordOfBytes_bytesOfWord _, by decide⟩

theorem wrStat (bus : Nat) (v : Word) : Statement (.wrStat bus v) :=
  ⟨_, _, rfl, wordOfBytes_bytesOfWord _, (writeWord_masked .stat v).trans (by decide)⟩

theorem rdCcr (bus : Nat) : Statement (.rdCcr bus) :=
  ⟨_, _, rfl, wordOfBytes_bytesOfWord _, by decide⟩

theorem wrCcr (bus : Nat) (v : Word) : Statement (.wrCcr bus v) :=
  ⟨_, _, rfl, wordOfBytes_bytesOfWord _, (writeWord_masked .ccr v).trans (by decide)⟩

theorem rdSrst (bus : Nat) : Statement (.rdSrst bus) :=
  ⟨_, _, rfl, wordOfBytes_bytesOfWord _, by decide⟩

theorem wrSrst (bus : Nat) (v : Word) : Statement (.wrSrst bus v) :=
  ⟨_, _, rfl, wordOfBytes_bytesOfWord _, (writeWord_masked .srst v).trans (by decide)⟩

theorem rdEfr (bus : Nat) : Statement (.rdEfr bus) :=
  ⟨_, _, rfl, wordOfBytes_bytesOfWord _, by decide⟩

theorem wrEfr (bus : Nat) (v : Word) : Statement (.wrEfr bus v) :=
  ⟨_, _, rfl, wordOfBytes_bytesOfWord _, (writeWord_masked .efr v).trans (by decide)⟩

theorem rdLcr (bus : Nat) : Statement (.rdLcr bus) :=
  ⟨_, _, rfl, wordOfBytes_bytesOfWord _, by decide⟩

theorem wrLcr (bus : Nat) (v : Word) : Statement (.wrLcr bus v) :=
  ⟨_, _, rfl, wordOfBytes_bytesOfWord _, (writeWord_masked .lcr v).trans (by decide)⟩

theorem sendStart (bus : Nat) :
    Statement (.sendStart bus) := ⟨_, rfl⟩

theorem sendStop (bus : Nat) :
    Statement (.sendStop bus) := ⟨_, rfl⟩

theorem sendData (bus : Nat) (value : Nat) :
    Statement (.sendData bus value) := ⟨_, rfl⟩

theorem readData (bus : Nat) :
    Statement (.readData bus) := ⟨_, rfl⟩

theorem clearIf (bus : Nat) :
    Statement (.clearIf bus) := ⟨_, rfl⟩

theorem isBusy (bus : Nat) :
    Statement (.isBusy bus) := ⟨_, rfl⟩

theorem setAck (bus : Nat) :
    Statement (.setAck bus) := ⟨_, rfl⟩

theorem clrAck (bus : Nat) :
    Statement (.clrAck bus) := ⟨_, rfl⟩

theorem waitStatus (bus : Nat) (budget : Nat) :
    Statement (.waitStatus bus budget) := ⟨_, rfl⟩

theorem waitIdle (bus : Nat) (budget : Nat) :
    Statement (.waitIdle bus budget) := ⟨_, rfl⟩

theorem configureClock (bus : Nat) (hz : Nat) :
    Statement (.configureClock bus hz) := ⟨_, rfl⟩

theorem masterWrite (bus : Nat) (chip : Nat) (sub : Nat) (bytes : List Nat) :
    Statement (.masterWrite bus chip sub bytes) := ⟨_, rfl⟩

theorem masterRead (bus : Nat) (chip : Nat) (sub : Nat) (n : Nat) :
    Statement (.masterRead bus chip sub n) := ⟨_, rfl⟩

theorem deviceWrite (bus : Nat) (chip : Nat) (sub : Nat) (value : Nat) :
    Statement (.deviceWrite bus chip sub value) := ⟨_, rfl⟩

theorem deviceRead (bus : Nat) (chip : Nat) (sub : Nat) :
    Statement (.deviceRead bus chip sub) := ⟨_, rfl⟩

theorem init (bus : Nat) (hz : Nat) (own : Option Nat) :
    Statement (.init bus hz own) := ⟨_, rfl⟩

end Sys2Proof.Laws.RowOf
end

