-- ==== Sys2Proof/Laws/Step.lean ====
section
/-! SUPPORT. What exec, an agent's step and the machine's step can do, each said once. -/

namespace Sys2Proof.Machine

/-- Executing a request is its acceptance: an operation, loaded registers, a first label. -/
theorem exec_request {i : Instr} {op : SeqOp} {n k : Nat} (h : requestOf i = some (op, n, k)) (s : State) :
    ∃ load first, exec i s = accept i.bus op (i.operandsInRange s.params.nMax) load first s := by
  cases i <;> simp only [requestOf, reduceCtorEq, Option.some.injEq, Prod.mk.injEq] at h <;>
    obtain ⟨rfl, -, -⟩ := h <;>
    simp only [exec, execSendStart, execSendStop, execSendData, execReadData, execClearIf, execIsBusy, execSetAck,
      execClrAck, execWaitStatus, execWaitIdle, execConfigureClock, execMasterWrite, execMasterRead, execDeviceWrite,
      execDeviceRead, execInit] <;>
    exact ⟨_, _, rfl⟩

/-- Executing a register access is a direct read or a direct write of its register. -/
theorem exec_access {i : Instr} (h : requestOf i = none) (s : State) :
    (∃ r, i = readOf r i.bus ∧ exec i s = directRead i.bus r s) ∨
    (∃ r v, i = writeOf r i.bus v ∧ exec i s = directWrite i.bus r v s) := by
  cases i with
  | rdAddr b => exact .inl ⟨.addr, rfl, rfl⟩
  | wrAddr b v => exact .inr ⟨.addr, v, rfl, rfl⟩
  | rdXaddr b => exact .inl ⟨.xaddr, rfl, rfl⟩
  | wrXaddr b v => exact .inr ⟨.xaddr, v, rfl, rfl⟩
  | rdData b => exact .inl ⟨.data, rfl, rfl⟩
  | wrData b v => exact .inr ⟨.data, v, rfl, rfl⟩
  | rdCntr b => exact .inl ⟨.cntr, rfl, rfl⟩
  | wrCntr b v => exact .inr ⟨.cntr, v, rfl, rfl⟩
  | rdStat b => exact .inl ⟨.stat, rfl, rfl⟩
  | wrStat b v => exact .inr ⟨.stat, v, rfl, rfl⟩
  | rdCcr b => exact .inl ⟨.ccr, rfl, rfl⟩
  | wrCcr b v => exact .inr ⟨.ccr, v, rfl, rfl⟩
  | rdSrst b => exact .inl ⟨.srst, rfl, rfl⟩
  | wrSrst b v => exact .inr ⟨.srst, v, rfl, rfl⟩
  | rdEfr b => exact .inl ⟨.efr, rfl, rfl⟩
  | wrEfr b v => exact .inr ⟨.efr, v, rfl, rfl⟩
  | rdLcr b => exact .inl ⟨.lcr, rfl, rfl⟩
  | wrLcr b v => exact .inr ⟨.lcr, v, rfl, rfl⟩
  | _ => simp [requestOf] at h

/-- A raw access that answers a next state is an instruction's. -/
theorem runPort_next {b width off : Nat} {value : Option Word} {s t : State} (h : runPort b width off value s = .next t) :
    ∃ i, i.bus = b ∧ requestOf i = none ∧ exec i s = .next t := by
  unfold runPort at h
  split at h
  · cases h
  · split at h
    · cases h
    · split at h
      · cases h
      · split at h
        · cases h
        · rename_i r hr
          split at h
          · exact ⟨readOf r b, by cases r <;> rfl, by cases r <;> rfl, h⟩
          · rename_i v
            exact ⟨writeOf r b v, by cases r <;> rfl, by cases r <;> rfl, h⟩

/-- A command that answers a next state executes an instruction or takes a result. -/
theorem runCmd_next {cmd : HostCmd} {s t : State} (h : runCmd cmd s = .next t) :
    (∃ i, exec i s = .next t) ∨ (∃ b x, s.insts[b]? = some x ∧ t = s.setInst b x.takeResult) := by
  cases cmd with
  | instr tm =>
      simp only [runCmd, runTerm] at h
      split at h
      · rename_i i hi
        exact .inl ⟨i, h⟩
      · unfold refuseTerm at h
        split at h
        · split at h
          · split at h <;> cases h
          · cases h
        · cases h
  | port b width off value =>
      obtain ⟨i, -, -, hi⟩ := runPort_next h
      exact .inl ⟨i, hi⟩
  | mem addr len value =>
      simp only [runCmd, runMem] at h
      split at h
      · cases h
      · split at h
        · cases h
        · obtain ⟨i, -, -, hi⟩ := runPort_next h
          exact .inl ⟨i, hi⟩
  | take b =>
      obtain ⟨x, y, hx, hy, rfl⟩ := onInst_next h
      cases hy
      exact .inr ⟨b, x, hx, rfl⟩

/-- The host's step that answers a next state: nothing, or its next command on the state with the command taken off. -/
theorem hostStep_next {s t : State} (h : hostStep s = .next t) :
    t = s ∨ ∃ cmd rest, s.inbox = cmd :: rest ∧ runCmd cmd { s with inbox := rest } = .next t := by
  unfold hostStep at h
  split at h
  · cases h; exact .inl rfl
  · rename_i cmd rest hb
    split at h
    · exact .inr ⟨cmd, rest, hb, h⟩
    · cases h; exact .inl rfl

/-- A step of an unmarked machine: nothing, or one agent's step on the state with its turn taken off the schedule or its
choice counted. -/
theorem step_cases {s : State} (hf : s.faulted = []) (hr : s.refused = []) :
    step s = .next s ∨
    ∃ a s', step s = agentStep a s' ∧ s'.params = s.params ∧ s'.insts = s.insts ∧ s'.inbox = s.inbox ∧
      s'.faulted = [] ∧ s'.refused = [] := by
  unfold step markedStep
  rw [hf, hr]
  simp only [scheduledStep]
  split
  · exact .inr ⟨_, _, rfl, rfl, rfl, rfl, hf, hr⟩
  · unfold freeStep
    split
    · exact .inl rfl
    · exact .inr ⟨.host, s, rfl, rfl, rfl, rfl, hf, hr⟩
    · exact .inr ⟨_, _, rfl, rfl, rfl, rfl, hf, hr⟩

/-- Running two schedules one after the other. -/
theorem runSchedule_append (as bs : List Agent) (s : State) :
    runSchedule (as ++ bs) s = Out.bind (runSchedule as s) (runSchedule bs) := by
  induction as generalizing s with
  | nil => rfl
  | cons a as ih =>
      change Out.bind (agentStep a s) (runSchedule (as ++ bs)) = Out.bind (Out.bind (agentStep a s) (runSchedule as)) _
      cases agentStep a s <;> simp [ih]

end Sys2Proof.Machine
end

