-- ==== Sys2Proof/Tests/Slice0.lean ====
section
/-! SUPPORT. Small tests of the model, their expected results from 95_test_vectors.md or by hand from the rules named, and
for every obligation with hypotheses a witness that they can be met. -/

namespace Sys2Proof.Tests

open Sys2Proof Sys2Proof.Machine Sys2Proof.Claims

/-- The parameters of 95_test_vectors.md section 0. -/
def params : Params :=
  { iflgW1c := false, stopOnAbort := true, deviceReadAckLast := false, waitBudget := 4, idleBudget := 4,
    startBudget := 4, resetBudget := 4, nMax := 3, fIn := 24000000, predivShift := 3, clkNVal := 3,
    off := Config.offsets, pos := Config.positions, codes := Config.codes, resets := Config.resetValues,
    bases := [0x01C2AC00], blockSize := 0x400, addrBits := 32 }

/-- The same under `IFLG_W1C`. -/
def paramsW1c : Params := { params with iflgW1c := true }

theorem test_params_wf : params.wf := by decide

/-- State S0 of the core (section 0): idle, the bus enabled. -/
def s0 : CoreState := { CoreState.powerOn params with busEn := true, clkM := 14#32, clkN := 3#32 }

/-- Paused in a status (section L2.2). -/
def held (st : Status) : CoreState := { s0 with sta := st, iflg := true }

/-- An action in flight, with the requests it keeps latched. -/
def flying (a : Action) (sta stp : Bool) : CoreState := { s0 with act := some a, mSta := sta, mStp := stp, sta := .mTxdAck }

/-- A soft reset pending. -/
def pending : CoreState := { s0 with rstPending := true }

/-- An instance with a core, a Ready sequencer and the given bus answers. -/
def inst (c : CoreState) (ds : List Draw) : Inst := ⟨c, Seq.unwritten, [], ds, 0, false⟩

/-- A machine of one instance. -/
def machine (x : Inst) : State := ⟨params, [x], [], [], 0, [], []⟩

/-- The machine of one Ready instance with the given core. -/
def core1 (c : CoreState) : State := machine (inst c [])

/-- A sequencer at a label. -/
def running (op : SeqOp) (p : Place) (μ : Micro) : Seq :=
  { Seq.unwritten with phase := .running ⟨p, μ⟩, op := some op }

/-- The machine of one instance whose sequencer is as given. -/
def seq1 (c : CoreState) (q : Seq) : State := machine ⟨c, q, [], [], 0, false⟩

/-- A bus answer that acknowledges, with the byte driven. -/
def ack (d : Byte) : Draw := ⟨.ok, .ack, .ack, d, false, 3#2⟩

/-- Instance 0 after an operation. -/
def after (o : Out State) : Option Inst :=
  match o with
  | .next t => t.insts[0]?
  | _ => none

/-- The core of instance 0 after an operation. -/
def coreAfter (o : Out State) : Option CoreState := (after o).map Inst.core

/-- The last event of instance 0 after an operation. -/
def lastEvent (o : Out State) : Option Event := (after o).bind fun x => x.history.getLast?

/-- The phase of instance 0's sequencer after an operation. -/
def phaseAfter (o : Out State) : Option Phase := (after o).map fun x => x.seq.phase

/-- The result posted on instance 0 after an operation. -/
def resultAfter (o : Out State) : Option Result := (after o).bind fun x => x.seq.res

/-- An operation that answers a next state. -/
def isNext (o : Out State) : Bool :=
  match o with
  | .next _ => true
  | _ => false

/-! Well-formedness: a term that passes and, for each check, one that fails it (30_encoding.md rule R82) -/

theorem test_wellFormed_accepts :
    Instr.wellFormed 5 3 (.masterWrite 4 0x7F 0xFF [0xFF, 0, 1]) = true ∧
    Instr.wellFormed 5 3 (.masterRead 0 0 0 3) = true ∧ Instr.wellFormed 5 3 (.init 0 1 (some 0x7F)) = true := by decide

theorem test_wellFormed_refuses_instance : Instr.wellFormed 5 3 (.rdStat 5) = false := by decide

theorem test_wellFormed_refuses_value : Instr.wellFormed 5 3 (.sendData 0 0x100) = false := by decide

theorem test_wellFormed_refuses_hz :
    Instr.wellFormed 5 3 (.configureClock 0 0) = false ∧ Instr.wellFormed 5 3 (.init 0 0 none) = false := by decide

theorem test_wellFormed_refuses_chip :
    Instr.wellFormed 5 3 (.masterWrite 0 0x80 0 []) = false ∧ Instr.wellFormed 5 3 (.masterRead 0 0x80 0 1) = false ∧
    Instr.wellFormed 5 3 (.deviceWrite 0 0x80 0 0) = false ∧ Instr.wellFormed 5 3 (.deviceRead 0 0x80 0) = false := by
  decide

theorem test_wellFormed_refuses_sub :
    Instr.wellFormed 5 3 (.masterWrite 0 0 0x100 []) = false ∧ Instr.wellFormed 5 3 (.masterRead 0 0 0x100 1) = false ∧
    Instr.wellFormed 5 3 (.deviceWrite 0 0 0x100 0) = false ∧ Instr.wellFormed 5 3 (.deviceRead 0 0 0x100) = false := by
  decide

theorem test_wellFormed_refuses_bytes :
    Instr.wellFormed 5 3 (.masterWrite 0 0 0 [1, 0x100]) = false ∧
    Instr.wellFormed 5 3 (.masterWrite 0 0 0 [1, 2, 3, 4]) = false ∧
    Instr.wellFormed 5 3 (.deviceWrite 0 0 0 0x100) = false := by decide

theorem test_wellFormed_refuses_count :
    Instr.wellFormed 5 3 (.masterRead 0 0 0 0) = false ∧ Instr.wellFormed 5 3 (.masterRead 0 0 0 4) = false := by decide

theorem test_wellFormed_refuses_own : Instr.wellFormed 5 3 (.init 0 1 (some 0x80)) = false := by decide

/-! Decoding: the words of 95_test_vectors.md sections 0 and L2.1 -/

theorem test_decode_read_words :
    decodeTableWord 48 0x00000000000 = some (.rdAddr 0) ∧ decodeTableWord 48 0x00400000000 = some (.rdXaddr 0) ∧
    decodeTableWord 48 0x00800000000 = some (.rdData 0) ∧ decodeTableWord 48 0x00C00000000 = some (.rdCntr 0) ∧
    decodeTableWord 48 0x01000000000 = some (.rdStat 0) ∧ decodeTableWord 48 0x01400000000 = some (.rdCcr 0) ∧
    decodeTableWord 48 0x01800000000 = some (.rdSrst 0) ∧ decodeTableWord 48 0x01C00000000 = some (.rdEfr 0) ∧
    decodeTableWord 48 0x02000000000 = some (.rdLcr 0) := by decide

theorem test_decode_write_words :
    decodeTableWord 48 0x100FFFFFF02 = some (.wrAddr 0 0xFFFFFF02#32) ∧
    decodeTableWord 48 0x10400000123 = some (.wrXaddr 0 0x123#32) ∧
    decodeTableWord 48 0x108000001A5 = some (.wrData 0 0x1A5#32) ∧
    decodeTableWord 48 0x10CFFFFFFE4 = some (.wrCntr 0 0xFFFFFFE4#32) ∧
    decodeTableWord 48 0x11000000000 = some (.wrStat 0 0#32) ∧
    decodeTableWord 48 0x114000000FF = some (.wrCcr 0 0xFF#32) ∧
    decodeTableWord 48 0x118FFFFFFFE = some (.wrSrst 0 0xFFFFFFFE#32) ∧
    decodeTableWord 48 0x11C00000007 = some (.wrEfr 0 7#32) ∧
    decodeTableWord 48 0x120000000FF = some (.wrLcr 0 0xFF#32) := by decide

/-- A23, A17, an odd offset, and a bit above bit 40 (log entry 11). -/
theorem test_decode_rejects :
    decodeTableWord 48 0x00C00000001 = none ∧ decodeTableWord 48 0x12400000000 = none ∧
    decodeTableWord 48 0x00E00000000 = none ∧ decodeTableWord 48 0x20000000000 = none := by decide

/-- The low bits of a word given with fewer bits than the access word. -/
theorem test_decode_short_word : decodeTableWord 41 0x10C00000060 = some (.wrCntr 0 0x60#32) := by decide

theorem test_decode_primitives :
    decode Config.offsets (.request .sendStart [.bus 1]) = .ok (.sendStart 1) ∧ decode Config.offsets (.request .sendStop [.bus 1]) = .ok (.sendStop 1) ∧
    decode Config.offsets (.request .sendData [.bus 1, .value 0xB0]) = .ok (.sendData 1 0xB0) ∧
    decode Config.offsets (.request .readData [.bus 1]) = .ok (.readData 1) ∧ decode Config.offsets (.request .clearIf [.bus 1]) = .ok (.clearIf 1) ∧
    decode Config.offsets (.request .isBusy [.bus 1]) = .ok (.isBusy 1) ∧ decode Config.offsets (.request .setAck [.bus 1]) = .ok (.setAck 1) ∧
    decode Config.offsets (.request .clrAck [.bus 1]) = .ok (.clrAck 1) := ⟨rfl, rfl, rfl, rfl, rfl, rfl, rfl, rfl⟩

theorem test_decode_waits_and_clock :
    decode Config.offsets (.request .waitStatus [.bus 0, .budget 3]) = .ok (.waitStatus 0 3) ∧
    decode Config.offsets (.request .waitIdle [.bus 0, .budget 3]) = .ok (.waitIdle 0 3) ∧
    decode Config.offsets (.request .configureClock [.bus 0, .hz 400000]) = .ok (.configureClock 0 400000) := ⟨rfl, rfl, rfl⟩

theorem test_decode_transactions :
    decode Config.offsets (.request .masterWrite [.bus 0, .chip 0x58, .sub 0x10, .bytes [5]]) = .ok (.masterWrite 0 0x58 0x10 [5]) ∧
    decode Config.offsets (.request .masterRead [.bus 0, .chip 0x58, .sub 0x20, .n 2]) = .ok (.masterRead 0 0x58 0x20 2) ∧
    decode Config.offsets (.request .deviceWrite [.bus 0, .chip 0x58, .sub 0x10, .value 5]) = .ok (.deviceWrite 0 0x58 0x10 5) ∧
    decode Config.offsets (.request .deviceRead [.bus 0, .chip 0x58, .sub 0x20]) = .ok (.deviceRead 0 0x58 0x20) ∧
    decode Config.offsets (.request .init [.bus 0, .hz 100000, .own none]) = .ok (.init 0 100000 none) := ⟨rfl, rfl, rfl, rfl, rfl⟩

theorem test_decode_rejects_operands :
    decode Config.offsets (.request .sendData [.bus 0]) = .error .wrongOperands ∧
    decode Config.offsets (.request .sendStart [.bus 0, .value 1]) = .error .wrongOperands := ⟨rfl, rfl⟩

/-! Register accesses: 95_test_vectors.md section L2.1 -/

theorem test_rdAddr : lastEvent (exec (.rdAddr 0) (core1 { s0 with sla := 0x58#7, gce := true })) =
    some (.read .addr 0xB1#32) := by decide

/-- A2. -/
theorem test_wrAddr : (coreAfter (exec (.wrAddr 0 0xFFFFFF02#32) (core1 s0))).map (addrWord params.pos) = some 2#32 := by decide

theorem test_rdXaddr : lastEvent (exec (.rdXaddr 0) (core1 { s0 with slax := 0x23#32 })) = some (.read .xaddr 0x23#32) := by
  decide

/-- A4. -/
theorem test_wrXaddr : (coreAfter (exec (.wrXaddr 0 0x123#32) (core1 s0))).map (xaddrWord params.pos) = some 0x23#32 := by decide

theorem test_rdData : lastEvent (exec (.rdData 0) (core1 { s0 with data := 0xA5#8 })) = some (.read .data 0xA5#32) := by
  decide

/-- A5. -/
theorem test_wrData : (coreAfter (exec (.wrData 0 0x1A5#32) (core1 s0))).map (dataWord params.pos) = some 0xA5#32 := by decide

/-- A6. -/
theorem test_rdCntr : lastEvent (exec (.rdCntr 0) (core1 s0)) = some (.read .cntr 0x40#32) := by decide

/-- A7. -/
theorem test_wrCntr :
    (coreAfter (exec (.wrCntr 0 0xFFFFFFE4#32) (core1 s0))).map (fun c => (c.act, (cntrWord params.pos) c)) =
      some (some .start, 0xE4#32) := by decide

/-- A9. -/
theorem test_rdStat : lastEvent (exec (.rdStat 0) (core1 s0)) = some (.read .stat 0xF8#32) := by decide

/-- A22: no fault while a reset is pending. -/
theorem test_wrStat : coreAfter (exec (.wrStat 0 0#32) (core1 pending)) = some pending := by decide

/-- The value of `INIT(0, 100000, none)`. -/
theorem test_rdCcr : lastEvent (exec (.rdCcr 0) (core1 s0)) = some (.read .ccr 0x73#32) := by decide

/-- A11. -/
theorem test_wrCcr : (coreAfter (exec (.wrCcr 0 0xFF#32) (core1 s0))).map (ccrWord params.pos) = some 0x7F#32 := by decide

/-- A22. -/
theorem test_rdSrst : lastEvent (exec (.rdSrst 0) (core1 pending)) = some (.read .srst 1#32) := by decide

/-- A13. -/
theorem test_wrSrst_zero : coreAfter (exec (.wrSrst 0 0xFFFFFFFE#32) (core1 s0)) = some s0 := by decide

/-- C26 and C28: the action is abandoned, CCR is kept. -/
theorem test_wrSrst_one :
    (coreAfter (exec (.wrSrst 0 1#32) (core1 (flying (.txData 0x10#8) false false)))).map
      (fun c => (c.act, statWord params c, (cntrWord params.pos) c, (ccrWord params.pos) c, (srstWord params.pos) c)) =
      some (none, 0xF8#32, 0x40#32, 0x73#32, 1#32) := by decide

theorem test_rdEfr : lastEvent (exec (.rdEfr 0) (core1 { s0 with dbn := 3#32 })) = some (.read .efr 3#32) := by decide

/-- A14. -/
theorem test_wrEfr : (coreAfter (exec (.wrEfr 0 7#32) (core1 s0))).map (efrWord params.pos) = some 3#32 := by decide

/-- A15: both lines read high. -/
theorem test_rdLcr : lastEvent (exec (.rdLcr 0) (machine (inst s0 [ack 0]))) = some (.read .lcr 0x3A#32) := by decide

/-- A16. -/
theorem test_wrLcr : (coreAfter (exec (.wrLcr 0 0xFF#32) (core1 s0))).map (lcrWord params.pos 0#2) = some 0xF#32 := by decide

/-- A21. -/
theorem test_write_during_reset : exec (.wrData 0 0#32) (core1 pending) = .fault .writeDuringReset := rfl

/-- A17 to A20: the raw accesses. -/
theorem test_port_checks :
    runPort 0 32 0x24 (some 0#32) (core1 s0) = .refused .unmappedOffset ∧
    runPort 0 32 0x0E none (core1 s0) = .refused .misaligned ∧
    runPort 0 8 0x0D none (core1 s0) = .refused .badWidth ∧
    runPort 1 8 0x0D none (core1 s0) = .refused .badInstance := ⟨rfl, rfl, rfl, rfl⟩

/-- 30_encoding.md rule R81: a word is at an unmapped offset or it has a register; 0x0E is none (log entry 27). -/
theorem test_word_at_unaligned_offset :
    runTerm (.word 0 (bytesOfWord 0x00E00000000#41)) (core1 s0) = .refused .unmappedOffset := rfl

/-- 20_memory.md rules R60, R62: CNTR of instance 0 lies at BASE(0) + 0x0C; below and above the windows there is nothing. -/
theorem test_mem_access :
    lastEvent (runMem 0x01C2AC0C 4 none (core1 s0)) = some (.read .cntr 0x40#32) ∧
    runMem 0x01C2ABFC 4 none (core1 s0) = .refused .unmappedAddress ∧
    runMem 0x01C2B000 4 none (core1 s0) = .refused .unmappedAddress ∧
    runMem (2 ^ 32 + 0x01C2AC0C) 4 none (core1 s0) = .refused .unmappedAddress := ⟨rfl, rfl, rfl, rfl⟩

/-! Triggers: section L2.2 -/

/-- The action and the CNTR value after a CNTR write, or how it stops. -/
def afterCntr (v : Word) (c : CoreState) : Out (Option Action × Word) :=
  Out.bind (cntrWrite params v c) fun c => .next (c.act, (cntrWord params.pos) c)

/-- E1 to E4. -/
theorem test_cntr_idle :
    afterCntr 0x60#32 s0 = .next (some .start, 0x60#32) ∧ afterCntr 0x70#32 s0 = .next (some .start, 0x60#32) ∧
    afterCntr 0x50#32 s0 = .next (none, 0x40#32) ∧ afterCntr 0x40#32 s0 = .next (none, 0x40#32) := ⟨rfl, rfl, rfl, rfl⟩

/-- E5 to E7. -/
theorem test_cntr_preconditions :
    afterCntr 0x20#32 (CoreState.powerOn params) = .refused .busDisabled ∧
    afterCntr 0x60#32 { s0 with dbn := 1#32 } = .refused .extFeature ∧
    afterCntr 0x60#32 { s0 with sdaCtlEn := true } = .refused .lineControl := ⟨rfl, rfl, rfl⟩

/-- E8, E9, E10, E14. -/
theorem test_cntr_transmit :
    afterCntr 0x40#32 { held .txStart with data := 0xB0#8 } = .next (some (.txAddr 0xB0#8), 0x40#32) ∧
    afterCntr 0x60#32 (held .txStart) = .fault .startWithoutByte ∧
    afterCntr 0x40#32 { held .txAwAck with data := 0x10#8 } = .next (some (.txData 0x10#8), 0x40#32) ∧
    afterCntr 0x40#32 { held .txAwNak with data := 0x11#8 } = .next (some (.txData 0x11#8), 0x40#32) :=
  ⟨rfl, rfl, rfl, rfl⟩

/-- E11 to E13, E19, E20. -/
theorem test_cntr_start_stop :
    afterCntr 0x60#32 (held .mTxdAck) = .next (some .rstart, 0x60#32) ∧
    afterCntr 0x50#32 (held .mTxdAck) = .next (some .stop, 0x50#32) ∧
    afterCntr 0x70#32 (held .mTxdAck) = .next (some .stopStart, 0x70#32) ∧
    afterCntr 0x50#32 (held .mRxdNak) = .next (some .stop, 0x50#32) ∧
    afterCntr 0x60#32 (held .mRxdNak) = .next (some .rstart, 0x60#32) := ⟨rfl, rfl, rfl, rfl, rfl⟩

/-- E15 to E18. -/
theorem test_cntr_receive :
    (cntrWrite params 0x44#32 { held .txArAck with aAck := true } =
      .next { s0 with sta := .txArAck, aAck := true, act := some .rxData, ackTrig := true }) ∧
    (cntrWrite params 0x40#32 { held .mRxdAck with ackTrig := true } =
      .next { s0 with sta := .mRxdAck, act := some .rxData, ackTrig := false }) ∧
    afterCntr 0x40#32 (held .mRxdNak) = .fault .releaseAfterNak ∧
    afterCntr 0x40#32 (held .txArNak) = .fault .releaseAfterNak := ⟨rfl, rfl, rfl, rfl⟩

/-- E21 to E26. -/
theorem test_cntr_lost_and_error :
    afterCntr 0x40#32 (held .arbLost) = .next (some .release, 0x40#32) ∧
    afterCntr 0x50#32 (held .arbLost) = .next (some .release, 0x50#32) ∧
    afterCntr 0x60#32 (held .arbLost) = .next (some .arbStart, 0x60#32) ∧
    afterCntr 0x50#32 (held .busError) = .next (some .berrRelease, 0x50#32) ∧
    afterCntr 0x60#32 (held .busError) = .fault .startInBusError ∧
    afterCntr 0x40#32 (held .busError) = .fault .releaseInBusError := ⟨rfl, rfl, rfl, rfl, rfl, rfl⟩

/-- E27 to E29. -/
theorem test_cntr_not_a_clear_write :
    afterCntr 0x68#32 (held .mTxdAck) = .next (none, 0x68#32) ∧
    afterCntr 0x60#32 { held .mTxdAck with mSta := true } = .next (some .rstart, 0x60#32) ∧
    afterCntr 0x4C#32 (held .mTxdAck) = .next (none, 0x4C#32) := ⟨rfl, rfl, rfl⟩

/-- E30 to E34. -/
theorem test_cntr_in_flight :
    afterCntr 0x60#32 (flying (.txData 0x10#8) false false) = .fault .requestInFlight ∧
    afterCntr 0x00#32 (flying (.txData 0x10#8) false false) = .refused .busDisableInFlight ∧
    afterCntr 0x44#32 (flying (.txData 0x10#8) false false) = .next (some (.txData 0x10#8), 0x44#32) ∧
    afterCntr 0x60#32 (flying .start true false) = .next (some .start, 0x60#32) ∧
    writeReg params .data 0x11#32 (flying (.txData 0x10#8) false false) = .fault .writeDataInFlight :=
  ⟨rfl, rfl, rfl, rfl, rfl⟩

/-- E35, E36: `IFLG_W1C`. -/
theorem test_cntr_w1c :
    ((cntrWrite paramsW1c 0x48#32 (held .mTxdAck)) =
      .next { held .mTxdAck with iflg := false, act := some (.txData 0#8) }) ∧
    cntrWrite paramsW1c 0x40#32 (held .mTxdAck) = .next (held .mTxdAck) := ⟨rfl, rfl⟩

/-! Completions: section L2.3 -/

/-- STAT and CNTR after a completion, or how it stops. -/
def afterComplete (d : Draw) (a : Action) (c : CoreState) : Out (Word × Word) :=
  Out.bind (complete d a { c with act := some a }) fun c => .next (statWord params c, (cntrWord params.pos) c)

/-- C1 to C6. -/
theorem test_complete_start :
    afterComplete (ack 0) .start s0 = .next (0x08#32, 0x48#32) ∧
    afterComplete { ack 0 with line := .arb } .start s0 = .next (0x38#32, 0x48#32) ∧
    afterComplete { ack 0 with line := .berr } .start s0 = .next (0x00#32, 0x48#32) ∧
    afterComplete (ack 0) .rstart s0 = .next (0x10#32, 0x48#32) ∧
    afterComplete (ack 0) .stopStart s0 = .next (0x08#32, 0x48#32) ∧
    afterComplete (ack 0) .arbStart s0 = .next (0x08#32, 0x48#32) := ⟨rfl, rfl, rfl, rfl, rfl, rfl⟩

/-- C7 to C12. -/
theorem test_complete_address :
    afterComplete (ack 0) (.txAddr 0xB0#8) s0 = .next (0x18#32, 0x48#32) ∧
    afterComplete { ack 0 with addr := .nak } (.txAddr 0xB0#8) s0 = .next (0x20#32, 0x48#32) ∧
    afterComplete (ack 0) (.txAddr 0xB1#8) s0 = .next (0x40#32, 0x48#32) ∧
    afterComplete { ack 0 with addr := .nak } (.txAddr 0xB1#8) s0 = .next (0x48#32, 0x48#32) ∧
    afterComplete { ack 0 with addr := .arb } (.txAddr 0xB0#8) s0 = .next (0x38#32, 0x48#32) ∧
    afterComplete { ack 0 with addr := .arbAddressed } (.txAddr 0xB0#8) { s0 with aAck := true } = .refused .slaveMode :=
  ⟨rfl, rfl, rfl, rfl, rfl, rfl⟩

/-- C13 to C15. -/
theorem test_complete_data :
    afterComplete (ack 0) (.txData 0x10#8) s0 = .next (0x28#32, 0x48#32) ∧
    afterComplete { ack 0 with data := .nak } (.txData 0x10#8) s0 = .next (0x30#32, 0x48#32) ∧
    afterComplete { ack 0 with data := .berr } (.txData 0x10#8) s0 = .next (0x00#32, 0x48#32) := ⟨rfl, rfl, rfl⟩

/-- C16 to C19. -/
theorem test_complete_receive :
    afterComplete (ack 0x12) .rxData { s0 with aAck := true, ackTrig := true } = .next (0x50#32, 0x4C#32) ∧
    afterComplete (ack 0x07) .rxData s0 = .next (0x58#32, 0x48#32) ∧
    afterComplete (ack 0x12) .rxData { s0 with ackTrig := true } = .next (0x50#32, 0x48#32) ∧
    afterComplete { ack 0x12 with ackNow := true } .rxData { s0 with ackTrig := true } = .next (0x58#32, 0x48#32) :=
  ⟨rfl, rfl, rfl, rfl⟩

/-- C20, C21: what a bus error and a lost arbitration leave in DATA. -/
theorem test_complete_receive_data :
    (completeRx { ack 0x99 with line := .berr } { s0 with data := 5#8 }).data = 5#8 ∧
    (completeRx { ack 0x99 with line := .arb } { s0 with data := 5#8 }).data = 0x99#8 := by decide

/-- C22 to C24. -/
theorem test_complete_stop :
    afterComplete (ack 0) .stop { held .mTxdAck with iflg := false, mStp := true } = .next (0xF8#32, 0x40#32) ∧
    afterComplete (ack 0) .release { held .arbLost with iflg := false } = .next (0xF8#32, 0x40#32) ∧
    afterComplete (ack 0) .berrRelease { held .busError with iflg := false, mStp := true } = .next (0xF8#32, 0x40#32) :=
  ⟨rfl, rfl, rfl⟩

/-- C25. -/
theorem test_slave_step : agentStep (.slave 0) (core1 { s0 with aAck := true }) = .refused .slaveMode := rfl

/-- C27. -/
theorem test_reset_completion : coreAfter (agentStep (.reset 0) (core1 pending)) = some s0 := by decide

/-- The irq line (10_state.md rule R38), A7 and A8. -/
theorem test_irq : ({ held .txStart with intEn := true } : CoreState).irq = true ∧
    ({ s0 with intEn := true } : CoreState).irq = false := by decide

/-! Sequencer steps: sections L2.4 to L2.7 and L3 -/

/-- P-1, second access. -/
theorem test_sendStart :
    lastEvent (agentStep (.seq 0) (seq1 s0 { running .sendStart .alone .start2 with c := 0x40#32 })) =
      some (.trigger .start) := by decide

/-- P-3: with no poll the request goes on at once. -/
theorem test_sendStart_no_poll :
    phaseAfter (agentStep (.seq 0) (machine ⟨flying .start true false,
      { running .sendStart .alone .start3 with k := 4 }, [], [], 0, false⟩)) = some (.running ⟨.alone, .start4⟩) := by decide

/-- P-5, second access. -/
theorem test_sendStop :
    lastEvent (agentStep (.seq 0) (seq1 (held .mTxdAck) { running .sendStop .alone .stop2 with c := 0x48#32 })) =
      some (.trigger .stop) := by decide

/-- P-7. -/
theorem test_sendStop_in_flight :
    agentStep (.seq 0) (seq1 (flying (.txData 0x10#8) false false) { running .sendStop .alone .stop2 with c := 0x40#32 }) =
      .fault .requestInFlight := rfl

/-- P-8, last access. -/
theorem test_sendData :
    lastEvent (agentStep (.seq 0) (seq1 { held .txStart with data := 0xB0#8 }
      { running .sendData .alone .data3 with c := 0x48#32 })) = some (.trigger (.txAddr 0xB0#8)) := by decide

/-- P-10. -/
theorem test_sendData_in_flight :
    agentStep (.seq 0) (seq1 (flying (.txData 0x10#8) false false)
      { running .sendData .alone .data1 with wbuf := [0x55#8] }) = .fault .writeDataInFlight := rfl

/-- P-12, last access. -/
theorem test_readData :
    resultAfter (agentStep (.seq 0) (seq1 { held .mRxdAck with data := 7#8, aAck := true }
      { running .readData .alone .read3 with c := 0x4C#32, d := 7#32 })) = some (.ok 1 [7#8]) := by decide

/-- P-13, last access. -/
theorem test_readData_after_nak :
    agentStep (.seq 0) (seq1 (held .mRxdNak) { running .readData .alone .read3 with c := 0x48#32 }) =
      .fault .releaseAfterNak := rfl

/-- P-14, last access. -/
theorem test_clearIf :
    lastEvent (agentStep (.seq 0) (seq1 { held .txArAck with aAck := true }
      { running .clearIf .alone .clear2 with c := 0x4C#32 })) = some (.trigger .rxData) := by decide

/-- P-15: the lost-flag hazard of 70_reset_and_hazards.md rule R293. -/
theorem test_clearIf_loses_flag :
    lastEvent (agentStep (.seq 0) (seq1 { held .mTxdAck with data := 0x10#8 }
      { running .clearIf .alone .clear2 with c := 0x40#32 })) = some (.trigger (.txData 0x10#8)) := by decide

/-- P-16, P-17. -/
theorem test_isBusy :
    resultAfter (agentStep (.seq 0) (seq1 { s0 with act := some .start, mSta := true }
      (running .isBusy .alone .busy1))) = some (.ok 0 [0#8]) ∧
    resultAfter (agentStep (.seq 0) (seq1 (flying .stop false true) (running .isBusy .alone .busy1))) =
      some (.ok 0 [1#8]) := by decide

/-- P-18, last access. -/
theorem test_setAck :
    coreAfter (agentStep (.seq 0) (seq1 (held .txArAck) { running .setAck .alone .setAck2 with c := 0x48#32 })) =
      some { held .txArAck with aAck := true } := by decide

/-- P-19, last access. -/
theorem test_clrAck :
    coreAfter (agentStep (.seq 0) (seq1 { held .mRxdAck with aAck := true }
      { running .clrAck .alone .clrAck2 with c := 0x4C#32 })) = some (held .mRxdAck) := by decide

/-- P-20, P-21: `keep` and `clr` under `IFLG_W1C`. -/
theorem test_forms_w1c :
    keepForm paramsW1c 0x48#32 ||| bitMask params.pos.aAck = 0x44#32 ∧ clrForm paramsW1c 0x48#32 = 0x48#32 ∧ clrForm params 0x48#32 = 0x40#32 ∧
    keepForm params 0x48#32 = 0x48#32 := by decide

/-- W-2, its two accesses. -/
theorem test_waitStatus :
    phaseAfter (agentStep (.seq 0) (seq1 (held .mTxdAck) { running .waitStatus .alone .wait1 with budget := 1 })) =
      some (.running ⟨.alone, .wait2⟩) ∧
    (after (agentStep (.seq 0) (seq1 (held .mTxdAck) (running .waitStatus .alone .wait2)))).map (fun x => x.seq.w) =
      some ⟨false, 0x28#8⟩ := by decide

/-- W-1 and L1.2: the end of the budget. -/
theorem test_waitStatus_timeout :
    (after (agentStep (.seq 0) (seq1 s0 (running .waitStatus .alone .wait1)))).map (fun x => (x.history, x.seq.w)) =
      some ([], ⟨true, 0#8⟩) ∧
    resultAfter (agentStep (.seq 0) (seq1 s0 { running .waitStatus .alone .wait3 with w := ⟨true, 0#8⟩ })) =
      some (.fail .timeout 0#8) := by decide

/-- W-6, W-7, W-8. -/
theorem test_waitIdle :
    resultAfter (agentStep (.seq 0) (seq1 s0 (running .waitIdle .alone .idle1))) = some (.fail .busy 0#8) ∧
    resultAfter (agentStep (.seq 0) (seq1 s0 { running .waitIdle .alone .idle1 with budget := 1 })) = some (.ok 0 []) ∧
    resultAfter (agentStep (.seq 0) (seq1 (held .txAwNak)
      { running .waitIdle .alone .idle1 with budget := 3, k := 3, s := 0x20#8 })) = some (.fail .busy 0x20#8) := by decide

/-- A START from idle that a timed-out transaction left in flight. -/
def strandedStart : Inst := { inst { s0 with act := some .start, mSta := true } [ack 0] with stranded := true }

/-- Rule R237: the timeout at T3 leaves START in flight, and no longer once it has completed. -/
theorem test_timeout_strands_the_action :
    (after (agentStep (.seq 0) (seq1 strandedStart.core { running .masterWrite .t3 .wait3 with w := ⟨true, 0#8⟩ }))).map
      (fun x => (x.stranded, x.seq.res)) = some (true, some (.fail .timeout 0#8)) ∧
    (after (agentStep (.eng 0) (machine strandedStart))).map (fun x => (x.stranded, x.core.sta)) =
      some (false, .txStart) := by decide

/-- Rules R237 and R299: it fails Busy while the action a timed-out transaction left is in flight. Rule R211: it does not see a
START from another requester. -/
theorem test_waitIdle_after_timed_out_start :
    let q := { running .waitIdle .alone .idle1 with budget := 1 }
    let s := fun (left : Bool) => machine { strandedStart with seq := q, stranded := left }
    resultAfter (runSchedule (seqOnly 0 2) (s true)) = some (.fail .busy 0xF8#8) ∧
    resultAfter (runSchedule (seqOnly 0 1) (s false)) = some (.ok 0 []) := by decide

/-- Section L2.4. -/
theorem test_configureClock :
    lastEvent (agentStep (.seq 0) (seq1 s0 { running .configureClock .alone .clock1 with hz := 400000 })) =
      some (.write .ccr 0x3B#32) := by decide

/-- Rule R180: the registers the clock configurator writes. -/
theorem test_configureClock_registers :
    (after (agentStep (.seq 0) (seq1 s0 { running .configureClock .alone .clock1 with hz := 400000 }))).map
      (fun x => (x.seq.m, x.seq.nv)) = some (7, 3) := by decide

/-- Rule R190: inline, the result of SEND_DATA is bound to the local and nothing is posted. -/
theorem test_inline_result_is_bound :
    (after (agentStep (.seq 0) (seq1 (held .txStart) { running .masterWrite .t4 .data3 with c := 0x48#32 }))).map
      (fun x => (x.seq.bound, x.seq.res)) = some (some (.ok 1 []), none) := by decide

/-- Section L1.1. -/
theorem test_divider :
    [1000, 187500, 200000, 333333, 3000000, 3000001].map (fun hz => ccrVal params.pos (divider params hz) 3) =
      [0x43#32, 0x03#32, 0x7B#32, 0x4B#32, 0x0B#32, 0x03#32] := by decide

/-- The rejected operands X-1, X-2, X-3, X-4, X-6, X-7. -/
theorem test_requests_validate :
    [Instr.masterWrite 0 0x80 0x10 [1], .masterWrite 0 0x58 0x100 [1], .masterRead 0 0x58 0x20 0,
      .masterRead 0 0x58 0x20 4, .init 0 0 none, .init 0 100000 (some 0x80)].map
        (fun i => resultAfter (exec i (core1 s0))) = List.replicate 6 (some (.fail .invalid 0#8)) := by decide

/-- P1, access 7: the write address of chip 0x58; and the bytes of section L1.10. -/
theorem test_masterWrite :
    lastEvent (agentStep (.seq 0) (seq1 (held .txStart) { running .masterWrite .t4 .data1 with chip := 0x58#7 })) =
      some (.write .data 0xB0#32) ∧
    addrByte 0x7F#7 true = 0xFF#8 ∧ addrByte 0x21#7 false = 0x42#8 := by decide

/-- P3: the mismatch of the address NAK leads to SEND_STOP. -/
theorem test_masterWrite_nak :
    phaseAfter (agentStep (.seq 0) (seq1 (held .txAwNak)
      { running .masterWrite .t5 .wait3 with exp := 0x18#8, w := ⟨false, 0x20#8⟩ })) =
      some (.running ⟨.abort, .stop1⟩) := by decide

/-- P6, accesses 33 and 40. -/
theorem test_masterRead :
    (after (agentStep (.seq 0) (seq1 { held .mRxdAck with data := 0x12#8 }
      { running .masterRead .r16 .fetch with n := 2 }))).map (fun x => (x.seq.rbuf, x.seq.i)) =
      some ([some 0x12#8], 1) ∧
    (after (agentStep (.seq 0) (seq1 { held .mRxdNak with data := 0x34#8 }
      { running .masterRead .r20 .fetch with n := 2, i := 1, rbuf := [some 0x12#8] }))).map (fun x => x.seq.rbuf) =
      some [some 0x12#8, some 0x34#8] := by decide

/-- P6, access 42: the result. -/
theorem test_masterRead_result :
    resultAfter (agentStep (.seq 0) (seq1 (held .mRxdNak)
      { running .masterRead .r21 .stop2 with n := 2, c := 0x48#32, rbuf := [some 0x12#8, some 0x34#8] })) =
      some (.ok 2 [0x12#8, 0x34#8]) := by decide

/-- P1, access 17. -/
theorem test_deviceWrite :
    lastEvent (agentStep (.seq 0) (seq1 (held .mTxdAck)
      { running .deviceWrite .w9 .data1 with n := 1, wbuf := [5#8] })) = some (.write .data 5#32) := by decide

/-- X-13: `DEVICE_READ_ACK_LAST` leaves the read program after T12. -/
theorem test_deviceRead_ack_last :
    phaseAfter (agentStep (.seq 0) { seq1 { held .txArAck with aAck := true }
      { running .deviceRead .r12 .setAck2 with n := 1, c := 0x48#32 } with
        params := { params with deviceReadAckLast := true } }) = some (.running ⟨.d14, .clear1⟩) := by decide

/-- P2, access 22: the read address of chip 0x58. -/
theorem test_deviceRead :
    lastEvent (agentStep (.seq 0) (seq1 (held .txRstart) { running .deviceRead .r10 .data1 with chip := 0x58#7 })) =
      some (.write .data 0xB1#32) := by decide

/-- P5, access 7. -/
theorem test_init :
    lastEvent (agentStep (.seq 0) (seq1 s0 { running .init .n6 .own with own := some 0x10#7 })) =
      some (.write .addr 0x20#32) := by decide

/-- X-16: the reset budget ends. -/
theorem test_init_timeout :
    resultAfter (agentStep (.seq 0) (seq1 pending { running .init .n5 .poll with k := 4 })) =
      some (.fail .timeout 0#8) := by decide

/-- P4: N5 keeps each word it reads from SRST in `r`. -/
theorem test_init_reads_srst :
    (after (agentStep (.seq 0) (seq1 pending { running .init .n5 .poll with k := 1 }))).map (fun x => (x.seq.r, x.seq.k)) =
      some (1#32, 2) := by decide

/-! How a step comes about -/

/-- A word placed by withFetchWord runs as the first instruction after reset (A10). -/
theorem test_first_step : lastEvent (step (State.reset.withFetchWord 48 0x11000000000)) = some (.write .stat 0#32) := by
  decide

/-- With nothing to do the machine stays (41_bus_engine.md rule R155). -/
theorem test_reset_waits : step State.reset = .next State.reset := rfl

/-- A command of the host is issued when nothing else can move. -/
theorem test_host_moves :
    lastEvent (step { core1 s0 with inbox := [.instr (encode Config.offsets (.rdStat 0))] }) = some (.read .stat 0xF8#32) := by decide

/-- Taking a result waits while the request runs, and takes it in Done (45_transactions.md rule R230). -/
theorem test_take :
    cmdEnabled (.take 0) (seq1 s0 (running .isBusy .alone .busy1)) = false ∧
    (after (runTake 0 (seq1 s0 (Seq.unwritten.finish (.ok 0 []))))).map (fun x => (x.seq, x.history)) =
      some (Seq.unwritten, [.taken (.ok 0 [])]) := by decide

/-! Another layout (00_scope.md rule R6): CNTR and LCR have changed places, BUS_EN is bit 0 and A_ACK bit 6,
DATA and STA lie in the second byte, CLK_M lies below CLK_N, and the codes of TX_START and TX_RSTART are exchanged. -/

/-- The parameters with that layout; the windows of two instances do not lie in order. -/
def moved : Params :=
  { params with
    off := { Config.offsets with cntr := 0x20, lcr := 0x0C }
    pos := { Config.positions with busEn := 0, aAck := 6, data := 8, sta := 8, clkM := ⟨0, 4⟩, clkN := ⟨4, 3⟩ }
    codes := { Config.codes with txStart := 0x10#8, txRstart := 0x08#8 }
    bases := [0x3000, 0x1000] }

theorem test_moved_wf : moved.wf := by decide

theorem test_moved_offsets :
    decode moved.off (.word 0 [0x21#8, 0#8, 0#8, 0#8, 0x20#8, 1#8]) = .ok (.wrCntr 0 0x21#32) ∧
    decode moved.off (.word 0 [0#8, 0#8, 0#8, 0#8, 0x0C#8, 0#8]) = .ok (.rdLcr 0) := ⟨rfl, rfl⟩

theorem test_moved_cntr :
    cntrWrite moved 0x61#32 s0 = .next { s0 with aAck := true, mSta := true, act := some .start } ∧
    cntrWord moved.pos { s0 with aAck := true, mSta := true } = 0x61#32 ∧
    cntrWrite moved 0x60#32 s0 = .refused .busDisabled := ⟨rfl, rfl, rfl⟩

theorem test_moved_stat_and_ccr :
    statWord moved (held .txStart) = 0x1000#32 ∧ statWord moved (held .txRstart) = 0x0800#32 ∧
    statWord moved s0 = 0xF800#32 ∧ ccrVal moved.pos 0x1D 3 = 0x3D#32 ∧ ccrWord moved.pos s0 = 0x3E#32 := by decide

/-- The address byte of chip 0x58 where DATA lies in the second byte, and the code T3 expects. -/
theorem test_moved_sequencer :
    lastEvent (agentStep (.seq 0) { seq1 (held .txStart) { running .masterWrite .t4 .data1 with chip := 0x58#7 } with
      params := moved }) = some (.write .data 0xB000#32) ∧
    (Machine.Seq.goto moved (running .masterWrite .t2 .start4) .t3).exp = 0x10#8 := by decide

/-- CNTR of instance 0 at its own base, and no window between. -/
theorem test_moved_windows :
    lastEvent (runMem 0x3020 4 none { core1 s0 with params := moved }) = some (.read .cntr 0x01#32) ∧
    runMem 0x1020 4 none { core1 s0 with params := moved } = .refused .badInstance ∧
    runMem 0x2000 4 none { core1 s0 with params := moved } = .refused .unmappedAddress := ⟨rfl, rfl, rfl⟩

/-- Power-on values are parameters (10_state.md rule R43). -/
theorem test_powerOn_values :
    let p := { params with resets := { Config.resetValues with ccr := 0xFFFFFFF3#32, addr := 0xB1#32 } }
    ccrWord p.pos (CoreState.powerOn p) = 0x73#32 ∧ addrWord p.pos (CoreState.powerOn p) = 0xB1#32 := by decide

/-! Witnesses: a state and operands that meet the hypotheses of each obligation, clause by clause -/

/-- The invariant of a machine of one instance with the test parameters, from its parts. -/
theorem inv_of_parts (x : Inst) (hc : x.core.inv) (hf : x.core.fieldsFit params.pos) (hq : x.seq.inv params)
    (hs : x.stranded = false) : (machine x).inv := by
  refine ⟨⟨test_params_wf, rfl⟩, ?_, rfl, rfl⟩
  intro y hy
  cases List.mem_singleton.mp hy
  exact ⟨hc, hf, hq, fun h => by rw [hs] at h; cases h⟩

/-- A machine whose host is to move and issues `cmd`. -/
def issuing (cmd : HostCmd) (x : Inst) : State := { machine x with inbox := [cmd], sched := [.host] }

/-- A powered-on machine of three instances with another layout. -/
theorem witness_ResetIsReadyAndMeetsTheInvariant :
    let p := { moved with bases := [0x3000, 0x1000, 0x2000] }
    p.wf ∧ p.bases.length = 3 ∧ Inst.powerOn p ∈ (State.powerOn p 3).insts := by decide

theorem witness_StepKeepsTheInvariant :
    let s := issuing (.instr (encode Config.offsets (.wrCntr 0 0x60#32))) (inst s0 [])
    s.inv ∧ isNext (step s) = true := by
  have h := inv_of_parts (inst s0 []) (by decide) (by decide) rfl rfl
  exact ⟨⟨h.1, h.2⟩, rfl⟩

/-- A receive at its last fetch: the invariant holds of running sequencers too. -/
theorem witness_UnreachableFaultsAreNeverRaised :
    (seq1 (held .mRxdNak) { running .masterRead .r20 .fetch with n := 2, i := 1, rbuf := [some 0x12#8] }).inv :=
  inv_of_parts _ (by decide) (by decide)
    ⟨rfl, ⟨by decide, by decide⟩, ⟨by decide, by decide, by decide⟩, rfl, trivial, fun h => absurd h (by decide)⟩ rfl

theorem witness_DecodeOfEncodeIsTheInstruction : Config.offsets.wf ∧ moved.off.wf := by decide

theorem witness_EncodeOfDecodedWordIsTheWord :
    decodeWord Config.offsets 4 0x12000000009#41 = .ok (.wrLcr 4 9#32) ∧ decodeWord Config.offsets 0 0#41 = .ok (.rdAddr 0) := ⟨rfl, rfl⟩

theorem witness_AccessWordsDecodeByOffsetAndDirection :
    let w : AccessWord := 0x120FFFFFFFF#41
    let r : AccessWord := 0x02000000000#41
    let n : AccessWord := 0x00000000001#41
    let u : AccessWord := 0x1FF00000000#41
    ((w.extractLsb' 32 8).toNat = Reg.lcr.offset Config.offsets ∧ w.getLsbD 40 = true) ∧
    ((r.extractLsb' 32 8).toNat = Reg.lcr.offset Config.offsets ∧ r.getLsbD 40 = false ∧ r.extractLsb' 0 32 = 0) ∧
    ((n.extractLsb' 32 8).toNat = Reg.addr.offset Config.offsets ∧ n.getLsbD 40 = false ∧ n.extractLsb' 0 32 ≠ 0) ∧
    (u.extractLsb' 32 8).toNat ∉ Config.offsets.all ∧ Config.offsets.wf := by decide

theorem witness_StepRunsTheDecodedInstruction :
    let s := issuing (.instr (.request .isBusy [.bus 0])) (inst s0 [])
    (s.faulted = [] ∧ s.refused = [] ∧ s.inbox = [.instr (.request .isBusy [.bus 0])] ∧ s.sched = [.host] ∧
      decode Config.offsets (.request .isBusy [.bus 0]) = .ok (.isBusy 0)) ∧
    (∀ p ∈ [(1, 0x02000000001#41, DecodeError.readWithData), (1, 0x02400000000#41, .unmappedOffset),
        (0, 0x02400000000#41, .unmappedOffset), (0, 0x00E00000000#41, .unmappedOffset), (0, 0x02000000001#41, .readWithData)],
      let tm := Term.word p.1 (bytesOfWord p.2.1)
      let s := issuing (.instr tm) (inst s0 [])
      s.faulted = [] ∧ s.refused = [] ∧ s.inbox = [.instr tm] ∧ s.sched = [.host] ∧
        decode s.params.off tm = .error p.2.2 ∧ s.insts.length = 1) ∧
    (let tm := Term.request .isBusy [.value 0]
     let s := issuing (.instr tm) (inst s0 [])
     s.faulted = [] ∧ s.refused = [] ∧ s.inbox = [.instr tm] ∧ s.sched = [.host] ∧
       decode s.params.off tm = .error .wrongOperands) ∧
    (State.reset.faulted = [] ∧ State.reset.refused = [] ∧ State.reset.params.off = Config.offsets ∧
      decodeTableWord 48 0x10C00000060 = some (.wrCntr 0 0x60#32)) :=
  ⟨⟨rfl, rfl, rfl, rfl, rfl⟩, by decide, by decide, rfl, rfl, rfl, by decide⟩

theorem witness_MarkedMachineHasNoStep :
    { core1 s0 with faulted := [.writeDuringReset] }.faulted ≠ [] ∧ { core1 s0 with refused := [.slaveMode] }.refused ≠ [] := by
  decide

theorem witness_RawAccessChecksInOrder :
    let s := fun b width off value => issuing (.port b width off value) (inst s0 [])
    (∀ b width off value, (s b width off value).faulted = [] ∧ (s b width off value).refused = [] ∧
      (s b width off value).inbox = [.port b width off value] ∧ (s b width off value).sched = [.host]) ∧
    (s 1 8 1 none).insts.length ≤ 1 ∧
    (0 < (s 0 31 1 none).insts.length ∧ 31 ≠ 32) ∧
    (0 < (s 0 32 35 none).insts.length ∧ 35 % 4 ≠ 0) ∧
    (0 < (s 0 32 36 none).insts.length ∧ 36 % 4 = 0 ∧ ∀ r : Reg, 36 ≠ r.offset params.off) ∧
    (params.off.wf ∧ 0 < (s 0 32 0x20 none).insts.length ∧ 0x20 = Reg.lcr.offset Config.offsets ∧ 0 = Reg.addr.offset Config.offsets) := by
  refine ⟨fun _ _ _ _ => ⟨rfl, rfl, rfl, rfl⟩, by decide, by decide, by decide, ⟨by decide, by decide, ?_⟩, by decide⟩
  intro r
  cases r <;> decide

/-- The last register of instance 0, the windows' first and last bytes, and the ends of the address space. -/
theorem witness_AbsoluteAccessesReachTheirRegister :
    let p := { params with bases := [0x01C2AC00, 0x01C2B000] }
    let s := fun addr len value => { issuing (.mem addr len value) (inst s0 []) with params := p }
    (∀ addr len value, (s addr len value).faulted = [] ∧ (s addr len value).refused = [] ∧
      (s addr len value).inbox = [.mem addr len value] ∧ (s addr len value).sched = [.host]) ∧
    (p.windowsOk ∧ p.off.wf) ∧
    (p.bases[0]? = some 0x01C2AC00 ∧ 0 < (s 0 4 none).insts.length ∧ 0x01C2AC20 = 0x01C2AC00 + Reg.lcr.offset p.off ∧
      0x01C2AC00 = 0x01C2AC00 + Reg.addr.offset p.off) ∧
    (p.bases[1]? = some 0x01C2B000 ∧ (s 0 4 none).insts.length ≤ 1 ∧ 0x01C2B000 ≤ 0x01C2B3FF ∧
      0x01C2B3FF < 0x01C2B000 + p.blockSize) ∧
    (3 ≠ 4 ∧ (0x01C2AFFF - 0x01C2AC00) % 4 ≠ 0 ∧ 0x01C2AFFF < 0x01C2AC00 + p.blockSize ∧
      (0x01C2AC24 - 0x01C2AC00) % 4 = 0 ∧ ∀ r : Reg, 0x01C2AC24 ≠ 0x01C2AC00 + r.offset p.off) ∧
    (∀ a ∈ [0x01C2ABFF, 0x01C2B400], ∀ base ∈ p.bases, a < base ∨ base + p.blockSize ≤ a) ∧
    2 ^ p.addrBits ≤ 2 ^ 32 := by
  refine ⟨fun _ _ _ => ⟨rfl, rfl, rfl, rfl⟩, by decide, by decide, by decide,
    ⟨by decide, by decide, by decide, by decide, ?_⟩, by decide, by decide⟩
  intro r
  cases r <;> decide

theorem witness_BadInstanceIsRefused : (core1 s0).insts.length ≤ (Instr.rdStat 1).bus := by decide

theorem witness_OneRequesterAtATime :
    let q := running .isBusy .alone .busy1
    ((seq1 s0 q).insts[(Instr.rdStat 0).bus]? = some ⟨s0, q, [], [], 0, false⟩ ∧ requestOf (.rdStat 0) = none ∧
      q.phase.isRunning = true) ∧
    (requestOf (.isBusy 0) ≠ none ∧ q.phase ≠ .ready ∧ (Seq.unwritten.finish (.ok 0 [])).phase ≠ .ready) := by decide

/-- The port is free in Ready and in Done; the fields are at their largest. -/
theorem witness_ReadsReturnTheirFields :
    let c := { s0 with slax := 0xFF#32, clkM := 0xF#32, clkN := 7#32, dbn := 3#32 }
    Free (core1 c) 0 (inst c []) ∧ c.fieldsFit params.pos ∧ params.codes = Config.codes ∧ params.pos = Config.positions ∧
    Free (seq1 c (Seq.unwritten.finish (.ok 0 []))) 0 ⟨c, Seq.unwritten.finish (.ok 0 []), [], [], 0, false⟩ := by decide

theorem witness_CntrReadShowsEveryBit :
    Free (core1 (held .txStart)) 0 (inst (held .txStart) []) ∧ (core1 s0).params.pos.wf := by decide

theorem witness_LcrReadDrawsTheLevels : Free (machine (inst s0 [ack 0])) 0 (inst s0 [ack 0]) ∧ params.pos.wf := by decide

theorem witness_StoringWritesReadBackMasked :
    Free (core1 s0) 0 (inst s0 []) ∧ (inst s0 []).core.rstPending = false ∧ params.pos.wf ∧ moved.pos.wf := by decide

theorem witness_DataWriteStoresOrFaults :
    (Free (core1 s0) 0 (inst s0 []) ∧ s0.rstPending = false ∧ s0.act = none) ∧
    (let c := flying .rxData false false
     Free (core1 c) 0 (inst c []) ∧ c.rstPending = false ∧ c.act ≠ none) := by decide

theorem witness_StatWriteIsIgnored : Free (core1 pending) 0 (inst pending []) := by decide

theorem witness_SrstWriteStartsSoftReset :
    Free (core1 s0) 0 (inst s0 []) ∧ s0.rstPending = false ∧ (1#32).getLsbD 0 = true ∧
    (0xFFFFFFFE#32).getLsbD 0 = false := by decide

theorem witness_WritesDuringResetFault :
    Free (core1 pending) 0 (inst pending []) ∧ pending.rstPending = true ∧ Reg.srst ≠ .stat := by decide

theorem witness_IdleWriteTriggersStartOnly :
    Free (core1 s0) 0 (inst s0 []) ∧ s0.isIdle ∧
    ((0x78#32).getLsbD 5 = true ∧ (0x78#32).getLsbD 6 = true ∧ s0.dbn = 0#32 ∧ s0.sdaCtlEn = false ∧ s0.sclCtlEn = false) ∧
    (0xFFFFFFDF#32).getLsbD 5 = false := by decide

theorem witness_NonClearWriteStaysPaused :
    let c := held .mTxdAck
    Free (core1 c) 0 (inst c []) ∧ c.rstPending = false ∧ c.act = none ∧ c.iflg = true ∧
    (0x68#32).getLsbD 3 ≠ (core1 c).params.iflgW1c := by decide

/-- One status and write for each of the thirteen clauses, in their order. -/
theorem witness_ClearWriteFollowsTheTriggerTable :
    (∀ p ∈ [(Status.txStart, 0x70#32), (.mRxdNak, 0x50#32), (.txArNak, 0x60#32), (.txRstart, 0x60#32), (.txStart, 0x40#32),
        (.txAwNak, 0x40#32), (.mRxdAck, 0x40#32), (.mRxdNak, 0x40#32), (.arbLost, 0x50#32), (.arbLost, 0x70#32),
        (.busError, 0x50#32), (.busError, 0x70#32), (.busError, 0x40#32)],
      let c := held p.1
      Free (core1 c) 0 (inst c []) ∧ c.rstPending = false ∧ c.act = none ∧ c.iflg = true ∧
      p.2.getLsbD 3 = (core1 c).params.iflgW1c ∧ p.2.getLsbD 6 = true ∧ c.dbn = 0#32 ∧ c.sdaCtlEn = false ∧
      c.sclCtlEn = false ∧ c.mSta = false ∧ c.mStp = false) ∧
    (Status.txStart ∈ masterSet ∧ (0x70#32).getLsbD 5 = true ∧ (0x70#32).getLsbD 4 = true) ∧
    (Status.mRxdNak ∈ masterSet ∧ (0x50#32).getLsbD 5 = false ∧ (0x50#32).getLsbD 4 = true) ∧
    (Status.txArNak ∈ byteDoneSet ∧ (0x60#32).getLsbD 5 = true ∧ (0x60#32).getLsbD 4 = false) ∧
    (Status.txRstart ∈ afterStartSet ∧ Status.txStart ∈ afterStartSet ∧ Status.txAwNak ∈ mtxSet ∧
      Status.mRxdAck ∈ mrxGoSet ∧ Status.mRxdNak ∈ mrxEndSet ∧ (0x40#32).getLsbD 5 = false ∧
      (0x40#32).getLsbD 4 = false) := by decide

theorem witness_TriggerPreconditionsInOrder :
    (∀ c ∈ [held .arbLost, { held .arbLost with dbn := 3#32 }, { held .arbLost with sdaCtlEn := true },
        { held .arbLost with sclCtlEn := true }],
      Free (core1 c) 0 (inst c []) ∧ c.rstPending = false ∧ c.act = none ∧ c.iflg = true ∧
      (0x40#32).getLsbD 3 = (core1 c).params.iflgW1c) ∧
    (∀ c ∈ [s0, { s0 with dbn := 1#32 }, { s0 with sdaCtlEn := true }],
      Free (core1 c) 0 (inst c []) ∧ c.rstPending = false ∧ c.act = none ∧ c.iflg = false ∧
      (0x60#32).getLsbD 5 = true) ∧
    (0x20#32).getLsbD 6 = false ∧ (0x20#32).getLsbD 5 = true ∧ (0x60#32).getLsbD 6 = true ∧
    (0x40#32).getLsbD 6 = true ∧ (0x00#32).getLsbD 6 = false := by decide

theorem witness_CntrWriteInFlightKeepsTheAction :
    (∀ c ∈ [flying (.txData 0#8) false false, flying .stopStart true true],
      Free (core1 c) 0 (inst c []) ∧ c.rstPending = false ∧ c.act ≠ none) ∧
    (0x3F#32).getLsbD 6 = false ∧
    ((0x60#32).getLsbD 6 = true ∧ (0x60#32).getLsbD 5 = true ∧ (flying (.txData 0#8) false false).mSta = false) ∧
    ((0x50#32).getLsbD 4 = true ∧ (flying (.txData 0#8) false false).mStp = false) ∧
    ((0x70#32).getLsbD 6 = true ∧ (flying .stopStart true true).mSta = true ∧ (flying .stopStart true true).mStp = true) := by
  decide

/-- A paused core read by the host, and by the sequencer. -/
theorem witness_SoftwareNeverSetsTheFlag :
    (∃ t y, exec (.rdStat 0) (core1 (held .txStart)) = .next t ∧ t.insts[0]? = some y ∧ y.core.iflg = true) ∧
    (∃ t y, agentStep (.seq 0) (seq1 (held .txStart) (running .isBusy .alone .busy1)) = .next t ∧
      t.insts[0]? = some y ∧ y.core.iflg = true) :=
  ⟨⟨_, _, rfl, rfl, rfl⟩, _, _, rfl, rfl, rfl⟩

theorem witness_OnlySoftResetChangesStatBesideTheEngine :
    (∃ t y, exec (.wrCntr 0 0x60#32) (core1 s0) = .next t ∧ t.insts[0]? = some y ∧ ∀ v, Instr.wrCntr 0 0x60#32 ≠ .wrSrst 0 v) ∧
    (∃ t y, agentStep (.seq 0) (seq1 s0 (running .isBusy .alone .busy1)) = .next t ∧ t.insts[0]? = some y ∧
      ∀ p, (running .isBusy .alone .busy1).phase ≠ .running ⟨p, .softReset⟩) :=
  ⟨⟨_, _, rfl, rfl, nofun⟩, _, _, rfl, rfl, fun _ h => by cases h⟩

theorem witness_StartCompletionsReportTheirStatus :
    ∀ a ∈ [Action.start, .rstart, .stopStart, .arbStart], ∀ o ∈ [LineOutcome.ok, .arb, .berr],
      let x := inst (flying a true (a = .stopStart)) [{ ack 0 with line := o }]
      (machine x).insts[0]? = some x ∧ x.core.act = some a ∧ (x.nextDraw 0).line = o := by decide

theorem witness_AddressCompletionReportsTheAcknowledge :
    (∀ a ∈ [0xFE#8, 0xFF#8], ∀ o ∈ [AddrOutcome.ack, .nak, .arb, .berr, .arbAddressed],
      let x := inst (flying (.txAddr a) false false) [{ ack 0 with addr := o }]
      (machine x).insts[0]? = some x ∧ x.core.act = some (.txAddr a) ∧ (x.nextDraw 0).addr = o ∧ x.core.aAck = false) ∧
    (let x := inst { flying (.txAddr 0#8) false false with aAck := true } [{ ack 0 with addr := .arbAddressed }]
     (machine x).insts[0]? = some x ∧ x.core.act = some (.txAddr 0#8) ∧ (x.nextDraw 0).addr = .arbAddressed ∧
      x.core.aAck = true) ∧ (0xFE#8).getLsbD 0 = false ∧ (0xFF#8).getLsbD 0 = true := by decide

theorem witness_ReceiveCompletionStoresAndAcknowledges :
    ∀ o ∈ [LineOutcome.ok, .arb, .berr], ∀ now ∈ [false, true],
      let x := inst (flying .rxData false false) [{ ack 0x99 with line := o, ackNow := now }]
      (machine x).insts[0]? = some x ∧ x.core.act = some .rxData ∧ (x.nextDraw 0).line = o ∧
      (x.nextDraw 0).ackNow = now ∧ x.core.ackTrig = x.core.aAck := by decide

theorem witness_DataCompletionReportsTheAcknowledge :
    ∀ o ∈ [DataOutcome.ack, .nak, .arb, .berr],
      let x := inst (flying (.txData 0xFF#8) false false) [{ ack 0 with data := o }]
      (machine x).insts[0]? = some x ∧ x.core.act = some (.txData 0xFF#8) ∧ (x.nextDraw 0).data = o := by decide

theorem witness_StopAndReleasesEndInIdle :
    ∀ a ∈ [Action.stop, .release, .berrRelease],
      let x := inst (flying a false (a ≠ .release)) []
      (machine x).insts[0]? = some x ∧ x.core.act = some a := by decide

theorem witness_ResetCompletionEndsTheReset :
    (core1 pending).insts[0]? = some (inst pending []) ∧ params.pos.wf ∧ pending.rstPending = true := by decide

theorem witness_SlaveAddressedStepIsRefused :
    let c := { s0 with aAck := true }
    (core1 c).insts[0]? = some (inst c []) ∧ c.act = none ∧ c.iflg = false ∧ c.rstPending = false ∧ c.busEn = true ∧
      c.aAck = true := by decide

/-- The sixteen requests, each at a bound of its operands. -/
theorem witness_ValidRequestsAreAccepted :
    ∀ i ∈ [Instr.sendStart 0, .sendStop 0, .sendData 0 0xFF, .readData 0, .clearIf 0, .isBusy 0, .setAck 0, .clrAck 0,
        .waitStatus 0 0, .waitIdle 0 0, .configureClock 0 1, .masterWrite 0 0x7F 0xFF [0xFF, 0, 1],
        .masterRead 0 0x7F 0xFF 3, .deviceWrite 0 0x7F 0xFF 0xFF, .deviceRead 0 0x7F 0xFF, .init 0 1 (some 0x7F)],
      Ready (core1 s0) i.bus (inst s0 []) ∧ requestOf i ≠ none ∧ i.operandsInRange (core1 s0).params.nMax = true := by
  decide

theorem witness_InvalidRequestsFail :
    ∀ i ∈ [Instr.sendData 0 0x100, .configureClock 0 0, .masterWrite 0 0x80 0 [], .masterWrite 0 0 0 [1, 2, 3, 4],
        .masterRead 0 0 0 0, .masterRead 0 0 0 4, .deviceWrite 0 0 0 0x100, .deviceRead 0 0x80 0, .init 0 1 (some 0x80)],
      Ready (core1 s0) i.bus (inst s0 []) ∧ requestOf i ≠ none ∧ i.operandsInRange (core1 s0).params.nMax = false := by
  decide

/-- The premise of every request statement below: the test parameters describe a controller (`test_params_wf`). -/
theorem witness_SendStartRequestsAStart :
    (let x := inst s0 [ack 0]
     Ready (machine x) 0 x ∧ (machine x).params.wf ∧ x.core.canTrigger ∧ x.core.isIdle ∧ (x.nextDraw 0).line = .ok ∧
      1 ≤ (machine x).params.startBudget) ∧
    (∀ st ∈ byteDoneSet, let x := inst (held st) [ack 0]
      Ready (machine x) 0 x ∧ x.core.canTrigger ∧ x.core.isPausedIn st ∧ (x.nextDraw 0).line = .ok) ∧
    0 < params.startBudget ∧ 3 < params.startBudget := by decide

theorem witness_SendStopRequestsAStop :
    (∀ st ∈ masterSet ++ [.busError, .arbLost], let x := inst (held st) []
      Ready (machine x) 0 x ∧ x.core.canTrigger ∧ x.core.isPausedIn st) ∧
    (Ready (core1 s0) 0 (inst s0 []) ∧ s0.canTrigger ∧ s0.isIdle) ∧
    (let c := flying (.txData 0x10#8) false false
     Ready (core1 c) 0 (inst c []) ∧ c.canTrigger ∧ c.act ≠ none ∧ c.rstPending = false ∧ c.mStp = false) := by decide

theorem witness_SendDataSendsTheByte :
    (∀ st ∈ afterStartSet ++ mtxSet ++ mrxGoSet ++ mrxEndSet, let x := inst (held st) []
      Ready (machine x) 0 x ∧ x.core.canTrigger ∧ x.core.rstPending = false ∧ 0xFF ≤ 0xFF ∧ x.core.isPausedIn st) ∧
    (Ready (core1 s0) 0 (inst s0 []) ∧ s0.canTrigger ∧ s0.isIdle) ∧
    (let c := flying .start true false
     Ready (core1 c) 0 (inst c []) ∧ c.canTrigger ∧ c.rstPending = false ∧ c.act ≠ none) := by decide

theorem witness_ReadDataReturnsTheByte :
    ∀ st ∈ [Status.mRxdAck, .mRxdNak], let x := inst (held st) []
      Ready (machine x) 0 x ∧ x.core.canTrigger ∧ x.core.isPausedIn st := by decide

theorem witness_ClearIfLetsTheCoreProceed :
    (∀ st ∈ afterStartSet ++ mtxSet ++ mrxGoSet ++ [.arbLost], let x := inst (held st) []
      Ready (machine x) 0 x ∧ x.core.canTrigger ∧ x.core.isPausedIn st) ∧
    (Ready (core1 s0) 0 (inst s0 []) ∧ s0.canTrigger ∧ s0.isIdle) := by decide

theorem witness_IsBusyTellsIdleFromTheRest :
    Ready (core1 s0) 0 (inst s0 []) ∧ s0.sta = .idle ∧
    Ready (core1 (held .busError)) 0 (inst (held .busError) []) ∧ (held .busError).sta ≠ .idle := by decide

theorem witness_AckPrimitivesWriteAAckOnly :
    ∀ p ∈ [(held .txArAck, true), (s0, false), (flying .rxData false false, false)],
      Ready (core1 p.1) 0 (inst p.1 []) ∧ p.1.rstPending = false ∧
      ((p.2 = true ∧ p.1.isPausedIn .txArAck) ∨ p.1.isIdle ∨ (p.1.act ≠ none ∧ p.1.busEn = true)) := by decide

/-- Paused, idle, and with a data byte that completes after the first and after the last poll but one of a budget of 4. -/
theorem witness_WaitStatusReturnsOrTimesOut :
    (Ready (core1 (held .mTxdAck)) 0 (inst (held .mTxdAck) []) ∧ (held .mTxdAck).iflg = true) ∧
    (Ready (core1 s0) 0 (inst s0 []) ∧ s0.iflg = false) ∧
    (∀ j ∈ [0, 1, 3], let x := inst (flying (.txData 0x10#8) false false) [ack 0]
      Ready (machine x) 0 x ∧ x.core.iflg = false ∧ j < 4 ∧
      (coreAfter (agentStep (.eng 0) (machine x))).map CoreState.iflg = some true) := by decide

/-- Idle, paused, with a START left in flight by a timed-out transaction, and with a STOP in flight that ends in idle; each
transaction. -/
theorem witness_WaitIdleSucceedsOrFailsBusy :
    (Ready (core1 s0) 0 (inst s0 []) ∧ params.wf ∧ s0.sta = .idle ∧ ¬ HeldBusy (inst s0 [])) ∧
    (Ready (core1 (held .txAwNak)) 0 (inst (held .txAwNak) []) ∧ (held .txAwNak).sta ≠ .idle) ∧
    (Ready (machine strandedStart) 0 strandedStart ∧ HeldBusy strandedStart ∧ strandedStart.core.sta = .idle) ∧
    (∀ i ∈ [Instr.masterWrite 0 0x7F 0xFF [0xFF, 0, 1], .masterRead 0 0 0 1, .deviceWrite 0 0x7F 0 0xFF, .deviceRead 0 0 0xFF],
      i.bus = 0 ∧ ((requestOf i).map fun r => decide (r.1 ∈ transactions)) = some true ∧
      i.operandsInRange params.nMax = true) ∧
    (∀ j ∈ [0, 1, 3], let x := inst (flying .stop false true) []
      Ready (machine x) 0 x ∧ x.core.sta ≠ .idle ∧ j < params.idleBudget ∧
      (coreAfter (agentStep (.eng 0) (machine x))).map (fun c => (c.sta, c.act)) = some (.idle, none)) :=
  ⟨by decide, by decide, by decide, by decide, by decide⟩

theorem witness_ConfigureClockWritesTheDivider :
    (Ready (core1 s0) 0 (inst s0 []) ∧ s0.rstPending = false) ∧
    (Ready (core1 pending) 0 (inst pending []) ∧ pending.rstPending = true) ∧ 1 ≠ 0 := by decide

/-- The bounds of rule R182 at the rate with divider 1 and at 400 kHz. -/
theorem witness_DividerIsWithinRounding :
    0 < 3000000 ∧ 1 ≤ divider params 3000000 ∧ 1 ≤ divider params 400000 := by decide

/-- From idle, paused, with a byte in flight, and with a reset pending. -/
theorem witness_InitProgramsTheInstance :
    (∀ c ∈ [s0, held .mRxdNak, held .busError, flying (.txData 0x10#8) false false],
      Ready (core1 c) 0 (inst c []) ∧ c.rstPending = false ∧
      (c.isIdle ∨ c.isPausedIn c.sta ∨ (c.act ≠ none ∧ c.busEn = true))) ∧
    params.wf ∧ 0 < 1 ∧ (∀ a ∈ some 0x7F, a ≤ 0x7F) ∧ 0 < params.resetBudget ∧ 3 < params.resetBudget ∧
    (Ready (core1 pending) 0 (inst pending []) ∧ pending.rstPending = true) ∧
    (let c := flying (.txData 0x10#8) false false
     let x := inst c [ack 0]
     Ready (machine x) 0 x ∧ c.act = some (.txData 0x10#8) ∧ c.rstPending = false ∧ c.iflg = false ∧ c.mSta = false ∧
      c.mStp = false ∧ c.canTrigger ∧ params.iflgW1c = false ∧ (x.nextDraw 0).data = .ack) := by
  refine ⟨by decide, test_params_wf, by decide, ?_, by decide, by decide, by decide⟩
  intro a ha
  cases ha
  decide

/-- A machine ready for a transaction whose bus acknowledges `k` times. -/
theorem eagerStart_of_acks (k : Nat) :
    EagerStart (machine (inst s0 (List.replicate k (ack 7)))) 0 (inst s0 (List.replicate k (ack 7)))
      (List.replicate k (ack 7)) [] k :=
  ⟨test_params_wf, ⟨rfl, rfl⟩, (by decide : s0.isIdle), (by decide : s0.canTrigger), (by decide : 1 ≤ 4), (by decide : 1 ≤ 4),
    (by decide : 1 ≤ 4), by simp [inst], by simp, fun d hd => by
    cases List.eq_of_mem_replicate hd
    exact ⟨rfl, rfl, rfl⟩⟩

/-- No payload, and the largest. -/
theorem witness_MasterWriteSucceeds :
    ∀ bytes ∈ [[], [0xFF, 0, 1]], (∃ s x ds, EagerStart s 0 x ds [] (bytes.length + 3) ∧ bytes.length ≤ s.params.nMax) ∧
      0x7F ≤ 0x7F ∧ 0xFF ≤ 0xFF ∧ ∀ v ∈ bytes, v ≤ 0xFF := by
  intro bytes hb
  refine ⟨⟨_, _, _, eagerStart_of_acks _, ?_⟩, by decide, by decide, ?_⟩ <;> revert bytes <;> decide

theorem witness_MasterReadSucceeds :
    ∀ n ∈ [1, 3], (∃ s x ds, EagerStart s 0 x ds [] (n + 5) ∧ n ≤ s.params.nMax) ∧ 0x7F ≤ 0x7F ∧ 0xFF ≤ 0xFF ∧ 1 ≤ n := by
  intro n hn
  refine ⟨⟨_, _, _, eagerStart_of_acks _, ?_⟩, by decide, by decide, ?_⟩ <;> revert n <;> decide

theorem witness_DeviceTransactionsSucceed :
    (∃ s x ds, EagerStart s 0 x ds [] 4) ∧ (∃ s x ds d, EagerStart s 0 x (ds ++ [d]) [] 6) ∧ 0x7F ≤ 0x7F ∧ 0xFF ≤ 0xFF :=
  ⟨⟨_, _, _, eagerStart_of_acks 4⟩, ⟨_, _, List.replicate 5 (ack 7), ack 7, eagerStart_of_acks 6⟩, by decide, by decide⟩

/-- Every place with an EXPECT, under an operation that comes there. -/
theorem witness_ExpectAbortsOnAnyMismatch :
    (∀ p ∈ [Place.t3, .t5, .t7, .w10], ∀ q : Machine.Seq, q = running .masterWrite p .wait3 →
      (machine ⟨s0, q, [], [], 0, false⟩).insts[0]? = some ⟨s0, q, [], [], 0, false⟩ ∧ q.phase = .running ⟨p, .wait3⟩ ∧
      expects p ≠ none ∧ afterExpected q.op p q.i ≠ none) ∧
    (∀ p ∈ [Place.t7, .r9, .r11, .r15, .r19, .d15], ∀ q : Machine.Seq, q = running .deviceRead p .wait3 →
      q.phase = .running ⟨p, .wait3⟩ ∧ expects p ≠ none ∧ afterExpected q.op p q.i ≠ none) ∧
    (let q := { running .masterWrite .t5 .wait3 with exp := 0x18#8, w := ⟨false, 0x20#8⟩ }
     (seq1 (held .txAwNak) q).inv ∧ q.w.timedOut = false ∧ q.w.status ≠ q.exp ∧
      (seq1 (held .txAwNak) q).params.stopOnAbort = true ∧ { params with stopOnAbort := false }.stopOnAbort = false ∧
      ({ q with w := ⟨true, 0#8⟩ } : Machine.Seq).w.timedOut = true ∧
      ({ q with w := ⟨false, 0x18#8⟩ } : Machine.Seq).w.status = q.exp) ∧
    (∀ st ∈ masterSet ++ [.busError, .arbLost], let x : Inst := ⟨held st, running .masterWrite .abort .stop1, [], [], 0, false⟩
      (machine x).insts[0]? = some x ∧ x.seq.phase = .running ⟨.abort, .stop1⟩ ∧ x.core.canTrigger ∧
      x.core.isPausedIn st) := by
  refine ⟨?_, ?_, ⟨inv_of_parts _ (by decide) (by decide) ?_ rfl, by decide⟩, by decide⟩
  · rintro p hp _ rfl
    revert p
    decide
  · rintro p hp _ rfl
    revert p
    decide
  · refine ⟨rfl, ⟨by decide, by decide⟩, ⟨fun _ => rfl, by decide, by decide⟩, trivial, trivial, ?_⟩
    rintro - st h
    cases h
    rfl

theorem witness_TransactionsNeverFault :
    (∀ i ∈ [Instr.masterWrite 0 0x58 0x10 [5], .masterRead 0 0x58 0x20 3, .deviceWrite 0 0x58 0x10 5, .deviceRead 0 0x58 0x30],
      Ready (core1 s0) i.bus (inst s0 []) ∧ s0.isIdle ∧ s0.canTrigger ∧
      ((requestOf i).map fun r => decide (r.1 ∈ transactions)) = some true ∧ isNext (exec i (core1 s0)) = true ∧
      ∀ a ∈ [Agent.seq 0, .eng 0, .reset 0, .slave 0], a ∈ [Agent.seq i.bus, .eng i.bus, .reset i.bus, .slave i.bus]) ∧
    params.wf := by
  exact ⟨by decide, test_params_wf⟩

/-- The step lemma's premise: waiting for START with its action in flight, about to send the address byte, and ended. -/
theorem witness_TransactionsNeverFault_step :
    Suits params ⟨flying .start true false, { running .masterWrite .t3 .wait1 with exp := 0x08#8 }, [], [], 0, false⟩ ∧
    Suits params ⟨held .txStart, { running .masterRead .t4 .data3 with n := 1, c := 0x48#32 }, [], [], 0, false⟩ ∧
    Suits params ⟨s0, Seq.unwritten.finish (.ok 0 []), [], [], 0, false⟩ := by
  refine ⟨⟨⟨.masterWrite, by decide, rfl⟩, ⟨rfl, ⟨by decide, by decide⟩, ⟨fun _ => rfl, by decide, by decide⟩, trivial,
      by decide, ?_⟩, by decide, by decide, Or.inl (by decide)⟩,
    ⟨⟨.masterRead, by decide, rfl⟩, ⟨rfl, ⟨by decide, by decide⟩, ⟨by decide, fun _ => by decide, by decide⟩, trivial,
      trivial, fun h => absurd h (by decide)⟩, by decide, fun _ => by decide, .txStart, by decide, by decide⟩, trivial⟩
  rintro - st h
  cases h
  rfl

/-- A machine whose budgets are 0. -/
def noBudget : State :=
  { core1 s0 with params := { params with waitBudget := 0, idleBudget := 0, startBudget := 0, resetBudget := 0 } }

/-- Sixty sequencer steps are no less than the bound of request `i` on that machine, and it makes them. -/
def sixtyReach (i : Instr) : Bool :=
  match requestOf i, exec i noBudget with
  | some r, .next t =>
      decide (stepBound noBudget.params r.1 r.2.1 r.2.2 ≤ (seqOnly 0 60).count (.seq i.bus)) &&
        (match runSchedule (seqOnly 0 60) t with
          | .next u => u.insts[i.bus]?.isSome
          | _ => false)
  | _, _ => false

theorem meets_of_sixtyReach (i : Instr) (h : sixtyReach i = true) :
    ∃ t u op n k y, requestOf i = some (op, n, k) ∧ exec i noBudget = .next t ∧ Agent.host ∉ seqOnly 0 60 ∧
      stepBound noBudget.params op n k ≤ (seqOnly 0 60).count (.seq i.bus) ∧
      runSchedule (seqOnly 0 60) t = .next u ∧ u.insts[i.bus]? = some y := by
  unfold sixtyReach at h
  split at h
  next r t hr ht =>
    obtain ⟨op, n, k⟩ := r
    rw [Bool.and_eq_true, decide_eq_true_eq] at h
    obtain ⟨hb, h⟩ := h
    split at h
    next u hu =>
      obtain ⟨y, hy⟩ := Option.isSome_iff_exists.mp h
      exact ⟨t, u, op, n, k, y, hr, ht, by decide, hb, hu, hy⟩
    next => cases h
  next => cases h

/-- Every request, each at the largest of its operands. -/
theorem witness_RequestsEndWithinABound :
    ∀ i ∈ [Instr.sendStart 0, .sendStop 0, .sendData 0 0xFF, .readData 0, .clearIf 0, .isBusy 0, .setAck 0, .clrAck 0,
        .waitStatus 0 0, .waitIdle 0 0, .configureClock 0 1, .masterWrite 0 0x7F 0xFF [0xFF, 0, 1],
        .masterRead 0 0x7F 0xFF 3, .deviceWrite 0 0x7F 0xFF 0xFF, .deviceRead 0 0x7F 0xFF, .init 0 1 (some 0x7F)],
      sixtyReach i = true := by decide

theorem witness_TakingTheResultFreesTheSequencer :
    let x : Inst := ⟨s0, Seq.unwritten.finish (.ok 0 []), [], [], 0, false⟩
    let s := issuing (.take 0) x
    s.faulted = [] ∧ s.refused = [] ∧ s.inbox = [.take 0] ∧ s.sched = [.host] ∧ s.insts[0]? = some x ∧
      x.seq.phase = .done ∧ x.seq.res = some (.ok 0 []) := by decide

/-- A write to instance 0 beside an instance 1, and the same beside another instance 1. -/
theorem witness_InstancesAreIndependent :
    let s := fun c => { core1 s0 with insts := [inst s0 [], inst c []], inbox := [.port 0 32 8 (some 7#32)] }
    (isNext (agentStep .host (s pending)) = true ∧ actsOn (s pending) .host = some 0) ∧
    (isNext (step (s s0)) = true ∧ (s s0).sched = [] ∧ Agent.host ∈ enabledAgents (s s0)) ∧
    ((s pending).params = (s s0).params ∧ (s pending).inbox = (s s0).inbox ∧ (s pending).insts[0]? = some (inst s0 []) ∧
      (s s0).insts[0]? = some (inst s0 [])) := by decide

theorem witness_HistoryGrowsByAtMostOneAccess :
    ∃ t y, step (issuing (.instr (.request .isBusy [.bus 0])) (inst s0 [])) = .next t ∧
      (issuing (.instr (.request .isBusy [.bus 0])) (inst s0 [])).insts[0]? = some (inst s0 []) ∧ t.insts[0]? = some y :=
  ⟨_, _, rfl, rfl, rfl⟩

/-- The line is high exactly with both bits; and a step of the engine from INT_EN = 0. -/
theorem witness_InterruptLineStaysLow :
    ({ held .txStart with intEn := true } : CoreState).irq = true ∧
    ∃ t y, agentStep (.eng 0) (machine (inst (flying .stop false true) [])) = .next t ∧ t.insts[0]? = some y ∧
      params.pos.wf ∧ (flying .stop false true).intEn = false ∧ Seq.unwritten.c.getLsbD params.pos.intEn = false :=
  ⟨rfl, _, _, rfl, rfl, by decide, rfl, by decide⟩

end Sys2Proof.Tests
end

/-! PROOFS. The statements of 00_scope.md: what the host's command does when the host has the move, the checks of a raw
access, and the window an absolute address lies in. -/

namespace Sys2Proof.Machine

/-! The host's move -/

/-- An unmarked machine whose schedule gives the host the move runs the host's next command. -/
theorem step_host {s : State} {cmd : HostCmd} {rest : List HostCmd} {sc : List Agent} (hf : s.faulted = [])
    (hr : s.refused = []) (hi : s.inbox = cmd :: rest) (hs : s.sched = .host :: sc) (hc : cmdEnabled cmd s = true) :
    step s = runCmd cmd { s with inbox := rest, sched := sc } := by
  have hmove : step s = hostStep { s with sched := sc } := by
    simp only [step, markedStep, hf, hr, scheduledStep, hs, agentStep]
  rw [hmove, hostStep]
  simp only [hi]
  exact if_pos hc

/-! The checks of a raw access, in the order of rule R110 -/

theorem runPort_badInstance {s : State} {b : Nat} (width off : Nat) (value : Option Word) (hb : s.insts.length ≤ b) :
    runPort b width off value s = .refused .badInstance := by
  rw [runPort, if_pos hb]

theorem runPort_badWidth {s : State} {b width : Nat} (off : Nat) (value : Option Word) (hb : b < s.insts.length)
    (hw : width ≠ 32) : runPort b width off value s = .refused .badWidth := by
  rw [runPort, if_neg (by omega), if_pos hw]

theorem runPort_misaligned {s : State} {b off : Nat} (value : Option Word) (hb : b < s.insts.length)
    (ho : off % 4 ≠ 0) : runPort b 32 off value s = .refused .misaligned := by
  rw [runPort, if_neg (by omega), if_neg (by simp), if_pos ho]

theorem runPort_unmappedOffset {s : State} {b off : Nat} (value : Option Word) (hb : b < s.insts.length)
    (ho : off % 4 = 0) (hu : ∀ r : Reg, off ≠ r.offset s.params.off) :
    runPort b 32 off value s = .refused .unmappedOffset := by
  rw [runPort, if_neg (by omega), if_neg (by simp), if_neg (by omega), (regAt_eq_none _ _).mpr hu]

/-- A raw access that passes the checks is the read or the write of the register at its offset. -/
theorem runPort_register {s : State} {b : Nat} (r : Reg) (value : Option Word) (ho : s.params.off.wf)
    (hb : b < s.insts.length) :
    runPort b 32 (r.offset s.params.off) value s =
      value.elim (exec (readOf r b) s) fun v => exec (writeOf r b v) s := by
  obtain ⟨hnd, hwf⟩ := ho
  have hal := (hwf _ (offset_mem_all s.params.off r)).1
  rw [runPort, if_neg (by omega), if_neg (by simp), if_neg (by omega), (regAt_eq_some _ hnd _ r).mpr rfl]
  cases value <;> rfl

/-! The window of an absolute address -/

/-- An address in the window of instance `i` is a raw access of that instance: windows lie inside the address space. -/
theorem runMem_window {s : State} {addr i base : Nat} (len : Nat) (value : Option Word) (hw : s.params.windowsOk)
    (hb : s.params.bases[i]? = some base) (hl : base ≤ addr) (hu : addr < base + s.params.blockSize) :
    runMem addr len value s = runPort i (8 * len) (addr - base) value s := by
  have hin : base + s.params.blockSize ≤ 2 ^ s.params.addrBits := hw.2.1 base (List.mem_of_getElem? hb)
  rw [runMem, if_neg (by omega), windowOf_eq_some _ hw addr i base hb hl hu]
  simp [List.getD_eq_getElem?_getD, hb]

theorem runMem_beyondBus {s : State} {addr : Nat} (len : Nat) (value : Option Word) (h : 2 ^ s.params.addrBits ≤ addr) :
    runMem addr len value s = .refused .unmappedAddress := by
  rw [runMem, if_pos h]

theorem runMem_noWindow {s : State} {addr : Nat} (len : Nat) (value : Option Word)
    (h : ∀ base ∈ s.params.bases, addr < base ∨ base + s.params.blockSize ≤ addr) :
    runMem addr len value s = .refused .unmappedAddress := by
  rw [runMem, (windowOf_eq_none _ _).mpr h, ite_self]

/-! Terms that decode to nothing -/

/-- Operands belong to requests: no access word is rejected for its operands. -/
theorem decodeBytes_ne_wrongOperands (o : Offsets) (b : Nat) (bs : List Byte) :
    decodeBytes o b bs ≠ .error .wrongOperands := by
  unfold decodeBytes
  split
  · simp
  · unfold decodeWord
    split
    · simp
    · split
      · simp
      · split <;> simp

theorem refuseTerm_noInstance (e : DecodeError) (bs : List Byte) {s : State} {b : Nat} (hb : s.insts.length ≤ b) :
    refuseTerm e (.word b bs) s = .refused .badInstance :=
  if_neg (by omega)

theorem refuseTerm_unmappedOffset (bs : List Byte) {s : State} {b : Nat} (hb : b < s.insts.length) :
    refuseTerm .unmappedOffset (.word b bs) s = .refused .unmappedOffset :=
  if_pos hb

/-- A word at a mapped offset that decodes to nothing is malformed. -/
theorem refuseTerm_malformedWord {s : State} {b : Nat} {bs : List Byte} {e : DecodeError} (hb : b < s.insts.length)
    (hd : decodeBytes s.params.off b bs = .error e) (he : e ≠ .unmappedOffset) :
    refuseTerm e (.word b bs) s = .refused .malformedWord := by
  simp only [refuseTerm, if_pos hb]
  cases e with
  | unmappedOffset => exact absurd rfl he
  | readWithData => rfl
  | notAnAccessWord => rfl
  | wrongOperands => exact absurd hd (decodeBytes_ne_wrongOperands _ _ _)

/-- Issuing a term that decodes to `i` executes `i`. -/
theorem runTerm_ok {t : Term} {s : State} {i : Instr} (h : decode s.params.off t = .ok i) : runTerm t s = exec i s := by
  rw [runTerm, h]

theorem runTerm_error {t : Term} {s : State} {e : DecodeError} (h : decode s.params.off t = .error e) :
    runTerm t s = refuseTerm e t s := by
  rw [runTerm, h]

/-- A word of the table decodes as its six bytes issued to instance 0. -/
theorem decode_tableBytes {nbits w : Nat} {i : Instr} (h : decodeTableWord nbits w = some i) :
    decode Config.offsets (.word 0 (tableBytes nbits w)) = .ok i := by
  unfold decodeTableWord at h
  split at h
  next j hj =>
    cases h
    exact hj
  next => cases h

/-- A step in which the host issues a term that decodes. -/
theorem step_term_ok {s : State} {t : Term} {i : Instr} {rest : List HostCmd} {sc : List Agent} (hf : s.faulted = [])
    (hr : s.refused = []) (hi : s.inbox = .instr t :: rest) (hs : s.sched = .host :: sc)
    (hd : decode s.params.off t = .ok i) : step s = exec i { s with inbox := rest, sched := sc } :=
  (step_host hf hr hi hs rfl).trans (runTerm_ok hd)

/-- A step in which the host issues a term that decodes to nothing. -/
theorem step_term_error {s : State} {t : Term} {e : DecodeError} {rest : List HostCmd} {sc : List Agent}
    (hf : s.faulted = []) (hr : s.refused = []) (hi : s.inbox = .instr t :: rest) (hs : s.sched = .host :: sc)
    (hd : decode s.params.off t = .error e) : step s = refuseTerm e t { s with inbox := rest, sched := sc } :=
  (step_host hf hr hi hs rfl).trans (runTerm_error hd)

/-! The obligations -/

/-- Settles O60: the host's move is `runMem`, which is a raw access in the window the address lies in. -/
theorem absoluteAccessesReachTheirRegister : Obligations.AbsoluteAccessesReachTheirRegister := by
  unfold Obligations.AbsoluteAccessesReachTheirRegister
  intro s addr len value rest sc hf hr hi hs hw ho
  have hstep : step s = runMem addr len value { s with inbox := rest, sched := sc } := step_host hf hr hi hs rfl
  have hport : ∀ i base, s.params.bases[i]? = some base → base ≤ addr → addr < base + s.params.blockSize →
      step s = runPort i (8 * len) (addr - base) value { s with inbox := rest, sched := sc } :=
    fun i base hb hl hu => hstep.trans (runMem_window len value hw hb hl hu)
  refine ⟨?register, ?window, fun h => hstep.trans (runMem_noWindow len value h),
    fun h => hstep.trans (runMem_beyondBus len value h)⟩
  case register =>
    rintro i base r hb hlen rfl rfl
    have hr4 : r.offset s.params.off + 4 ≤ s.params.blockSize := hw.2.2 _ (offset_mem_all _ r)
    have hreg := hport i base hb (by omega) (by omega)
    rw [Nat.add_sub_cancel_left] at hreg
    have haccess := hreg.trans (runPort_register r value ho hlen)
    constructor
    · rintro rfl
      exact haccess
    · rintro v rfl
      exact haccess
  case window =>
    intro i base hb hl hu
    have hp := hport i base hb hl hu
    refine ⟨fun h => hp.trans (runPort_badInstance _ _ _ h),
      fun h hne => hp.trans (runPort_badWidth _ _ h (by omega)), ?_, ?_⟩
    · rintro h rfl hal
      exact hp.trans (runPort_misaligned _ h hal)
    · rintro h rfl hal hun
      exact hp.trans (runPort_unmappedOffset _ h hal fun r he => hun r ((Nat.sub_eq_iff_eq_add' hl).mp he))

/-- Settles O9: the host's move decodes its term; a word that decodes to nothing is refused for its instance, its offset or
as malformed. -/
theorem stepRunsTheDecodedInstruction : Obligations.StepRunsTheDecodedInstruction := by
  unfold Obligations.StepRunsTheDecodedInstruction
  refine ⟨fun s tm i rest sc hf hr hi hs hd => step_term_ok hf hr hi hs hd, ?word,
    fun s op os e rest sc hf hr hi hs hd => step_term_error hf hr hi hs hd, ?placed⟩
  case word =>
    intro s b bs e rest sc hf hr hi hs hd
    have hstep := step_term_error hf hr hi hs hd
    refine ⟨fun hb => hstep.trans (refuseTerm_noInstance e bs hb), ?_,
      fun hb he => hstep.trans (refuseTerm_malformedWord hb hd he)⟩
    rintro hb rfl
    exact hstep.trans (refuseTerm_unmappedOffset bs hb)
  case placed =>
    intro s nbits w i hf hr ho hd
    have hd' : decode s.params.off (.word 0 (tableBytes nbits w)) = .ok i := by rw [ho]; exact decode_tableBytes hd
    exact step_term_ok (s := s.withFetchWord nbits w) hf hr rfl rfl hd'

end Sys2Proof.Machine

/-! PROOFS. The statements of 10_state.md: every step keeps the invariant, what software changes in a core, the interrupt line,
and the machine after power-on. -/

namespace Sys2Proof.Machine

/-! Sound outcomes -/

section Outcomes
variable {α β : Type} {P Q : α → Prop} {R : β → Prop}

/-- What a step from an invariant state may answer: a next value that meets `P`, a refusal, or a fault other than the two
that rule R36 excludes. Keeping the invariant and not raising these faults are proved together, as one pass over the model. -/
def Sound (P : α → Prop) (o : Out α) : Prop :=
  match o with
  | .next a => P a
  | .fault r => r ≠ .unwrittenBuffer ∧ r ≠ .noTriggerRow
  | .refused _ => True

@[simp] theorem sound_next (a : α) : Sound P (.next a) ↔ P a := Iff.rfl
@[simp] theorem sound_fault (r : Fault) : Sound P (.fault r) ↔ r ≠ .unwrittenBuffer ∧ r ≠ .noTriggerRow := Iff.rfl
@[simp] theorem sound_refused (r : Refusal) : Sound P (.refused r : Out α) := trivial

/-- A composition is sound where its first part is, and its second on whatever the first may answer. -/
theorem Sound.bind {o : Out α} {f : α → Out β} (ho : Sound P o) (hf : ∀ a, P a → Sound R (f a)) :
    Sound R (Out.bind o f) := by
  cases o with
  | next a => exact hf a ho
  | fault r => exact ho
  | refused r => trivial

/-- What is known of every next value may be added to a sound outcome. -/
theorem Sound.of_next {o : Out α} (ho : Sound P o) (h : ∀ a, o = .next a → Q a) : Sound Q o := by
  cases o with
  | next a => exact h a rfl
  | fault r => exact ho
  | refused r => trivial

end Outcomes

/-! The core -/

theorem checkTrigger_sound (c : CoreState) : Sound (· = c) (checkTrigger c) := by
  unfold checkTrigger
  split
  · trivial
  · split
    · trivial
    · split
      · trivial
      · rfl

/-- In a status the engine pauses in, the trigger table has a row (41_bus_engine.md rule R142). -/
theorem triggerAction_sound {st : Status} (h : st ∈ admitted) (hi : st ≠ .idle) (sta stp : Bool) (b : Byte) :
    Sound (fun _ => True) (triggerAction st sta stp b) := by
  have hrow := triggerAction_has_row h hi sta stp b
  have hbuf : triggerAction st sta stp b ≠ .fault .unwrittenBuffer := by
    unfold triggerAction
    repeat' split
    all_goals simp
  cases he : triggerAction st sta stp b with
  | next a => trivial
  | fault r => exact ⟨fun hr => hbuf (hr ▸ he), fun hr => hrow (hr ▸ he)⟩
  | refused r => trivial

/-- A CNTR write to a core that meets the invariant: a clear write finds it paused in a status with a row. -/
theorem cntrWrite_sound {p : Params} {v : Word} {c : CoreState} (hc : c.inv) :
    Sound (fun _ => True) (cntrWrite p v c) := by
  obtain ⟨⟨-, hpaused, -⟩, -, hadm, -⟩ := hc
  unfold cntrWrite
  split
  · unfold cntrWriteInFlight
    split
    · trivial
    · split
      · simp
      · trivial
  · split
    next hf =>
      split
      · exact (checkTrigger_sound _).bind fun _ he =>
          (triggerAction_sound (he ▸ hadm) (he ▸ (hpaused hf).1) _ _ _).bind fun _ _ => trivial
      · trivial
    · unfold idleWrite
      split
      · exact (checkTrigger_sound _).bind fun _ _ => trivial
      · trivial

/-- A write access to a core that meets the invariant leaves such a core. -/
theorem writeReg_sound {p : Params} {r : Reg} {v : Word} {c : CoreState} (hc : c.inv) (hfit : c.fieldsFit p.pos) :
    Sound (fun c' => c'.inv ∧ c'.fieldsFit p.pos) (writeReg p r v c) := by
  have hsound : Sound (fun _ => True) (writeReg p r v c) := by
    unfold writeReg
    split
    · simp
    · cases r with
      | cntr => exact cntrWrite_sound hc
      | data => simp only [storeWord, dataStore]; split <;> simp
      | _ => trivial
  exact hsound.of_next fun c' h => ⟨writeReg_inv h hc, writeReg_fits h hfit⟩

/-! One instance -/

/-- The part of `Inst.inv` that does not speak of the sequencer. -/
abbrev Inst.coreInv (cfg : Params) (x : Inst) : Prop :=
  x.core.inv ∧ x.core.fieldsFit cfg.pos ∧ (x.stranded = true → x.core.act ≠ none)

section Instances
variable {cfg : Params} {x : Inst}

theorem Inst.inv_iff : x.inv cfg ↔ x.coreInv cfg ∧ x.seq.inv cfg :=
  ⟨fun ⟨h1, h2, h3, h4⟩ => ⟨⟨h1, h2, h4⟩, h3⟩, fun ⟨⟨h1, h2, h4⟩, h3⟩ => ⟨h1, h2, h3, h4⟩⟩

theorem setSeq_inv {q : Seq} (hx : x.coreInv cfg) (hq : q.inv cfg) : (x.setSeq q).inv cfg :=
  Inst.inv_iff.mpr ⟨hx, hq⟩

/-- Replacing the core keeps the instance's part of the invariant: what is noted as left behind is in flight. -/
theorem setCore_coreInv {c : CoreState} (hc : c.inv) (hfit : c.fieldsFit cfg.pos) : (x.setCore c).coreInv cfg :=
  ⟨hc, hfit, setCore_stranded_inv x c⟩

theorem afterRead_coreInv {bus : Nat} {r : Reg} (hx : x.coreInv cfg) : (x.afterRead cfg bus r).coreInv cfg := by
  simpa only [Inst.coreInv, afterRead_core, afterRead_stranded] using hx

theorem write_sound {r : Reg} {v : Word} (hx : x.coreInv cfg) :
    Sound (fun y => y.coreInv cfg ∧ y.seq = x.seq) (x.write cfg r v) := by
  obtain ⟨hcore, hfit, -⟩ := hx
  exact (writeReg_sound hcore hfit).bind fun _ hc => ⟨setCore_coreInv hc.1 hc.2, rfl⟩

theorem completeAct_sound {bus : Nat} (hx : x.inv cfg) : Sound (Inst.inv cfg) (x.completeAct bus) := by
  obtain ⟨⟨hc, hfit, -⟩, hq⟩ := Inst.inv_iff.mp hx
  have hsound : ∀ d a, Sound (fun _ => True) (complete d a x.core) := by
    intro d a
    cases a with
    | txAddr b =>
      simp only [complete, completeAddr]
      split
      · trivial
      · trivial
      · trivial
      · split <;> trivial
      · trivial
    | _ => trivial
  unfold Inst.completeAct
  split
  · exact hx
  next a ha =>
    refine ((hsound _ a).of_next fun c h => And.intro (complete_inv h hc ha) (complete_fits h hfit)).bind ?_
    rintro c ⟨hc', hfit'⟩
    refine Inst.inv_iff.mpr ⟨setCore_coreInv hc' hfit', ?_⟩
    split <;> simpa using hq

theorem completeReset_inv (hx : x.inv cfg) : x.completeReset.inv cfg := by
  obtain ⟨⟨hc, hfit, -⟩, hq⟩ := Inst.inv_iff.mp hx
  unfold Inst.completeReset
  split
  next hr => exact Inst.inv_iff.mpr ⟨setCore_coreInv (resetComplete_inv hc hr) hfit, hq⟩
  · exact hx

theorem takeResult_inv (hx : x.inv cfg) : x.takeResult.inv cfg := by
  obtain ⟨hc, -⟩ := Inst.inv_iff.mp hx
  unfold Inst.takeResult
  split
  · exact Inst.inv_iff.mpr ⟨hc, rfl⟩
  · exact Inst.inv_iff.mpr ⟨hc, rfl⟩
  · exact hx
  · exact hx

/-! The shapes of a sequencer step: the core's part of the invariant is kept whatever they do, and they are sound where
the sequencer they leave meets its own. -/

theorem silently_sound {o : Out Seq} (hx : x.coreInv cfg) (ho : Sound (Seq.inv cfg) o) :
    Sound (Inst.inv cfg) (silently o x) :=
  ho.bind fun _ hq => setSeq_inv hx hq

theorem readThen_sound {bus : Nat} {r : Reg} {f : Word → Seq → Seq} (hx : x.coreInv cfg)
    (hf : ∀ v, (f v x.seq).inv cfg) : Sound (Inst.inv cfg) (readThen cfg bus r f x) :=
  setSeq_inv (afterRead_coreInv hx) (hf _)

theorem readEnd_sound {bus : Nat} {r : Reg} {p : Place} {f : Word → Seq → Seq} {res : Word → Result}
    (hx : x.coreInv cfg) (hf : ∀ v, Sound (Seq.inv cfg) (afterLine cfg p (res v) (f v x.seq))) :
    Sound (Inst.inv cfg) (readEnd cfg bus r p f res x) :=
  (hf _).bind fun _ hq => setSeq_inv (afterRead_coreInv hx) hq

theorem writeThen_sound {r : Reg} {v : Word} {f : Seq → Seq} (hx : x.coreInv cfg) (hf : (f x.seq).inv cfg) :
    Sound (Inst.inv cfg) (writeThen cfg r v f x) :=
  (write_sound hx).bind fun _ hy => setSeq_inv hy.1 hf

/-- A write access, and then the end of the line with the sequencer's registers at `q`. -/
theorem writeLine_sound {r : Reg} {v : Word} {p : Place} {res : Result} {q : Seq} (hx : x.coreInv cfg)
    (hf : Sound (Seq.inv cfg) (afterLine cfg p res q)) :
    Sound (Inst.inv cfg) (Out.bind (x.write cfg r v) fun x' =>
      Out.bind (afterLine cfg p res q) fun q' => .next (x'.setSeq q')) :=
  (write_sound hx).bind fun _ hy => hf.bind fun _ hq => setSeq_inv hy.1 hq

theorem writeEnd_sound {r : Reg} {v : Word} {p : Place} {res : Result} (hx : x.coreInv cfg)
    (hf : Sound (Seq.inv cfg) (afterLine cfg p res x.seq)) : Sound (Inst.inv cfg) (writeEnd cfg r v p res x) :=
  writeLine_sound hx hf

end Instances

/-! The programs -/

/-- The sequencer runs operation `o` at place `p` with registers that suit the operation. -/
abbrev RunsAt (o : SeqOp) (p : Place) (q : Seq) : Prop :=
  q.res = none ∧ q.op = some o ∧ o ∈ opsAt p ∧ payloadOk q.op q

/-- What `bufferOk` becomes when the line at a place has run to its end: a fetch has written its entry of `rbuf`. -/
def bufferAfter (p : Place) (q : Seq) : Prop :=
  match p with
  | .r16 => q.i + 1 < q.n ∧ (bufRead (q.i + 1) q.rbuf).isSome
  | .r20 => (bufRead q.n q.rbuf).isSome
  | .d16 => (bufRead 1 q.rbuf).isSome
  | p => bufferOk p q

/-- The read entries of `rbuf` are the result of a read; none of them is unwritten. -/
theorem finishRead_sound {cfg : Params} {n : Nat} {q : Seq} (h : (bufRead n q.rbuf).isSome) :
    Sound (Seq.inv cfg) (finishRead n q) := by
  obtain ⟨bs, hbs⟩ := Option.isSome_iff_exists.mp h
  simp only [finishRead, hbs, sound_next]
  exact finish_inv

/-- After T7 the program is the one of the operation (45_transactions.md rules R231 to R234). -/
theorem readsAfterT7_iff {o : SeqOp} : readsAfterT7 (some o) = true ↔ o ∈ readOps := by
  cases o <;> decide

theorem mem_writeOps_of_not_reads {o : SeqOp} (h : o ∈ transactions) (hr : readsAfterT7 (some o) = false) :
    o ∈ writeOps := by
  cases o <;> revert h hr <;> decide

/-- Where the program goes at the end of a line meets the invariant, from registers that suit the line's end. -/
theorem nextLine_sound {cfg : Params} {o : SeqOp} {p : Place} {r : Result} {q : Seq} (h : RunsAt o p q)
    (hb : bufferAfter p q) : Sound (Seq.inv cfg) (nextLine cfg p r q) := by
  obtain ⟨hr, hop, hp, hpay⟩ := h
  have hpay' := hpay
  simp only [hop, payloadOk] at hpay'
  obtain ⟨-, hread, -⟩ := hpay'
  cases p <;> simp only [nextLine, sound_next]
  case alone | abort | w11 | n6 => exact finish_inv
  case r21 | d21 => exact finishRead_sound hb
  case t7 =>
    cases hreads : readsAfterT7 q.op <;> rw [hop] at hreads
    · exact goto_inv hr hop (mem_writeOps_of_not_reads hp hreads) (by decide) hpay (Nat.zero_le _) nofun
    · exact goto_inv hr hop (readsAfterT7_iff.mp hreads) (by decide) hpay trivial nofun
  case w8 =>
    split
    · exact goto_inv hr hop hp (by decide) hpay trivial nofun
    next hne => exact goto_inv hr hop hp (by decide) hpay (Nat.lt_of_le_of_ne hb hne) nofun
  case r12 =>
    split
    next hack =>
      have ho : o = .deviceRead := by simpa [acksLast, hop] using (Bool.and_eq_true_iff.mp hack).2
      exact goto_inv hr hop (by simp [opsAt, ho]) (by decide) hpay trivial nofun
    · exact goto_inv hr hop hp (by decide) hpay ⟨hread hp, rfl⟩ nofun
  case r13 =>
    obtain ⟨hi, hbuf⟩ := hb
    split
    next hlast => exact goto_inv hr hop hp (by decide) hpay (by rwa [hlast] at hbuf) nofun
    next hne => exact goto_inv hr hop hp (by decide) hpay ⟨by omega, hbuf⟩ nofun
  case n4 => exact goto_inv hr hop hp (by decide) hpay trivial fun _ => rfl
  all_goals exact goto_inv hr hop hp (by decide) hpay hb nofun

/-- The steps that may follow a step on its own line (43_primitives.md, 44_status_waiter.md). -/
def followers : Micro → List Micro
  | .start1 => [.start2]
  | .start2 => [.start3]
  | .start3 => [.start3, .start4]
  | .stop1 => [.stop2]
  | .data1 => [.data2]
  | .data2 => [.data3]
  | .read1 => [.read2]
  | .read2 => [.read3]
  | .clear1 => [.clear2]
  | .setAck1 => [.setAck2]
  | .clrAck1 => [.clrAck2]
  | .wait1 => [.wait1, .wait2, .wait3]
  | .wait2 => [.wait3]
  | .idle1 => [.idle1]
  | .poll => [.poll]
  | _ => []

/-- A list of steps that holds, with a step, every step that may follow it. -/
abbrev LineClosed (l : List Micro) : Prop := ∀ μ ∈ l, ∀ ν ∈ followers μ, ν ∈ l

theorem aloneMicros_closed (o : SeqOp) : LineClosed (aloneMicros o) := by cases o <;> decide

theorem lineFrom_firstMicro_closed (p : Place) : LineClosed (lineFrom (firstMicro p)) := by cases p <;> decide

theorem microsAt_of_ne_alone (o : SeqOp) {p : Place} (h : p ≠ .alone) : microsAt o p = lineFrom (firstMicro p) := by
  cases p
  case alone => exact absurd rfl h
  all_goals rfl

/-- The steps of an operation at a place are closed under what follows on the line. -/
theorem microsAt_closed (o : SeqOp) (p : Place) : LineClosed (microsAt o p) := by
  by_cases h : p = .alone
  · subst h
    exact aloneMicros_closed o
  · rw [microsAt_of_ne_alone o h]
    exact lineFrom_firstMicro_closed p

/-- A step to another step of the same line meets the invariant, with registers that suit that step. -/
theorem at_inv {cfg : Params} {o : SeqOp} {p : Place} {ν : Micro} {q : Seq} (h : RunsAt o p q) (hm : ν ∈ microsAt o p)
    (hb : bufferOk p q) (hk : pollsOk cfg ⟨p, ν⟩ q) (he : expOk cfg ⟨p, ν⟩ q) : (q.at ⟨p, ν⟩).inv cfg := by
  obtain ⟨hr, hop, hp, hpay⟩ := h
  have hlabel : labelOk q.op ⟨p, ν⟩ := by rw [hop]; exact ⟨hp, hm⟩
  exact ⟨hr, hlabel, hpay, hb, hk, he⟩

theorem afterLine_sound {cfg : Params} {o : SeqOp} {p : Place} {r : Result} {q : Seq} (h : RunsAt o p q)
    (hb : bufferAfter p q) : Sound (Seq.inv cfg) (afterLine cfg p r q) := by
  unfold afterLine bindResult
  split
  · exact nextLine_sound h hb
  · exact nextLine_sound h hb

/-- A line that fetches nothing leaves `rbuf`. -/
theorem bufferAfter_of_not_fetch {p : Place} {q : Seq} (hb : bufferOk p q) (hp : firstMicro p ≠ .fetch) :
    bufferAfter p q := by
  cases p
  case r16 | r20 | d16 => exact absurd rfl hp
  all_goals exact hb

/-- The line of a place that fetches is the fetch alone. -/
theorem firstMicro_ne_fetch {o : SeqOp} {p : Place} {μ : Micro} (hm : μ ∈ microsAt o p) (hne : μ ≠ .fetch) :
    firstMicro p ≠ .fetch := by
  intro hf
  cases p
  case r16 | r20 | d16 => exact hne (List.mem_singleton.mp hm)
  all_goals cases hf

theorem lineEnd_sound {cfg : Params} {o : SeqOp} {p : Place} {μ : Micro} {r : Result} {q : Seq} (h : RunsAt o p q)
    (hb : bufferOk p q) (hm : μ ∈ microsAt o p) (hne : μ ≠ .fetch) : Sound (Seq.inv cfg) (afterLine cfg p r q) :=
  afterLine_sound h (bufferAfter_of_not_fetch hb (firstMicro_ne_fetch hm hne))

theorem fetch_not_alone (o : SeqOp) : Micro.fetch ∉ aloneMicros o := by cases o <;> decide

theorem place_of_fetch (p : Place) : Micro.fetch ∈ lineFrom (firstMicro p) → p ∈ [Place.r16, .r20, .d16] := by
  cases p <;> decide

theorem op_of_data1_alone (o : SeqOp) : Micro.data1 ∈ aloneMicros o → o = .sendData := by cases o <;> decide

theorem place_of_data1 (p : Place) : Micro.data1 ∈ lineFrom (firstMicro p) → p ∈ [Place.t4, .t6, .w9, .r10] := by
  cases p <;> decide

theorem ops_of_wait3 (p : Place) : Micro.wait3 ∈ lineFrom (firstMicro p) → opsAt p ⊆ transactions := by
  cases p <;> decide

/-- A fetch writes the entry after those it finds written. -/
theorem fetch_bufferAfter {o : SeqOp} {p : Place} {q : Seq} (v : Word) (d : Byte) (h : RunsAt o p q)
    (hm : Micro.fetch ∈ microsAt o p) (hb : bufferOk p q) :
    bufferAfter p { q with d := v, rbuf := bufSet q.rbuf (entryAt p q) d } := by
  obtain ⟨-, hop, hp, hpay⟩ := h
  simp only [hop, payloadOk] at hpay
  obtain ⟨-, hread, -⟩ := hpay
  by_cases ha : p = .alone
  · subst ha
    exact absurd hm (fetch_not_alone o)
  · rw [microsAt_of_ne_alone o ha] at hm
    have hplace := place_of_fetch p hm
    simp only [List.mem_cons, List.not_mem_nil, or_false] at hplace
    rcases hplace with rfl | rfl | rfl
    · exact ⟨hb.1, bufRead_bufSet _ _ _ hb.2⟩
    · have hn : q.n - 1 + 1 = q.n := Nat.sub_add_cancel (hread hp)
      have hset := bufRead_bufSet q.rbuf (q.n - 1) d hb
      rwa [hn] at hset
    · exact bufRead_bufSet _ 0 _ rfl

/-- Where SEND_DATA begins, the buffer holds the byte to send. -/
theorem byteAt_isSome {o : SeqOp} {p : Place} {q : Seq} (h : RunsAt o p q) (hm : Micro.data1 ∈ microsAt o p)
    (hb : bufferOk p q) : (byteAt p q).isSome := by
  obtain ⟨-, hop, hp, hpay⟩ := h
  simp only [hop, payloadOk] at hpay
  obtain ⟨hwrite, -, hsend⟩ := hpay
  by_cases ha : p = .alone
  · subst ha
    have hlen : q.wbuf.length = 1 := hsend (op_of_data1_alone o hm)
    simp [byteAt, hlen]
  · rw [microsAt_of_ne_alone o ha] at hm
    have hplace := place_of_data1 p hm
    simp only [List.mem_cons, List.not_mem_nil, or_false] at hplace
    rcases hplace with rfl | rfl | rfl | rfl
    · rfl
    · rfl
    · have hlen : q.wbuf.length = q.n := hwrite hp
      have hi : q.i < q.n := hb
      simp [byteAt, hlen, hi]
    · rfl

theorem abort_inv {cfg : Params} {o : SeqOp} {p : Place} {q : Seq} (kind : FailKind) (st : Byte) (h : RunsAt o p q)
    (ho : o ∈ transactions) : (q.abort cfg kind st).inv cfg := by
  obtain ⟨hr, hop, -, hpay⟩ := h
  unfold Seq.abort
  split
  · exact goto_inv hr hop ho (by decide) hpay trivial nofun
  · exact finish_inv

theorem waitEnd_sound {cfg : Params} {o : SeqOp} {p : Place} {q : Seq} (h : RunsAt o p q)
    (hm : Micro.wait3 ∈ microsAt o p) (hb : bufferOk p q) : Sound (Seq.inv cfg) (waitEnd cfg p q) := by
  unfold waitEnd
  split
  · exact finish_inv (cfg := cfg)
  next hp =>
    have ⟨_, _, hplace, _⟩ := h
    have ho : o ∈ transactions := ops_of_wait3 p (microsAt_of_ne_alone o hp ▸ hm) hplace
    split
    · exact abort_inv _ _ h ho
    · split
      · exact abort_inv _ _ h ho
      · exact lineEnd_sound h hb hm (by decide)

theorem noteStranded_coreInv {cfg : Params} {b : Bool} {x : Inst} (hx : x.coreInv cfg)
    (hb : b = true → x.core.act ≠ none) : (x.noteStranded b).coreInv cfg := by
  obtain ⟨hc, hfit, hs⟩ := hx
  refine ⟨hc, hfit, ?_⟩
  cases b
  · exact hs
  · exact fun _ => hb rfl

/-- Outside a wait nothing is asked of the expected code. -/
theorem expOk_of_not_wait {cfg : Params} {p : Place} {ν : Micro} {q : Seq} (h : ν ∉ [Micro.wait1, .wait2, .wait3]) :
    expOk cfg ⟨p, ν⟩ q :=
  fun hm => absurd hm h

/-- Every step of a program's line, from an instance and registers that suit it. -/
theorem stepAt_sound {cfg : Params} {bus : Nat} {o : SeqOp} {p : Place} {μ : Micro} {x : Inst} (hx : x.coreInv cfg)
    (h : RunsAt o p x.seq) (hm : μ ∈ microsAt o p) (hb : bufferOk p x.seq) (hk : pollsOk cfg ⟨p, μ⟩ x.seq)
    (he : expOk cfg ⟨p, μ⟩ x.seq) : Sound (Inst.inv cfg) (stepAt cfg bus p μ x) := by
  have follows : ∀ ν ∈ followers μ, ν ∈ microsAt o p := microsAt_closed o p μ hm
  cases μ <;> simp only [stepAt]
  case start1 | stop1 | data2 | read1 | read2 | clear1 | setAck1 | clrAck1 =>
    exact readThen_sound hx fun _ => at_inv h (follows _ (by decide)) hb trivial (expOk_of_not_wait (by decide))
  case start2 => exact writeThen_sound hx (at_inv h (follows _ (by decide)) hb (Nat.zero_le _) (expOk_of_not_wait (by decide)))
  case stop2 | data3 | read3 | clear2 | setAck2 | clrAck2 | enable2 | softReset =>
    exact writeEnd_sound hx (lineEnd_sound h hb hm (by decide))
  case start4 | test => exact silently_sound hx (lineEnd_sound h hb hm (by decide))
  case busy1 | enable1 => exact readEnd_sound hx fun _ => lineEnd_sound h hb hm (by decide)
  case start3 =>
    unfold startPoll
    split
    · exact silently_sound hx (at_inv h (follows _ (by decide)) hb trivial (expOk_of_not_wait (by decide)))
    next hne =>
      refine readThen_sound hx fun v => ?_
      split
      · exact at_inv h (follows _ (by decide)) hb (Nat.lt_of_le_of_ne hk hne) (expOk_of_not_wait (by decide))
      · exact at_inv h (follows _ (by decide)) hb trivial (expOk_of_not_wait (by decide))
  case data1 =>
    obtain ⟨d, hd⟩ := Option.isSome_iff_exists.mp (byteAt_isSome h hm hb)
    simp only [dataFirst, hd]
    exact writeThen_sound hx (at_inv h (follows _ (by decide)) hb trivial (expOk_of_not_wait (by decide)))
  case wait1 =>
    have hexp := he (show Micro.wait1 ∈ _ by decide)
    unfold waitPoll
    split
    · exact silently_sound hx (at_inv h (follows _ (by decide)) hb trivial fun _ => hexp)
    next hne =>
      refine readThen_sound hx fun v => ?_
      split
      · exact at_inv h (follows _ (by decide)) hb trivial fun _ => hexp
      · exact at_inv h (follows _ (by decide)) hb (Nat.lt_of_le_of_ne hk hne) fun _ => hexp
  case wait2 =>
    exact readThen_sound hx fun _ => at_inv h (follows _ (by decide)) hb trivial fun _ => he (show Micro.wait2 ∈ _ by decide)
  case wait3 =>
    refine silently_sound (noteStranded_coreInv hx fun hnote => ?_) (waitEnd_sound h hm hb)
    exact Option.isSome_iff_ne_none.mp (Bool.and_eq_true_iff.mp hnote).2
  case idle1 =>
    unfold idlePoll
    split
    · exact silently_sound hx (finish_inv (cfg := cfg))
    next hne =>
      split
      · exact readThen_sound hx fun _ => at_inv h (follows _ (by decide)) hb (Nat.lt_of_le_of_ne hk hne) (expOk_of_not_wait (by decide))
      · exact readEnd_sound hx fun _ => lineEnd_sound h hb hm (by decide)
  case clock1 =>
    unfold clockLine
    split
    · exact silently_sound hx (finish_inv (cfg := cfg))
    · exact writeLine_sound hx (lineEnd_sound h hb hm (by decide))
  case fetch => exact readEnd_sound hx fun v => afterLine_sound h (fetch_bufferAfter v (dataByte cfg v) h hm hb)
  case poll =>
    unfold resetPoll
    split
    · exact silently_sound hx (finish_inv (cfg := cfg))
    next hne =>
      split
      · exact readThen_sound hx fun _ => at_inv h (follows _ (by decide)) hb (Nat.lt_of_le_of_ne hk hne) (expOk_of_not_wait (by decide))
      · exact readEnd_sound hx fun _ => lineEnd_sound h hb hm (by decide)
  case own =>
    unfold ownLine
    split
    · exact silently_sound hx (lineEnd_sound h hb hm (by decide))
    · exact writeEnd_sound hx (lineEnd_sound h hb hm (by decide))

/-- A sequencer step from an instance that meets the invariant (10_state.md rules R40, R41). -/
theorem seqStep_sound {cfg : Params} {bus : Nat} {x : Inst} (hx : x.inv cfg) :
    Sound (Inst.inv cfg) (x.seqStep cfg bus) := by
  obtain ⟨hc, hq⟩ := Inst.inv_iff.mp hx
  unfold Inst.seqStep
  cases hph : x.seq.phase with
  | ready => exact hx
  | done => exact hx
  | running l =>
    simp only [Seq.inv, hph] at hq
    obtain ⟨hres, hlabel, hpay, hb, hk, he⟩ := hq
    cases hop : x.seq.op with
    | none => simp [labelOk, hop] at hlabel
    | some o =>
      rw [hop] at hlabel
      exact stepAt_sound hc ⟨hres, hop, hlabel.1, hpay⟩ hlabel.2 hb hk he

/-! The machine -/

/-- The instances of a machine that meets the invariant meet theirs. -/
theorem State.inv.inst {s : State} {b : Nat} {x : Inst} (hs : s.inv) (hx : s.insts[b]? = some x) : x.inv s.params :=
  hs.2.1 x (List.mem_of_getElem? hx)

/-- Replacing an instance by one that meets the invariant keeps the machine's. -/
theorem setInst_inv {s : State} {b : Nat} {y : Inst} (hs : s.inv) (hy : y.inv s.params) : (s.setInst b y).inv := by
  obtain ⟨⟨hwf, hlen⟩, hinsts, hf, hr⟩ := hs
  refine ⟨⟨hwf, by simpa using hlen⟩, fun z hz => ?_, hf, hr⟩
  rcases List.mem_or_eq_of_mem_set hz with hz | rfl
  · exact hinsts z hz
  · exact hy

section Machines
variable {s : State} {b : Nat} {f : Inst → Out Inst}

theorem onInst_sound (hs : s.inv) (hf : ∀ x, x.inv s.params → Sound (Inst.inv s.params) (f x)) :
    Sound State.inv (s.onInst b f) := by
  unfold State.onInst
  split
  · trivial
  next x hx => exact (hf x (hs.inst hx)).bind fun _ hy => setInst_inv hs hy

theorem localStep_sound (hs : s.inv) (hf : ∀ x, x.inv s.params → Sound (Inst.inv s.params) (f x)) :
    Sound State.inv (localStep b f s) := by
  unfold localStep
  split
  · exact hs
  next x hx => exact (hf x (hs.inst hx)).bind fun _ hy => setInst_inv hs hy

theorem directRead_sound {r : Reg} (hs : s.inv) : Sound State.inv (directRead b r s) := by
  refine onInst_sound hs fun x hx => ?_
  obtain ⟨hc, hq⟩ := Inst.inv_iff.mp hx
  unfold Inst.asOwner
  split
  · trivial
  · exact Inst.inv_iff.mpr ⟨afterRead_coreInv hc, by rwa [afterRead_seq]⟩

theorem directWrite_sound {r : Reg} {v : Word} (hs : s.inv) : Sound State.inv (directWrite b r v s) := by
  refine onInst_sound hs fun x hx => ?_
  obtain ⟨hc, hq⟩ := Inst.inv_iff.mp hx
  unfold Inst.asOwner
  split
  · trivial
  · refine (write_sound hc).of_next fun y hy => ?_
    have hkeep := write_sound (r := r) (v := v) hc
    rw [hy] at hkeep
    exact Inst.inv_iff.mpr ⟨hkeep.1, by rw [hkeep.2]; exact hq⟩

/-- An accepted request begins its program with registers that suit it, or ends at once as invalid (rule R230). -/
theorem accept_sound {op : SeqOp} {valid : Bool} {load : Seq → Seq} {first : Label} (hs : s.inv)
    (hload : valid = true → ((load { Seq.unwritten with op := some op }).begin s.params first).inv s.params) :
    Sound State.inv (accept b op valid load first s) := by
  refine onInst_sound hs fun x hx => ?_
  obtain ⟨hc, -⟩ := Inst.inv_iff.mp hx
  split
  · refine setSeq_inv hc ?_
    split
    next hv => exact hload hv
    · exact finish_inv
  · trivial

end Machines

/-- A request begins its program with a state of the invariant (rules R41, R230). -/
theorem begin_first_inv {cfg : Params} {o : SeqOp} {q : Seq} (hr : q.res = none) (hop : q.op = some o)
    (hpay : payloadOk q.op q) : (q.begin cfg (Claims.firstLabel o)).inv cfg := by
  cases o
  case masterWrite | masterRead | deviceWrite | deviceRead =>
    exact goto_inv (p := .t1) hr hop (by decide) (by decide) hpay trivial nofun
  case init => exact goto_inv (p := .n1) hr hop (by decide) (by decide) hpay trivial nofun
  case waitStatus =>
    have hzero : 0 ≤ q.budget := Nat.zero_le _
    exact at_inv (p := .alone) (q := { q with k := 0, exp := q.exp }) ⟨hr, hop, by decide, hpay⟩ (by decide) trivial hzero
      fun _ => nofun
  case waitIdle =>
    have hzero : 0 ≤ q.budget := Nat.zero_le _
    exact at_inv (p := .alone) (q := { q with k := 0, s := statusCode cfg .busError }) ⟨hr, hop, by decide, hpay⟩
      (by decide) trivial hzero fun _ => nofun
  all_goals exact at_inv ⟨hr, hop, by decide, hpay⟩ (by decide) trivial trivial fun _ => nofun

/-- The sequencer's registers with the operands of a request in them (rule R230, 43_primitives.md rule R193). -/
def loadOperands (i : Instr) (q : Seq) : Seq :=
  match i with
  | .sendData _ value => { q with wbuf := [byteReg value] }
  | .waitStatus _ budget => { q with budget := budget }
  | .waitIdle _ budget => { q with budget := budget }
  | .configureClock _ hz => { q with hz := hz }
  | .masterWrite _ chip sub bytes =>
      { q with chip := chipReg chip, sub := byteReg sub, n := bytes.length, wbuf := bytes.map byteReg }
  | .masterRead _ chip sub n => { q with chip := chipReg chip, sub := byteReg sub, n := n }
  | .deviceWrite _ chip sub value => { q with chip := chipReg chip, sub := byteReg sub, n := 1, wbuf := [byteReg value] }
  | .deviceRead _ chip sub => { q with chip := chipReg chip, sub := byteReg sub, n := 1 }
  | .init _ hz own => { q with hz := hz, own := ownReg own }
  | _ => q

/-- Executing a request is its acceptance, with its operands loaded, at its program's first label. -/
theorem exec_request_eq_accept {i : Instr} {o : SeqOp} {n k : Nat} (h : requestOf i = some (o, n, k)) (s : State) :
    exec i s = accept i.bus o (i.operandsInRange s.params.nMax) (loadOperands i) (Claims.firstLabel o) s := by
  cases i <;> simp only [requestOf, reduceCtorEq, Option.some.injEq, Prod.mk.injEq] at h <;> obtain ⟨rfl, -, -⟩ := h <;> rfl

@[simp] theorem loadOperands_res (i : Instr) (q : Seq) : (loadOperands i q).res = q.res := by cases i <;> rfl
@[simp] theorem loadOperands_op (i : Instr) (q : Seq) : (loadOperands i q).op = q.op := by cases i <;> rfl

/-- Operands in range are a payload that suits the operation. -/
theorem loadOperands_payloadOk {i : Instr} {o : SeqOp} {n k nMax : Nat} (h : requestOf i = some (o, n, k)) (q : Seq)
    (hv : i.operandsInRange nMax = true) : payloadOk (some o) (loadOperands i q) := by
  cases i <;> simp only [requestOf, reduceCtorEq, Option.some.injEq, Prod.mk.injEq] at h <;> obtain ⟨rfl, -, -⟩ := h
  case masterRead bus chip sub n =>
    have hn : 0 < n := by simp [Instr.operandsInRange] at hv; omega
    exact ⟨nofun, fun _ => hn, nofun⟩
  all_goals simp [payloadOk, writeOps, readOps, loadOperands]

theorem exec_sound (i : Instr) {s : State} (hs : s.inv) : Sound State.inv (exec i s) := by
  cases hreq : requestOf i with
  | none =>
    rcases exec_access hreq s with ⟨r, -, h⟩ | ⟨r, v, -, h⟩
    · exact h ▸ directRead_sound hs
    · exact h ▸ directWrite_sound hs
  | some request =>
    obtain ⟨o, n, k⟩ := request
    rw [exec_request_eq_accept hreq]
    refine accept_sound hs fun hv => begin_first_inv (loadOperands_res _ _) (loadOperands_op _ _) ?_
    rw [loadOperands_op]
    exact loadOperands_payloadOk hreq _ hv

theorem refuseTerm_sound (e : DecodeError) (t : Term) (s : State) : Sound State.inv (refuseTerm e t s) := by
  unfold refuseTerm
  split
  · split
    · split <;> trivial
    · trivial
  · trivial

theorem runPort_sound (b width off : Nat) (value : Option Word) {s : State} (hs : s.inv) :
    Sound State.inv (runPort b width off value s) := by
  unfold runPort
  split
  · trivial
  · split
    · trivial
    · split
      · trivial
      · split
        · trivial
        · split <;> exact exec_sound _ hs

/-- What the host issues keeps the invariant, and raises neither fault. -/
theorem runCmd_sound (cmd : HostCmd) {s : State} (hs : s.inv) : Sound State.inv (runCmd cmd s) := by
  cases cmd with
  | instr t =>
    simp only [runCmd, runTerm]
    split
    · exact exec_sound _ hs
    · exact refuseTerm_sound _ _ _
  | port b width off value => exact runPort_sound b width off value hs
  | mem addr len value =>
    simp only [runCmd, runMem]
    split
    · trivial
    · split
      · trivial
      · exact runPort_sound _ _ _ _ hs
  | take b => exact onInst_sound hs fun _ hx => takeResult_inv hx

/-- The step of any agent, from a machine that meets the invariant. -/
theorem agentStep_sound (a : Agent) {s : State} (hs : s.inv) : Sound State.inv (agentStep a s) := by
  cases a with
  | host =>
    simp only [agentStep, hostStep]
    split
    · exact hs
    next cmd rest _ =>
      split
      · exact runCmd_sound cmd (s := { s with inbox := rest }) hs
      · exact hs
  | seq b => exact localStep_sound hs fun _ hx => seqStep_sound hx
  | eng b => exact localStep_sound hs fun _ hx => completeAct_sound hx
  | reset b => exact localStep_sound hs fun _ hx => completeReset_inv hx
  | slave b =>
    refine localStep_sound hs fun x hx => ?_
    unfold slaveStep
    split
    · trivial
    · exact hx
  | wait => exact hs

/-- A step from a machine that meets the invariant: a machine that meets it, or a stop other than by the two faults. -/
theorem step_sound {s : State} (hs : s.inv) : Sound State.inv (step s) := by
  obtain ⟨hdesc, hinsts, hf, hr⟩ := hs
  rcases step_cases hf hr with h | ⟨a, s', h, hparams, hinsts', -, hf', hr'⟩
  · rw [h]
    exact ⟨hdesc, hinsts, hf, hr⟩
  · rw [h]
    refine agentStep_sound a ⟨?_, ?_, hf', hr'⟩
    · simpa only [State.described, hparams, hinsts'] using hdesc
    · simpa only [hparams, hinsts'] using hinsts

/-- Settles O3: every operation of every agent is sound for the invariant. -/
theorem stepKeepsTheInvariant : Obligations.StepKeepsTheInvariant := by
  unfold Obligations.StepKeepsTheInvariant
  intro s t hs h
  have hsound := step_sound hs
  rwa [h] at hsound

/-- Settles O4: a clear write finds a paused core, whose status has a row, and every buffer entry is written before its use. -/
theorem unreachableFaultsAreNeverRaised : Obligations.UnreachableFaultsAreNeverRaised := by
  unfold Obligations.UnreachableFaultsAreNeverRaised
  intro s hs
  have hsound := step_sound hs
  constructor <;> intro h <;> rw [h] at hsound
  · exact hsound.1 rfl
  · exact hsound.2 rfl


/-! A direct write access -/

/-- A direct write while the port is free is the instance's write access. -/
theorem directWrite_of_free {s : State} {b : Nat} {x : Inst} (r : Reg) (v : Word) (h : Claims.Free s b x) :
    directWrite b r v s = Out.bind (x.write s.params r v) fun y => .next (s.setInst b y) := by
  obtain ⟨hx, hfree⟩ := h
  simp [directWrite, onInst_of_get _ hx, Inst.asOwner, hfree]

/-- A write access that leaves no action in flight records the write alone. -/
theorem write_of_no_action {cfg : Params} {r : Reg} {v : Word} {x : Inst} {c : CoreState}
    (h : writeReg cfg r v x.core = .next c) (hact : c.act = none) : x.write cfg r v = .next (Claims.wrote x r v c) := by
  have hevents : triggerEvents x.core c = [] := by
    unfold triggerEvents
    split
    next ha => cases hact.symm.trans ha
    · rfl
  rw [Inst.write, h, bind_next, hevents]
  rfl

/-- Settles O23: with the flag set and no clearing value, CntrWrite stores its fields and latches its requests only. -/
theorem nonClearWriteStaysPaused : Obligations.NonClearWriteStaysPaused := by
  unfold Obligations.NonClearWriteStaysPaused
  intro s b x v hfree hrst hact hflag hv
  have hwrite : writeReg s.params .cntr v x.core = .next (cntrFields s.params v x.core) := by
    simp [writeReg, storeWord, cntrWrite, isClearValue, hrst, hact, hflag, hv]
  have hkeeps : (cntrFields s.params v x.core).act = none := hact
  calc exec (.wrCntr b v) s
      = directWrite b .cntr v s := rfl
    _ = .next (s.setInst b (Claims.wrote x .cntr v (cntrFields s.params v x.core))) := by
        rw [directWrite_of_free _ _ hfree, write_of_no_action hwrite hkeeps, bind_next]

/-! What a write access does to the flag, to STAT and to INT_EN -/

/-- No write sets INT_FLAG (10_state.md rule R30). -/
theorem writeReg_iflg {p : Params} {r : Reg} {v : Word} {c c' : CoreState} (h : writeReg p r v c = .next c')
    (hf : c'.iflg = true) : c.iflg = true := by
  obtain ⟨-, hs⟩ := writeReg_next h
  cases r <;> simp only [storeWord] at hs
  case cntr =>
    rcases cntrWrite_next hs with ⟨-, -, rfl⟩ | ⟨-, hi, -⟩ | ⟨-, hi, -⟩ | ⟨-, -, -, rfl⟩ | ⟨-, -, -, rfl⟩
    · exact hf
    · exact hi
    · exact hi
    · exact hf
    · exact hf
  case srst =>
    cases hs
    unfold srstStore at hf
    split at hf
    · cases hf
    · exact hf
  case data => unfold dataStore at hs; split at hs <;> cases hs; exact hf
  all_goals cases hs; exact hf

/-- No write but one to SRST changes STAT (rule R25). -/
theorem writeReg_sta {p : Params} {r : Reg} {v : Word} {c c' : CoreState} (h : writeReg p r v c = .next c')
    (hr : r ≠ .srst) : c'.sta = c.sta := by
  obtain ⟨-, hs⟩ := writeReg_next h
  cases r <;> simp only [storeWord] at hs
  case cntr =>
    rcases cntrWrite_next hs with ⟨-, -, rfl⟩ | ⟨-, -, a, -, rfl⟩ | ⟨-, -, rfl⟩ | ⟨-, -, -, rfl⟩ | ⟨-, -, -, rfl⟩ <;> rfl
  case srst => exact absurd rfl hr
  case data => unfold dataStore at hs; split at hs <;> cases hs; rfl
  all_goals cases hs; rfl

/-- INT_EN stays low under a write, unless it is a CNTR write with INT_EN's bit. -/
theorem writeReg_intEn {p : Params} {r : Reg} {v : Word} {c c' : CoreState} (h : writeReg p r v c = .next c')
    (hv : r = .cntr → v.getLsbD p.pos.intEn = false) (hc : c.intEn = false) : c'.intEn = false := by
  obtain ⟨-, hs⟩ := writeReg_next h
  cases r <;> simp only [storeWord] at hs
  case cntr =>
    have hbit := hv rfl
    rcases cntrWrite_next hs with ⟨-, -, rfl⟩ | ⟨-, -, a, -, rfl⟩ | ⟨-, -, rfl⟩ | ⟨-, -, -, rfl⟩ | ⟨-, -, -, rfl⟩ <;>
      exact hbit
  case srst => cases hs; unfold srstStore; split <;> exact hc
  case data => unfold dataStore at hs; split at hs <;> cases hs; exact hc
  all_goals cases hs; exact hc

/-! What an instruction does to a core -/

/-- After an instance has been replaced, the instance at an index is the new one or the one that was there. -/
theorem setInst_get_cases {s : State} {b b' : Nat} {x y z : Inst} (hx : s.insts[b]? = some x)
    (hy : (s.setInst b' z).insts[b]? = some y) : b = b' ∧ y = z ∨ b ≠ b' ∧ y = x := by
  by_cases hb : b = b'
  · subst hb
    rw [setInst_get _ _ _ hx] at hy
    exact .inl ⟨rfl, (Option.some.inj hy).symm⟩
  · rw [setInst_get_ne _ _ _ hb, hx] at hy
    exact .inr ⟨hb, (Option.some.inj hy).symm⟩

/-- An instruction leaves every core as it was, but for a write access to a register of that instance. -/
theorem exec_core {i : Instr} {s t : State} {b : Nat} {x y : Inst} (h : exec i s = .next t) (hx : s.insts[b]? = some x)
    (hy : t.insts[b]? = some y) :
    y.core = x.core ∨ ∃ r v, i = writeOf r b v ∧ writeReg s.params r v x.core = .next y.core := by
  cases hreq : requestOf i with
  | none =>
    rcases exec_access hreq s with ⟨r, -, he⟩ | ⟨r, v, hi, he⟩
    · obtain ⟨z, hz, -, rfl⟩ := directRead_next (he ▸ h)
      rcases setInst_get_cases hx hy with ⟨rfl, rfl⟩ | ⟨-, rfl⟩
      · cases hx.symm.trans hz
        exact .inl (afterRead_core _ _ _ _)
      · exact .inl rfl
    · obtain ⟨z, w, hz, -, hw, rfl⟩ := directWrite_next (he ▸ h)
      rcases setInst_get_cases hx hy with ⟨rfl, rfl⟩ | ⟨-, rfl⟩
      · cases hx.symm.trans hz
        obtain ⟨c, hc, rfl⟩ := write_next hw
        exact .inr ⟨r, v, hi, hc⟩
      · exact .inl rfl
  | some request =>
    obtain ⟨o, n, k⟩ := request
    rw [exec_request_eq_accept hreq] at h
    obtain ⟨z, hz, -, rfl⟩ := accept_next h
    rcases setInst_get_cases hx hy with ⟨rfl, rfl⟩ | ⟨-, rfl⟩
    · cases hx.symm.trans hz
      exact .inl rfl
    · exact .inl rfl

/-! What a sequencer step does to a core, and to the CNTR value it keeps in `c` -/

/-- The CNTR values the sequencer's programs make of the value `c` they have read (43_primitives.md, 45_transactions.md). -/
def cntrForms (cfg : Params) (c : Word) : List Word :=
  [clrForm cfg c, clrForm cfg c ||| bitMask cfg.pos.mSta, clrForm cfg c ||| bitMask cfg.pos.mStp,
    keepForm cfg c ||| bitMask cfg.pos.aAck, keepForm cfg c &&& ~~~bitMask cfg.pos.aAck,
    keepForm cfg c ||| bitMask cfg.pos.busEn]

/-- What the step `μ` of a program can do to the core and to `c`: nothing, a read of CNTR into `c`, or one write access, to
SRST only at the soft-reset step and to CNTR only with a value made of `c`. -/
inductive StepEffect (cfg : Params) (μ : Micro) (x y : Inst) : Prop where
  | keeps (hcore : y.core = x.core) (hc : y.seq.c = x.seq.c)
  | reads (hcore : y.core = x.core) (hc : y.seq.c = cntrWord cfg.pos x.core)
  | writes (r : Reg) (v : Word) (hw : writeReg cfg r v x.core = .next y.core) (hc : y.seq.c = x.seq.c)
      (hsrst : r = .srst → μ = .softReset) (hcntr : r = .cntr → v ∈ cntrForms cfg x.seq.c)

theorem finishRead_c {n : Nat} {q q' : Seq} (h : finishRead n q = .next q') : q'.c = q.c := by
  unfold finishRead at h
  split at h <;> cases h
  rfl

/-- The end of a line leaves the CNTR value in `c`. -/
theorem afterLine_c {cfg : Params} {p : Place} {r : Result} {q q' : Seq} (h : afterLine cfg p r q = .next q') :
    q'.c = q.c := by
  rw [← bindResult_c p r q]
  unfold afterLine at h
  generalize bindResult p r q = q₀ at h ⊢
  cases p <;> simp only [nextLine] at h
  case alone | abort | w11 | n6 => cases h; rfl
  case r21 | d21 => exact finishRead_c h
  all_goals cases h; exact begin_c _ _ _

theorem abort_c (cfg : Params) (q : Seq) (kind : FailKind) (st : Byte) : (q.abort cfg kind st).c = q.c := by
  unfold Seq.abort
  split
  · exact begin_c _ _ _
  · rfl

theorem waitEnd_c {cfg : Params} {p : Place} {q q' : Seq} (h : waitEnd cfg p q = .next q') : q'.c = q.c := by
  unfold waitEnd at h
  split at h
  · cases h; rfl
  · split at h
    · cases h; exact abort_c _ _ _ _
    · split at h
      · cases h; exact abort_c _ _ _ _
      · exact afterLine_c h

section Effects
variable {cfg : Params} {bus : Nat} {μ : Micro} {p : Place} {r : Reg} {v : Word} {res : Result} {x y : Inst}

theorem silently_effect {o : Out Seq} (h : silently o x = .next y) (hc : ∀ q, o = .next q → q.c = x.seq.c) :
    StepEffect cfg μ x y := by
  obtain ⟨q, hq, rfl⟩ := silently_next h
  exact .keeps rfl (hc q hq)

/-- A read whose value is not kept in `c`. -/
theorem readThen_effect {f : Word → Seq → Seq} (h : readThen cfg bus r f x = .next y)
    (hc : ∀ w, (f w x.seq).c = x.seq.c) : StepEffect cfg μ x y := by
  cases readThen_next h
  exact .keeps (afterRead_core cfg bus _ x) (hc _)

/-- A read of CNTR into `c`. -/
theorem readThen_cntr_effect {f : Word → Seq → Seq} (h : readThen cfg bus .cntr f x = .next y)
    (hc : ∀ w, (f w x.seq).c = w) : StepEffect cfg μ x y := by
  cases readThen_next h
  exact .reads (afterRead_core cfg bus _ x) (hc _)

theorem readEnd_effect {f : Word → Seq → Seq} {res : Word → Result} (h : readEnd cfg bus r p f res x = .next y)
    (hc : ∀ w, (f w x.seq).c = x.seq.c) : StepEffect cfg μ x y := by
  obtain ⟨q, hq, rfl⟩ := readEnd_next h
  exact .keeps (afterRead_core cfg bus _ x) ((afterLine_c hq).trans (hc _))

/-- A write access, and then the sequencer's registers with `c` as it was. -/
theorem write_effect {x' : Inst} {q : Seq} (h : x.write cfg r v = .next x') (hc : q.c = x.seq.c)
    (hsrst : r = .srst → μ = .softReset) (hcntr : r = .cntr → v ∈ cntrForms cfg x.seq.c) :
    StepEffect cfg μ x (x'.setSeq q) := by
  obtain ⟨c, hw, rfl⟩ := write_next h
  exact .writes r v hw hc hsrst hcntr

theorem writeThen_effect {f : Seq → Seq} (h : writeThen cfg r v f x = .next y) (hc : (f x.seq).c = x.seq.c)
    (hsrst : r = .srst → μ = .softReset) (hcntr : r = .cntr → v ∈ cntrForms cfg x.seq.c) : StepEffect cfg μ x y := by
  obtain ⟨x', hw, rfl⟩ := writeThen_next h
  exact write_effect hw hc hsrst hcntr

theorem writeEnd_effect (h : writeEnd cfg r v p res x = .next y)
    (hsrst : r = .srst → μ = .softReset) (hcntr : r = .cntr → v ∈ cntrForms cfg x.seq.c) : StepEffect cfg μ x y := by
  obtain ⟨x', q, hw, hq, rfl⟩ := writeEnd_next h
  exact write_effect hw (afterLine_c hq) hsrst hcntr

/-- The effect of every step of a program. -/
theorem stepAt_effect (h : stepAt cfg bus p μ x = .next y) : StepEffect cfg μ x y := by
  cases μ <;> simp only [stepAt] at h
  case start1 | stop1 | data2 | read2 | clear1 | setAck1 | clrAck1 => exact readThen_cntr_effect h fun _ => rfl
  case read1 | wait2 => exact readThen_effect h fun _ => rfl
  case start2 => exact writeThen_effect h rfl nofun fun _ => by simp [cntrForms]
  case stop2 | data3 | read3 | clear2 | setAck2 | clrAck2 | enable2 =>
    exact writeEnd_effect h nofun fun _ => by simp [cntrForms]
  case softReset => exact writeEnd_effect h (fun _ => rfl) nofun
  case start4 | test => exact silently_effect h fun _ => afterLine_c
  case busy1 | fetch => exact readEnd_effect h fun _ => rfl
  case enable1 =>
    obtain ⟨q, hq, rfl⟩ := readEnd_next h
    exact .reads (afterRead_core cfg bus _ x) (afterLine_c hq)
  case start3 =>
    unfold startPoll at h
    split at h
    · exact silently_effect h fun q hq => by cases hq; rfl
    · exact readThen_cntr_effect h fun _ => rfl
  case data1 =>
    unfold dataFirst at h
    split at h
    · cases h
    · exact writeThen_effect h rfl nofun nofun
  case wait1 =>
    unfold waitPoll at h
    split at h
    · exact silently_effect h fun q hq => by cases hq; rfl
    · exact readThen_cntr_effect h fun _ => rfl
  case wait3 =>
    obtain ⟨q, hq, rfl⟩ := silently_next h
    exact .keeps rfl (waitEnd_c hq)
  case idle1 =>
    unfold idlePoll at h
    split at h
    · exact silently_effect h fun q hq => by cases hq; rfl
    · split at h
      · exact readThen_effect h fun _ => rfl
      · exact readEnd_effect h fun _ => rfl
  case clock1 =>
    unfold clockLine at h
    split at h
    · exact silently_effect h fun q hq => by cases hq; rfl
    · obtain ⟨x', hw, hrest⟩ := bind_eq_next.mp h
      obtain ⟨q, hq, hy⟩ := bind_eq_next.mp hrest
      cases hy
      have hc := afterLine_c hq
      exact write_effect hw hc nofun nofun
  case poll =>
    unfold resetPoll at h
    split at h
    · exact silently_effect h fun q hq => by cases hq; rfl
    · split at h
      · exact readThen_effect h fun _ => rfl
      · exact readEnd_effect h fun _ => rfl
  case own =>
    unfold ownLine at h
    split at h
    · exact silently_effect h fun _ => afterLine_c
    · exact writeEnd_effect h nofun nofun

end Effects

/-- A step of an agent on instance `j`, as another index sees it: nothing, or that very step. -/
theorem localStep_at {s t : State} {b j : Nat} {f : Inst → Out Inst} {x y : Inst} (h : localStep j f s = .next t)
    (hx : s.insts[b]? = some x) (hy : t.insts[b]? = some y) : y = x ∨ b = j ∧ f x = .next y := by
  rcases localStep_next h with rfl | ⟨z, w, hz, hw, rfl⟩
  · exact .inl (Option.some.inj (hy.symm.trans hx))
  · rcases setInst_get_cases hx hy with ⟨rfl, rfl⟩ | ⟨-, rfl⟩
    · cases hx.symm.trans hz
      exact .inr ⟨rfl, hw⟩
    · exact .inl rfl

/-- A sequencer's step, as any index sees it: nothing, or the effect of the step its program stands at. -/
theorem seqAgent_effect {s t : State} {b j : Nat} {x y : Inst} (h : agentStep (.seq j) s = .next t)
    (hx : s.insts[b]? = some x) (hy : t.insts[b]? = some y) :
    y = x ∨ ∃ l, x.seq.phase = .running l ∧ StepEffect s.params l.micro x y := by
  rcases localStep_at h hx hy with rfl | ⟨rfl, hstep⟩
  · exact .inl rfl
  · unfold Inst.seqStep at hstep
    split at hstep
    · cases hstep; exact .inl rfl
    next l hl => exact .inr ⟨l, hl, stepAt_effect hstep⟩
    · cases hstep; exact .inl rfl

/-- Settles O27: software changes a core by write accesses alone, and none sets the flag. -/
theorem softwareNeverSetsTheFlag : Obligations.SoftwareNeverSetsTheFlag := by
  unfold Obligations.SoftwareNeverSetsTheFlag
  rintro s t b x y hx hy hflag (⟨i, h⟩ | ⟨j, h⟩)
  · rcases exec_core h hx hy with hcore | ⟨r, v, -, hw⟩
    · exact hcore ▸ hflag
    · exact writeReg_iflg hw hflag
  · rcases seqAgent_effect h hx hy with rfl | ⟨l, -, ⟨hcore, -⟩ | ⟨hcore, -⟩ | ⟨r, v, hw, -, -, -⟩⟩
    · exact hflag
    · exact hcore ▸ hflag
    · exact hcore ▸ hflag
    · exact writeReg_iflg hw hflag

/-- Settles O28: of the write accesses only one to SRST changes STAT, and a program makes it at its soft-reset step alone. -/
theorem onlySoftResetChangesStatBesideTheEngine : Obligations.OnlySoftResetChangesStatBesideTheEngine := by
  unfold Obligations.OnlySoftResetChangesStatBesideTheEngine
  intro s t b x y hx hy
  constructor
  · intro i h hi
    rcases exec_core h hx hy with hcore | ⟨r, v, rfl, hw⟩
    · rw [hcore]
    · exact writeReg_sta hw fun hr => hi v (by rw [hr]; rfl)
  · intro j h hlabel
    rcases seqAgent_effect h hx hy with rfl | ⟨⟨p, μ⟩, hl, ⟨hcore, -⟩ | ⟨hcore, -⟩ | ⟨r, v, hw, -, hsrst, -⟩⟩
    · rfl
    · rw [hcore]
    · rw [hcore]
    · exact writeReg_sta hw fun hr => hlabel p (by rw [hl, show μ = .softReset from hsrst hr])

/-! The interrupt line -/

/-- The sequencer writes INT_EN back as it read it (30_encoding.md rule R85). -/
theorem cntrForms_intEn {cfg : Params} {c v : Word} (hl : cfg.pos.wf) (hv : v ∈ cntrForms cfg c) :
    v.getLsbD cfg.pos.intEn = c.getLsbD cfg.pos.intEn := by
  obtain ⟨-, -, -, ⟨hnodup, hbits⟩, -⟩ := hl
  have hlt : cfg.pos.intEn < 32 := hbits _ (by simp [Positions.cntr])
  simp only [Positions.cntr, List.nodup_cons, List.mem_cons, List.not_mem_nil, or_false, not_or] at hnodup
  obtain ⟨⟨hbus, hsta, hstp, hflg, hack⟩, -⟩ := hnodup
  have hclr : (clrForm cfg c).getLsbD cfg.pos.intEn = c.getLsbD cfg.pos.intEn := by
    rw [clrForm_getLsbD _ _ _ hlt, if_neg hflg]
  have hkeep : (keepForm cfg c).getLsbD cfg.pos.intEn = c.getLsbD cfg.pos.intEn := by
    rw [keepForm_getLsbD _ _ _ hlt, if_neg hflg]
  have hmask : ∀ p, cfg.pos.intEn ≠ p → (bitMask p).getLsbD cfg.pos.intEn = false := fun p hp => by
    simp [bitMask_getLsbD, Ne.symm hp]
  simp only [cntrForms, List.mem_cons, List.not_mem_nil, or_false] at hv
  rcases hv with rfl | rfl | rfl | rfl | rfl | rfl
  · exact hclr
  · rw [BitVec.getLsbD_or, hclr, hmask _ hsta, Bool.or_false]
  · rw [BitVec.getLsbD_or, hclr, hmask _ hstp, Bool.or_false]
  · rw [BitVec.getLsbD_or, hkeep, hmask _ hack, Bool.or_false]
  · rw [BitVec.getLsbD_and, BitVec.getLsbD_not, hkeep, hmask _ hack, decide_eq_true hlt, Bool.not_false, Bool.and_true,
      Bool.and_true]
  · rw [BitVec.getLsbD_or, hkeep, hmask _ hbus, Bool.or_false]

/-- INT_EN is low, and so is its bit in the CNTR value the sequencer keeps. -/
abbrev IntEnLow (l : Positions) (x : Inst) : Prop := x.core.intEn = false ∧ x.seq.c.getLsbD l.intEn = false

theorem StepEffect.intEnLow {cfg : Params} {μ : Micro} {x y : Inst} (h : StepEffect cfg μ x y) (hl : cfg.pos.wf)
    (hx : IntEnLow cfg.pos x) : IntEnLow cfg.pos y := by
  obtain ⟨hen, hbit⟩ := hx
  rcases h with ⟨hcore, hc⟩ | ⟨hcore, hc⟩ | ⟨r, v, hw, hc, -, hcntr⟩
  · exact ⟨hcore ▸ hen, hc ▸ hbit⟩
  · exact ⟨hcore ▸ hen, by rw [hc, (cntrWord_fields hl x.core).1, hen]⟩
  · exact ⟨writeReg_intEn hw (fun hr => (cntrForms_intEn hl (hcntr hr)).trans hbit) hen, hc ▸ hbit⟩

theorem complete_intEn {d : Draw} {a : Action} {c c' : CoreState} (h : complete d a c = .next c') : c'.intEn = c.intEn := by
  rcases complete_next h with ⟨st, b, -, -, rfl⟩ | ⟨-, rfl⟩ <;> rfl

theorem completeAct_intEnLow {bus : Nat} {l : Positions} {x y : Inst} (h : x.completeAct bus = .next y)
    (hx : IntEnLow l x) : IntEnLow l y := by
  rcases completeAct_next h with ⟨-, rfl⟩ | ⟨a, c, -, hc, rfl⟩
  · exact hx
  · refine ⟨(complete_intEn hc).trans hx.1, ?_⟩
    split <;> simpa using hx.2

theorem completeReset_intEnLow {l : Positions} {x : Inst} (hx : IntEnLow l x) : IntEnLow l x.completeReset := by
  unfold Inst.completeReset
  split <;> exact hx

/-- No agent but the host raises INT_EN. -/
theorem agentStep_intEnLow {a : Agent} {s t : State} {b : Nat} {x y : Inst} (ha : a ≠ .host)
    (h : agentStep a s = .next t) (hl : s.params.pos.wf) (hx : s.insts[b]? = some x) (hy : t.insts[b]? = some y)
    (hlow : IntEnLow s.params.pos x) : IntEnLow s.params.pos y := by
  cases a with
  | host => exact absurd rfl ha
  | seq j =>
    rcases seqAgent_effect h hx hy with rfl | ⟨l, -, heffect⟩
    · exact hlow
    · exact heffect.intEnLow hl hlow
  | eng j =>
    rcases localStep_at h hx hy with rfl | ⟨-, hstep⟩
    · exact hlow
    · exact completeAct_intEnLow hstep hlow
  | reset j =>
    rcases localStep_at h hx hy with rfl | ⟨-, hstep⟩
    · exact hlow
    · cases hstep
      exact completeReset_intEnLow hlow
  | slave j =>
    rcases localStep_at h hx hy with rfl | ⟨-, hstep⟩
    · exact hlow
    · unfold slaveStep at hstep
      split at hstep <;> cases hstep
      exact hlow
  | wait =>
    cases h
    cases hx.symm.trans hy
    exact hlow

/-- Settles O59: the line is the conjunction of INT_EN and IFLG, and no agent but the host raises INT_EN. -/
theorem interruptLineStaysLow : Obligations.InterruptLineStaysLow := by
  unfold Obligations.InterruptLineStaysLow
  refine ⟨fun c => by simp [CoreState.irq], fun a s t b x y hl ha h hx hy hen hbit => ?_⟩
  obtain ⟨hen', hbit'⟩ := agentStep_intEnLow ha h hl hx hy ⟨hen, hbit⟩
  exact ⟨hen', hbit', by simp [CoreState.irq, hen']⟩

/-! The machine after power-on -/

/-- The parameters at their defaults describe a controller (00_scope.md rule R6). -/
theorem defaults_wf : Config.defaults.wf :=
  ⟨by decide, by decide, by decide, by decide, Nat.le_add_left 1 _⟩

theorem powerOn_cntrWord (p : Params) : cntrWord p.pos (CoreState.powerOn p) = 0 := by
  simp [cntrWord, putBit, CoreState.powerOn]

theorem statePowerOn_inv {p : Params} {n : Nat} (hp : p.wf) (hn : p.bases.length = n) : (State.powerOn p n).inv := by
  refine ⟨⟨hp, by simpa [State.powerOn] using hn⟩, fun x hx => ?_, rfl, rfl⟩
  obtain rfl := List.eq_of_mem_replicate hx
  obtain ⟨hcore, hfit⟩ := powerOn_inv p
  exact ⟨hcore, hfit, rfl, nofun⟩

/-- Settles O2: at power-on every instance is the idle one. -/
theorem resetIsReadyAndMeetsTheInvariant : Obligations.ResetIsReadyAndMeetsTheInvariant := by
  unfold Obligations.ResetIsReadyAndMeetsTheInvariant
  refine ⟨fun p n => statePowerOn_inv, fun p n x hx => ?_, rfl, statePowerOn_inv defaults_wf rfl⟩
  obtain rfl := List.eq_of_mem_replicate hx
  exact ⟨⟨rfl, rfl, rfl, rfl, rfl, rfl⟩, fun _ => powerOn_cntrWord p, rfl, rfl, rfl, rfl⟩

/-- The LCR value after power-on: 0xA below the two drawn line levels (10_state.md rule R43). -/
theorem reset_lcrWord (lv : BitVec 2) :
    (readWord Config.defaults lv .lcr (CoreState.powerOn Config.defaults)).toNat = 16 * lv.toNat + 0xA := by
  revert lv
  decide

/-- Settles O1: every value is the one `Config.defaults` names. -/
theorem resetHoldsTheGivenValues : Obligations.ResetHoldsTheGivenValues := by
  unfold Obligations.ResetHoldsTheGivenValues
  refine ⟨rfl, rfl, rfl, fun x hx => ?_, rfl, rfl, by decide, fun st => ?_, by decide, rfl, rfl, rfl, rfl, rfl, rfl, rfl, rfl⟩
  · obtain rfl := List.eq_of_mem_replicate hx
    exact ⟨fun lv => ⟨rfl, rfl, rfl, rfl, rfl, rfl, rfl, rfl, reset_lcrWord lv⟩, rfl, rfl, rfl⟩
  · cases st <;> decide

end Sys2Proof.Machine

/-! PROOFS. The statements of 20_memory.md: an instance out of range is refused, and a step only adds to an instance's event
history, at most one access. -/

namespace Sys2Proof.Machine

/-- Settles O12: an instruction is a direct access or the acceptance of a request, and each is an operation on its instance. -/
theorem badInstanceIsRefused : Obligations.BadInstanceIsRefused := by
  unfold Obligations.BadInstanceIsRefused
  intro i s hbus
  cases hreq : requestOf i with
  | none =>
    rcases exec_access hreq s with ⟨r, -, h⟩ | ⟨r, v, -, h⟩
    · exact h.trans (onInst_of_out_of_range _ hbus)
    · exact h.trans (onInst_of_out_of_range _ hbus)
  | some request =>
    obtain ⟨op, n, k⟩ := request
    exact (exec_request_eq_accept hreq s).trans (onInst_of_out_of_range _ hbus)

/-! What an operation on an instance adds to its history -/

/-- The history of `y` is that of `x` with events added, at most one of them an access (20_memory.md rule R68). -/
def AddsAtMostOneAccess (x y : Inst) : Prop := ∃ h, y.history = x.history ++ h ∧ (accesses h).length ≤ 1

theorem AddsAtMostOneAccess.of_history_eq {x y : Inst} (h : y.history = x.history) : AddsAtMostOneAccess x y :=
  ⟨[], by rw [h, List.append_nil], Nat.zero_le 1⟩

theorem AddsAtMostOneAccess.refl (x : Inst) : AddsAtMostOneAccess x x := .of_history_eq rfl

theorem AddsAtMostOneAccess.setSeq {x y : Inst} (h : AddsAtMostOneAccess x y) (q : Seq) :
    AddsAtMostOneAccess x (y.setSeq q) := h

theorem afterRead_addsAtMostOneAccess (cfg : Params) (bus : Nat) (r : Reg) (x : Inst) :
    AddsAtMostOneAccess x (x.afterRead cfg bus r) :=
  ⟨_, afterRead_history cfg bus r x, Nat.le_refl 1⟩

theorem write_addsAtMostOneAccess {cfg : Params} {r : Reg} {v : Word} {x y : Inst} (h : x.write cfg r v = .next y) :
    AddsAtMostOneAccess x y := by
  obtain ⟨c, -, rfl⟩ := write_next h
  exact ⟨_, rfl, by rw [accesses_of_write]; exact Nat.le_refl 1⟩

theorem seqStep_addsAtMostOneAccess {cfg : Params} {bus : Nat} {x y : Inst} (h : x.seqStep cfg bus = .next y) :
    AddsAtMostOneAccess x y := by
  cases seqStep_oneAccess h with
  | none q b hy => exact hy ▸ .of_history_eq rfl
  | read r q hy _ => exact hy ▸ (afterRead_addsAtMostOneAccess cfg bus r x).setSeq q
  | write r v x' q hw hy => exact hy ▸ (write_addsAtMostOneAccess hw).setSeq q

/-- A completion's record is no access. -/
theorem completeAct_addsAtMostOneAccess {bus : Nat} {x y : Inst} (h : x.completeAct bus = .next y) :
    AddsAtMostOneAccess x y := by
  rcases completeAct_next h with ⟨-, rfl⟩ | ⟨a, c, -, -, rfl⟩
  · exact .refl _
  · refine ⟨[.complete a c.sta], ?_, Nat.zero_le 1⟩
    split <;> simp

theorem completeReset_addsAtMostOneAccess (x : Inst) : AddsAtMostOneAccess x x.completeReset := by
  unfold Inst.completeReset
  split
  · exact ⟨[.resetDone], rfl, Nat.zero_le 1⟩
  · exact .refl x

theorem slaveStep_addsAtMostOneAccess {x y : Inst} (h : slaveStep x = .next y) : AddsAtMostOneAccess x y := by
  unfold slaveStep at h
  split at h <;> cases h
  exact .refl x

theorem takeResult_addsAtMostOneAccess (x : Inst) : AddsAtMostOneAccess x x.takeResult := by
  unfold Inst.takeResult
  split
  next r _ _ => exact ⟨[.taken r], rfl, Nat.zero_le 1⟩
  · exact .of_history_eq rfl
  · exact .refl x
  · exact .refl x

/-! What a step of the machine adds to the histories -/

/-- Every instance of `s` that `t` has too adds at most one access to its history from `s` to `t`. -/
def HistoriesGrow (s t : State) : Prop :=
  ∀ (b : Nat) (x y : Inst), s.insts[b]? = some x → t.insts[b]? = some y → AddsAtMostOneAccess x y

theorem HistoriesGrow.refl (s : State) : HistoriesGrow s s := by
  intro b x y hx hy
  cases hx.symm.trans hy
  exact .refl x

/-- Replacing one instance grows the histories where that instance's own grows. -/
theorem setInst_historiesGrow {s : State} {b : Nat} {x y : Inst} (hx : s.insts[b]? = some x)
    (h : AddsAtMostOneAccess x y) : HistoriesGrow s (s.setInst b y) := by
  intro b' z w hz hw
  rcases setInst_get_cases hz hw with ⟨rfl, rfl⟩ | ⟨-, rfl⟩
  · cases hx.symm.trans hz
    exact h
  · exact .refl w

theorem localStep_historiesGrow {s t : State} {b : Nat} {f : Inst → Out Inst} (h : localStep b f s = .next t)
    (hf : ∀ x y, f x = .next y → AddsAtMostOneAccess x y) : HistoriesGrow s t := by
  rcases localStep_next h with rfl | ⟨x, y, hx, hy, rfl⟩
  · exact .refl _
  · exact setInst_historiesGrow hx (hf x y hy)

/-- An instruction makes at most one access itself: an accepted request makes none yet. -/
theorem exec_historiesGrow {i : Instr} {s t : State} (h : exec i s = .next t) : HistoriesGrow s t := by
  cases hreq : requestOf i with
  | none =>
    rcases exec_access hreq s with ⟨r, -, he⟩ | ⟨r, v, -, he⟩
    · obtain ⟨x, hx, -, rfl⟩ := directRead_next (he ▸ h)
      exact setInst_historiesGrow hx (afterRead_addsAtMostOneAccess _ _ r x)
    · obtain ⟨x, y, hx, -, hw, rfl⟩ := directWrite_next (he ▸ h)
      exact setInst_historiesGrow hx (write_addsAtMostOneAccess hw)
  | some request =>
    obtain ⟨op, n, k⟩ := request
    rw [exec_request_eq_accept hreq] at h
    obtain ⟨x, hx, -, rfl⟩ := accept_next h
    exact setInst_historiesGrow hx (.of_history_eq rfl)

theorem runCmd_historiesGrow {cmd : HostCmd} {s t : State} (h : runCmd cmd s = .next t) : HistoriesGrow s t := by
  rcases runCmd_next h with ⟨i, hi⟩ | ⟨b, x, hx, rfl⟩
  · exact exec_historiesGrow hi
  · exact setInst_historiesGrow hx (takeResult_addsAtMostOneAccess x)

theorem hostStep_historiesGrow {s t : State} (h : hostStep s = .next t) : HistoriesGrow s t := by
  rcases hostStep_next h with rfl | ⟨cmd, rest, -, hcmd⟩
  · exact .refl _
  · exact runCmd_historiesGrow (s := { s with inbox := rest }) hcmd

theorem agentStep_historiesGrow {a : Agent} {s t : State} (h : agentStep a s = .next t) : HistoriesGrow s t := by
  cases a with
  | host => exact hostStep_historiesGrow h
  | seq b => exact localStep_historiesGrow h fun _ _ => seqStep_addsAtMostOneAccess
  | eng b => exact localStep_historiesGrow h fun _ _ => completeAct_addsAtMostOneAccess
  | reset b =>
    refine localStep_historiesGrow h fun x y hy => ?_
    cases hy
    exact completeReset_addsAtMostOneAccess x
  | slave b => exact localStep_historiesGrow h fun _ _ => slaveStep_addsAtMostOneAccess
  | wait =>
    cases h
    exact .refl s

/-- Only an unmarked machine has a step (60_exceptions.md rule R262). -/
theorem unmarked_of_step_next {s t : State} (h : step s = .next t) : s.faulted = [] ∧ s.refused = [] := by
  unfold step markedStep at h
  split at h
  · cases h
  · cases h
  next hf hr => exact ⟨hf, hr⟩

theorem step_historiesGrow {s t : State} (h : step s = .next t) : HistoriesGrow s t := by
  obtain ⟨hf, hr⟩ := unmarked_of_step_next h
  rcases step_cases hf hr with hstay | ⟨a, s', hagent, -, hinsts, -⟩
  · cases hstay.symm.trans h
    exact .refl s
  · have hgrow : HistoriesGrow s' t := agentStep_historiesGrow (hagent.symm.trans h)
    intro b x y hx
    exact hgrow b x y (by rw [hinsts, hx])

/-- Settles O58: a step is one agent's, and each agent adds to one instance's history alone, at most one access. -/
theorem historyGrowsByAtMostOneAccess : Obligations.HistoryGrowsByAtMostOneAccess := by
  unfold Obligations.HistoryGrowsByAtMostOneAccess
  intro s t b x y h
  exact step_historiesGrow h b x y

end Sys2Proof.Machine

/-! PROOFS. The statements of 30_encoding.md: the fields of an access word, what a word decodes to by its fields, and the encoder
and decoder as inverses of each other. -/

namespace Sys2Proof.Machine

/-! The fields of an access word (rule R80) -/

theorem accessWord_data (o : Offsets) (write : Bool) (r : Reg) (d : Word) :
    (accessWord o write r d).extractLsb' 0 32 = d :=
  BitVec.extractLsb'_append_eq_right

theorem accessWord_offset {o : Offsets} {r : Reg} (hr : r.offset o < 256) (write : Bool) (d : Word) :
    ((accessWord o write r d).extractLsb' 32 8).toNat = r.offset o := by
  rw [accessWord, BitVec.extractLsb'_append_eq_of_le (by decide), BitVec.extractLsb'_append_eq_right, BitVec.toNat_ofNat,
    Nat.mod_eq_of_lt hr]

theorem accessWord_direction (o : Offsets) (write : Bool) (r : Reg) (d : Word) :
    (accessWord o write r d).getLsbD 40 = write := by
  rw [accessWord, BitVec.getLsbD_append, BitVec.getLsbD_append]
  exact BitVec.getLsbD_ofBool write 0

/-- No bit lies outside the three fields: a word is the access word of its own direction, offset and data. -/
theorem eq_accessWord_of_offset {o : Offsets} {r : Reg} {w : AccessWord} (h : (w.extractLsb' 32 8).toNat = r.offset o) :
    w = accessWord o (w.getLsbD 40) r (w.extractLsb' 0 32) := by
  have hoff : BitVec.ofNat 8 (r.offset o) = w.extractLsb' 32 8 := by rw [← h, BitVec.ofNat_toNat, BitVec.setWidth_eq]
  have hdir : BitVec.ofBool (w.getLsbD 40) = w.extractLsb' 40 1 := by
    ext i hi
    simp [show i = 0 by omega]
  rw [accessWord, hoff, hdir, BitVec.extractLsb'_append_extractLsb'_eq_extractLsb' (start₁ := 32) (len₁ := 8) rfl,
    BitVec.extractLsb'_append_extractLsb'_eq_extractLsb' (start₁ := 0) (len₁ := 32) rfl]
  exact BitVec.extractLsb'_eq_self.symm

/-! What a word decodes to, by its fields (rule R81) -/

/-- Whether or not the offsets tell the registers apart, the register found at an offset has that offset. -/
theorem offset_of_regAt {o : Offsets} {off : Nat} {r : Reg} (h : regAt o off = some r) : off = r.offset o := by
  have hfound := List.find?_some h
  exact (beq_iff_eq.mp hfound).symm

section Fields
variable {o : Offsets} {w : AccessWord} (b : Nat)

theorem decodeWord_unmapped (h : ∀ r : Reg, (w.extractLsb' 32 8).toNat ≠ r.offset o) :
    decodeWord o b w = .error .unmappedOffset := by
  rw [decodeWord, (regAt_eq_none _ _).mpr h]

variable {r : Reg} (ho : o.wf) (hr : (w.extractLsb' 32 8).toNat = r.offset o)
include ho hr

/-- At a mapped offset `W` and the data decide. -/
theorem decodeWord_mapped : decodeWord o b w =
    if w.getLsbD 40 then .ok (writeOf r b (w.extractLsb' 0 32))
    else if w.extractLsb' 0 32 = 0#32 then .ok (readOf r b) else .error .readWithData := by
  rw [decodeWord, (regAt_eq_some o ho.1 _ r).mpr hr]

theorem decodeWord_write (hw : w.getLsbD 40 = true) : decodeWord o b w = .ok (writeOf r b (w.extractLsb' 0 32)) := by
  rw [decodeWord_mapped b ho hr, if_pos hw]

theorem decodeWord_read (hw : w.getLsbD 40 = false) (hd : w.extractLsb' 0 32 = 0#32) :
    decodeWord o b w = .ok (readOf r b) := by
  rw [decodeWord_mapped b ho hr, if_neg (ne_true_of_eq_false hw), if_pos hd]

theorem decodeWord_readWithData (hw : w.getLsbD 40 = false) (hd : w.extractLsb' 0 32 ≠ 0#32) :
    decodeWord o b w = .error .readWithData := by
  rw [decodeWord_mapped b ho hr, if_neg (ne_true_of_eq_false hw), if_neg hd]

end Fields

/-- A word that decodes is the word of a write, or of a read without data. -/
theorem decodeWord_ok {o : Offsets} {b : Nat} {w : AccessWord} {i : Instr} (h : decodeWord o b w = .ok i) :
    (∃ r d, w = accessWord o true r d ∧ i = writeOf r b d) ∨ (∃ r, w = accessWord o false r 0#32 ∧ i = readOf r b) := by
  unfold decodeWord at h
  split at h
  · cases h
  next r hr =>
    have hw := eq_accessWord_of_offset (offset_of_regAt hr)
    split at h
    next hdir =>
      cases h
      rw [hdir] at hw
      exact .inl ⟨r, _, hw, rfl⟩
    next hdir =>
      split at h
      next hd =>
        cases h
        rw [hd, Bool.eq_false_of_not_eq_true hdir] at hw
        exact .inr ⟨r, hw, rfl⟩
      · cases h

/-! The terms of the register accesses -/

theorem encode_readOf (o : Offsets) (r : Reg) (b : Nat) : encode o (readOf r b) = readTerm o r b := by
  cases r <;> rfl

theorem encode_writeOf (o : Offsets) (r : Reg) (b : Nat) (v : Word) : encode o (writeOf r b v) = writeTerm o r b v := by
  cases r <;> rfl

theorem decode_bytesOfWord (o : Offsets) (b : Nat) (w : AccessWord) :
    decode o (.word b (bytesOfWord w)) = decodeWord o b w := by
  rw [decode, decodeBytes, Laws.RowOf.wordOfBytes_bytesOfWord]

theorem decode_readTerm {o : Offsets} (ho : o.wf) (r : Reg) (b : Nat) : decode o (readTerm o r b) = .ok (readOf r b) := by
  have hoff := accessWord_offset (ho.2 _ (offset_mem_all o r)).2 false 0#32
  rw [readTerm, decode_bytesOfWord]
  exact decodeWord_read b ho hoff (accessWord_direction ..) (accessWord_data ..)

theorem decode_writeTerm {o : Offsets} (ho : o.wf) (r : Reg) (b : Nat) (v : Word) :
    decode o (writeTerm o r b v) = .ok (writeOf r b v) := by
  have hoff := accessWord_offset (ho.2 _ (offset_mem_all o r)).2 true v
  rw [writeTerm, decode_bytesOfWord, decodeWord_write b ho hoff (accessWord_direction ..), accessWord_data]

/-! The obligations -/

/-- Settles O5: the word of a register access has the direction, offset and data the decoder reads back, and a request's operands
are those of its own row. -/
theorem decodeOfEncodeIsTheInstruction : Obligations.DecodeOfEncodeIsTheInstruction := by
  unfold Obligations.DecodeOfEncodeIsTheInstruction
  intro o i ho
  cases i with
  | rdAddr | rdXaddr | rdData | rdCntr | rdStat | rdCcr | rdSrst | rdEfr | rdLcr => exact decode_readTerm ho _ _
  | wrAddr | wrXaddr | wrData | wrCntr | wrStat | wrCcr | wrSrst | wrEfr | wrLcr => exact decode_writeTerm ho _ _ _
  | _ => rfl

/-- Settles O6: a word that decodes is the access word of a write or of a read, and the encoder writes that word. -/
theorem encodeOfDecodedWordIsTheWord : Obligations.EncodeOfDecodedWordIsTheWord := by
  unfold Obligations.EncodeOfDecodedWordIsTheWord
  intro o b w i h
  rcases decodeWord_ok h with ⟨r, d, rfl, rfl⟩ | ⟨r, rfl, rfl⟩
  · exact encode_writeOf o r b d
  · exact encode_readOf o r b

/-- Settles O7: each of the eight words is evaluated. -/
theorem wordsOfTheSpecDecode : Obligations.WordsOfTheSpecDecode := by
  unfold Obligations.WordsOfTheSpecDecode
  decide

/-- Settles O8: `OFF` finds the register, then `W` and the data decide. -/
theorem accessWordsDecodeByOffsetAndDirection : Obligations.AccessWordsDecodeByOffsetAndDirection := by
  unfold Obligations.AccessWordsDecodeByOffsetAndDirection
  intro o b w ho
  exact ⟨fun r hr => ⟨decodeWord_write b ho hr, decodeWord_read b ho hr, decodeWord_readWithData b ho hr⟩,
    decodeWord_unmapped b⟩

end Sys2Proof.Machine

/-! PROOFS. The statements of 40_register_access.md: the checks of a raw access, what a read shows bit by bit, and what a write
stores. -/

namespace Sys2Proof.Machine

open Sys2Proof.Claims

/-! A direct access as an instruction -/

theorem exec_readOf (r : Reg) (b : Nat) (s : State) : exec (readOf r b) s = directRead b r s := by
  cases r <;> rfl

theorem exec_writeOf (r : Reg) (b : Nat) (v : Word) (s : State) : exec (writeOf r b v) s = directWrite b r v s := by
  cases r <;> rfl

/-- A direct read while the port is free is the instance's read access: no core can refuse it. -/
theorem exec_readOf_of_free {s : State} {b : Nat} {x : Inst} (r : Reg) (h : Free s b x) :
    exec (readOf r b) s = .next (s.setInst b (x.afterRead s.params b r)) := by
  obtain ⟨hx, hfree⟩ := h
  simp [exec_readOf, directRead, onInst_of_get _ hx, Inst.asOwner, hfree]

/-! What a performed write records, and the check for a pending soft reset (rule R110 step 4) -/

/-- Where the action in flight stays as it was, nothing has been triggered. -/
theorem triggerEvents_of_act_eq {c c' : CoreState} (h : c'.act = c.act) : triggerEvents c c' = [] := by
  unfold triggerEvents
  rw [h]
  cases c.act <;> rfl

/-- A write that leaves the action in flight records itself alone. -/
theorem exec_writeOf_of_act_eq {s : State} {b : Nat} {x : Inst} {r : Reg} {v : Word} {c : CoreState} (h : Free s b x)
    (hw : writeReg s.params r v x.core = .next c) (hact : c.act = x.core.act) :
    exec (writeOf r b v) s = .next (s.setInst b (wrote x r v c)) := by
  rw [exec_writeOf, directWrite_of_free r v h, Inst.write, hw, bind_next, triggerEvents_of_act_eq hact]
  rfl

/-- With no reset pending a write is the register's own rule. -/
theorem writeReg_of_noReset {p : Params} {c : CoreState} (r : Reg) (v : Word) (h : c.rstPending = false) :
    writeReg p r v c = storeWord p r v c := by
  simp [writeReg, h]

theorem writeReg_stat (p : Params) (v : Word) (c : CoreState) : writeReg p .stat v c = .next c := by
  simp [writeReg, storeWord]

theorem writeReg_duringReset {p : Params} {c : CoreState} {r : Reg} (v : Word) (h : c.rstPending = true) (hr : r ≠ .stat) :
    writeReg p r v c = .fault .writeDuringReset := by
  simp [writeReg, h, hr]

/-- With no reset pending a register's own rule that leaves the action in flight is the whole of the write. -/
theorem exec_writeOf_stores {s : State} {b : Nat} {x : Inst} {r : Reg} {v : Word} {c : CoreState} (h : Free s b x)
    (hrst : x.core.rstPending = false) (hs : storeWord s.params r v x.core = .next c) (hact : c.act = x.core.act) :
    exec (writeOf r b v) s = .next (s.setInst b (wrote x r v c)) :=
  exec_writeOf_of_act_eq h ((writeReg_of_noReset r v hrst).trans hs) hact

/-- A write access whose rule faults faults. -/
theorem exec_writeOf_fault {s : State} {b : Nat} {x : Inst} {r : Reg} {v : Word} {f : Fault} (h : Free s b x)
    (hw : writeReg s.params r v x.core = .fault f) : exec (writeOf r b v) s = .fault f := by
  rw [exec_writeOf, directWrite_of_free r v h, Inst.write, hw]
  rfl

/-! One field in a register value, bit by bit (30_encoding.md rule R83) -/

section Fields
variable {j : Nat} (hj : j < 32)
include hj

theorem putBit_getLsbD_eq (p : Nat) (b : Bool) : (putBit p b).getLsbD j = (j == p && b) := by
  rw [putBit_getLsbD]
  by_cases h : p = j
  · simp [h, hj]
  · simp [h, Ne.symm h]

/-- A value of `n` bits shifted to its place shows the bits of its field. -/
theorem shiftLeft_getLsbD_eq_fieldBit {n : Nat} (lo : Nat) (a : BitVec n) :
    (a.setWidth 32 <<< lo).getLsbD j = fieldBit lo n a.toNat j := by
  rw [BitVec.getLsbD_shiftLeft, BitVec.getLsbD_setWidth, fieldBit, BitVec.testBit_toNat]
  by_cases hl : lo ≤ j
  · by_cases hn : j < lo + n
    · simp [hj, hl, hn, show j - lo < 32 by omega]
    · simp [hn, BitVec.getLsbD_of_ge a (j - lo) (by omega)]
  · simp [hl]

theorem putSeven_getLsbD_eq_fieldBit (lo : Nat) (a : BitVec 7) : (putSeven lo a).getLsbD j = fieldBit lo 7 a.toNat j :=
  shiftLeft_getLsbD_eq_fieldBit hj lo a

theorem putByte_getLsbD_eq_fieldBit (lo : Nat) (d : Byte) : (putByte lo d).getLsbD j = fieldBit lo 8 d.toNat j :=
  shiftLeft_getLsbD_eq_fieldBit hj lo d

theorem putField_getLsbD_eq_fieldBit (f : Field) (x : Word) :
    (putField f x).getLsbD j = fieldBit f.lo f.width x.toNat j := by
  rw [putField_getLsbD, fieldBit, BitVec.testBit_toNat]
  by_cases hl : f.lo ≤ j
  · simp [hj, hl, show j - f.lo < f.width ↔ j < f.lo + f.width by omega]
  · simp [hl]

/-- A field taken from a value and put back shows the value's bits at the field's place. -/
theorem putSeven_getSeven_getLsbD (lo : Nat) (v : Word) :
    (putSeven lo (getSeven lo v)).getLsbD j = (v.getLsbD j && (decide (lo ≤ j) && decide (j < lo + 7))) := by
  rw [putSeven_getLsbD, getSeven, BitVec.getLsbD_extractLsb']
  by_cases hl : lo ≤ j
  · simp [hj, hl, show lo + (j - lo) = j by omega, show j - lo < 7 ↔ j < lo + 7 by omega, Bool.and_comm]
  · simp [hl]

theorem putField_getField_getLsbD (f : Field) (v : Word) : (putField f (getField f v)).getLsbD j =
    (v.getLsbD j && (decide (f.lo ≤ j) && decide (j < f.lo + f.width))) := by
  rw [putField_getLsbD, getField_getLsbD]
  by_cases hl : f.lo ≤ j
  · simp [hj, hl, show j - f.lo < 32 by omega, show f.lo + (j - f.lo) = j by omega,
      show j - f.lo < f.width ↔ j < f.lo + f.width by omega, Bool.and_comm]
  · simp [hl]

theorem putBit_own_getLsbD (p : Nat) (v : Word) : (putBit p (v.getLsbD p)).getLsbD j = (v.getLsbD j && j == p) := by
  rw [putBit_getLsbD_eq hj]
  by_cases h : j = p
  · subst h
    exact Bool.and_comm _ _
  · simp [beq_false_of_ne h]

end Fields

/-! Field values as numbers -/

/-- Fields with no bit in common add up. -/
theorem toNat_or_of_and_eq_zero {w : Nat} {x y : BitVec w} (h : x &&& y = 0#w) : (x ||| y).toNat = x.toNat + y.toNat := by
  rw [← BitVec.add_eq_or_of_and_eq_zero x y h, BitVec.toNat_add_of_and_eq_zero h]

/-- A number that fits a field is below two to the field's width. -/
theorem toNat_lt_of_fits {w : Nat} {x : Word} (h : x &&& onesMask w = x) : x.toNat < 2 ^ w := by
  have hle : x.toNat ≤ (2 ^ w - 1) % 2 ^ 32 := by
    rw [← h, BitVec.toNat_and, onesMask, BitVec.toNat_ofNat]
    exact Nat.and_le_right
  have hmod := Nat.mod_le (2 ^ w - 1) (2 ^ 32)
  have hpos := Nat.two_pow_pos w
  omega

/-- A field inside the register that holds a number fitting it is that number, shifted. -/
theorem putField_toNat {f : Field} {x : Word} (hf : f.fits) (h : x &&& onesMask f.width = x) :
    (putField f x).toNat = x.toNat * 2 ^ f.lo := by
  have hlt : x.toNat * 2 ^ f.lo < 2 ^ 32 :=
    calc x.toNat * 2 ^ f.lo
        < 2 ^ f.width * 2 ^ f.lo := Nat.mul_lt_mul_of_pos_right (toNat_lt_of_fits h) (Nat.two_pow_pos _)
      _ = 2 ^ (f.lo + f.width) := by rw [← Nat.pow_add, Nat.add_comm]
      _ ≤ 2 ^ 32 := Nat.pow_le_pow_right (by decide) hf
  rw [putField, h, BitVec.toNat_shiftLeft, Nat.shiftLeft_eq, Nat.mod_eq_of_lt hlt]

/-- Fields apart from each other have no bit in common. -/
theorem putField_and_putField {f g : Field} (x y : Word) (h : f.lo + f.width ≤ g.lo ∨ g.lo + g.width ≤ f.lo) :
    putField f x &&& putField g y = 0#32 := by
  apply BitVec.eq_of_getLsbD_eq
  intro j hj
  rw [BitVec.getLsbD_and, putField_getLsbD_eq_fieldBit hj, putField_getLsbD_eq_fieldBit hj, BitVec.getLsbD_zero]
  by_cases hin : f.lo ≤ j ∧ j < f.lo + f.width
  · have hout : ¬ (g.lo ≤ j ∧ j < g.lo + g.width) := by omega
    simp only [fieldBit, ← Bool.decide_and, hout]
    simp
  · simp only [fieldBit, ← Bool.decide_and, hin]
    simp

/-! The bits of the register values (rules R111 to R127) -/

section Words
variable (l : Positions) (c : CoreState) {j : Nat} (hj : j < 32)
include hj

theorem addrWord_getLsbD : (addrWord l c).getLsbD j = (fieldBit l.sla 7 c.sla.toNat j || (j == l.gce && c.gce)) := by
  rw [addrWord, BitVec.getLsbD_or, putSeven_getLsbD_eq_fieldBit hj, putBit_getLsbD_eq hj]

theorem ccrWord_getLsbD : (ccrWord l c).getLsbD j =
    (fieldBit l.clkM.lo l.clkM.width c.clkM.toNat j || fieldBit l.clkN.lo l.clkN.width c.clkN.toNat j) := by
  rw [ccrWord, BitVec.getLsbD_or, putField_getLsbD_eq_fieldBit hj, putField_getLsbD_eq_fieldBit hj]

end Words

/-- No bit of a CNTR value but the six fields' is set. -/
theorem cntrWord_elsewhere {l : Positions} {j : Nat} (c : CoreState)
    (h : j ∉ [l.intEn, l.busEn, l.mSta, l.mStp, l.iflg, l.aAck]) : (cntrWord l c).getLsbD j = false := by
  simp only [List.mem_cons, List.not_mem_nil, or_false, not_or, ne_comm (a := j)] at h
  simp [cntrWord, putBit_getLsbD, h]

/-- The four stored fields and the two levels of an LCR value are read where they lie (rule R127). -/
theorem lcrWord_fields {l : Positions} (h : l.wf) (lv : BitVec 2) (c : CoreState) :
    (lcrWord l lv c).getLsbD l.sdaCtlEn = c.sdaCtlEn ∧ (lcrWord l lv c).getLsbD l.sdaCtl = c.sdaCtl ∧
    (lcrWord l lv c).getLsbD l.sclCtlEn = c.sclCtlEn ∧ (lcrWord l lv c).getLsbD l.sclCtl = c.sclCtl ∧
    (lcrWord l lv c).getLsbD l.sdaState = lv.getLsbD 0 ∧ (lcrWord l lv c).getLsbD l.sclState = lv.getLsbD 1 := by
  obtain ⟨-, -, -, -, -, -, -, -, hnodup, hlt⟩ := h
  simp only [Positions.lcr, List.nodup_cons, List.mem_cons, List.not_mem_nil, or_false, not_or, List.nodup_nil,
    not_false_eq_true, and_true, forall_eq_or_imp, forall_eq] at hnodup hlt
  simp only [lcrWord, lcrStored, BitVec.getLsbD_or, putBit_getLsbD, hlt, decide_true, Bool.and_true]
  grind

theorem lcrWord_elsewhere {l : Positions} {j : Nat} (lv : BitVec 2) (c : CoreState)
    (h : j ∉ [l.sdaCtlEn, l.sdaCtl, l.sclCtlEn, l.sclCtl, l.sdaState, l.sclState]) :
    (lcrWord l lv c).getLsbD j = false := by
  simp only [List.mem_cons, List.not_mem_nil, or_false, not_or, ne_comm (a := j)] at h
  simp [lcrWord, lcrStored, putBit_getLsbD, h]

/-- At the default positions the levels are bits 5:4 of an LCR value. -/
theorem lcrWord_levels (lv : BitVec 2) (c : CoreState) : (lcrWord Config.positions lv c).extractLsb' 4 2 = lv := by
  obtain ⟨-, -, -, -, hsda, hscl⟩ := lcrWord_fields (l := Config.positions) (by decide) lv c
  apply BitVec.eq_of_getLsbD_eq
  intro i hi
  rw [BitVec.getLsbD_extractLsb']
  obtain rfl | rfl : i = 0 ∨ i = 1 := by omega
  · exact hsda
  · exact hscl

/-! What a read returns at the default positions, as a number (rules R111 to R125) -/

theorem putByte_zero_toNat (d : Byte) : (putByte 0 d).toNat = d.toNat := by
  rw [putByte, BitVec.shiftLeft_zero, BitVec.toNat_setWidth_of_le (by decide)]

theorem putSeven_one_toNat (a : BitVec 7) : (putSeven 1 a).toNat = 2 * a.toNat := by
  rw [putSeven, BitVec.toNat_shiftLeft, BitVec.toNat_setWidth_of_le (by decide), Nat.shiftLeft_eq]
  omega

theorem putBit_zero_toNat (b : Bool) : (putBit 0 b).toNat = b.toNat := by
  cases b <;> rfl

/-- At the default positions GCE lies below SLA. -/
theorem addrWord_toNat (c : CoreState) : (addrWord Config.positions c).toNat = 2 * c.sla.toNat + c.gce.toNat := by
  have hapart : putSeven 1 c.sla &&& putBit 0 c.gce = 0#32 := by
    apply BitVec.eq_of_getLsbD_eq
    intro j hj
    rw [BitVec.getLsbD_and, putSeven_getLsbD_eq_fieldBit hj, putBit_getLsbD_eq hj, BitVec.getLsbD_zero, fieldBit]
    cases j <;> simp
  calc (addrWord Config.positions c).toNat
      = (putSeven 1 c.sla).toNat + (putBit 0 c.gce).toNat := toNat_or_of_and_eq_zero hapart
    _ = 2 * c.sla.toNat + c.gce.toNat := by rw [putSeven_one_toNat, putBit_zero_toNat]

/-- At the default positions CLK_N lies below CLK_M. -/
theorem ccrWord_toNat {c : CoreState} (h : c.fieldsFit Config.positions) :
    (ccrWord Config.positions c).toNat = 8 * c.clkM.toNat + c.clkN.toNat := by
  obtain ⟨-, hm, hn, -⟩ := h
  rw [ccrWord, toNat_or_of_and_eq_zero (putField_and_putField _ _ (by decide)), putField_toNat (by decide) hm,
    putField_toNat (by decide) hn, Nat.mul_comm 8]
  exact congrArg _ (Nat.mul_one _)

/-- At the default codes a status and its code are a row of rule R88's table. -/
theorem statusCode_mem_codeTable {p : Params} (h : p.codes = Config.codes) (st : Status) :
    (st, (statusCode p st).toNat) ∈ codeTable := by
  have hcode : statusCode p st = statusCode Config.defaults st := by cases st <;> simp [statusCode, h, Config.defaults]
  rw [hcode]
  cases st <;> decide

/-! The common shapes of the reads and of the storing writes -/

/-- A read of a register other than LCR completes with a value whose bits, and whose number at the default positions, are those
of the register's value. -/
theorem read_returns {s : State} {b : Nat} {x : Inst} {r : Reg} {bit : Nat → Bool} {n : Nat} (hfree : Free s b x)
    (hr : r ≠ .lcr) (hbit : ∀ lv j, j < 32 → (readWord s.params lv r x.core).getLsbD j = bit j)
    (hnum : s.params.pos = Config.positions → ∀ lv, (readWord s.params lv r x.core).toNat = n) :
    ∃ v : Word, exec (readOf r b) s = .next (s.setInst b (x.log [.read r v])) ∧ (∀ j, j < 32 → v.getLsbD j = bit j) ∧
      (s.params.pos = Config.positions → v.toNat = n) :=
  ⟨x.readValue s.params b r, by rw [exec_readOf_of_free r hfree, afterRead_eq_log _ _ _ _ hr], hbit _,
    fun hp => hnum hp _⟩

/-- A register that reads back by rule R83 reads back, at the default positions, as the written value under the mask of its
stored bits; LCR's two levels are masked off. -/
theorem readsBack_mask {p : Params} {r : Reg} {v mask : Word} {c : CoreState} (hback : ReadsBack p r v c)
    (hpos : p.pos = Config.positions) (hmask : ∀ j < 32, storedBit Config.positions r j = mask.getLsbD j) (lv : BitVec 2) :
    readWord p lv r c &&& (if r = .lcr then 0xF#32 else 0xFFFFFFFF#32) = v &&& mask := by
  apply BitVec.eq_of_getLsbD_eq
  intro j hj
  rw [BitVec.getLsbD_and, BitVec.getLsbD_and, ← hmask j hj, ← hpos]
  split
  next hlcr =>
    subst hlcr
    rw [show 0xF#32 = onesMask 4 from rfl, onesMask_getLsbD]
    by_cases hlow : j < 4
    · have hlevels : j ≠ p.pos.sdaState ∧ j ≠ p.pos.sclState := by
        rw [hpos]
        constructor <;> simp only [Config.positions] <;> omega
      rw [hback lv j hj fun _ => hlevels]
      simp [hj, hlow]
    · have hstored : storedBit p.pos .lcr j = false := by
        rw [hpos]
        simp only [storedBit, Config.positions, Bool.or_eq_false_iff, beq_eq_false_iff_ne]
        omega
      simp [hlow, hstored]
  next hlcr =>
    rw [hback lv j hj fun h => absurd h hlcr, show 0xFFFFFFFF#32 = BitVec.allOnes 32 from rfl, BitVec.getLsbD_allOnes]
    simp [hj]

/-- A write whose rule stores a core that reads back completes with that core, and reads back under the mask of the stored bits
at the default positions. -/
theorem write_completes_and_readsBack {s : State} {b : Nat} {x : Inst} {r : Reg} {v : Word} {c : CoreState} (mask : Word)
    (hfree : Free s b x) (hrst : x.core.rstPending = false) (hback : ReadsBack s.params r v c)
    (hs : storeWord s.params r v x.core = .next c) (hact : c.act = x.core.act)
    (hmask : ∀ j < 32, storedBit Config.positions r j = mask.getLsbD j) :
    exec (writeOf r b v) s = .next (s.setInst b (wrote x r v c)) ∧ ReadsBack s.params r v c ∧
      (s.params.pos = Config.positions → ∀ lv,
        readWord s.params lv r c &&& (if r = .lcr then 0xF#32 else 0xFFFFFFFF#32) = v &&& mask) :=
  ⟨exec_writeOf_stores hfree hrst hs hact, hback, fun hpos => readsBack_mask hback hpos hmask⟩

/-! Each storing register reads back what it stores (rules R112, R114, R122, R126, R128) -/

section Stores
variable (p : Params) (v : Word) (c : CoreState)

theorem addrStore_readsBack : ReadsBack p .addr v (addrStore p.pos v c) := by
  intro lv j hj _
  simp only [readWord, addrWord, addrStore, BitVec.getLsbD_or, putSeven_getSeven_getLsbD hj, putBit_own_getLsbD hj,
    storedBit, Bool.and_or_distrib_left]

theorem xaddrStore_readsBack : ReadsBack p .xaddr v (xaddrStore p.pos v c) :=
  fun _ _ hj _ => putField_getField_getLsbD hj p.pos.slax v

theorem ccrStore_readsBack : ReadsBack p .ccr v (ccrStore p.pos v c) := by
  intro lv j hj _
  simp only [readWord, ccrWord, ccrStore, BitVec.getLsbD_or, putField_getField_getLsbD hj, storedBit,
    Bool.and_or_distrib_left]

theorem efrStore_readsBack : ReadsBack p .efr v (efrStore p.pos v c) :=
  fun _ _ hj _ => putField_getField_getLsbD hj p.pos.dbn v

/-- The levels of an LCR read stand where nothing is stored. -/
theorem lcrStore_readsBack : ReadsBack p .lcr v (lcrStore p.pos v c) := by
  intro lv j hj hlevels
  obtain ⟨hsda, hscl⟩ := hlevels rfl
  simp only [readWord, lcrWord, lcrStored, lcrStore, BitVec.getLsbD_or, putBit_own_getLsbD hj, putBit_getLsbD_eq hj,
    beq_false_of_ne hsda, beq_false_of_ne hscl, Bool.false_and, Bool.or_false, storedBit, Bool.and_or_distrib_left]

end Stores

/-! The obligations -/

/-- Settles O11: the host's move is `runPort`, whose checks come in the order of rule R110. -/
theorem rawAccessChecksInOrder : Obligations.RawAccessChecksInOrder := by
  unfold Obligations.RawAccessChecksInOrder
  intro s b width off value rest sc hf hr hi hs
  have hstep : step s = runPort b width off value { s with inbox := rest, sched := sc } := step_host hf hr hi hs rfl
  refine ⟨fun hb => hstep.trans (runPort_badInstance _ _ _ hb), fun hb hw => hstep.trans (runPort_badWidth _ _ hb hw),
    ?misaligned, ?unmapped, ?register⟩
  case misaligned =>
    rintro hb rfl hal
    exact hstep.trans (runPort_misaligned _ hb hal)
  case unmapped =>
    rintro hb rfl hal hun
    exact hstep.trans (runPort_unmappedOffset _ hb hal hun)
  case register =>
    rintro r ho hb rfl rfl
    have haccess := hstep.trans (runPort_register r value ho hb)
    constructor
    · rintro rfl
      exact haccess
    · rintro v rfl
      exact haccess

/-- Settles O14: a read returns its register's value, whose bits are those of its fields; at the default positions the fields
are apart and their numbers add up. -/
theorem readsReturnTheirFields : Obligations.ReadsReturnTheirFields := by
  unfold Obligations.ReadsReturnTheirFields
  intro s b x hfree hfit l c reads
  refine ⟨?addr, ?xaddr, ?data, ?stat, fun hcodes => statusCode_mem_codeTable hcodes _, ?ccr, ?srst, ?efr⟩
  case addr =>
    refine read_returns (r := .addr) hfree (by decide) (fun _ _ hj => addrWord_getLsbD _ _ hj) fun hp _ => ?_
    rw [readWord, hp]
    exact addrWord_toNat _
  case xaddr =>
    refine read_returns (r := .xaddr) hfree (by decide) (fun _ _ hj => putField_getLsbD_eq_fieldBit hj _ _) fun hp _ => ?_
    obtain ⟨hslax, -⟩ := hfit
    rw [hp] at hslax
    rw [readWord, hp, xaddrWord, putField_toNat (by decide) hslax]
    exact Nat.mul_one _
  case data =>
    refine read_returns (r := .data) hfree (by decide) (fun _ _ hj => putByte_getLsbD_eq_fieldBit hj _ _) fun hp _ => ?_
    rw [readWord, hp]
    exact putByte_zero_toNat _
  case stat =>
    refine read_returns (r := .stat) hfree (by decide) (fun _ _ hj => putByte_getLsbD_eq_fieldBit hj _ _) fun hp _ => ?_
    rw [readWord, statWord, hp]
    exact putByte_zero_toNat _
  case ccr =>
    refine read_returns (r := .ccr) hfree (by decide) (fun _ _ hj => ccrWord_getLsbD _ _ hj) fun hp _ => ?_
    rw [readWord, hp]
    exact ccrWord_toNat (hp ▸ hfit)
  case srst =>
    refine read_returns (r := .srst) hfree (by decide) (fun _ _ hj => putBit_getLsbD_eq hj _ _) fun hp _ => ?_
    rw [readWord, hp]
    exact putBit_zero_toNat _
  case efr =>
    refine read_returns (r := .efr) hfree (by decide) (fun _ _ hj => putField_getLsbD_eq_fieldBit hj _ _) fun hp _ => ?_
    obtain ⟨-, -, -, hdbn⟩ := hfit
    rw [hp] at hdbn
    rw [readWord, hp, efrWord, putField_toNat (by decide) hdbn]
    exact Nat.mul_one _

/-- Settles O16: the value read is the LCR value at the levels of the next draw. -/
theorem lcrReadDrawsTheLevels : Obligations.LcrReadDrawsTheLevels := by
  unfold Obligations.LcrReadDrawsTheLevels
  intro s b x hfree hwf l
  obtain ⟨he0, he1, he2, he3, hsda, hscl⟩ := lcrWord_fields hwf (x.nextDraw b).levels x.core
  refine ⟨x.readValue s.params b .lcr, exec_readOf_of_free .lcr hfree, he0, he1, he2, he3, hsda, hscl,
    fun j hj => lcrWord_elsewhere _ _ hj, fun hdefault => ?_, useDraw_core x, useDraw_seq x, useDraw_history x⟩
  rw [Inst.readValue, readWord, show s.params.pos = Config.positions from hdefault]
  exact lcrWord_levels _ _

/-- Settles O17: each register's own rule stores its fields, which read back at their places. -/
theorem storingWritesReadBackMasked : Obligations.StoringWritesReadBackMasked := by
  unfold Obligations.StoringWritesReadBackMasked
  intro s b x v hfree hrst _ p back
  have haddr := write_completes_and_readsBack 0xFF#32 hfree hrst (addrStore_readsBack p v x.core) rfl rfl (by decide)
  have hxaddr := write_completes_and_readsBack 0xFF#32 hfree hrst (xaddrStore_readsBack p v x.core) rfl rfl (by decide)
  have hccr := write_completes_and_readsBack 0x7F#32 hfree hrst (ccrStore_readsBack p v x.core) rfl rfl (by decide)
  have hefr := write_completes_and_readsBack 0x3#32 hfree hrst (efrStore_readsBack p v x.core) rfl rfl (by decide)
  have hlcr := write_completes_and_readsBack 0xF#32 hfree hrst (lcrStore_readsBack p v x.core) rfl rfl (by decide)
  exact ⟨⟨_, _, haddr⟩, ⟨_, hxaddr⟩, ⟨_, _, hccr⟩, ⟨_, hefr⟩, ⟨_, _, _, _, hlcr⟩⟩

/-- Settles O15: a CNTR read returns the CNTR value, which is its six fields at their bits. -/
theorem cntrReadShowsEveryBit : Obligations.CntrReadShowsEveryBit := by
  unfold Obligations.CntrReadShowsEveryBit
  intro s b x hfree hwf l
  obtain ⟨hintEn, hbusEn, hmSta, hmStp, hiflg, haAck⟩ := cntrWord_fields hwf x.core
  exact ⟨cntrWord l x.core, exec_readOf_of_free .cntr hfree, hintEn, hbusEn, hmSta, hmStp, hiflg, haAck,
    fun j hj => cntrWord_elsewhere _ hj⟩

/-- Settles O18: DATA's own rule looks at the action in flight first. -/
theorem dataWriteStoresOrFaults : Obligations.DataWriteStoresOrFaults := by
  unfold Obligations.DataWriteStoresOrFaults
  intro s b x v hfree hrst
  constructor
  · intro hact
    have hs : storeWord s.params .data v x.core = .next { x.core with data := getByte s.params.pos.data v } := by
      simp [storeWord, dataStore, hact]
    exact exec_writeOf_stores hfree hrst hs rfl
  · intro hact
    have hw : writeReg s.params .data v x.core = .fault .writeDataInFlight := by
      rw [writeReg_of_noReset _ _ hrst]
      simp [storeWord, dataStore, Option.isSome_iff_ne_none.mpr hact]
    exact exec_writeOf_fault hfree hw

/-- Settles O19: STAT's write passes the common check and stores nothing. -/
theorem statWriteIsIgnored : Obligations.StatWriteIsIgnored := by
  unfold Obligations.StatWriteIsIgnored
  intro s b x v hfree
  exact exec_writeOf_of_act_eq hfree (writeReg_stat _ _ _) rfl

/-- Settles O21: the common check of rule R110 step 4 comes before every register's own rule. -/
theorem writesDuringResetFault : Obligations.WritesDuringResetFault := by
  unfold Obligations.WritesDuringResetFault
  intro s b x r v hfree hrst hr
  exact exec_writeOf_fault hfree (writeReg_duringReset v hrst hr)

end Sys2Proof.Machine


/-! PROOFS. The statements of 41_bus_engine.md: what a CNTR write triggers and when it is refused, the write that starts a soft
reset, and the engine's completions, answer by answer. -/

namespace Sys2Proof.Machine

open Sys2Proof.Claims

/-! A direct write with no reset pending, by what the register's own rule answers -/

section Writes
variable {s : State} {b : Nat} {x : Inst} {r : Reg} {v : Word} {c : CoreState}

/-- A write that ends with no action in flight, as one that abandons it does, records itself alone. -/
theorem exec_writeOf_of_no_action (h : Free s b x) (hrst : x.core.rstPending = false)
    (hs : storeWord s.params r v x.core = .next c) (hact : c.act = none) :
    exec (writeOf r b v) s = .next (s.setInst b (wrote x r v c)) := by
  rw [exec_writeOf, directWrite_of_free r v h, write_of_no_action ((writeReg_of_noReset r v hrst).trans hs) hact, bind_next]

/-- A write that puts an action in flight where there was none records itself and the trigger. -/
theorem exec_writeOf_triggers {a : Action} (h : Free s b x) (hrst : x.core.rstPending = false)
    (hs : storeWord s.params r v x.core = .next c) (hact : x.core.act = none) (ha : c.act = some a) :
    exec (writeOf r b v) s = .next (s.setInst b (withCore x c [.write r v, .trigger a])) := by
  have hevents : triggerEvents x.core c = [.trigger a] := by
    rw [triggerEvents, hact, ha]
  rw [exec_writeOf, directWrite_of_free r v h, Inst.write, writeReg_of_noReset r v hrst, hs, bind_next, hevents]
  rfl

/-- A write whose register's own rule refuses it is refused. -/
theorem exec_writeOf_refused {e : Refusal} (h : Free s b x) (hrst : x.core.rstPending = false)
    (hs : storeWord s.params r v x.core = .refused e) : exec (writeOf r b v) s = .refused e := by
  rw [exec_writeOf, directWrite_of_free r v h, Inst.write, writeReg_of_noReset r v hrst, hs]
  rfl

end Writes

/-! The branches of CntrWrite (rule R140) and the check before a trigger (rule R152) -/

section CntrWrites
variable {p : Params} {v : Word} {c : CoreState}

theorem cntrWrite_inFlight (hact : c.act ≠ none) : cntrWrite p v c = cntrWriteInFlight p v c := by
  rw [cntrWrite, if_pos (Option.isSome_iff_ne_none.mpr hact)]

theorem cntrWrite_clear (hact : c.act = none) (hflag : c.iflg = true) (hv : v.getLsbD p.pos.iflg = p.iflgW1c) :
    cntrWrite p v c = clearWrite (cntrFields p v c) := by
  simp [cntrWrite, isClearValue, hact, hflag, hv]

theorem cntrWrite_idle (hact : c.act = none) (hflag : c.iflg = false) :
    cntrWrite p v c = idleWrite (cntrFields p v c) := by
  simp [cntrWrite, hact, hflag]

/-- After the field updates of a write the check looks at the written BUS_EN and at fields the write leaves. -/
theorem cntrFields_canTrigger (hbus : v.getLsbD p.pos.busEn = true) (hdbn : c.dbn = 0#32) (hsda : c.sdaCtlEn = false)
    (hscl : c.sclCtlEn = false) : (cntrFields p v c).canTrigger :=
  ⟨hbus, hdbn, hsda, hscl⟩

/-- A clear write and a START request in idle check the trigger's preconditions before anything else. -/
theorem cntrWrite_checks_first (hact : c.act = none)
    (hv : (c.iflg = true ∧ v.getLsbD p.pos.iflg = p.iflgW1c) ∨ (c.iflg = false ∧ v.getLsbD p.pos.mSta = true)) :
    ∃ k, cntrWrite p v c = Out.bind (checkTrigger (cntrFields p v c)) k := by
  rcases hv with ⟨hflag, hclear⟩ | ⟨hflag, hsta⟩
  · exact ⟨_, cntrWrite_clear hact hflag hclear⟩
  · have hreq : (cntrFields p v c).mSta = true := by
      simp [cntrFields, latch, hsta]
    exact ⟨_, by rw [cntrWrite_idle hact hflag, idleWrite, if_pos hreq]⟩

theorem checkTrigger_busDisabled (hbus : c.busEn = false) : checkTrigger c = .refused .busDisabled := by
  rw [checkTrigger, if_pos hbus]

theorem checkTrigger_extFeature (hbus : c.busEn = true) (hdbn : c.dbn ≠ 0#32) :
    checkTrigger c = .refused .extFeature := by
  simp [checkTrigger, hbus, hdbn]

theorem checkTrigger_lineControl (hbus : c.busEn = true) (hdbn : c.dbn = 0#32)
    (hline : c.sdaCtlEn = true ∨ c.sclCtlEn = true) : checkTrigger c = .refused .lineControl := by
  simp [checkTrigger, hbus, hdbn, hline]

/-- A clear write where a trigger is allowed does what the trigger table answers. -/
theorem cntrWrite_clear_triggers (hact : c.act = none) (hflag : c.iflg = true) (hv : v.getLsbD p.pos.iflg = p.iflgW1c)
    (hcan : (cntrFields p v c).canTrigger) : cntrWrite p v c =
      Out.bind (triggerAction c.sta (c.mSta || v.getLsbD p.pos.mSta) (c.mStp || v.getLsbD p.pos.mStp) c.data)
        fun a => .next (afterTrigger p.pos v a c) := by
  rw [cntrWrite_clear hact hflag hv, clearWrite, checkTrigger_of_canTrigger hcan]
  rfl

end CntrWrites

/-! The rows of the trigger table (rule R142) on the sets of rule R89 -/

section TriggerTable
variable {st : Status} {sta stp : Bool} {b : Byte}

/-- With a STOP request a master stops, and starts again where a START request is latched too. -/
theorem triggerAction_stop (h : st ∈ masterSet) :
    triggerAction st sta true b = .next (if sta then .stopStart else .stop) := by
  have hmaster : ∀ st ∈ masterSet, st ∈ master := by decide
  unfold triggerAction
  rw [if_pos (hmaster st h)]
  cases sta <;> rfl

theorem triggerAction_rstart (h : st ∈ byteDoneSet) : triggerAction st true false b = .next .rstart := by
  have hmaster : ∀ st ∈ byteDoneSet, st ∈ master := by decide
  rw [triggerAction, if_pos (hmaster st h)]
  exact if_pos h

/-- Before any byte a START request has no meaning; without one the address byte goes out. -/
theorem triggerAction_afterStart (h : st ∈ afterStartSet) :
    triggerAction st sta false b = if sta then .fault .startWithoutByte else .next (.txAddr b) := by
  have hsets : ∀ st ∈ afterStartSet, st ∈ master ∧ st ∉ byteDone := by decide
  obtain ⟨hmaster, hbyte⟩ := hsets st h
  unfold triggerAction
  rw [if_pos hmaster]
  cases sta
  · exact if_pos h
  · exact if_neg hbyte

theorem triggerAction_txData (h : st ∈ mtxSet) : triggerAction st false false b = .next (.txData b) := by
  have hsets : ∀ st ∈ mtxSet, st ∈ master ∧ st ∉ afterStart := by decide
  obtain ⟨hmaster, hafter⟩ := hsets st h
  rw [triggerAction, if_pos hmaster]
  exact (if_neg hafter).trans (if_pos h)

theorem triggerAction_rxData (h : st ∈ mrxGoSet) : triggerAction st false false b = .next .rxData := by
  have hsets : ∀ st ∈ mrxGoSet, st ∈ master ∧ st ∉ afterStart ∧ st ∉ masterTx := by decide
  obtain ⟨hmaster, hafter, htx⟩ := hsets st h
  rw [triggerAction, if_pos hmaster]
  exact ((if_neg hafter).trans (if_neg htx)).trans (if_pos h)

theorem triggerAction_releaseAfterNak (h : st ∈ mrxEndSet) :
    triggerAction st false false b = .fault .releaseAfterNak := by
  have hsets : ∀ st ∈ mrxEndSet, st ∈ master ∧ st ∉ afterStart ∧ st ∉ masterTx ∧ st ∉ masterRxGo := by decide
  obtain ⟨hmaster, hafter, htx, hgo⟩ := hsets st h
  rw [triggerAction, if_pos hmaster]
  exact ((if_neg hafter).trans (if_neg htx)).trans (if_neg hgo)

theorem triggerAction_arbLost : triggerAction .arbLost sta stp b = .next (if sta then .arbStart else .release) := rfl

theorem triggerAction_busError : triggerAction .busError sta stp b =
    if sta then .fault .startInBusError else if stp then .next .berrRelease else .fault .releaseInBusError := by
  cases sta <;> cases stp <;> rfl

end TriggerTable

/-! The engine's step and its completions (rules R144 to R150) -/

section Completions
variable {s : State} {b : Nat} {x : Inst} {a : Action} {c : CoreState} {d : Draw}

/-- With an action in flight the engine's step is its completion, with a draw used by those that draw an answer. -/
theorem agentStep_eng_completes (hx : s.insts[b]? = some x) (ha : x.core.act = some a)
    (hc : complete (x.nextDraw b) a x.core = .next c) :
    agentStep (.eng b) s = .next (s.setInst b (completed (if drawsAnswer a then x.useDraw else x) a c)) := by
  rw [agentStep, localStep_of_get _ hx, Inst.completeAct, ha]
  simp only [hc, bind_next]
  rfl

theorem agentStep_eng_refused {e : Refusal} (hx : s.insts[b]? = some x) (ha : x.core.act = some a)
    (hc : complete (x.nextDraw b) a x.core = .refused e) : agentStep (.eng b) s = .refused e := by
  rw [agentStep, localStep_of_get _ hx, Inst.completeAct, ha]
  simp only [hc, bind_refused]

theorem drawsAnswer_of_start (ha : a ∈ [Action.start, .rstart, .stopStart, .arbStart]) : drawsAnswer a = true := by
  revert a
  decide

theorem complete_start (ha : a ∈ [Action.start, .rstart, .stopStart, .arbStart]) :
    complete d a c = .next (paused (lineStatus d.line (if a = .rstart then .txRstart else .txStart)) c) := by
  simp only [List.mem_cons, List.not_mem_nil, or_false] at ha
  rcases ha with rfl | rfl | rfl | rfl <;> rfl

/-- The end of STOP, RELEASE and BERR_RELEASE uses no draw and leaves the flag. -/
theorem complete_stop (ha : a ∈ [Action.stop, .release, .berrRelease]) :
    drawsAnswer a = false ∧ complete d a c = .next (goIdle c) := by
  simp only [List.mem_cons, List.not_mem_nil, or_false] at ha
  rcases ha with rfl | rfl | rfl <;> exact ⟨rfl, rfl⟩

/-- A receive the bus lets end stores the byte; its acknowledge is the copy of A_ACK the answer says was used. -/
theorem completeRx_ok (h : d.line = .ok) : completeRx d c =
    paused (if ackUsed d.ackNow c then .mRxdAck else .mRxdNak) { c with data := d.byte } := by
  simp [completeRx, h, lineStatus, pauseIn, paused]

theorem completeRx_arb (h : d.line = .arb) : completeRx d c = paused .arbLost { c with data := d.byte } := by
  simp [completeRx, h, lineStatus, pauseIn, paused]

theorem completeRx_berr (h : d.line = .berr) : completeRx d c = paused .busError c := by
  simp [completeRx, h, lineStatus, pauseIn, paused]

theorem ackUsed_of_eq (now : Bool) (h : c.ackTrig = c.aAck) : ackUsed now c = c.aAck := by
  simp [ackUsed, h]

/-- The step "addressed as slave" is enabled in an idle core that would answer its own address (rule R151 item 2). -/
theorem slaveEnabled_iff : slaveEnabled c = true ↔
    c.act = none ∧ c.iflg = false ∧ c.rstPending = false ∧ c.busEn = true ∧ c.aAck = true := by
  simp [slaveEnabled, and_assoc]

end Completions

/-! The obligations -/

/-- Settles O22: with the flag clear CntrWrite is IdleWrite, which looks at the START request alone. -/
theorem idleWriteTriggersStartOnly : Obligations.IdleWriteTriggersStartOnly := by
  unfold Obligations.IdleWriteTriggersStartOnly
  intro s b x v hfree hidle
  obtain ⟨hact, hflag, hrst, hsta, hstp, -⟩ := hidle
  have hwrite : storeWord s.params .cntr v x.core = idleWrite (cntrFields s.params v x.core) := cntrWrite_idle hact hflag
  constructor
  · intro hreq hbus hdbn hsda hscl
    have hs : storeWord s.params .cntr v x.core = .next
        { x.core with intEn := v.getLsbD s.params.pos.intEn, busEn := true, aAck := v.getLsbD s.params.pos.aAck,
                      mSta := true, mStp := false, act := some .start } := by
      rw [hwrite, idleWrite, checkTrigger_of_canTrigger (cntrFields_canTrigger hbus hdbn hsda hscl)]
      simp [cntrFields, latch, hreq, hbus]
    exact exec_writeOf_triggers hfree hrst hs hact rfl
  · intro hreq
    have hs : storeWord s.params .cntr v x.core = .next
        { x.core with intEn := v.getLsbD s.params.pos.intEn, busEn := v.getLsbD s.params.pos.busEn,
                      aAck := v.getLsbD s.params.pos.aAck } := by
      rw [hwrite, idleWrite]
      simp [cntrFields, latch, hreq, hsta, hstp]
    exact exec_writeOf_stores hfree hrst hs rfl

/-- Settles O24: a clear write that may trigger answers what the trigger table does, row by row. -/
theorem clearWriteFollowsTheTriggerTable : Obligations.ClearWriteFollowsTheTriggerTable := by
  unfold Obligations.ClearWriteFollowsTheTriggerTable
  intro s b x v hfree hrst hact hflag hv hbus hdbn hsda hscl sta stp st gives faults
  have hwrite := cntrWrite_clear_triggers hact hflag hv (cntrFields_canTrigger hbus hdbn hsda hscl)
  have hgives : ∀ {sta' stp' a}, sta = sta' → stp = stp' → triggerAction st sta' stp' x.core.data = .next a → gives a := by
    rintro _ _ a rfl rfl h
    have hs : storeWord s.params .cntr v x.core = .next (afterTrigger s.params.pos v a x.core) :=
      hwrite.trans (congrArg (Out.bind · _) h)
    exact exec_writeOf_triggers hfree hrst hs hact rfl
  have hfaults : ∀ {sta' stp' f}, sta = sta' → stp = stp' → triggerAction st sta' stp' x.core.data = .fault f → faults f := by
    rintro _ _ f rfl rfl h
    have hs : storeWord s.params .cntr v x.core = .fault f := hwrite.trans (congrArg (Out.bind · _) h)
    exact exec_writeOf_fault hfree ((writeReg_of_noReset _ _ hrst).trans hs)
  refine ⟨?stopStart, ?stop, ?rstart, ?startWithoutByte, ?txAddr, ?txData, ?rxData, ?releaseAfterNak, ?release, ?arbStart,
    ?berrRelease, ?startInBusError, ?releaseInBusError⟩
  case stopStart => exact fun hst h1 h2 => hgives h1 h2 (triggerAction_stop hst)
  case stop => exact fun hst h1 h2 => hgives h1 h2 (triggerAction_stop hst)
  case rstart => exact fun hst h1 h2 => hgives h1 h2 (triggerAction_rstart hst)
  case startWithoutByte => exact fun hst h1 h2 => hfaults h1 h2 (triggerAction_afterStart hst)
  case txAddr => exact fun hst h1 h2 => hgives h1 h2 (triggerAction_afterStart hst)
  case txData => exact fun hst h1 h2 => hgives h1 h2 (triggerAction_txData hst)
  case rxData => exact fun hst h1 h2 => hgives h1 h2 (triggerAction_rxData hst)
  case releaseAfterNak => exact fun hst h1 h2 => hfaults h1 h2 (triggerAction_releaseAfterNak hst)
  case release => exact fun hst h1 => hgives h1 rfl (hst ▸ triggerAction_arbLost)
  case arbStart => exact fun hst h1 => hgives h1 rfl (hst ▸ triggerAction_arbLost)
  case berrRelease => exact fun hst h1 h2 => hgives h1 h2 (hst ▸ triggerAction_busError)
  case startInBusError => exact fun hst h1 => hfaults h1 rfl (hst ▸ triggerAction_busError)
  case releaseInBusError => exact fun hst h1 h2 => hfaults h1 h2 (hst ▸ triggerAction_busError)

/-- Settles O25: both kinds of trigger begin with CheckTrigger on the fields after the write. -/
theorem triggerPreconditionsInOrder : Obligations.TriggerPreconditionsInOrder := by
  unfold Obligations.TriggerPreconditionsInOrder
  intro s b x v hfree hrst hact hv
  obtain ⟨k, hk⟩ := cntrWrite_checks_first hact hv
  have hrefused : ∀ {e}, checkTrigger (cntrFields s.params v x.core) = .refused e → exec (.wrCntr b v) s = .refused e := by
    intro e he
    have hs : storeWord s.params .cntr v x.core = .refused e := hk.trans (congrArg (Out.bind · k) he)
    exact exec_writeOf_refused hfree hrst hs
  exact ⟨fun hbus => hrefused (checkTrigger_busDisabled hbus),
    fun hbus hdbn => hrefused (checkTrigger_extFeature hbus hdbn),
    fun hbus hdbn hline => hrefused (checkTrigger_lineControl hbus hdbn hline)⟩

/-- Settles O26: with an action in flight CntrWrite is CntrWriteInFlight, which leaves the action. -/
theorem cntrWriteInFlightKeepsTheAction : Obligations.CntrWriteInFlightKeepsTheAction := by
  unfold Obligations.CntrWriteInFlightKeepsTheAction
  intro s b x v hfree hrst hact
  have hwrite : storeWord s.params .cntr v x.core = cntrWriteInFlight s.params v x.core := cntrWrite_inFlight hact
  refine ⟨fun hbus => ?disable, fun hbus hreq => ?request, fun hbus hsta hstp => ?stores⟩
  case disable =>
    have hs : cntrWriteInFlight s.params v x.core = .refused .busDisableInFlight := if_pos hbus
    exact exec_writeOf_refused hfree hrst (hwrite.trans hs)
  case request =>
    have hs : cntrWriteInFlight s.params v x.core = .fault .requestInFlight := by
      simp [cntrWriteInFlight, hbus, hreq]
    exact exec_writeOf_fault hfree ((writeReg_of_noReset _ _ hrst).trans (hwrite.trans hs))
  case stores =>
    have hnew : ¬ ((v.getLsbD s.params.pos.mSta && !x.core.mSta) || (v.getLsbD s.params.pos.mStp && !x.core.mStp)) = true := by
      simpa using ⟨hsta, hstp⟩
    have hs : cntrWriteInFlight s.params v x.core =
        .next { x.core with intEn := v.getLsbD s.params.pos.intEn, aAck := v.getLsbD s.params.pos.aAck } := by
      rw [cntrWriteInFlight, if_neg (by simp [hbus]), if_neg hnew]
    exact exec_writeOf_stores hfree hrst (hwrite.trans hs) rfl

/-- Settles O20: SRST's own rule starts a soft reset or stores nothing; either way nothing is triggered. -/
theorem srstWriteStartsSoftReset : Obligations.SrstWriteStartsSoftReset := by
  unfold Obligations.SrstWriteStartsSoftReset
  intro s b x v hfree hrst
  constructor
  · intro hv
    have hs : storeWord s.params .srst v x.core = .next (softResetStart x.core) := by
      simp [storeWord, srstStore, hv]
    exact exec_writeOf_of_no_action hfree hrst hs rfl
  · intro hv
    have hs : storeWord s.params .srst v x.core = .next x.core := by
      simp [storeWord, srstStore, hv]
    exact exec_writeOf_stores hfree hrst hs rfl

/-- Settles O29: the four actions end alike but for the status of success. -/
theorem startCompletionsReportTheirStatus : Obligations.StartCompletionsReportTheirStatus := by
  unfold Obligations.StartCompletionsReportTheirStatus
  intro s b x a hx hact ha
  have hstep := agentStep_eng_completes hx hact (complete_start ha)
  rwa [if_pos (drawsAnswer_of_start ha)] at hstep

/-- Settles O30: the completion of an address byte, by the drawn answer. -/
theorem addressCompletionReportsTheAcknowledge : Obligations.AddressCompletionReportsTheAcknowledge := by
  unfold Obligations.AddressCompletionReportsTheAcknowledge
  intro s b x a hx hact o ends
  have hends : ∀ {st}, completeAddr o a x.core = .next (pauseIn st x.core) → ends st := agentStep_eng_completes hx hact
  have hrefused : ∀ {e}, completeAddr o a x.core = .refused e → agentStep (.eng b) s = .refused e :=
    agentStep_eng_refused hx hact
  refine ⟨?awAck, ?arAck, ?awNak, ?arNak, ?arb, ?berr, ?addressed, ?notAdmissible⟩
  case awAck => exact fun ho ha => hends (by rw [ho, completeAddr, ha]; rfl)
  case arAck => exact fun ho ha => hends (by rw [ho, completeAddr, ha]; rfl)
  case awNak => exact fun ho ha => hends (by rw [ho, completeAddr, ha]; rfl)
  case arNak => exact fun ho ha => hends (by rw [ho, completeAddr, ha]; rfl)
  case arb => exact fun ho => hends (by rw [ho, completeAddr])
  case berr => exact fun ho => hends (by rw [ho, completeAddr])
  case addressed => exact fun ho hack => hrefused (by rw [ho, completeAddr, hack]; rfl)
  case notAdmissible => exact fun ho hack => hends (by rw [ho, completeAddr, hack]; rfl)

/-- Settles O31: the completion of a receive, by the drawn answer; equal copies of A_ACK give the same acknowledge. -/
theorem receiveCompletionStoresAndAcknowledges : Obligations.ReceiveCompletionStoresAndAcknowledges := by
  unfold Obligations.ReceiveCompletionStoresAndAcknowledges
  intro s b x hx hact d ends
  have hends : ∀ {st c}, completeRx d x.core = paused st c → ends st c := fun h =>
    agentStep_eng_completes hx hact (congrArg Host.Outcome.next h)
  refine ⟨fun hline hnow => hends ?trig, fun hline hnow => hends ?now, fun hline hack => hends ?same,
    fun hline => hends (completeRx_arb hline), fun hline => hends (completeRx_berr hline)⟩
  case trig => rw [completeRx_ok hline, hnow]; rfl
  case now => rw [completeRx_ok hline, hnow]; rfl
  case same => rw [completeRx_ok hline, ackUsed_of_eq _ hack]

/-- Settles O32: the completion of a data byte pauses in the status of the drawn answer. -/
theorem dataCompletionReportsTheAcknowledge : Obligations.DataCompletionReportsTheAcknowledge := by
  unfold Obligations.DataCompletionReportsTheAcknowledge
  intro s b x a hx hact
  have hc : complete (x.nextDraw b) (.txData a) x.core = .next (paused (dataStatus (x.nextDraw b).data) x.core) := rfl
  exact agentStep_eng_completes hx hact hc

/-- Settles O33: the three actions end in idle and draw no answer. -/
theorem stopAndReleasesEndInIdle : Obligations.StopAndReleasesEndInIdle := by
  unfold Obligations.StopAndReleasesEndInIdle
  intro s b x a hx hact ha
  obtain ⟨hdraw, hc⟩ := complete_stop (d := x.nextDraw b) (c := x.core) ha
  have hstep := agentStep_eng_completes hx hact hc
  rwa [if_neg (by simp [hdraw])] at hstep

/-- Settles O34: the reset step clears the pending flag, which is all that SRST shows. -/
theorem resetCompletionEndsTheReset : Obligations.ResetCompletionEndsTheReset := by
  unfold Obligations.ResetCompletionEndsTheReset
  intro s b x hx hwf hpending
  refine ⟨?step, fun lv => ⟨(srstWord_softRst hwf x.core).trans hpending, rfl⟩⟩
  case step =>
    rw [agentStep, localStep_of_get _ hx, Inst.completeReset, if_pos hpending]
    rfl

/-- Settles O35: the step is refused where it is enabled, and changes nothing elsewhere. -/
theorem slaveAddressedStepIsRefused : Obligations.SlaveAddressedStepIsRefused := by
  unfold Obligations.SlaveAddressedStepIsRefused
  intro s b x hx
  rw [← slaveEnabled_iff, agentStep, localStep_of_get _ hx, slaveStep]
  cases slaveEnabled x.core <;> simp

end Sys2Proof.Machine


/-! PROOFS. The statements of 42_clock.md: the CCR value the clock configurator writes, its program run as a request, and the
rounding of the divider. -/

namespace Sys2Proof.Machine

open Sys2Proof.Claims

/-! Issuing a request to a Ready instance, and the sequencer's steps after it -/

section Requests
variable {s : State} {b : Nat} {x : Inst} {i : Instr} {o : SeqOp} {n k : Nat}

/-- With operands in range the request begins its program, its operands loaded (rule R230). -/
theorem exec_request_begins (h : Ready s i.bus x) (hreq : requestOf i = some (o, n, k))
    (hv : i.operandsInRange s.params.nMax = true) :
    exec i s = .next (s.setInst i.bus
      (x.setSeq ((loadOperands i { Seq.unwritten with op := some o }).begin s.params (firstLabel o)))) := by
  obtain ⟨hx, hphase⟩ := h
  rw [exec_request_eq_accept hreq, accept, onInst_of_get _ hx, if_pos hphase, if_pos hv, bind_next]

/-- With an operand out of range the request ends as invalid (rule R230). -/
theorem exec_request_invalid (h : Ready s i.bus x) (hreq : requestOf i = some (o, n, k))
    (hv : i.operandsInRange s.params.nMax = false) :
    exec i s = .next (s.setInst i.bus
      (x.setSeq ((loadOperands i { Seq.unwritten with op := some o }).finish (.fail .invalid 0#8)))) := by
  obtain ⟨hx, hphase⟩ := h
  rw [exec_request_eq_accept hreq, accept, onInst_of_get _ hx, if_pos hphase, if_neg (by simp [hv]), bind_next]

/-- A schedule that begins with a sequencer step makes that step on the instance as it is, then the rest of the schedule. -/
theorem runSchedule_seq_cons (hx : s.insts[b]? = some x) (y : Inst) (as : List Agent) :
    runSchedule (.seq b :: as) (s.setInst b y) =
      Out.bind (y.seqStep s.params b) fun z => runSchedule as (s.setInst b z) := by
  rw [runSchedule, agentStep, localStep_of_get _ (setInst_get _ _ _ hx), setInst_params]
  cases y.seqStep s.params b <;> simp

end Requests

/-- A write access that leaves the action in flight records itself alone. -/
theorem write_of_act_eq {p : Params} {r : Reg} {v : Word} {x : Inst} {c : CoreState} (hw : writeReg p r v x.core = .next c)
    (hact : c.act = x.core.act) : x.write p r v = .next (wrote x r v c) := by
  rw [Inst.write, hw, bind_next, triggerEvents_of_act_eq hact]
  rfl

/-- While a soft reset is pending a write access faults, but for STAT's (rule R110 step 4). -/
theorem write_duringReset {p : Params} {r : Reg} (v : Word) {x : Inst} (hrst : x.core.rstPending = true) (hr : r ≠ .stat) :
    x.write p r v = .fault .writeDuringReset := by
  rw [Inst.write, writeReg_duringReset v hrst hr, bind_fault]

/-! Numbers cut to a field's width (rules R83, R87) -/

theorem ofNat_and_onesMask (w m : Nat) : BitVec.ofNat 32 m &&& onesMask w = BitVec.ofNat 32 (m % 2 ^ w) := by
  apply BitVec.eq_of_getLsbD_eq
  intro i hi
  rw [BitVec.getLsbD_and, onesMask_getLsbD, BitVec.getLsbD_ofNat, BitVec.getLsbD_ofNat, Nat.testBit_mod_two_pow]
  simp [hi, Bool.and_comm]

/-- A field shows the bits of the number put in it, whether the number fits the register or not. -/
theorem putField_ofNat_getLsbD {j : Nat} (hj : j < 32) (f : Field) (m : Nat) :
    (putField f (BitVec.ofNat 32 m)).getLsbD j = fieldBit f.lo f.width m j := by
  rw [putField_getLsbD_eq_fieldBit hj, fieldBit, fieldBit, BitVec.toNat_ofNat, Nat.testBit_mod_two_pow,
    decide_eq_true (show j - f.lo < 32 by omega), Bool.true_and]

/-- A field inside the register that holds a number is the number cut to the field's width, shifted. -/
theorem putField_ofNat_toNat {f : Field} (hf : f.fits) (m : Nat) :
    (putField f (BitVec.ofNat 32 m)).toNat = m % 2 ^ f.width * 2 ^ f.lo := by
  have hcut : putField f (BitVec.ofNat 32 m) = putField f (BitVec.ofNat 32 (m % 2 ^ f.width)) := by
    simp only [putField, ofNat_and_onesMask, Nat.mod_mod]
  have hlt : m % 2 ^ f.width < 2 ^ 32 :=
    (Nat.mod_lt _ (Nat.two_pow_pos _)).trans_le (Nat.pow_le_pow_right (by decide) (by unfold Field.fits at hf; omega))
  rw [hcut, putField_toNat hf (by rw [ofNat_and_onesMask, Nat.mod_mod]), BitVec.toNat_ofNat, Nat.mod_eq_of_lt hlt]

/-- Beside a field apart from it a field is read back. -/
theorem getField_putField_or {f g : Field} (x y : Word) (hf : f.fits)
    (h : f.lo + f.width ≤ g.lo ∨ g.lo + g.width ≤ f.lo) :
    getField f (putField f x ||| putField g y) = x &&& onesMask f.width := by
  have hother : getField f (putField g y) = 0#32 := by
    apply BitVec.eq_of_getLsbD_eq
    intro i hi
    rw [getField_getLsbD, putField_getLsbD, BitVec.getLsbD_zero]
    by_cases hw : i < f.width
    · have hout : g.lo ≤ f.lo + i → ¬ f.lo + i - g.lo < g.width := by omega
      by_cases hl : g.lo ≤ f.lo + i
      · simp [hout hl]
      · simp [hl]
    · simp [hw]
  calc getField f (putField f x ||| putField g y)
      = getField f (putField f x) ||| getField f (putField g y) := by
        simp only [getField, BitVec.ushiftRight_or_distrib, BitVec.and_or_distrib_right]
    _ = x &&& onesMask f.width := by rw [hother, getField_putField x f hf, BitVec.or_zero]

/-! The CCR value (rule R87) -/

section CcrValues
variable {l : Positions} (m nv : Nat)

theorem ccrVal_getLsbD {j : Nat} (hj : j < 32) : (ccrVal l m nv).getLsbD j =
    (fieldBit l.clkM.lo l.clkM.width m j || fieldBit l.clkN.lo l.clkN.width nv j) := by
  rw [ccrVal, BitVec.getLsbD_or, putField_ofNat_getLsbD hj, putField_ofNat_getLsbD hj]

/-- At the default positions CLK_N lies below CLK_M. -/
theorem ccrVal_toNat (h : l = Config.positions) : (ccrVal l m nv).toNat = 8 * (m % 16) + nv % 8 := by
  subst h
  rw [ccrVal, toNat_or_of_and_eq_zero (putField_and_putField _ _ (by decide)), putField_ofNat_toNat (by decide),
    putField_ofNat_toNat (by decide), Nat.mul_comm 8]
  exact congrArg _ (Nat.mul_one _)

/-- CCR stores the two numbers of a CCR value, each cut to its field (rule R122). -/
theorem ccrStore_ccrVal (h : l.wf) (c : CoreState) : ccrStore l (ccrVal l m nv) c =
    { c with clkM := BitVec.ofNat 32 (m % 2 ^ l.clkM.width), clkN := BitVec.ofNat 32 (nv % 2 ^ l.clkN.width) } := by
  obtain ⟨-, -, -, -, -, ⟨hm, hn, hapart⟩, -⟩ := h
  have hclkM : getField l.clkM (ccrVal l m nv) = BitVec.ofNat 32 (m % 2 ^ l.clkM.width) := by
    rw [ccrVal, getField_putField_or _ _ hm hapart, ofNat_and_onesMask]
  have hclkN : getField l.clkN (ccrVal l m nv) = BitVec.ofNat 32 (nv % 2 ^ l.clkN.width) := by
    rw [ccrVal, BitVec.or_comm, getField_putField_or _ _ hn hapart.symm, ofNat_and_onesMask]
  rw [ccrStore, hclkM, hclkN]

end CcrValues

/-! The clock configurator's line (rule R180) -/

section ClockLine
variable {p : Params} {x : Inst} (place : Place)

theorem divider_eq (p : Params) (hz : Nat) : divider p hz = p.fIn / 2 ^ p.predivShift / hz := by
  rw [divider, Nat.shiftRight_eq_div_pow]

/-- The sequencer's registers where an accepted CONFIGURE_CLOCK begins. -/
def clockBegun (hz : Nat) : Seq :=
  { Seq.unwritten with op := some .configureClock, hz := hz, phase := .running ⟨.alone, .clock1⟩ }

theorem exec_configureClock_begins {s : State} {b hz : Nat} (h : Ready s b x) (hhz : hz ≠ 0) :
    exec (.configureClock b hz) s = .next (s.setInst b (x.setSeq (clockBegun hz))) :=
  exec_request_begins (i := .configureClock b hz) h rfl (decide_eq_true (Nat.pos_of_ne_zero hhz))

/-- With no reset pending the line writes CCR, which leaves any action in flight, and ends. -/
theorem clockLine_writes (hhz : x.seq.hz ≠ 0) (hrst : x.core.rstPending = false) :
    clockLine p place x =
      let v := ccrVal p.pos (divider p x.seq.hz) p.clkNVal
      Out.bind (afterLine p place (.ok 0 []) { x.seq with m := divider p x.seq.hz, nv := p.clkNVal }) fun q =>
        .next ((wrote x .ccr v (ccrStore p.pos v x.core)).setSeq q) := by
  have hwrite := write_of_act_eq (p := p) (x := x) (v := ccrVal p.pos (divider p x.seq.hz) p.clkNVal)
    (writeReg_of_noReset .ccr _ hrst) rfl
  rw [clockLine, if_neg hhz]
  exact congrArg (Out.bind · _) hwrite

theorem clockLine_duringReset (hhz : x.seq.hz ≠ 0) (hrst : x.core.rstPending = true) :
    clockLine p place x = .fault .writeDuringReset := by
  rw [clockLine, if_neg hhz]
  exact congrArg (Out.bind · _) (write_duringReset _ hrst (by decide))

end ClockLine

/-! The rounding of integer division (rule R182) -/

/-- The rate re-derived from the divider exceeds the requested one by less than `k / m - k / (m + 1)`, multiplied out. -/
theorem rederivedRate_excess_lt {k hz m : Nat} (hm : 1 ≤ m) (hhigh : k < hz * (m + 1)) (hle : hz ≤ k / m) :
    (k / m - hz) * (m * (m + 1)) < k := by
  obtain ⟨d, hd⟩ := Nat.exists_eq_add_of_le hle
  have hrate : (hz + d) * m * (m + 1) ≤ k * (m + 1) := Nat.mul_le_mul_right _ (hd ▸ Nat.div_mul_le_self k m)
  have hupper : k * m < hz * (m + 1) * m := Nat.mul_lt_mul_of_pos_right hhigh hm
  rw [hd, Nat.add_sub_cancel_left]
  linarith

/-! The obligations -/

/-- Settles O47: the accepted request makes one step, whose CCR write stores the fields of the CCR value. -/
theorem configureClockWritesTheDivider : Obligations.ConfigureClockWritesTheDivider := by
  unfold Obligations.ConfigureClockWritesTheDivider
  intro s b hz x hready hpos l m
  have hm : divider s.params hz = m := divider_eq _ _
  have hrun : runSchedule (seqOnly b 1) (s.setInst b (x.setSeq (clockBegun hz))) =
      Out.bind (clockLine s.params .alone (x.setSeq (clockBegun hz))) fun y => .next (s.setInst b y) :=
    runSchedule_seq_cons hready.1 _ _
  refine ⟨fun hhz hrst => ?writes, fun hhz hrst => ?faults, ?invalid⟩
  case writes =>
    rw [clockLine_writes (x := x.setSeq (clockBegun hz)) _ hhz hrst] at hrun
    refine ⟨_, _, _, ⟨_, exec_configureClock_begins hready hhz, hrun, rfl, rfl, rfl⟩, rfl, ?bits, ?number, hm, rfl, ?core⟩
    case bits => exact fun j hj => hm ▸ ccrVal_getLsbD _ _ hj
    case number => exact fun hl => hm ▸ ccrVal_toNat _ _ hl
    case core => exact hm ▸ ccrStore_ccrVal _ _ hpos x.core
  case faults =>
    rw [clockLine_duringReset (x := x.setSeq (clockBegun hz)) _ hhz hrst] at hrun
    exact ⟨_, exec_configureClock_begins hready hhz, hrun⟩
  case invalid =>
    have hinvalid := exec_request_invalid (i := .configureClock b 0) hready rfl rfl
    exact ⟨_, ⟨_, hinvalid, rfl, rfl, rfl, (List.append_nil _).symm⟩, rfl⟩

/-- Settles O48: the bounds of floor division, and the excess they leave. -/
theorem dividerIsWithinRounding : Obligations.DividerIsWithinRounding := by
  unfold Obligations.DividerIsWithinRounding
  intro p hz hpos hm k m
  have hhigh : k < hz * (m + 1) := Nat.lt_mul_div_succ k hpos
  have hlow : hz * m ≤ k := Nat.mul_div_le k hz
  have hle : hz ≤ k / m := (Nat.le_div_iff_mul_le hm).mpr hlow
  exact ⟨hhigh, hlow, hle, rederivedRate_excess_lt hm hhigh hle⟩

end Sys2Proof.Machine


/-! PROOFS. The statements of 43_primitives.md: the CNTR values the primitives write, what such a write does to the core in
each situation, the steps of a program run alone, and each primitive as a request of its own. -/

namespace Sys2Proof.Machine

open Sys2Proof.Claims

/-! The six fields of a CNTR value, and of the values the primitives make of one (30_encoding.md rules R83, R85) -/

/-- The six fields of the CNTR value `v` are those of the core `c`. -/
def ShowsFields (l : Positions) (v : Word) (c : CoreState) : Prop :=
  v.getLsbD l.intEn = c.intEn ∧ v.getLsbD l.busEn = c.busEn ∧ v.getLsbD l.mSta = c.mSta ∧ v.getLsbD l.mStp = c.mStp ∧
  v.getLsbD l.iflg = c.iflg ∧ v.getLsbD l.aAck = c.aAck

/-- The core with the CNTR field that lies at place `q` replaced by `a`. -/
def replaceField (l : Positions) (q : Nat) (a : Bool) (c : CoreState) : CoreState :=
  { c with
    intEn := if l.intEn = q then a else c.intEn
    busEn := if l.busEn = q then a else c.busEn
    mSta  := if l.mSta = q then a else c.mSta
    mStp  := if l.mStp = q then a else c.mStp
    iflg  := if l.iflg = q then a else c.iflg
    aAck  := if l.aAck = q then a else c.aAck }

/-- The value `v'` is `v` with bit `q` replaced by `a`. -/
def ReplacesBit (q : Nat) (a : Bool) (v v' : Word) : Prop := ∀ j < 32, v'.getLsbD j = if j = q then a else v.getLsbD j

theorem or_bitMask_replacesBit (v : Word) (q : Nat) : ReplacesBit q true v (v ||| bitMask q) := by
  intro j hj
  rw [BitVec.getLsbD_or, bitMask_getLsbD]
  by_cases h : j = q
  · subst h
    simp [hj]
  · simp [h, Ne.symm h]

theorem and_not_bitMask_replacesBit (v : Word) (q : Nat) : ReplacesBit q false v (v &&& ~~~bitMask q) := by
  intro j hj
  rw [BitVec.getLsbD_and, BitVec.getLsbD_not, bitMask_getLsbD]
  by_cases h : j = q
  · subst h
    simp [hj]
  · simp [hj, h, Ne.symm h]

theorem clrForm_replacesBit (p : Params) (v : Word) : ReplacesBit p.pos.iflg p.iflgW1c v (clrForm p v) :=
  clrForm_getLsbD p v

theorem keepForm_replacesBit (p : Params) (v : Word) :
    ReplacesBit p.pos.iflg (!p.iflgW1c && v.getLsbD p.pos.iflg) v (keepForm p v) := by
  intro j hj
  rw [keepForm_getLsbD p v j hj]
  by_cases h : j = p.pos.iflg
  · rw [if_pos h, if_pos h, h]
  · rw [if_neg h, if_neg h]

section Forms
variable {l : Positions} {v v' : Word} {c : CoreState} (hl : l.wf)
include hl

/-- No two fields of CNTR have one place (rule R83). -/
theorem cntr_places_ne :
    (l.intEn ≠ l.busEn ∧ l.intEn ≠ l.mSta ∧ l.intEn ≠ l.mStp ∧ l.intEn ≠ l.iflg ∧ l.intEn ≠ l.aAck) ∧
    (l.busEn ≠ l.mSta ∧ l.busEn ≠ l.mStp ∧ l.busEn ≠ l.iflg ∧ l.busEn ≠ l.aAck) ∧
    (l.mSta ≠ l.mStp ∧ l.mSta ≠ l.iflg ∧ l.mSta ≠ l.aAck) ∧ (l.mStp ≠ l.iflg ∧ l.mStp ≠ l.aAck) ∧ l.iflg ≠ l.aAck := by
  obtain ⟨-, -, -, ⟨hdistinct, -⟩, -⟩ := hl
  simpa [Positions.cntr] using hdistinct

/-- Replacing the field at a place is replacing the field that lies there. -/
theorem replaceField_eq (a : Bool) :
    replaceField l l.mSta a c = { c with mSta := a } ∧ replaceField l l.mStp a c = { c with mStp := a } ∧
    replaceField l l.iflg a c = { c with iflg := a } ∧ replaceField l l.aAck a c = { c with aAck := a } := by
  obtain ⟨⟨i1, i2, i3, i4, i5⟩, ⟨b1, b2, b3, b4⟩, ⟨s1, s2, s3⟩, ⟨p1, p2⟩, f1⟩ := cntr_places_ne hl
  simp [replaceField, i2, i3, i4, i5, b1, b2, b3, b4, s1, s2, s3, p1, p2, f1, s1.symm, s2.symm, s3.symm, p1.symm, p2.symm,
    f1.symm]

/-- A value with one bit replaced shows the core with the field there replaced. -/
theorem ShowsFields.replace {q : Nat} {a : Bool} (h : ShowsFields l v c) (hbit : ReplacesBit q a v v') :
    ShowsFields l v' (replaceField l q a c) := by
  obtain ⟨-, -, -, ⟨-, hbound⟩, -⟩ := hl
  simp only [Positions.cntr, List.mem_cons, List.not_mem_nil, or_false, forall_eq_or_imp, forall_eq] at hbound
  obtain ⟨lint, lbus, lsta, lstp, lflag, lack⟩ := hbound
  obtain ⟨hint, hbus, hsta, hstp, hflag, hack⟩ := h
  have hfield : ∀ {j b}, j < 32 → v.getLsbD j = b → v'.getLsbD j = if j = q then a else b :=
    fun hj hb => hb ▸ hbit _ hj
  exact ⟨hfield lint hint, hfield lbus hbus, hfield lsta hsta, hfield lstp hstp, hfield lflag hflag, hfield lack hack⟩

end Forms

section PrimitiveValues
variable {p : Params} (hl : p.pos.wf) (c : CoreState)
include hl

theorem clrForm_shows : ShowsFields p.pos (clrForm p (cntrWord p.pos c)) { c with iflg := p.iflgW1c } := by
  have hread : ShowsFields p.pos (cntrWord p.pos c) c := cntrWord_fields hl c
  obtain ⟨-, -, hiflg, -⟩ := replaceField_eq hl (c := c) p.iflgW1c
  exact hiflg ▸ hread.replace hl (clrForm_replacesBit p _)

/-- The clear form with a START request. -/
theorem clrForm_or_mSta_shows : ShowsFields p.pos (clrForm p (cntrWord p.pos c) ||| bitMask p.pos.mSta)
    { c with iflg := p.iflgW1c, mSta := true } := by
  obtain ⟨hmSta, -⟩ := replaceField_eq hl (c := { c with iflg := p.iflgW1c }) true
  exact hmSta ▸ (clrForm_shows hl c).replace hl (or_bitMask_replacesBit _ _)

/-- The clear form with a STOP request. -/
theorem clrForm_or_mStp_shows : ShowsFields p.pos (clrForm p (cntrWord p.pos c) ||| bitMask p.pos.mStp)
    { c with iflg := p.iflgW1c, mStp := true } := by
  obtain ⟨-, hmStp, -⟩ := replaceField_eq hl (c := { c with iflg := p.iflgW1c }) true
  exact hmStp ▸ (clrForm_shows hl c).replace hl (or_bitMask_replacesBit _ _)

theorem keepForm_shows : ShowsFields p.pos (keepForm p (cntrWord p.pos c)) { c with iflg := !p.iflgW1c && c.iflg } := by
  have hread : ShowsFields p.pos (cntrWord p.pos c) c := cntrWord_fields hl c
  obtain ⟨-, -, -, -, hflag, -⟩ := cntrWord_fields hl c
  obtain ⟨-, -, hiflg, -⟩ := replaceField_eq hl (c := c) (!p.iflgW1c && c.iflg)
  exact hiflg ▸ ShowsFields.replace hl hread (hflag ▸ keepForm_replacesBit p _)

/-- The keep form with A_ACK set. -/
theorem keepForm_or_aAck_shows : ShowsFields p.pos (keepForm p (cntrWord p.pos c) ||| bitMask p.pos.aAck)
    { c with iflg := !p.iflgW1c && c.iflg, aAck := true } := by
  obtain ⟨-, -, -, haAck⟩ := replaceField_eq hl (c := { c with iflg := !p.iflgW1c && c.iflg }) true
  exact haAck ▸ (keepForm_shows hl c).replace hl (or_bitMask_replacesBit _ _)

/-- The keep form with A_ACK cleared. -/
theorem keepForm_and_not_aAck_shows : ShowsFields p.pos (keepForm p (cntrWord p.pos c) &&& ~~~bitMask p.pos.aAck)
    { c with iflg := !p.iflgW1c && c.iflg, aAck := false } := by
  obtain ⟨-, -, -, haAck⟩ := replaceField_eq hl (c := { c with iflg := !p.iflgW1c && c.iflg }) false
  exact haAck ▸ (keepForm_shows hl c).replace hl (and_not_bitMask_replacesBit _ _)

end PrimitiveValues

/-! What a write of such a value does to the core (41_bus_engine.md rules R140, R143, R153) -/

section CntrEffects
variable {p : Params} {v : Word} {c : CoreState} {st : Status} {sta stp flag ack : Bool}

/-- With the flag's clearing value the write lets a paused core do what the trigger table answers. -/
theorem writeCntr_paused_clear (hp : c.isPausedIn st) (hcan : c.canTrigger)
    (hv : ShowsFields p.pos v { c with iflg := p.iflgW1c, mSta := sta, mStp := stp }) :
    writeReg p .cntr v c = Out.bind (triggerAction st sta stp c.data) fun a =>
      .next { c with mSta := sta, mStp := stp, iflg := false, act := some a,
                     ackTrig := if a = .rxData then c.aAck else c.ackTrig } := by
  obtain ⟨hact, hflag, hrst, hsta, hstp, rfl⟩ := hp
  obtain ⟨hbus, hdbn, hsda, hscl⟩ := hcan
  obtain ⟨hvint, hvbus, hvsta, hvstp, hvflag, hvack⟩ := hv
  rw [writeReg_of_noReset _ _ hrst]
  have hcan : (cntrFields p v c).canTrigger := cntrFields_canTrigger (hvbus.trans hbus) hdbn hsda hscl
  refine (cntrWrite_clear_triggers hact hflag hvflag hcan).trans ?_
  simp only [afterTrigger, hvint, hvbus, hvsta, hvstp, hvack, hsta, hstp, Bool.false_or]

/-- Without it the write stores the fields, and A_ACK is all that changes. -/
theorem writeCntr_paused_keep (hp : c.isPausedIn st)
    (hv : ShowsFields p.pos v { c with iflg := !p.iflgW1c, aAck := ack }) :
    writeReg p .cntr v c = .next { c with aAck := ack } := by
  obtain ⟨hact, hflag, hrst, hsta, hstp, rfl⟩ := hp
  obtain ⟨hvint, hvbus, hvsta, hvstp, hvflag, hvack⟩ := hv
  rw [writeReg_of_noReset _ _ hrst]
  have hkeep : cntrWrite p v c = .next (cntrFields p v c) := by
    simp [cntrWrite, isClearValue, hact, hflag, hvflag]
  refine hkeep.trans ?_
  simp only [cntrFields, latch, hvint, hvbus, hvsta, hvstp, hvack, Bool.or_self]

/-- In idle a START request triggers a START. -/
theorem writeCntr_idle_start (hi : c.isIdle) (hcan : c.canTrigger)
    (hv : ShowsFields p.pos v { c with iflg := flag, mSta := true }) :
    writeReg p .cntr v c = .next { c with mSta := true, act := some .start } := by
  obtain ⟨hact, hflag, hrst, hsta, hstp, -⟩ := hi
  obtain ⟨hbus, hdbn, hsda, hscl⟩ := hcan
  obtain ⟨hvint, hvbus, hvsta, hvstp, -, hvack⟩ := hv
  rw [writeReg_of_noReset _ _ hrst]
  refine (cntrWrite_idle hact hflag).trans ?_
  rw [idleWrite, checkTrigger_of_canTrigger (cntrFields_canTrigger (hvbus.trans hbus) hdbn hsda hscl)]
  simp [cntrFields, latch, hvint, hvbus, hvsta, hvack, hstp]

/-- Without one nothing is triggered, a STOP request is dropped, and A_ACK is all that changes. -/
theorem writeCntr_idle (hi : c.isIdle) (hv : ShowsFields p.pos v { c with iflg := flag, mStp := stp, aAck := ack }) :
    writeReg p .cntr v c = .next { c with aAck := ack } := by
  obtain ⟨hact, hflag, hrst, hsta, hstp, -⟩ := hi
  obtain ⟨hvint, hvbus, hvsta, -, -, hvack⟩ := hv
  rw [writeReg_of_noReset _ _ hrst]
  refine (cntrWrite_idle hact hflag).trans ?_
  simp [idleWrite, cntrFields, latch, hvint, hvbus, hvsta, hvack, hsta, hstp]

/-- With an action in flight a new STOP request faults. -/
theorem writeCntr_inFlight_stop (hact : c.act ≠ none) (hrst : c.rstPending = false) (hbus : c.busEn = true)
    (hstp : c.mStp = false) (hv : ShowsFields p.pos v { c with iflg := flag, mStp := true }) :
    writeReg p .cntr v c = .fault .requestInFlight := by
  obtain ⟨-, hvbus, -, hvstp, -⟩ := hv
  rw [writeReg_of_noReset _ _ hrst]
  refine (cntrWrite_inFlight hact).trans ?_
  simp [cntrWriteInFlight, hvbus, hbus, hvstp, hstp]

/-- Without a new request A_ACK is all that changes. -/
theorem writeCntr_inFlight (hact : c.act ≠ none) (hrst : c.rstPending = false) (hbus : c.busEn = true)
    (hv : ShowsFields p.pos v { c with iflg := flag, aAck := ack }) :
    writeReg p .cntr v c = .next { c with aAck := ack } := by
  obtain ⟨hvint, hvbus, hvsta, hvstp, -, hvack⟩ := hv
  rw [writeReg_of_noReset _ _ hrst]
  refine (cntrWrite_inFlight hact).trans ?_
  simp [cntrWriteInFlight, hvint, hvbus, hbus, hvsta, hvstp, hvack]

end CntrEffects

/-! The trigger a write records -/

theorem busTrace_triggerEvents_of_act_eq {c c' : CoreState} (h : c'.act = c.act) : busTrace (triggerEvents c c') = [] := by
  rw [triggerEvents_of_act_eq h]
  rfl

theorem busTrace_triggerEvents_of_trigger {c c' : CoreState} {a : Action} (h : c.act = none) (ha : c'.act = some a) :
    busTrace (triggerEvents c c') = [a] := by
  rw [triggerEvents, h, ha]
  rfl

/-! Runs of one instance under a schedule -/

/-- From `x` the schedule `as` leads instance `b` of `s` to `y`, adding `n` accesses and the triggers `tr` to its history. -/
def Leads (s : State) (b : Nat) (as : List Agent) (x y : Inst) (n : Nat) (tr : List Action) : Prop :=
  runSchedule as (s.setInst b x) = .next (s.setInst b y) ∧
  ∃ h, y.history = x.history ++ h ∧ (accesses h).length = n ∧ busTrace h = tr

/-- The instance runs a primitive as a request of its own and stands at step `μ`; its core is `c`, and `d` is the bus's next
answer. -/
structure RunsAlone (b : Nat) (μ : Micro) (c : CoreState) (d : Draw) (x : Inst) : Prop where
  phase : x.seq.phase = .running ⟨.alone, μ⟩
  core : x.core = c
  draw : x.nextDraw b = d

/-- The request of the instance has ended with result `r` posted; the core is `c`. -/
structure Ended (c : CoreState) (r : Result) (x : Inst) : Prop where
  phase : x.seq.phase = .done
  res : x.seq.res = some r
  core : x.core = c

section Runs
variable {s : State} {b : Nat} {as bs : List Agent} {x y z : Inst} {n m : Nat} {tr tr' : List Action}

theorem Leads.refl (s : State) (b : Nat) (x : Inst) : Leads s b [] x x 0 [] :=
  ⟨rfl, [], (List.append_nil _).symm, rfl, rfl⟩

/-- Runs after one another are one run. -/
theorem Leads.append (hxy : Leads s b as x y n tr) (hyz : Leads s b bs y z m tr') :
    Leads s b (as ++ bs) x z (n + m) (tr ++ tr') := by
  obtain ⟨hrun, h, hhist, hn, htr⟩ := hxy
  obtain ⟨hrun', h', hhist', hm, htr'⟩ := hyz
  refine ⟨by rw [runSchedule_append, hrun, bind_next, hrun'], h ++ h', ?history, ?accesses, ?trace⟩
  case history => rw [hhist', hhist, List.append_assoc]
  case accesses => rw [accesses, List.filter_append, List.length_append, ← hn, ← hm]; rfl
  case trace => rw [busTrace, List.filterMap_append, ← htr, ← htr']; rfl

/-- A fault after a run is the fault of the whole. -/
theorem Leads.faults {f : Fault} (hxy : Leads s b as x y n tr) (hf : runSchedule bs (s.setInst b y) = .fault f) :
    runSchedule (as ++ bs) (s.setInst b x) = .fault f := by
  rw [runSchedule_append, hxy.1, bind_next, hf]

variable {w : Inst} (hget : s.insts[b]? = some w)
include hget

/-- One step of the sequencer. -/
theorem Leads.seq {h : List Event} (hstep : x.seqStep s.params b = .next y) (hhist : y.history = x.history ++ h) :
    Leads s b [.seq b] x y (accesses h).length (busTrace h) := by
  refine ⟨?_, h, hhist, rfl, rfl⟩
  rw [runSchedule_seq_cons hget, hstep]
  rfl

/-- The engine has nothing to complete. -/
theorem Leads.eng_of_no_action (hact : x.core.act = none) : Leads s b [.eng b] x x 0 [] := by
  refine ⟨?_, [], (List.append_nil _).symm, rfl, rfl⟩
  rw [runSchedule, agentStep, localStep_of_get _ (setInst_get _ _ _ hget), Inst.completeAct, hact]
  simp [runSchedule]

/-- No soft reset is pending. -/
theorem Leads.reset_of_noReset (hrst : x.core.rstPending = false) : Leads s b [.reset b] x x 0 [] := by
  refine ⟨?_, [], (List.append_nil _).symm, rfl, rfl⟩
  rw [runSchedule, agentStep, localStep_of_get _ (setInst_get _ _ _ hget), Inst.completeReset, hrst]
  simp [runSchedule]

/-- A round of the eager schedule in which nothing completes is the sequencer's step. -/
theorem Leads.eager_round (hxy : Leads s b [.seq b] x y n tr) (hact : y.core.act = none)
    (hrst : y.core.rstPending = false) : Leads s b (eager b 1) x y n tr := by
  have hround : Leads s b (eager b 1) x y n (tr ++ []) :=
    hxy.append ((eng_of_no_action hget hact).append (reset_of_noReset hget hrst))
  rwa [List.append_nil] at hround

end Runs

/-! The steps of a primitive run alone, by their shape (10_state.md rule R41) -/

section Steps
variable {s : State} {b : Nat} {w x : Inst} {μ ν : Micro} {c c' : CoreState} {d : Draw} {r : Reg} {v : Word} {res : Result}
  (hget : s.insts[b]? = some w) (hx : RunsAlone b μ c d x)

include hx

theorem RunsAlone.seqStep_eq : x.seqStep s.params b = stepAt s.params b .alone μ x := by
  rw [Inst.seqStep, hx.phase]

theorem RunsAlone.readValue_eq (p : Params) (r : Reg) : x.readValue p b r = readWord p d.levels r c := by
  rw [Inst.readValue, hx.draw, hx.core]

/-- A performed write on the instance, by what it does to the core. -/
theorem RunsAlone.write_eq {p : Params} (hw : writeReg p r v c = .next c') :
    x.write p r v = .next ((x.setCore c').log (.write r v :: triggerEvents c c')) := by
  rw [Inst.write, hx.core, hw, bind_next]

include hget

/-- A step that reads a register leaves the core and the bus's next answer. -/
theorem RunsAlone.read_step {f : Word → Seq → Seq} (hstep : stepAt s.params b .alone μ x = readThen s.params b r f x)
    (hr : r ≠ .lcr) (hnext : (f (readWord s.params d.levels r c) x.seq).phase = .running ⟨.alone, ν⟩) :
    ∃ y, Leads s b [.seq b] x y 1 [] ∧ RunsAlone b ν c d y ∧ y.seq = f (readWord s.params d.levels r c) x.seq := by
  rw [readThen, hx.readValue_eq, afterRead_eq_log _ _ _ _ hr] at hstep
  exact ⟨_, Leads.seq hget (hx.seqStep_eq.trans hstep) rfl, ⟨hnext, hx.core, hx.draw⟩, rfl⟩

/-- A step that reads a register and ends the request. -/
theorem RunsAlone.readEnd_step {f : Word → Seq → Seq} {g : Word → Result}
    (hstep : stepAt s.params b .alone μ x = readEnd s.params b r .alone f g x) (hr : r ≠ .lcr) :
    ∃ y, Leads s b [.seq b] x y 1 [] ∧ Ended c (g (readWord s.params d.levels r c)) y := by
  rw [readEnd, hx.readValue_eq, afterRead_eq_log _ _ _ _ hr] at hstep
  exact ⟨_, Leads.seq hget (hx.seqStep_eq.trans hstep) rfl, rfl, rfl, hx.core⟩

/-- A step that writes a register and goes on. -/
theorem RunsAlone.write_step {f : Seq → Seq} (hstep : stepAt s.params b .alone μ x = writeThen s.params r v f x)
    (hw : writeReg s.params r v c = .next c') (hnext : (f x.seq).phase = .running ⟨.alone, ν⟩) :
    ∃ y, Leads s b [.seq b] x y 1 (busTrace (triggerEvents c c')) ∧ RunsAlone b ν c' d y ∧ y.seq = f x.seq := by
  rw [writeThen, hx.write_eq hw, bind_next] at hstep
  have hlead := Leads.seq hget (hx.seqStep_eq.trans hstep) rfl
  rw [accesses_of_write] at hlead
  exact ⟨_, hlead, ⟨hnext, rfl, hx.draw⟩, rfl⟩

/-- A step that writes a register and ends the request. -/
theorem RunsAlone.writeEnd_step (hstep : stepAt s.params b .alone μ x = writeEnd s.params r v .alone res x)
    (hw : writeReg s.params r v c = .next c') :
    ∃ y, Leads s b [.seq b] x y 1 (busTrace (triggerEvents c c')) ∧ Ended c' res y := by
  rw [writeEnd, hx.write_eq hw, bind_next] at hstep
  have hlead := Leads.seq hget (hx.seqStep_eq.trans hstep) rfl
  rw [accesses_of_write] at hlead
  exact ⟨_, hlead, rfl, rfl, rfl⟩

/-- A step without an access that goes on. -/
theorem RunsAlone.silent_step {q : Seq} (hstep : stepAt s.params b .alone μ x = silently (.next q) x)
    (hnext : q.phase = .running ⟨.alone, ν⟩) : ∃ y, Leads s b [.seq b] x y 0 [] ∧ RunsAlone b ν c d y :=
  ⟨_, Leads.seq hget (hx.seqStep_eq.trans hstep) (List.append_nil _).symm, hnext, hx.core, hx.draw⟩

/-- A step without an access that ends the request. -/
theorem RunsAlone.silentEnd_step (hstep : stepAt s.params b .alone μ x = silently (afterLine s.params .alone res x.seq) x) :
    ∃ y, Leads s b [.seq b] x y 0 [] ∧ Ended c res y :=
  ⟨_, Leads.seq hget (hx.seqStep_eq.trans hstep) (List.append_nil _).symm, rfl, rfl, hx.core⟩

/-- A step whose write faults. -/
theorem RunsAlone.write_faults {k : Inst → Out Inst} {f : Fault}
    (hstep : stepAt s.params b .alone μ x = Out.bind (x.write s.params r v) k) (hw : writeReg s.params r v c = .fault f)
    (as : List Agent) : runSchedule (.seq b :: as) (s.setInst b x) = .fault f := by
  rw [Inst.write, hx.core, hw] at hstep
  rw [runSchedule_seq_cons hget, hx.seqStep_eq.trans hstep]
  rfl

/-- The engine completes a START or a repeated START the bus lets through. -/
theorem RunsAlone.start_completes {a : Action} (hact : c.act = some a)
    (ha : a ∈ [Action.start, .rstart, .stopStart, .arbStart]) (hline : d.line = .ok) : ∃ y d', Leads s b [.eng b] x y 0 [] ∧
      RunsAlone b μ (paused (if a = .rstart then .txRstart else .txStart) c) d' y ∧ y.seq = x.seq := by
  obtain ⟨hphase, rfl, rfl⟩ := hx
  have hstep := agentStep_eng_completes (setInst_get s b x hget) hact (complete_start ha)
  rw [if_pos (drawsAnswer_of_start ha), setInst_setInst, hline] at hstep
  refine ⟨_, _, ⟨by rw [runSchedule, hstep]; rfl, _, congrArg (· ++ _) (useDraw_history x), rfl, rfl⟩, ⟨?_, rfl, rfl⟩, ?_⟩
  · exact (congrArg Seq.phase (useDraw_seq x)).trans hphase
  · exact useDraw_seq x

end Steps

/-! The last two steps of a primitive: CNTR is read and a value made of it written back -/

/-- At step `μ` CNTR is read into `c`, at `ν` the value `form c` is written to it, and the request returns `res d`. -/
def CntrLine (p : Params) (b : Nat) (μ ν : Micro) (form : Word → Word) (res : Word → Result) : Prop :=
  (∀ x, stepAt p b .alone μ x = readThen p b .cntr (fun v q => { q with c := v }.at ⟨.alone, ν⟩) x) ∧
  ∀ x, stepAt p b .alone ν x = writeEnd p .cntr (form x.seq.c) .alone (res x.seq.d) x

section CntrLines
variable {s : State} {b : Nat} {w x : Inst} {μ ν : Micro} {c c' : CoreState} {d : Draw} {form : Word → Word}
  {res : Word → Result} (hget : s.insts[b]? = some w) (hx : RunsAlone b μ c d x) (hline : CntrLine s.params b μ ν form res)
include hget hx hline

theorem CntrLine.leads (hw : writeReg s.params .cntr (form (cntrWord s.params.pos c)) c = .next c') :
    ∃ y, Leads s b (seqOnly b 2) x y 2 (busTrace (triggerEvents c c')) ∧ Ended c' (res x.seq.d) y := by
  obtain ⟨hread, hwrite⟩ := hline
  obtain ⟨y, hxy, hy, hseq⟩ := hx.read_step hget (hread x) (by decide) rfl
  have hstep := hwrite y
  rw [hseq] at hstep
  obtain ⟨z, hyz, hz⟩ := hy.writeEnd_step hget hstep hw
  exact ⟨z, hxy.append hyz, hz⟩

theorem CntrLine.faults {f : Fault} (hw : writeReg s.params .cntr (form (cntrWord s.params.pos c)) c = .fault f) :
    runSchedule (seqOnly b 2) (s.setInst b x) = .fault f := by
  obtain ⟨hread, hwrite⟩ := hline
  obtain ⟨y, hxy, hy, hseq⟩ := hx.read_step hget (hread x) (by decide) rfl
  have hstep := hwrite y
  rw [hseq] at hstep
  exact hxy.faults (hy.write_faults hget hstep hw [])

end CntrLines

/-! The primitives' values written to a core -/

section PausedEffects
variable {p : Params} {c : CoreState} {st : Status} (hl : p.pos.wf) (hp : c.isPausedIn st) (hcan : c.canTrigger)
include hl hp hcan

/-- The clear form lets a paused core do what the trigger table answers without a request. -/
theorem writeCntr_clrForm : writeReg p .cntr (clrForm p (cntrWord p.pos c)) c =
    Out.bind (triggerAction st false false c.data) fun a =>
      .next { c with iflg := false, act := some a, ackTrig := if a = .rxData then c.aAck else c.ackTrig } := by
  have hwrite := writeCntr_paused_clear (sta := c.mSta) (stp := c.mStp) hp hcan (clrForm_shows hl c)
  have hnone : triggerAction st c.mSta c.mStp c.data = triggerAction st false false c.data := by
    obtain ⟨-, -, -, hsta, hstp, -⟩ := hp
    rw [hsta, hstp]
  rwa [hnone] at hwrite

theorem writeCntr_clrForm_triggers {a : Action} (h : triggerAction st false false c.data = .next a) :
    writeReg p .cntr (clrForm p (cntrWord p.pos c)) c = .next
      { c with iflg := false, act := some a, ackTrig := if a = .rxData then c.aAck else c.ackTrig } := by
  rw [writeCntr_clrForm hl hp hcan, h, bind_next]

/-- After a NAKed receive the clear form faults. -/
theorem writeCntr_clrForm_releaseAfterNak (h : st ∈ mrxEndSet) :
    writeReg p .cntr (clrForm p (cntrWord p.pos c)) c = .fault .releaseAfterNak := by
  rw [writeCntr_clrForm hl hp hcan, triggerAction_releaseAfterNak h, bind_fault]

end PausedEffects

/-- Paused, in idle, and in flight on an enabled bus, the keep form with another A_ACK changes A_ACK alone. -/
theorem writeCntr_aAck {p : Params} {v : Word} {c : CoreState} {ack : Bool} (hrst : c.rstPending = false)
    (hc : (∃ st, c.isPausedIn st) ∨ c.isIdle ∨ (c.act ≠ none ∧ c.busEn = true))
    (hv : ShowsFields p.pos v { c with iflg := !p.iflgW1c && c.iflg, aAck := ack }) :
    writeReg p .cntr v c = .next { c with aAck := ack } := by
  rcases hc with ⟨st, hp⟩ | hidle | ⟨hact, hbus⟩
  · have ⟨_, hflag, _⟩ := hp
    rw [hflag, Bool.and_true] at hv
    exact writeCntr_paused_keep hp hv
  · exact writeCntr_idle hidle hv
  · exact writeCntr_inFlight hact hrst hbus hv

/-! From the acceptance of a request to the end of its program -/

/-- The sequencer's registers where the program of an accepted request begins (45_transactions.md rule R230). -/
def begun (p : Params) (i : Instr) (o : SeqOp) : Seq :=
  (loadOperands i { Seq.unwritten with op := some o }).begin p (firstLabel o)

section Requests
variable {s : State} {i : Instr} {x : Inst} {o : SeqOp} {n k : Nat} {as : List Agent} (hready : Ready s i.bus x)
  (hreq : requestOf i = some (o, n, k)) (hrange : i.operandsInRange s.params.nMax = true)
include hready hreq hrange

/-- A run of the program to its end is a run of the request. -/
theorem Leads.runsTo {y : Inst} {m : Nat} {tr : List Action} {c : CoreState} {r : Result}
    (hlead : Leads s i.bus as (x.setSeq (begun s.params i o)) y m tr) (hend : Ended c r y) :
    ∃ y h, RunsTo i as s i.bus x r y h ∧ (accesses h).length = m ∧ busTrace h = tr ∧ y.core = c := by
  obtain ⟨hrun, h, hhist, hm, htr⟩ := hlead
  exact ⟨y, h, ⟨_, exec_request_begins hready hreq hrange, hrun, hend.phase, hend.res, hhist⟩, hm, htr, hend.core⟩

/-- A fault of the program is a fault of the request. -/
theorem faultsWith_of_program {f : Fault}
    (hrun : runSchedule as (s.setInst i.bus (x.setSeq (begun s.params i o))) = .fault f) : FaultsWith i as s f :=
  ⟨_, exec_request_begins hready hreq hrange, hrun⟩

/-- A primitive that is one read and one write of CNTR ends with the core the write leaves. -/
theorem CntrLine.runsTo {μ ν : Micro} {form : Word → Word} {r : Result} {c' : CoreState} {tr : List Action}
    (hline : CntrLine s.params i.bus μ ν form fun _ => r) (hfirst : (begun s.params i o).phase = .running ⟨.alone, μ⟩)
    (hw : writeReg s.params .cntr (form (cntrWord s.params.pos x.core)) x.core = .next c')
    (htr : busTrace (triggerEvents x.core c') = tr) :
    ∃ y h, RunsTo i (seqOnly i.bus 2) s i.bus x r y h ∧ (accesses h).length = 2 ∧ busTrace h = tr ∧ y.core = c' := by
  obtain ⟨y, hlead, hend⟩ := hline.leads (x := x.setSeq _) hready.1 ⟨hfirst, rfl, rfl⟩ hw
  exact (htr ▸ hlead).runsTo hready hreq hrange hend

end Requests

/-! The primitives' lines (43_primitives.md rules R192 to R198) -/

section Lines
variable (p : Params) (b : Nat)

theorem stop_cntrLine : CntrLine p b .stop1 .stop2 (fun c => clrForm p c ||| bitMask p.pos.mStp) fun _ => .ok 0 [] :=
  ⟨fun _ => rfl, fun _ => rfl⟩

theorem data_cntrLine : CntrLine p b .data2 .data3 (clrForm p) fun _ => .ok 1 [] := ⟨fun _ => rfl, fun _ => rfl⟩

theorem read_cntrLine : CntrLine p b .read2 .read3 (clrForm p) fun d => .ok 1 [dataByte p d] := ⟨fun _ => rfl, fun _ => rfl⟩

theorem clear_cntrLine : CntrLine p b .clear1 .clear2 (clrForm p) fun _ => .ok 0 [] := ⟨fun _ => rfl, fun _ => rfl⟩

theorem setAck_cntrLine : CntrLine p b .setAck1 .setAck2 (fun c => keepForm p c ||| bitMask p.pos.aAck) fun _ => .ok 0 [] :=
  ⟨fun _ => rfl, fun _ => rfl⟩

theorem clrAck_cntrLine :
    CntrLine p b .clrAck1 .clrAck2 (fun c => keepForm p c &&& ~~~bitMask p.pos.aAck) fun _ => .ok 0 [] :=
  ⟨fun _ => rfl, fun _ => rfl⟩

/-- IS_BUSY is one read of STAT that ends the request (rule R196). -/
theorem busy1_eq_readEnd (x : Inst) : stepAt p b .alone .busy1 x =
    readEnd p b .stat .alone (fun v q => { q with s := statByte p v })
      (fun v => .ok 0 [if statByte p v ≠ statusCode p .idle then 0x01#8 else 0x00#8]) x := rfl

end Lines

/-! The first step of SEND_DATA -/

/-- S1 of SEND_DATA writes the byte the program has for its place (rule R193). -/
theorem data1_eq_writeThen {p : Params} {bus : Nat} {pl : Place} {x : Inst} {byte : Byte} (h : byteAt pl x.seq = some byte) :
    stepAt p bus pl .data1 x = writeThen p .data (putByte p.pos.data byte) (fun q => q.at ⟨pl, .data2⟩) x := by
  rw [stepAt, dataFirst, h]

/-- With no action in flight a DATA write stores the byte. -/
theorem writeData_stores {p : Params} {c : CoreState} (hl : p.pos.wf) (hrst : c.rstPending = false) (hact : c.act = none)
    (byte : Byte) : writeReg p .data (putByte p.pos.data byte) c = .next { c with data := byte } := by
  obtain ⟨-, -, hdata, -⟩ := hl
  rw [writeReg_of_noReset _ _ hrst]
  simp [storeWord, dataStore, hact, getByte_putByte _ _ hdata]

/-- With an action in flight it faults. -/
theorem writeData_inFlight {p : Params} {c : CoreState} (hrst : c.rstPending = false) (hact : c.act ≠ none) (v : Word) :
    writeReg p .data v c = .fault .writeDataInFlight := by
  rw [writeReg_of_noReset _ _ hrst]
  exact if_pos (Option.isSome_iff_ne_none.mpr hact)

/-- With no action in flight S1 leaves the core with the byte. -/
theorem data1_stores {s : State} {b : Nat} {w x : Inst} {c : CoreState} {d : Draw} {byte : Byte}
    (hget : s.insts[b]? = some w) (hx : RunsAlone b .data1 c d x) (hbyte : byteAt .alone x.seq = some byte)
    (hl : s.params.pos.wf) (hrst : c.rstPending = false) (hact : c.act = none) :
    ∃ y, Leads s b [.seq b] x y 1 [] ∧ RunsAlone b .data2 { c with data := byte } d y := by
  obtain ⟨y, hlead, hy, -⟩ := hx.write_step hget (data1_eq_writeThen hbyte) (writeData_stores hl hrst hact byte) rfl
  have htr : busTrace (triggerEvents c { c with data := byte }) = [] := busTrace_triggerEvents_of_act_eq rfl
  exact ⟨y, htr ▸ hlead, hy⟩

/-! SEND_START -/

/-- Written to core `c`, SEND_START's value triggers `a`, which ends as a START does (41_bus_engine.md rules
R144, R145), and leaves the core `c'`. -/
structure StartsWith (p : Params) (c : CoreState) (a : Action) (c' : CoreState) : Prop where
  write : writeReg p .cntr (clrForm p (cntrWord p.pos c) ||| bitMask p.pos.mSta) c = .next c'
  before : c.act = none
  noReset : c.rstPending = false
  noResetAfter : c'.rstPending = false
  act : c'.act = some a
  requested : c'.mSta = true
  isStart : a ∈ [Action.start, .rstart, .stopStart, .arbStart]

/-- In idle it triggers a START. -/
theorem startsWith_of_idle {p : Params} {c : CoreState} (hl : p.pos.wf) (hi : c.isIdle) (hcan : c.canTrigger) :
    StartsWith p c .start { c with mSta := true, act := some .start } := by
  have ⟨hact, _, hrst, _⟩ := hi
  exact ⟨writeCntr_idle_start hi hcan (clrForm_or_mSta_shows hl c), hact, hrst, hrst, rfl, rfl, by decide⟩

/-- After a byte it triggers a repeated START. -/
theorem startsWith_of_byteDone {p : Params} {c : CoreState} {st : Status} (hl : p.pos.wf) (hst : st ∈ byteDoneSet)
    (hp : c.isPausedIn st) (hcan : c.canTrigger) :
    StartsWith p c .rstart { c with mSta := true, iflg := false, act := some .rstart } := by
  have ⟨hact, _, hrst, _, hstp, _⟩ := hp
  have hwrite := writeCntr_paused_clear (stp := c.mStp) hp hcan (clrForm_or_mSta_shows hl c)
  have ht : triggerAction st true c.mStp c.data = .next .rstart := by
    rw [hstp]
    exact triggerAction_rstart hst
  rw [ht] at hwrite
  exact ⟨hwrite, hact, hrst, hrst, rfl, rfl, by decide⟩

theorem seqOnly_add (b j k : Nat) : seqOnly b (j + k) = seqOnly b j ++ seqOnly b k := List.replicate_add ..

section Start
variable {s : State} {b : Nat} {w x : Inst} {c c' : CoreState} {d : Draw} {a : Action} (hget : s.insts[b]? = some w)
include hget

/-- S1 reads CNTR, and S2 writes the request. -/
theorem start_requests (hs : StartsWith s.params c a c') (hx : RunsAlone b .start1 c d x) :
    ∃ y z, Leads s b [.seq b] x y 1 [] ∧ RunsAlone b .start2 c d y ∧ Leads s b [.seq b] y z 1 [a] ∧
      RunsAlone b .start3 c' d z ∧ z.seq.k = 0 := by
  obtain ⟨y, hxy, hy, hseq⟩ := hx.read_step (r := .cntr) (f := fun v q => { q with c := v }.at ⟨.alone, .start2⟩) hget rfl
    (by decide) rfl
  have hc : y.seq.c = cntrWord s.params.pos c := congrArg Seq.c hseq
  have hstep : stepAt s.params b .alone .start2 y = writeThen s.params .cntr
      (clrForm s.params (cntrWord s.params.pos c) ||| bitMask s.params.pos.mSta)
      (fun q => { q with k := 0 }.at ⟨.alone, .start3⟩) y := hc ▸ rfl
  obtain ⟨z, hyz, hz, hseq'⟩ := hy.write_step hget hstep hs.write rfl
  rw [busTrace_triggerEvents_of_trigger hs.before hs.act] at hyz
  exact ⟨y, z, hxy, hy, hyz, hz, congrArg Seq.k hseq'⟩

/-- S3 within the budget is one poll of M_STA: the program stays there while the request is shown. -/
theorem start_poll {pos : Micro} (hl : s.params.pos.wf) (hx : RunsAlone b .start3 c d x)
    (hk : x.seq.k < s.params.startBudget) (hpos : (if c.mSta then Micro.start3 else .start4) = pos) :
    ∃ y, Leads s b [.seq b] x y 1 [] ∧ RunsAlone b pos c d y ∧ y.seq.k = x.seq.k + 1 := by
  obtain ⟨-, -, hsta, -⟩ := cntrWord_fields hl c
  have hstep : stepAt s.params b .alone .start3 x = readThen s.params b .cntr (fun v q =>
      { q with c := v, k := q.k + 1 }.at ⟨.alone, if v.getLsbD s.params.pos.mSta then .start3 else .start4⟩) x :=
    if_neg hk.ne
  have hnext : (if (cntrWord s.params.pos c).getLsbD s.params.pos.mSta then Micro.start3 else .start4) = pos := by
    rw [hsta, hpos]
  obtain ⟨y, hxy, hy, hseq⟩ := hx.read_step hget hstep (by decide) (congrArg (fun μ => Phase.running ⟨.alone, μ⟩) hnext)
  exact ⟨y, hxy, hy, congrArg Seq.k hseq⟩

/-- While the START is in flight any number of polls within the budget leave the program at S3. -/
theorem start_polls (hl : s.params.pos.wf) (hsta : c.mSta = true) (hx : RunsAlone b .start3 c d x) (j : Nat)
    (hj : x.seq.k + j ≤ s.params.startBudget) :
    ∃ y, Leads s b (seqOnly b j) x y j [] ∧ RunsAlone b .start3 c d y ∧ y.seq.k = x.seq.k + j := by
  induction j with
  | zero => exact ⟨x, Leads.refl s b x, hx, rfl⟩
  | succ j ih =>
    obtain ⟨y, hxy, hy, hk⟩ := ih (by omega)
    obtain ⟨z, hyz, hz, hk'⟩ := start_poll hget hl hy (by omega) (if_pos hsta)
    refine ⟨z, ?_, hz, by omega⟩
    rw [seqOnly_add]
    exact hxy.append hyz

/-- At the end of the budget S3 makes no access. -/
theorem start_budgetEnds (hx : RunsAlone b .start3 c d x) (hk : x.seq.k = s.params.startBudget) :
    ∃ y, Leads s b [.seq b] x y 0 [] ∧ RunsAlone b .start4 c d y :=
  hx.silent_step hget (if_pos hk) rfl

/-- S4 returns. -/
theorem start_ends (hx : RunsAlone b .start4 c d x) : ∃ y, Leads s b [.seq b] x y 0 [] ∧ Ended c (.ok 0 []) y :=
  hx.silentEnd_step hget rfl

end Start

section SendStart
variable {s : State} {b : Nat} {x : Inst} {c' c'' : CoreState} {a : Action} (hready : Ready s b x) (hl : s.params.pos.wf)
  (hs : StartsWith s.params x.core a c')
include hready hl hs

/-- The START completes before the first poll. -/
theorem sendStart_eager (hline : (x.nextDraw b).line = .ok) (hbudget : 1 ≤ s.params.startBudget)
    (hend : paused (if a = .rstart then .txRstart else .txStart) c' = c'') :
    ∃ y h, RunsTo (.sendStart b) (eager b 4) s b x (.ok 0 []) y h ∧ (accesses h).length = 3 ∧ busTrace h = [a] ∧
      y.core = c'' := by
  have ⟨hget, _⟩ := hready
  obtain ⟨y1, y2, h1, hy1, h2, hy2, hk⟩ :=
    start_requests (x := x.setSeq (begun s.params (.sendStart b) .sendStart)) hget hs ⟨rfl, rfl, rfl⟩
  obtain ⟨y3, d, h3, hy3, hseq⟩ := hy2.start_completes hget hs.act hs.isStart hline
  rw [hend] at hy3
  have hact : c''.act = none := hend ▸ rfl
  have hrst : c''.rstPending = false := hend ▸ hs.noResetAfter
  obtain ⟨y4, h4, hy4, -⟩ := start_poll (pos := .start4) hget hl hy3 (by rw [hseq]; omega) (hend ▸ rfl)
  obtain ⟨y5, h5, hy5⟩ := start_ends hget hy4
  have hround1 := h1.eager_round hget (hy1.core ▸ hs.before) (hy1.core ▸ hs.noReset)
  have hround2 : Leads s b (eager b 1) y1 y3 1 [a] :=
    h2.append (h3.append (Leads.reset_of_noReset hget (hy3.core ▸ hrst)))
  have hround3 := h4.eager_round hget (hy4.core ▸ hact) (hy4.core ▸ hrst)
  have hround4 := h5.eager_round hget (hy5.core ▸ hact) (hy5.core ▸ hrst)
  exact (hround1.append (hround2.append (hround3.append hround4))).runsTo (i := .sendStart b) hready rfl rfl hy5

/-- The START completes after `j` polls. -/
theorem sendStart_afterPolls {j : Nat} (hj : j < s.params.startBudget) (hline : (x.nextDraw b).line = .ok)
    (hend : paused (if a = .rstart then .txRstart else .txStart) c' = c'') :
    ∃ y h, RunsTo (.sendStart b) (seqOnly b (2 + j) ++ .eng b :: seqOnly b 2) s b x (.ok 0 []) y h ∧
      (accesses h).length = 3 + j ∧ busTrace h = [a] ∧ y.core = c'' := by
  have ⟨hget, _⟩ := hready
  obtain ⟨y1, y2, h1, -, h2, hy2, hk⟩ :=
    start_requests (x := x.setSeq (begun s.params (.sendStart b) .sendStart)) hget hs ⟨rfl, rfl, rfl⟩
  obtain ⟨y3, h3, hy3, hk3⟩ := start_polls hget hl hs.requested hy2 j (by omega)
  obtain ⟨y4, d, h4, hy4, hseq⟩ := hy3.start_completes hget hs.act hs.isStart hline
  rw [hend] at hy4
  obtain ⟨y5, h5, hy5, -⟩ := start_poll (pos := .start4) hget hl hy4 (by rw [hseq]; omega) (hend ▸ rfl)
  obtain ⟨y6, h6, hy6⟩ := start_ends hget hy5
  have hrun := ((h1.append h2).append h3).append (h4.append (h5.append h6))
  rw [show 1 + 1 + j + (0 + (1 + 0)) = 3 + j by omega] at hrun
  rw [seqOnly_add]
  exact hrun.runsTo (i := .sendStart b) hready rfl rfl hy6

/-- The START does not complete within the budget. -/
theorem sendStart_noCompletion :
    ∃ y h, RunsTo (.sendStart b) (seqOnly b (s.params.startBudget + 4)) s b x (.ok 0 []) y h ∧
      (accesses h).length = 2 + s.params.startBudget ∧ busTrace h = [a] ∧ y.core = c' := by
  have ⟨hget, _⟩ := hready
  obtain ⟨y1, y2, h1, -, h2, hy2, hk⟩ :=
    start_requests (x := x.setSeq (begun s.params (.sendStart b) .sendStart)) hget hs ⟨rfl, rfl, rfl⟩
  obtain ⟨y3, h3, hy3, hk3⟩ := start_polls hget hl hs.requested hy2 s.params.startBudget (by omega)
  obtain ⟨y4, h4, hy4⟩ := start_budgetEnds hget hy3 (by omega)
  obtain ⟨y5, h5, hy5⟩ := start_ends hget hy4
  rw [show s.params.startBudget + 4 = 2 + s.params.startBudget + 2 by omega, seqOnly_add, seqOnly_add]
  exact (((h1.append h2).append h3).append (h4.append h5)).runsTo (i := .sendStart b) hready rfl rfl hy5

end SendStart

/-! The obligations -/

/-- Settles O38: from idle and from a paused byte the request is the same run, with a START or a repeated START. -/
theorem sendStartRequestsAStart : Obligations.SendStartRequestsAStart := by
  unfold Obligations.SendStartRequestsAStart
  intro s b x hready hwf hcan
  obtain ⟨-, hl, -⟩ := hwf
  have hidle := fun hi : x.core.isIdle => startsWith_of_idle hl hi hcan
  have hbyte := fun {st} hst (hp : x.core.isPausedIn st) => startsWith_of_byteDone hl hst hp hcan
  have hidleEnd : x.core.isIdle → paused .txStart { x.core with mSta := true, act := some .start } =
      { x.core with sta := .txStart, iflg := true } := by
    rintro ⟨hact, -, -, hsta, hstp, -⟩
    simp [paused, hact, hsta, hstp]
  have hbyteEnd : ∀ {st}, x.core.isPausedIn st → paused .txRstart
      { x.core with mSta := true, iflg := false, act := some .rstart } = { x.core with sta := .txRstart } := by
    rintro st ⟨hact, hflag, -, hsta, hstp, -⟩
    simp [paused, hact, hflag, hsta, hstp]
  refine ⟨fun hi hline hb => ?idle, fun st hst hp hline hb => ?byte, fun j hj hline => ⟨fun hi => ?idlePolls,
    fun st hst hp => ?bytePolls⟩, fun hi => ?never⟩
  case idle => exact sendStart_eager hready hl (hidle hi) hline hb (hidleEnd hi)
  case byte => exact sendStart_eager hready hl (hbyte hst hp) hline hb (hbyteEnd hp)
  case idlePolls => exact sendStart_afterPolls hready hl (hidle hi) hj hline (hidleEnd hi)
  case bytePolls => exact sendStart_afterPolls hready hl (hbyte hst hp) hj hline (hbyteEnd hp)
  case never =>
    obtain ⟨y, h, hrun, hn, -, hcore⟩ := sendStart_noCompletion hready hl (hidle hi)
    exact ⟨y, h, hrun, hn, hcore⟩

/-- Settles O39: the clear form with a STOP request, written to a paused core, in idle, and in flight. -/
theorem sendStopRequestsAStop : Obligations.SendStopRequestsAStop := by
  unfold Obligations.SendStopRequestsAStop
  intro s b x hready hwf hcan
  obtain ⟨-, hl, -⟩ := hwf
  have hruns := fun {c' tr} =>
    CntrLine.runsTo (i := .sendStop b) (c' := c') (tr := tr) hready rfl rfl (stop_cntrLine s.params b) rfl
  have hshows := clrForm_or_mStp_shows hl x.core
  refine ⟨fun st a hp hrow => ?paused, fun hidle => ?idle, fun hact hrst hstp => ?inFlight⟩
  case paused =>
    have ht : triggerAction st x.core.mSta true x.core.data = .next a := by
      obtain ⟨-, -, -, hsta, -⟩ := hp
      rw [hsta]
      rcases hrow with ⟨hst, rfl⟩ | ⟨rfl, rfl⟩ | ⟨rfl, rfl⟩
      · exact triggerAction_stop hst
      · exact triggerAction_busError
      · exact triggerAction_arbLost
    have hnot : a ≠ .rxData := by
      rcases hrow with ⟨-, rfl⟩ | ⟨-, rfl⟩ | ⟨-, rfl⟩ <;> decide
    have hwrite := writeCntr_paused_clear (sta := x.core.mSta) hp hcan hshows
    rw [ht, bind_next, if_neg hnot] at hwrite
    exact hruns hwrite (busTrace_triggerEvents_of_trigger hp.1 rfl)
  case idle =>
    have hwrite := writeCntr_idle (ack := x.core.aAck) hidle hshows
    obtain ⟨y, h, hrun, -, htr, hcore⟩ := hruns hwrite (busTrace_triggerEvents_of_act_eq rfl)
    exact ⟨y, h, hrun, htr, hcore⟩
  case inFlight =>
    obtain ⟨hbus, -⟩ := hcan
    have hwrite := writeCntr_inFlight_stop hact hrst hbus hstp hshows
    exact faultsWith_of_program (i := .sendStop b) hready rfl rfl
      ((stop_cntrLine s.params b).faults hready.1 ⟨rfl, rfl, rfl⟩ hwrite)

/-- Settles O40: DATA is written, then the clear form to the core that holds the byte. -/
theorem sendDataSendsTheByte : Obligations.SendDataSendsTheByte := by
  unfold Obligations.SendDataSendsTheByte
  intro s b value x hready hwf hcan hrst hvalue byte sends
  obtain ⟨-, hl, -⟩ := hwf
  have hreq : requestOf (.sendData b value) = some (.sendData, 0, 0) := rfl
  have hrange : (Instr.sendData b value).operandsInRange s.params.nMax = true := decide_eq_true hvalue
  have hat : RunsAlone b .data1 x.core (x.nextDraw b) (x.setSeq (begun s.params (.sendData b value) .sendData)) :=
    ⟨rfl, rfl, rfl⟩
  have hstored := data1_stores (byte := byte) hready.1 hat rfl hl hrst
  have hends : ∀ {c' tr}, x.core.act = none →
      writeReg s.params .cntr (clrForm s.params (cntrWord s.params.pos { x.core with data := byte }))
        { x.core with data := byte } = .next c' →
      busTrace (triggerEvents { x.core with data := byte } c') = tr →
      ∃ y h, RunsTo (.sendData b value) (seqOnly b 3) s b x (.ok 1 []) y h ∧ (accesses h).length = 3 ∧ busTrace h = tr ∧
        y.core = c' := by
    rintro c' _ hact hwrite rfl
    obtain ⟨y, hxy, hy⟩ := hstored hact
    obtain ⟨z, hyz, hz⟩ := (data_cntrLine s.params b).leads hready.1 hy hwrite
    exact (hxy.append hyz).runsTo hready hreq hrange hz
  have hsends : ∀ {st a}, x.core.isPausedIn st → triggerAction st false false byte = .next a →
      sends a (if a = .rxData then x.core.aAck else x.core.ackTrig) := by
    intro st a hp ht
    have ⟨hact, _⟩ := hp
    exact hends hact (writeCntr_clrForm_triggers (c := { x.core with data := byte }) hl hp hcan ht)
      (busTrace_triggerEvents_of_trigger hact rfl)
  refine ⟨fun st hst hp => ?address, fun st hst hp => ?data, fun st hst hp => ?receive, fun st hst hp => ?afterNak,
    fun hidle => ?idle, fun hact => ?inFlight⟩
  case address => exact hsends hp (triggerAction_afterStart hst)
  case data => exact hsends hp (triggerAction_txData hst)
  case receive => exact hsends hp (triggerAction_rxData hst)
  case afterNak =>
    obtain ⟨y, hxy, hy⟩ := hstored hp.1
    have hwrite := writeCntr_clrForm_releaseAfterNak (c := { x.core with data := byte }) hl hp hcan hst
    exact faultsWith_of_program hready hreq hrange
      (hxy.faults ((data_cntrLine s.params b).faults hready.1 hy hwrite))
  case idle =>
    have hwrite := writeCntr_idle (c := { x.core with data := byte }) (stp := x.core.mStp) (ack := x.core.aAck) hidle
      (clrForm_shows hl _)
    obtain ⟨y, h, hrun, -, htr, hcore⟩ := hends hidle.1 hwrite (busTrace_triggerEvents_of_act_eq rfl)
    exact ⟨y, h, hrun, htr, hcore⟩
  case inFlight =>
    exact faultsWith_of_program hready hreq hrange
      (hat.write_faults hready.1 (data1_eq_writeThen rfl) (writeData_inFlight hrst hact _) [])

/-- Settles O41: DATA is read, then the clear form is written to the core. -/
theorem readDataReturnsTheByte : Obligations.ReadDataReturnsTheByte := by
  unfold Obligations.ReadDataReturnsTheByte
  intro s b x hready hwf hcan
  obtain ⟨-, hl, -⟩ := hwf
  have hat : RunsAlone b .read1 x.core (x.nextDraw b) (x.setSeq (begun s.params (.readData b) .readData)) := ⟨rfl, rfl, rfl⟩
  obtain ⟨y, hxy, hy, hseq⟩ := hat.read_step (r := .data) (f := fun v q => { q with d := v }.at ⟨.alone, .read2⟩)
    hready.1 rfl (by decide) rfl
  have hbyte : dataByte s.params y.seq.d = x.core.data := by
    rw [hseq]
    exact dataByte_dataWord hl x.core
  refine ⟨fun hp => ?returns, fun hp => ?faults⟩
  case returns =>
    have hwrite := writeCntr_clrForm_triggers hl hp hcan (triggerAction_rxData (by decide))
    obtain ⟨z, hyz, hz⟩ := (read_cntrLine s.params b).leads hready.1 hy hwrite
    rw [busTrace_triggerEvents_of_trigger hp.1 rfl] at hyz
    exact (hxy.append hyz).runsTo (i := .readData b) hready rfl rfl (hbyte ▸ hz)
  case faults =>
    have hwrite := writeCntr_clrForm_releaseAfterNak hl hp hcan (by decide)
    exact faultsWith_of_program (i := .readData b) hready rfl rfl
      (hxy.faults ((read_cntrLine s.params b).faults hready.1 hy hwrite))

/-- Settles O42: the clear form written to a paused core, and in idle. -/
theorem clearIfLetsTheCoreProceed : Obligations.ClearIfLetsTheCoreProceed := by
  unfold Obligations.ClearIfLetsTheCoreProceed
  intro s b x hready hwf hcan
  obtain ⟨-, hl, -⟩ := hwf
  have hruns := fun {c' tr} =>
    CntrLine.runsTo (i := .clearIf b) (c' := c') (tr := tr) hready rfl rfl (clear_cntrLine s.params b) rfl
  refine ⟨fun st a hp hrow => ?paused, fun hidle => ?idle⟩
  case paused =>
    have ht : triggerAction st false false x.core.data = .next a := by
      rcases hrow with ⟨hst, rfl⟩ | ⟨hst, rfl⟩ | ⟨hst, rfl⟩ | ⟨rfl, rfl⟩
      · exact triggerAction_afterStart hst
      · exact triggerAction_txData hst
      · exact triggerAction_rxData hst
      · exact triggerAction_arbLost
    exact hruns (writeCntr_clrForm_triggers hl hp hcan ht) (busTrace_triggerEvents_of_trigger hp.1 rfl)
  case idle =>
    have hwrite := writeCntr_idle (stp := x.core.mStp) (ack := x.core.aAck) hidle (clrForm_shows hl x.core)
    obtain ⟨y, h, hrun, -, htr, hcore⟩ := hruns hwrite (busTrace_triggerEvents_of_act_eq rfl)
    exact ⟨y, h, hrun, htr, hcore⟩

/-- Settles O43: the one read shows the code of the core's status, and distinct statuses have distinct codes. -/
theorem isBusyTellsIdleFromTheRest : Obligations.IsBusyTellsIdleFromTheRest := by
  unfold Obligations.IsBusyTellsIdleFromTheRest
  intro s b x hready hwf
  obtain ⟨-, hl, hcodes, -⟩ := hwf
  have hat : RunsAlone b .busy1 x.core (x.nextDraw b) (x.setSeq (begun s.params (.isBusy b) .isBusy)) := ⟨rfl, rfl, rfl⟩
  obtain ⟨y, hlead, hend⟩ := hat.readEnd_step hready.1 (busy1_eq_readEnd _ _ _) (by decide)
  have hbyte : (if statByte s.params (statWord s.params x.core) ≠ statusCode s.params .idle then 0x01#8 else 0x00#8) =
      if x.core.sta = .idle then 0x00#8 else 0x01#8 := by
    rw [statByte_statWord hl, ite_not]
    by_cases hsta : x.core.sta = .idle
    · rw [if_pos hsta, if_pos (congrArg _ hsta)]
    · rw [if_neg hsta, if_neg fun h => hsta (statusCode_inj hcodes h)]
  obtain ⟨y, h, hrun, hn, -, hcore⟩ := hlead.runsTo (i := .isBusy b) hready rfl rfl hend
  exact ⟨y, h, hbyte ▸ hrun, hn, hcore⟩

/-- Settles O44: the keep form with A_ACK set or cleared, written to a core in each situation. -/
theorem ackPrimitivesWriteAAckOnly : Obligations.AckPrimitivesWriteAAckOnly := by
  unfold Obligations.AckPrimitivesWriteAAckOnly
  intro s b x hready hwf hrst hc
  obtain ⟨-, hl, -⟩ := hwf
  constructor
  · exact CntrLine.runsTo (i := .setAck b) hready rfl rfl (setAck_cntrLine s.params b) rfl
      (writeCntr_aAck hrst hc (keepForm_or_aAck_shows hl x.core)) (busTrace_triggerEvents_of_act_eq rfl)
  · exact CntrLine.runsTo (i := .clrAck b) hready rfl rfl (clrAck_cntrLine s.params b) rfl
      (writeCntr_aAck hrst hc (keepForm_and_not_aAck_shows hl x.core)) (busTrace_triggerEvents_of_act_eq rfl)

end Sys2Proof.Machine


/-! PROOFS. The statements of 44_status_waiter.md: the polls of the waiters, the engine's step between two of them, the
waits as requests of their own and at the head of a transaction, and EXPECT with the abort it leads to. -/

namespace Sys2Proof.Machine

open Sys2Proof.Claims

/-! Runs of a waiter -/

/-- A running sequencer makes the step at its label. -/
theorem seqStep_of_running {p : Params} {b : Nat} {x : Inst} {l : Label} (h : x.seq.phase = .running l) :
    x.seqStep p b = stepAt p b l.place l.micro x := by
  rw [Inst.seqStep, h]

/-- `j` steps of one access each, within the `n` for which each step leads on, are one run. -/
theorem Leads.iterate {s : State} {b n : Nat} {P : Nat → Inst → Prop} {x : Inst}
    (hstep : ∀ k y, k < n → P k y → ∃ z, Leads s b [.seq b] y z 1 [] ∧ P (k + 1) z) (hx : P 0 x) (j : Nat) (hj : j ≤ n) :
    ∃ y, Leads s b (seqOnly b j) x y j [] ∧ P j y := by
  induction j with
  | zero => exact ⟨x, Leads.refl s b x, hx⟩
  | succ j ih =>
    obtain ⟨y, hxy, hy⟩ := ih (by omega)
    obtain ⟨z, hyz, hz⟩ := hstep j y (by omega) hy
    refine ⟨z, ?_, hz⟩
    rw [seqOnly_add]
    exact hxy.append hyz

/-- The engine's step depends on the core and the bus's next answer: made on `y` in place of `x` it leaves the same core. -/
theorem Leads.eng_of_same_core {s u : State} {b : Nat} {x y z : Inst} (hget : s.insts[b]? = some x)
    (hstep : agentStep (.eng b) s = .next u) (hz : u.insts[b]? = some z) (hcore : y.core = x.core)
    (hdraw : y.nextDraw b = x.nextDraw b) :
    ∃ y', Leads s b [.eng b] y y' 0 [] ∧ y'.seq = y.seq ∧ y'.core = z.core := by
  rw [agentStep, localStep_of_get _ hget] at hstep
  obtain ⟨z', hcomplete, hu⟩ := bind_eq_next.mp hstep
  cases hu
  obtain rfl : z' = z := Option.some.inj ((setInst_get _ _ _ hget).symm.trans hz)
  rcases completeAct_next hcomplete with ⟨hact, rfl⟩ | ⟨a, c, hact, hc, rfl⟩
  · exact ⟨y, Leads.eng_of_no_action hget (hcore ▸ hact), rfl, hcore⟩
  · rw [← hcore] at hact hc
    rw [← hdraw] at hc
    have heng := agentStep_eng_completes (setInst_get s b y hget) hact hc
    rw [setInst_setInst] at heng
    refine ⟨completed (if drawsAnswer a then y.useDraw else y) a c,
      ⟨by rw [runSchedule, heng]; rfl, [.complete a c.sta], ?history, rfl, rfl⟩, ?seq, rfl⟩
    case history => simp only [completed, withCore, apply_ite Inst.history, useDraw_history, ite_self]
    case seq => simp only [completed, withCore, apply_ite Inst.seq, useDraw_seq, ite_self]

/-- A run of an accepted request's program to its end is a run of the request, whatever it triggers. -/
theorem Leads.runsTo_result {s : State} {i : Instr} {x y : Inst} {o : SeqOp} {n k m : Nat} {as : List Agent}
    {tr : List Action} {c : CoreState} {r : Result} (hlead : Leads s i.bus as (x.setSeq (begun s.params i o)) y m tr)
    (hready : Ready s i.bus x) (hreq : requestOf i = some (o, n, k)) (hrange : i.operandsInRange s.params.nMax = true)
    (hend : Ended c r y) :
    ∃ y h, RunsTo i as s i.bus x r y h ∧ (accesses h).length = m ∧ y.core = c := by
  obtain ⟨y, h, hrun, hm, -, hcore⟩ := hlead.runsTo hready hreq hrange hend
  exact ⟨y, h, hrun, hm, hcore⟩

/-! WAIT_STATUS (rule R210) -/

/-- The instance runs a WAIT_STATUS of its own with a budget of `n` and has made `k` polls; its core is `c`, and `d` is the
bus's next answer. -/
structure WaitPolled (b n : Nat) (c : CoreState) (d : Draw) (k : Nat) (x : Inst) : Prop extends
    RunsAlone b .wait1 c d x where
  polls : x.seq.k = k
  budget : x.seq.budget = n

section WaitStatus
variable {s : State} {b n k : Nat} {w x : Inst} {c : CoreState} {d : Draw} (hget : s.insts[b]? = some w)
include hget

/-- W1 within the budget is one poll of IFLG. -/
theorem WaitPolled.poll {pos : Micro} (hl : s.params.pos.wf) (hx : WaitPolled b n c d k x) (hk : k < n)
    (hpos : (if c.iflg then Micro.wait2 else .wait1) = pos) :
    ∃ y, Leads s b [.seq b] x y 1 [] ∧ RunsAlone b pos c d y ∧ y.seq.k = k + 1 ∧ y.seq.budget = n := by
  obtain ⟨hat, hpolls, hbudget⟩ := hx
  obtain ⟨-, -, -, -, hflag, -⟩ := cntrWord_fields hl c
  have hwithin : x.seq.k ≠ x.seq.budget := by omega
  have hstep : stepAt s.params b .alone .wait1 x = readThen s.params b .cntr (fun v q =>
      { q with c := v, k := q.k + 1 }.at ⟨.alone, if v.getLsbD s.params.pos.iflg then .wait2 else .wait1⟩) x :=
    if_neg hwithin
  have hnext : (if (cntrWord s.params.pos c).getLsbD s.params.pos.iflg then Micro.wait2 else .wait1) = pos := by
    rw [hflag, hpos]
  obtain ⟨y, hxy, hy, hseq⟩ := hat.read_step hget hstep (by decide) (congrArg (fun μ => Phase.running ⟨.alone, μ⟩) hnext)
  refine ⟨y, hxy, hy, ?_, ?_⟩ <;> rw [hseq]
  · exact congrArg (· + 1) hpolls
  · exact hbudget

/-- While the flag is not set any number of polls within the budget leave the program at W1. -/
theorem WaitPolled.polls_lead (hl : s.params.pos.wf) (hflag : c.iflg = false) (hx : WaitPolled b n c d 0 x) {j : Nat}
    (hj : j ≤ n) : ∃ y, Leads s b (seqOnly b j) x y j [] ∧ WaitPolled b n c d j y := by
  refine Leads.iterate (fun k y hk hy => ?_) hx j hj
  obtain ⟨z, hyz, hz, hpolls, hbudget⟩ := hy.poll (pos := .wait1) hget hl hk (by rw [hflag]; rfl)
  exact ⟨z, hyz, hz, hpolls, hbudget⟩

/-- W3 returns what W1 or W2 has put in `w`. -/
theorem wait_ends (hx : RunsAlone b .wait3 c d x) : ∃ y, Leads s b [.seq b] x y 0 [] ∧ Ended c
    (if x.seq.w.timedOut then .fail .timeout (statusCode s.params .busError) else .ok 0 [x.seq.w.status]) y :=
  ⟨_, Leads.seq hget hx.seqStep_eq (List.append_nil _).symm, rfl, rfl, hx.core⟩

/-- A poll that sees the flag is followed by the read of STAT, and the wait returns the status. -/
theorem WaitPolled.returns (hl : s.params.pos.wf) (hflag : c.iflg = true) (hx : WaitPolled b n c d k x) (hk : k < n) :
    ∃ y, Leads s b (seqOnly b 3) x y 2 [] ∧ Ended c (.ok 0 [statusCode s.params c.sta]) y := by
  obtain ⟨y1, h1, hy1, -⟩ := hx.poll (pos := .wait2) hget hl hk (if_pos hflag)
  obtain ⟨y2, h2, hy2, hseq⟩ := hy1.read_step (r := .stat) (ν := .wait3)
    (f := fun v q => { q with s := statByte s.params v, w := ⟨false, statByte s.params v⟩ }.at ⟨.alone, .wait3⟩)
    hget rfl (by decide) rfl
  obtain ⟨y3, h3, hy3⟩ := wait_ends hget hy2
  have hw : y2.seq.w = ⟨false, statusCode s.params c.sta⟩ := by
    rw [← statByte_statWord hl, hseq]
    rfl
  rw [hw] at hy3
  exact ⟨y3, h1.append (h2.append h3), hy3⟩

/-- At the end of the budget the wait times out without a further access. -/
theorem WaitPolled.timesOut (hx : WaitPolled b n c d n x) :
    ∃ y, Leads s b (seqOnly b 2) x y 0 [] ∧ Ended c (.fail .timeout (statusCode s.params .busError)) y := by
  obtain ⟨hat, hpolls, hbudget⟩ := hx
  have hstep : stepAt s.params b .alone .wait1 x = silently (.next
      ({ x.seq with w := ⟨true, statusCode s.params .busError⟩ }.at ⟨.alone, .wait3⟩)) x :=
    if_pos (hpolls.trans hbudget.symm)
  obtain ⟨y, hy, hend⟩ := wait_ends (d := d) hget (x := x.setSeq
    ({ x.seq with w := ⟨true, statusCode s.params .busError⟩ }.at ⟨.alone, .wait3⟩)) ⟨rfl, hat.core, hat.draw⟩
  exact ⟨y, (Leads.seq hget (hat.seqStep_eq.trans hstep) (List.append_nil _).symm).append hy, hend⟩

end WaitStatus

/-- Settles O45: the wait sees the flag at the first poll, or at the poll after the engine's step, or uses up its budget. -/
theorem waitStatusReturnsOrTimesOut : Obligations.WaitStatusReturnsOrTimesOut := by
  unfold Obligations.WaitStatusReturnsOrTimesOut
  intro s b budget x hready hwf
  have ⟨hget, _⟩ := hready
  obtain ⟨-, hl, -⟩ := hwf
  have hat : WaitPolled b budget x.core (x.nextDraw b) 0
      (x.setSeq (begun s.params (.waitStatus b budget) .waitStatus)) := ⟨⟨rfl, rfl, rfl⟩, rfl, rfl⟩
  refine ⟨fun hflag hb => ?seen, fun j u z hflag hj heng hz hset => ?afterPolls, fun hflag => ?timeout⟩
  case seen =>
    obtain ⟨y, hlead, hend⟩ := hat.returns hget hl hflag hb
    exact hlead.runsTo_result (i := .waitStatus b budget) hready rfl rfl hend
  case afterPolls =>
    obtain ⟨y1, h1, hy1⟩ := hat.polls_lead hget hl hflag hj.le
    obtain ⟨y2, h2, hseq, hcore⟩ := Leads.eng_of_same_core hget heng hz hy1.core hy1.draw
    have hy2 : WaitPolled b budget z.core (y2.nextDraw b) j y2 :=
      ⟨⟨hseq ▸ hy1.phase, hcore, rfl⟩, hseq ▸ hy1.polls, hseq ▸ hy1.budget⟩
    obtain ⟨y3, h3, hy3⟩ := hy2.returns hget hl hset hj
    have hlead := h1.append (h2.append h3)
    rw [Nat.zero_add] at hlead
    exact hlead.runsTo_result (i := .waitStatus b budget) hready rfl rfl hy3
  case timeout =>
    have hpolls : ∃ y, Leads s b (seqOnly b budget) (x.setSeq (begun s.params (.waitStatus b budget) .waitStatus)) y
        budget [] ∧ WaitPolled b budget x.core (x.nextDraw b) budget y := by
      rcases hflag with hflag | rfl
      · exact hat.polls_lead hget hl hflag le_rfl
      · exact ⟨_, Leads.refl s b _, hat⟩
    obtain ⟨y1, h1, hy1⟩ := hpolls
    obtain ⟨y2, h2, hy2⟩ := hy1.timesOut hget
    rw [seqOnly_add]
    exact (h1.append h2).runsTo_result (i := .waitStatus b budget) hready rfl rfl hy2

/-! WAIT_IDLE and T1 (rule R211, 45_transactions.md rule R237) -/

section WaitIdle
variable {p : Params} {b : Nat} {place : Place} {n k : Nat} {x y : Inst}

/-- A poll of WAIT_IDLE sees the instance busy: in a status other than IDLE, or with an action that a timed-out transaction
left. -/
abbrev SeenBusy (x : Inst) : Prop := x.core.sta ≠ .idle ∨ HeldBusy x

/-- The test of I1 tells a busy instance from an idle one. -/
theorem idleTest_iff (hwf : p.wf) :
    statByte p (x.readValue p b .stat) ≠ statusCode p .idle ∨ x.heldBusy = true ↔ SeenBusy x := by
  obtain ⟨-, hl, hcodes, -⟩ := hwf
  have hread : statByte p (x.readValue p b .stat) = statusCode p x.core.sta := statByte_statWord hl x.core
  rw [hread]
  refine or_congr (not_congr ⟨statusCode_inj hcodes, congrArg _⟩) ?_
  simp [Inst.heldBusy, Option.isSome_iff_ne_none]

/-- The sequencer's registers after a poll of STAT that read the code of `st`. -/
def polledStat (p : Params) (st : Status) (q : Seq) : Seq := { q with s := statusCode p st, k := q.k + 1 }

/-- I1 sees a busy instance: the program stays there. -/
theorem idle_stays (hwf : p.wf) (hphase : y.seq.phase = .running ⟨place, .idle1⟩)
    (hk : y.seq.k ≠ idleBudgetAt p place y.seq) (hbusy : SeenBusy y) :
    y.seqStep p b = .next ((y.log [.read .stat (statWord p y.core)]).setSeq
      ((polledStat p y.core.sta y.seq).at ⟨place, .idle1⟩)) := by
  have ⟨_, hl, _⟩ := hwf
  rw [seqStep_of_running hphase, polledStat, ← statByte_statWord hl]
  exact (if_neg hk).trans (if_pos ((idleTest_iff hwf).mpr hbusy))

/-- I1 sees an idle instance: the line ends. -/
theorem idle_goesOn (hwf : p.wf) (hphase : y.seq.phase = .running ⟨place, .idle1⟩)
    (hk : y.seq.k ≠ idleBudgetAt p place y.seq) (hidle : ¬ SeenBusy y) :
    y.seqStep p b = Out.bind (afterLine p place (.ok 0 []) (polledStat p y.core.sta y.seq)) fun q =>
      .next ((y.log [.read .stat (statWord p y.core)]).setSeq q) := by
  have ⟨_, hl, _⟩ := hwf
  rw [seqStep_of_running hphase, polledStat, ← statByte_statWord hl]
  exact (if_neg hk).trans (if_neg (mt (idleTest_iff hwf).mp hidle))

/-- I1 at the end of the budget: the request fails without an access. -/
theorem idle_fails (hphase : y.seq.phase = .running ⟨place, .idle1⟩) (hk : y.seq.k = idleBudgetAt p place y.seq) :
    y.seqStep p b = .next (y.setSeq (y.seq.finish (.fail .busy y.seq.s))) := by
  rw [seqStep_of_running hphase]
  exact if_pos hk

/-- Instance `y` is what `x` has become after `k` polls of a WAIT_IDLE at a place with a budget of `n`, with no step of the
engine between. -/
structure IdlePolled (p : Params) (b : Nat) (place : Place) (n : Nat) (x : Inst) (k : Nat) (y : Inst) : Prop where
  phase : y.seq.phase = .running ⟨place, .idle1⟩
  polls : y.seq.k = k
  budget : idleBudgetAt p place y.seq = n
  last : y.seq.s = statusCode p (if k = 0 then .busError else x.core.sta)
  core : y.core = x.core
  stranded : y.stranded = x.stranded
  draw : y.nextDraw b = x.nextDraw b

theorem IdlePolled.seenBusy_iff (h : IdlePolled p b place n x k y) : SeenBusy y ↔ SeenBusy x := by
  rw [SeenBusy, HeldBusy, h.core, h.stranded]

theorem idleBudgetAt_congr {q q' : Seq} (h : q'.budget = q.budget) : idleBudgetAt p place q' = idleBudgetAt p place q := by
  cases place
  case alone => exact h
  all_goals rfl

/-- A request whose program begins with I1 has made no poll where it begins. -/
theorem idlePolled_begun {i : Instr} {o : SeqOp} (hfirst : firstLabel o = ⟨place, .idle1⟩)
    (hbudget : idleBudgetAt p place (begun p i o) = n) : IdlePolled p b place n x 0 (x.setSeq (begun p i o)) := by
  refine ⟨?phase, ?polls, hbudget, ?last, rfl, rfl, rfl⟩
  case phase => rw [setSeq_seq, begun, begin_phase, hfirst]
  all_goals rw [setSeq_seq, begun, hfirst]; rfl

end WaitIdle

section IdleRuns
variable {s : State} {b : Nat} {x y z : Inst} {place : Place} {n k : Nat} (hget : s.insts[b]? = some x) (hwf : s.params.wf)
include hget hwf

theorem IdlePolled.poll (hy : IdlePolled s.params b place n x k y) (hk : k < n) (hbusy : SeenBusy x) :
    ∃ z, Leads s b [.seq b] y z 1 [] ∧ IdlePolled s.params b place n x (k + 1) z := by
  have hstep := idle_stays (b := b) hwf hy.phase (by rw [hy.polls, hy.budget]; exact hk.ne) (hy.seenBusy_iff.mpr hbusy)
  refine ⟨_, Leads.seq hget hstep rfl, rfl, congrArg (· + 1) hy.polls, ?budget, ?last, hy.core, hy.stranded, hy.draw⟩
  case budget => exact (idleBudgetAt_congr rfl).trans hy.budget
  case last => rw [if_neg k.succ_ne_zero, ← hy.core]; rfl

/-- While the instance is seen busy any number of polls within the budget leave the program at I1. -/
theorem IdlePolled.polls_lead (hx : IdlePolled s.params b place n x 0 y) {j : Nat} (hj : j ≤ n)
    (hbusy : SeenBusy x ∨ j = 0) :
    ∃ z, Leads s b (seqOnly b j) y z j [] ∧ IdlePolled s.params b place n x j z := by
  rcases hbusy with hbusy | rfl
  · exact Leads.iterate (fun k y hk hy => hy.poll hget hwf hk hbusy) hx j hj
  · exact ⟨y, Leads.refl s b y, hx⟩

/-- With every poll of the budget seen busy the request fails with the status last read. -/
theorem IdlePolled.ends_busy (hx : IdlePolled s.params b place n x 0 y) (hbusy : SeenBusy x ∨ n = 0) :
    ∃ z, Leads s b (seqOnly b (n + 1)) y z n [] ∧
      Ended x.core (.fail .busy (statusCode s.params (if n = 0 then .busError else x.core.sta))) z := by
  obtain ⟨z, hyz, hz⟩ := hx.polls_lead hget hwf le_rfl hbusy
  have hstep := idle_fails (b := b) hz.phase (hz.polls.trans hz.budget.symm)
  have hlead := hyz.append (Leads.seq hget hstep (List.append_nil _).symm)
  rw [seqOnly_add]
  exact ⟨_, hlead, rfl, congrArg (fun st => some (Result.fail .busy st)) hz.last, hz.core⟩

/-- A poll that sees the instance idle ends the line, in registers as the line's end leaves them. -/
theorem idle_ends {P : Seq → Prop} (hend : ∀ q, ∃ q', afterLine s.params place (.ok 0 []) q = .next q' ∧ P q')
    (hphase : y.seq.phase = .running ⟨place, .idle1⟩) (hk : y.seq.k ≠ idleBudgetAt s.params place y.seq)
    (hidle : ¬ SeenBusy y) : ∃ z, Leads s b [.seq b] y z 1 [] ∧ z.core = y.core ∧ P z.seq := by
  obtain ⟨q, hq, hP⟩ := hend (polledStat s.params y.core.sta y.seq)
  have hstep := idle_goesOn (b := b) hwf hphase hk hidle
  rw [hq, bind_next] at hstep
  exact ⟨_, Leads.seq hget hstep rfl, rfl, hP⟩

/-- After `j` polls the engine's step leaves the core idle: the next poll ends the line. -/
theorem IdlePolled.ends_idle {P : Seq → Prop} {u : State} {j : Nat}
    (hend : ∀ q, ∃ q', afterLine s.params place (.ok 0 []) q = .next q' ∧ P q')
    (hy : IdlePolled s.params b place n x 0 y) (hj : j < n) (hbusy : SeenBusy x ∨ j = 0)
    (heng : agentStep (.eng b) s = .next u) (hz : u.insts[b]? = some z) (hsta : z.core.sta = .idle)
    (hact : z.core.act = none) :
    ∃ y', Leads s b (seqOnly b j ++ [.eng b, .seq b]) y y' (j + 1) [] ∧ y'.core = z.core ∧ P y'.seq := by
  obtain ⟨y1, h1, hy1⟩ := hy.polls_lead hget hwf hj.le hbusy
  obtain ⟨y2, h2, hseq, hcore⟩ := Leads.eng_of_same_core hget heng hz hy1.core hy1.draw
  have hidle : ¬ SeenBusy y2 := by simp [SeenBusy, hcore, hsta, hact]
  obtain ⟨y3, h3, hcore', hP⟩ := idle_ends hget hwf hend (hseq ▸ hy1.phase)
    (by rw [hseq, hy1.polls, hy1.budget]; exact hj.ne) hidle
  have hlead := h1.append (h2.append h3)
  rw [Nat.zero_add] at hlead
  exact ⟨y3, hlead, hcore'.trans hcore, hP⟩

end IdleRuns

/-- The program of a transaction begins with T1. -/
theorem firstLabel_of_transaction {o : SeqOp} (h : o ∈ transactions) : firstLabel o = ⟨.t1, .idle1⟩ := by
  revert h
  cases o <;> decide

/-- Settles O46: alone and at T1 the wait is the same run, which sees the instance idle at the first poll, at the poll after
the engine's step, or at none within the budget. -/
theorem waitIdleSucceedsOrFailsBusy : Obligations.WaitIdleSucceedsOrFailsBusy := by
  unfold Obligations.WaitIdleSucceedsOrFailsBusy
  intro s b x hready hwf busy
  have ⟨hget, _⟩ := hready
  have hposts : ∀ q, ∃ q', afterLine s.params .alone (.ok 0 []) q = .next q' ∧ q'.phase = .done ∧
      q'.res = some (.ok 0 []) := fun _ => ⟨_, rfl, rfl, rfl⟩
  have hgoesOn : ∀ q, ∃ q', afterLine s.params .t1 (.ok 0 []) q = .next q' ∧ q'.phase = .running ⟨.t2, .start1⟩ :=
    fun _ => ⟨_, rfl, rfl⟩
  have halone : ∀ budget, IdlePolled s.params b .alone budget x 0
      (x.setSeq (begun s.params (.waitIdle b budget) .waitIdle)) := fun _ => idlePolled_begun rfl rfl
  have hfirst : ∀ {i : Instr} {op : SeqOp}, op ∈ transactions →
      IdlePolled s.params b .t1 s.params.idleBudget x 0 (x.setSeq (begun s.params i op)) :=
    fun hop => idlePolled_begun (firstLabel_of_transaction hop) rfl
  refine ⟨fun budget hsta hheld hb => ?idle, fun j u z hbusy heng hz hsta hact => ⟨fun budget hj => ?afterPolls,
    fun i op n k hi hreq hop hrange hj => ?goesOn⟩, fun budget hbusy => ?fails,
    fun i op n k hi hreq hop hrange hbusy => ?t1Fails⟩
  case idle =>
    have hidle : ¬ SeenBusy x := not_or.mpr ⟨not_not.mpr hsta, hheld⟩
    obtain ⟨y, hlead, hcore, hphase, hres⟩ := idle_ends (y := x.setSeq _) hget hwf hposts (halone budget).phase
      (by rw [(halone budget).polls, (halone budget).budget]; omega) hidle
    exact hlead.runsTo_result (i := .waitIdle b budget) hready rfl rfl ⟨hphase, hres, hcore⟩
  case afterPolls =>
    obtain ⟨y, hlead, hcore, hphase, hres⟩ :=
      (halone budget).ends_idle hget hwf hposts hj (or_assoc.mpr hbusy) heng hz hsta hact
    exact hlead.runsTo_result (i := .waitIdle b budget) hready rfl rfl ⟨hphase, hres, hcore⟩
  case goesOn =>
    subst hi
    obtain ⟨y, ⟨hrun, -⟩, hcore, hphase⟩ :=
      (hfirst hop).ends_idle hget hwf hgoesOn hj (or_assoc.mpr hbusy) heng hz hsta hact
    exact ⟨_, _, y, exec_request_begins hready hreq hrange, hrun, setInst_get _ _ _ hget, hphase, hcore⟩
  case fails =>
    obtain ⟨y, hlead, hend⟩ := (halone budget).ends_busy hget hwf (or_assoc.mpr hbusy)
    exact hlead.runsTo_result (i := .waitIdle b budget) hready rfl rfl hend
  case t1Fails =>
    subst hi
    obtain ⟨y, hlead, hend⟩ := (hfirst hop).ends_busy hget hwf (or_assoc.mpr hbusy)
    exact hlead.runsTo_result hready hreq hrange hend

/-! EXPECT (rules R212, R213) -/

/-- The model's table of the expected statuses is the spec's. -/
theorem expectedAt_eq_expects (p : Place) : expectedAt p = expects p := by cases p <;> rfl

theorem ne_alone_of_expects {p : Place} {st : Status} (h : expects p = some st) : p ≠ .alone := by
  rintro rfl
  cases h

/-- Where a wait of a transaction runs, `exp` holds the code of the status expected there. -/
theorem exp_of_inv {s : State} {b : Nat} {x : Inst} {p : Place} {st : Status} (hs : s.inv) (hx : s.insts[b]? = some x)
    (hphase : x.seq.phase = .running ⟨p, .wait3⟩) (hst : expects p = some st) : x.seq.exp = statusCode s.params st := by
  obtain ⟨-, -, hq, -⟩ := hs.inst hx
  simp only [Seq.inv, hphase] at hq
  obtain ⟨-, -, -, -, -, hexp⟩ := hq
  exact hexp (show Micro.wait3 ∈ _ by decide) st ((expectedAt_eq_expects p).trans hst)

/-- At a place of a transaction the end of a wait is EXPECT. -/
theorem waitEnd_of_ne_alone {cfg : Params} {p : Place} (h : p ≠ .alone) (q : Seq) : waitEnd cfg p q =
    if q.w.timedOut then .next (q.abort cfg .timeout (statusCode cfg .busError))
    else if q.w.status ≠ q.exp then .next (q.abort cfg .mismatch q.w.status)
    else afterLine cfg p (.ok 0 []) q := by
  cases p
  case alone => exact absurd rfl h
  all_goals rfl

/-- A timeout ends the request at once. -/
theorem abort_timeout (cfg : Params) (q : Seq) (code : Byte) :
    q.abort cfg .timeout code = q.finish (.fail .timeout code) := by
  have hkind : (cfg.stopOnAbort && FailKind.timeout == .mismatch) = false := Bool.and_false _
  rw [Seq.abort, hkind]
  rfl

/-- A mismatch sends STOP first under `STOP_ON_ABORT`. -/
theorem abort_mismatch (cfg : Params) (q : Seq) (code : Byte) : q.abort cfg .mismatch code =
    if cfg.stopOnAbort then q.at ⟨.abort, .stop1⟩ else q.finish (.fail .mismatch code) := by
  have hkind : (cfg.stopOnAbort && FailKind.mismatch == .mismatch) = cfg.stopOnAbort := Bool.and_true _
  rw [Seq.abort, hkind]
  rfl

section WaitEnds
variable {cfg : Params} {p : Place} {q : Seq} (hp : p ≠ .alone)
include hp

theorem waitEnd_timedOut (hw : q.w.timedOut = true) :
    waitEnd cfg p q = .next (q.finish (.fail .timeout (statusCode cfg .busError))) := by
  rw [waitEnd_of_ne_alone hp, if_pos hw, abort_timeout]

theorem waitEnd_mismatch (hw : q.w.timedOut = false) (hne : q.w.status ≠ q.exp) : waitEnd cfg p q =
    .next (if cfg.stopOnAbort then q.at ⟨.abort, .stop1⟩ else q.finish (.fail .mismatch q.w.status)) := by
  rw [waitEnd_of_ne_alone hp, hw, if_neg Bool.false_ne_true, if_pos hne, abort_mismatch]

theorem waitEnd_expected (hw : q.w.timedOut = false) (heq : q.w.status = q.exp) :
    waitEnd cfg p q = afterLine cfg p (.ok 0 []) q := by
  rw [waitEnd_of_ne_alone hp, hw, if_neg Bool.false_ne_true, if_neg (not_not.mpr heq)]

end WaitEnds

theorem readsAfterT7_eq_true {op : Option SeqOp} :
    readsAfterT7 op = true ↔ op = some .masterRead ∨ op = some .deviceRead := by
  cases op with
  | none => decide
  | some o => simp [readsAfterT7_iff, readOps]

/-- After an expected status the program goes on as the spec's table of the steps says. -/
theorem afterLine_of_afterExpected {cfg : Params} {p : Place} {q : Seq} {l : Label} {i : Nat}
    (h : afterExpected q.op p q.i = some (l, i)) (r : Result) :
    afterLine cfg p r q = .next { q with phase := .running l, i := i } := by
  cases p <;> simp only [afterExpected, reduceCtorEq, Option.some.injEq, Prod.mk.injEq] at h
  case t7 =>
    have hline : afterLine cfg .t7 r q =
        .next ({ q with i := 0 }.goto cfg (if readsAfterT7 q.op then .r8 else .w8)) := rfl
    split at h <;> cases h
    next hreads => rw [hline, if_pos (readsAfterT7_eq_true.mpr hreads)]; rfl
    next hwrites => rw [hline, if_neg (mt readsAfterT7_eq_true.mp hwrites)]; rfl
  all_goals obtain ⟨rfl, rfl⟩ := h; rfl

/-- The last step of a wait in a transaction: EXPECT, and the note of an action that a timeout leaves in flight. -/
theorem expect_step {s : State} {b : Nat} {x : Inst} {p : Place} {q : Seq} (hx : s.insts[b]? = some x)
    (hphase : x.seq.phase = .running ⟨p, .wait3⟩) (hp : p ≠ .alone) (hq : waitEnd s.params p x.seq = .next q) :
    agentStep (.seq b) s =
      .next (s.setInst b ((x.noteStranded (x.seq.w.timedOut && x.core.act.isSome)).setSeq q)) := by
  rw [agentStep, localStep_of_get _ hx, seqStep_of_running hphase, stepAt, waitLast, decide_eq_true hp, Bool.true_and, hq]
  rfl

/-! The abort (rule R213) -/

/-- What a STOP request triggers on a core paused in `st` (41_bus_engine.md rule R142). -/
abbrev StopRow (st : Status) (a : Action) : Prop :=
  (st ∈ masterSet ∧ a = .stop) ∨ (st = .busError ∧ a = .berrRelease) ∨ (st = .arbLost ∧ a = Action.release)

theorem triggerAction_of_stopRow {st : Status} {a : Action} (h : StopRow st a) (d : Byte) :
    triggerAction st false true d = .next a := by
  rcases h with ⟨hst, rfl⟩ | ⟨rfl, rfl⟩ | ⟨rfl, rfl⟩
  · exact triggerAction_stop hst
  · exact triggerAction_busError
  · exact triggerAction_arbLost

/-- SEND_STOP's value lets a paused core do what the table answers to the STOP request. -/
theorem writeCntr_stop {p : Params} {c : CoreState} {st : Status} {a : Action} (hl : p.pos.wf) (hp : c.isPausedIn st)
    (hcan : c.canTrigger) (hrow : StopRow st a) :
    writeReg p .cntr (clrForm p (cntrWord p.pos c) ||| bitMask p.pos.mStp) c = .next
      { c with iflg := false, mStp := true, act := some a } := by
  have ⟨_, _, _, hsta, _⟩ := hp
  have ht : triggerAction st c.mSta true c.data = .next a := by
    rw [hsta]
    exact triggerAction_of_stopRow hrow c.data
  have hnot : a ≠ .rxData := by
    rcases hrow with ⟨-, rfl⟩ | ⟨-, rfl⟩ | ⟨-, rfl⟩ <;> decide
  have hwrite := writeCntr_paused_clear (sta := c.mSta) hp hcan (clrForm_or_mStp_shows hl c)
  rwa [ht, bind_next, if_neg hnot] at hwrite

/-- A step whose write is performed ends its line after the write. -/
theorem writeEnd_of_performed {cfg : Params} {r : Reg} {v : Word} {p : Place} {res : Result} {x : Inst} {c : CoreState}
    {q : Seq} (hw : writeReg cfg r v x.core = .next c) (hq : afterLine cfg p res x.seq = .next q) :
    writeEnd cfg r v p res x = .next (((x.setCore c).log (.write r v :: triggerEvents x.core c)).setSeq q) := by
  rw [writeEnd, Inst.write, hw, bind_next, bind_next, hq, bind_next]

/-- The instance after the abort's read of CNTR. -/
def abortRead (p : Params) (x : Inst) : Inst :=
  (x.log [.read .cntr (cntrWord p.pos x.core)]).setSeq ({ x.seq with c := cntrWord p.pos x.core }.at ⟨.abort, .stop2⟩)

/-- From its first label the abort reads CNTR, writes SEND_STOP's value to it, binds that result and posts the mismatch. -/
theorem abort_runs {s : State} {b : Nat} {x : Inst} {c : CoreState} (hx : s.insts[b]? = some x)
    (hphase : x.seq.phase = .running ⟨.abort, .stop1⟩)
    (hw : writeReg s.params .cntr (clrForm s.params (cntrWord s.params.pos x.core) ||| bitMask s.params.pos.mStp) x.core =
      .next c) : ∃ y, Leads s b (seqOnly b 2) x y 2 (busTrace (triggerEvents x.core c)) ∧
      Ended c (.fail .mismatch x.seq.w.status) y ∧ y.seq.bound = some (.ok 0 []) := by
  have hread : x.seqStep s.params b = .next (abortRead s.params x) := seqStep_of_running hphase
  have hwrite := (seqStep_of_running (b := b) (x := abortRead s.params x) (l := ⟨.abort, .stop2⟩) rfl).trans
    (writeEnd_of_performed (p := .abort) (res := .ok 0 []) hw rfl)
  have hlead := Leads.seq hx hwrite rfl
  rw [accesses_of_write] at hlead
  exact ⟨_, (Leads.seq hx hread rfl).append hlead, ⟨rfl, rfl, rfl⟩, rfl⟩

/-- Settles O53: EXPECT by the waiter's result, at the places the spec's table names, and the two steps of the abort. -/
theorem expectAbortsOnAnyMismatch : Obligations.ExpectAbortsOnAnyMismatch := by
  unfold Obligations.ExpectAbortsOnAnyMismatch
  intro s b x p hx
  refine ⟨fun st l i hphase hst hnext => ?expect, fun st a hphase hwf hcan hpaused hrow => ?abort⟩
  case expect =>
    have hp := ne_alone_of_expects hst
    have hstep := fun {q} => expect_step (q := q) hx hphase hp
    refine ⟨fun hs => exp_of_inv hs hx hphase hst, fun hw => ?timeout, fun hw hne hstop => ?stops,
      fun hw hne hstop => ?posts, fun hw heq => ?goesOn⟩
    case timeout => rw [hstep (waitEnd_timedOut hp hw), hw]; rfl
    case stops => rw [hstep (waitEnd_mismatch hp hw hne), hw, hstop]; rfl
    case posts => rw [hstep (waitEnd_mismatch hp hw hne), hw, hstop]; rfl
    case goesOn => rw [hstep ((waitEnd_expected hp hw heq).trans (afterLine_of_afterExpected hnext _)), hw]; rfl
  case abort =>
    obtain ⟨-, hl, -⟩ := hwf
    have ⟨hact, _⟩ := hpaused
    obtain ⟨y, ⟨hrun, h, hhist, -, htr⟩, hend, hbound⟩ := abort_runs hx hphase (writeCntr_stop hl hpaused hcan hrow)
    rw [setInst_self _ _ _ hx] at hrun
    rw [busTrace_triggerEvents_of_trigger hact rfl] at htr
    exact ⟨y, h, hrun, hend.phase, hend.res, hbound, hhist, htr, hend.core⟩

end Sys2Proof.Machine


/-! PROOFS. The statements of 45_transactions.md: the acceptance of a request and the taking of its result, the relation
between a transaction's label and its core that every step keeps, INIT, and the eager runs of the four transactions. -/

namespace Sys2Proof.Machine

open Sys2Proof.Claims

/-! The acceptance of a request and the taking of its result (rule R230) -/

theorem chipReg_toNat {a : Nat} (h : a ≤ 0x7F) : (chipReg a).toNat = a := Nat.mod_eq_of_lt (by omega)

theorem byteReg_toNat {v : Nat} (h : v ≤ 0xFF) : (byteReg v).toNat = v := Nat.mod_eq_of_lt (by omega)

theorem map_byteReg_toNat {vs : List Nat} (h : ∀ v ∈ vs, v ≤ 0xFF) : (vs.map byteReg).map BitVec.toNat = vs := by
  rw [List.map_map]
  exact (List.map_congr_left fun v hv => byteReg_toNat (h v hv)).trans (List.map_id vs)

/-- Beginning a line leaves the operands. -/
theorem loaded_begin (i : Instr) (cfg : Params) (q : Seq) (l : Label) : Loaded i (q.begin cfg l) ↔ Loaded i q := by
  unfold Seq.begin
  split <;> cases i <;> exact Iff.rfl

/-- Operands in range are held whole by their registers (10_state.md rule R40). -/
theorem loadOperands_loaded {i : Instr} {nMax : Nat} (h : i.operandsInRange nMax = true) (q : Seq) :
    Loaded i (loadOperands i q) := by
  cases i
  case sendData b v => exact congrArg (fun w => [w]) (byteReg_toNat (of_decide_eq_true h))
  case masterWrite b a u bs =>
    simp only [Instr.operandsInRange, chipInRange, byteInRange, Bool.and_eq_true, decide_eq_true_eq, List.all_eq_true] at h
    obtain ⟨⟨⟨hchip, hsub⟩, hbytes⟩, -⟩ := h
    exact ⟨chipReg_toNat hchip, byteReg_toNat hsub, rfl, map_byteReg_toNat hbytes⟩
  case masterRead b a u n =>
    simp only [Instr.operandsInRange, chipInRange, byteInRange, Bool.and_eq_true, decide_eq_true_eq] at h
    obtain ⟨⟨⟨hchip, hsub⟩, -⟩, -⟩ := h
    exact ⟨chipReg_toNat hchip, byteReg_toNat hsub, rfl⟩
  case deviceWrite b a u v =>
    simp only [Instr.operandsInRange, chipInRange, byteInRange, Bool.and_eq_true, decide_eq_true_eq] at h
    obtain ⟨⟨hchip, hsub⟩, hv⟩ := h
    exact ⟨chipReg_toNat hchip, byteReg_toNat hsub, rfl, congrArg (fun w => [w]) (byteReg_toNat hv)⟩
  case deviceRead b a u =>
    simp only [Instr.operandsInRange, chipInRange, byteInRange, Bool.and_eq_true, decide_eq_true_eq] at h
    obtain ⟨hchip, hsub⟩ := h
    exact ⟨chipReg_toNat hchip, byteReg_toNat hsub, rfl⟩
  case init b hz own =>
    refine ⟨rfl, ?_⟩
    cases own with
    | none => rfl
    | some a => exact congrArg some (chipReg_toNat (of_decide_eq_true (Bool.and_eq_true_iff.mp h).2))
  case waitStatus | waitIdle | configureClock => rfl
  all_goals trivial

theorem loadOperands_rbuf (i : Instr) (q : Seq) : (loadOperands i q).rbuf = q.rbuf := by cases i <;> rfl

/-- Settles O36: the accepted request's registers are fresh ones with the operands loaded. -/
theorem validRequestsAreAccepted : Obligations.ValidRequestsAreAccepted := by
  unfold Obligations.ValidRequestsAreAccepted
  intro i s x op n k hready hreq hrange
  refine ⟨_, exec_request_begins hready hreq hrange, begin_phase _ _ _, ?op, ?res, ?rbuf, ?loaded⟩
  case op => rw [begin_op, loadOperands_op]
  case res => rw [begin_res, loadOperands_res]; rfl
  case rbuf => rw [begin_rbuf, loadOperands_rbuf]; rfl
  case loaded => exact (loaded_begin _ _ _ _).mpr (loadOperands_loaded hrange _)

/-- Settles O37: the request is answered at once, and the answer is posted in its fresh registers. -/
theorem invalidRequestsFail : Obligations.InvalidRequestsFail := by
  unfold Obligations.InvalidRequestsFail
  intro i s x op n k hready hreq hrange
  exact ⟨_, exec_request_invalid hready hreq hrange, rfl, rfl⟩

/-- Settles O56: the host's take is enabled, since the request does not run, and is `Inst.takeResult`. -/
theorem takingTheResultFreesTheSequencer : Obligations.TakingTheResultFreesTheSequencer := by
  unfold Obligations.TakingTheResultFreesTheSequencer
  intro s b x r rest sc hf hr hi hs hx hphase hres
  have hnotRunning : cmdEnabled (.take b) s = true := by simp [cmdEnabled, hx, hphase, Phase.isRunning]
  have htake : x.takeResult = (x.setSeq Seq.unwritten).log [.taken r] := by simp [Inst.takeResult, hphase, hres]
  rw [step_host hf hr hi hs hnotRunning, runCmd, runTake,
    onInst_of_get (s := { s with inbox := rest, sched := sc }) _ hx, bind_next, htake]
  rfl

/-! A transaction's core and its label suit each other (rules R231 to R234, 70_reset_and_hazards.md rule R302) -/

/-- The steps that write a value made of the CNTR value read before. -/
abbrev writingBack : List Micro := [.start2, .stop2, .data3, .clear2, .setAck2, .clrAck2]

/-- Transaction `o` stands at step `μ` of place `p`, with registers that meet the sequencer's invariant and a core that
suits the label: what `Suits` says of a running sequencer. -/
structure Transacts (cfg : Params) (o : SeqOp) (p : Place) (μ : Micro) (x : Inst) : Prop where
  transaction : o ∈ transactions
  runs : RunsAt o p x.seq
  micro : μ ∈ microsAt o p
  buffer : bufferOk p x.seq
  polls : pollsOk cfg ⟨p, μ⟩ x.seq
  expected : expOk cfg ⟨p, μ⟩ x.seq
  can : x.core.canTrigger
  cntr : μ ∈ writingBack → x.seq.c = cntrWord cfg.pos x.core
  core : CoreSuits cfg ⟨p, μ⟩ x.seq.w x.core

theorem suits_of_done {cfg : Params} {x : Inst} (h : x.seq.phase = .done) : Suits cfg x := by
  simp only [Suits, h]

theorem transacts_of_suits {cfg : Params} {p : Place} {μ : Micro} {x : Inst} (h : Suits cfg x)
    (hphase : x.seq.phase = .running ⟨p, μ⟩) : ∃ o, Transacts cfg o p μ x := by
  simp only [Suits, Seq.inv, hphase] at h
  obtain ⟨⟨o, ho, hop⟩, ⟨hres, hlabel, hpay, hbuf, hpolls, hexp⟩, hcan, hcntr, hcore⟩ := h
  rw [hop] at hlabel
  exact ⟨o, ho, ⟨hres, hop, hlabel.1, hpay⟩, hlabel.2, hbuf, hpolls, hexp, hcan, hcntr, hcore⟩

/-- A running sequencer that meets its invariant suits a core that suits its label. -/
theorem suits_of_running {cfg : Params} {o : SeqOp} {l : Label} {x : Inst} (ho : o ∈ transactions)
    (hop : x.seq.op = some o) (hphase : x.seq.phase = .running l) (hinv : x.seq.inv cfg) (hcan : x.core.canTrigger)
    (hcntr : l.micro ∈ writingBack → x.seq.c = cntrWord cfg.pos x.core) (hcore : CoreSuits cfg l x.seq.w x.core) :
    Suits cfg x := by
  simp only [Suits, hphase]
  exact ⟨⟨o, ho, hop⟩, hinv, hcan, hcntr, hcore⟩

/-! The lines of the transactions' programs -/

/-- The first step of the line a step belongs to. -/
def lineHead : Micro → Micro
  | .start1 | .start2 | .start3 | .start4 => .start1
  | .stop1 | .stop2 => .stop1
  | .data1 | .data2 | .data3 => .data1
  | .clear1 | .clear2 => .clear1
  | .setAck1 | .setAck2 => .setAck1
  | .clrAck1 | .clrAck2 => .clrAck1
  | .wait1 | .wait2 | .wait3 => .wait1
  | μ => μ

/-- The first steps of the lines of the transactions. -/
abbrev transactionLines : List Micro :=
  [.idle1, .start1, .wait1, .data1, .test, .stop1, .setAck1, .clear1, .fetch, .clrAck1]

theorem firstMicro_eq_lineHead (p : Place) : ∀ μ ∈ lineFrom (firstMicro p), firstMicro p = lineHead μ := by
  cases p <;> decide

theorem transaction_place {o : SeqOp} {p : Place} (ho : o ∈ transactions) (hp : o ∈ opsAt p) :
    p ≠ .alone ∧ firstMicro p ∈ transactionLines := by
  cases p
  case alone | n1 | n2 | n3 | n4 | n5 | n6 => revert o; decide
  all_goals exact ⟨by decide, by decide⟩

/-- The places whose lines may follow the line of a place (rules R231 to R235). -/
def successors : Place → List Place
  | .alone | .abort | .w11 | .r21 | .d21 | .n6 => []
  | .t1 => [.t2]
  | .t2 => [.t3]
  | .t3 => [.t4]
  | .t4 => [.t5]
  | .t5 => [.t6]
  | .t6 => [.t7]
  | .t7 => [.r8, .w8]
  | .w8 => [.w11, .w9]
  | .w9 => [.w10]
  | .w10 => [.w8]
  | .r8 => [.r9]
  | .r9 => [.r10]
  | .r10 => [.r11]
  | .r11 => [.r12]
  | .r12 => [.d14, .r13]
  | .r13 => [.r17, .r14]
  | .r14 => [.r15]
  | .r15 => [.r16]
  | .r16 => [.r13]
  | .r17 => [.r18]
  | .r18 => [.r19]
  | .r19 => [.r20]
  | .r20 => [.r21]
  | .d14 => [.d15]
  | .d15 => [.d16]
  | .d16 => [.d21]
  | .n1 => [.n2]
  | .n2 => [.n3]
  | .n3 => [.n4]
  | .n4 => [.n5]
  | .n5 => [.n6]

/-- At the end of a line the request has ended, or a following line begins. -/
theorem nextLine_goes {cfg : Params} {p : Place} {r : Result} {q q' : Seq} (h : nextLine cfg p r q = .next q') :
    q'.phase = .done ∨ ∃ p' ∈ successors p, ∃ q₀ : Seq, q' = q₀.goto cfg p' ∧ q₀.op = q.op := by
  cases p <;> simp only [nextLine] at h
  case alone | abort | w11 | n6 => cases h; exact .inl rfl
  case r21 | d21 => unfold finishRead at h; split at h <;> cases h; exact .inl rfl
  case t7 | w8 | r12 | r13 =>
    cases h
    split
    · exact .inr ⟨_, List.mem_cons_self, _, rfl, rfl⟩
    · exact .inr ⟨_, List.mem_cons_of_mem _ List.mem_cons_self, _, rfl, rfl⟩
  all_goals cases h; exact .inr ⟨_, List.mem_cons_self, _, rfl, rfl⟩

theorem afterLine_goes {cfg : Params} {p : Place} {r : Result} {q q' : Seq} (h : afterLine cfg p r q = .next q') :
    q'.phase = .done ∨ ∃ p' ∈ successors p, ∃ q₀ : Seq, q' = q₀.goto cfg p' ∧ q₀.op = q.op := by
  rw [← bindResult_op p r q]
  exact nextLine_goes h

/-- A line that ends in registers its end suits ends in a next state: it stops only at an unwritten entry of `rbuf`. -/
theorem afterLine_next_of_sound {cfg : Params} {p : Place} {r : Result} {q : Seq} {P : Seq → Prop}
    (h : Sound P (afterLine cfg p r q)) : ∃ q', afterLine cfg p r q = .next q' ∧ P q' := by
  have hread : ∀ {n q₀}, Sound P (finishRead n q₀) → ∃ q', finishRead n q₀ = .next q' ∧ P q' := by
    intro n q₀ hs
    unfold finishRead at hs ⊢
    split at hs
    · exact absurd rfl hs.1
    · exact ⟨_, rfl, hs⟩
  unfold afterLine at h ⊢
  cases p
  case r21 | d21 => exact hread h
  all_goals exact ⟨_, rfl, h⟩

/-- The core at the end of the line of a place: what the line's last step leaves. -/
def EndSuits (p : Place) (c : CoreState) : Prop :=
  match firstMicro p with
  | .idle1 => c.isIdle
  | .start1 | .data1 | .clear1 => Awaited c
  | .wait1 => ∃ st, expects p = some st ∧ c.isPausedIn st
  | .stop1 => True
  | _ => PausedIn (needs p) c

theorem pausedIn_mono {sts sts' : List Status} {c : CoreState} (h : PausedIn sts c) (hsub : sts ⊆ sts') :
    PausedIn sts' c := by
  obtain ⟨st, hst, hp⟩ := h
  exact ⟨st, hsub hst, hp⟩

/-- What a line leaves suits the first step of the line that follows: the EXPECT before it lets just these statuses through. -/
theorem coreSuits_of_endSuits {cfg : Params} {p p' : Place} {w : WaitResult} {c : CoreState} (hp' : p' ∈ successors p)
    (hend : EndSuits p c) : CoreSuits cfg ⟨p', firstMicro p'⟩ w c := by
  have hexpect : ∀ {st sts}, expects p = some st → c.isPausedIn st → st ∈ sts → PausedIn sts c :=
    fun _ hpaused hst => ⟨_, hst, hpaused⟩
  cases p <;> simp only [successors, List.mem_cons, List.not_mem_nil, or_false] at hp'
  case t1 | t2 | t4 | t6 | w9 | r8 | r10 | r14 | r18 | d14 => subst hp'; exact hend
  case t3 | t5 | w10 | r9 | r11 | r15 | r19 | d15 =>
    subst hp'
    obtain ⟨st, hst, hpaused⟩ := hend
    cases hst
    exact ⟨_, by decide, hpaused⟩
  case t7 =>
    obtain ⟨st, hst, hpaused⟩ := hend
    cases hst
    rcases hp' with rfl | rfl <;> exact ⟨_, by decide, hpaused⟩
  case w8 | r12 | r13 => rcases hp' with rfl | rfl <;> exact pausedIn_mono hend (by decide)
  case r16 | r17 | r20 | d16 => subst hp'; exact pausedIn_mono hend (by decide)
  case n1 | n2 | n3 | n4 | n5 =>
    obtain ⟨st, hst, -⟩ := hend
    cases hst

/-- No line begins with a step that writes a CNTR value back. -/
theorem firstMicro_not_writingBack (p : Place) : firstMicro p ∉ writingBack := by cases p <;> decide

/-- After a line whose end suits its place the transaction has ended, or its core suits the line that follows. -/
theorem lineEnd_suits {cfg : Params} {o : SeqOp} {p : Place} {r : Result} {q q' : Seq} {y : Inst} (ho : o ∈ transactions)
    (hop : q.op = some o) (hq : afterLine cfg p r q = .next q') (hinv : q'.inv cfg) (hy : y.seq = q')
    (hcan : y.core.canTrigger) (hend : EndSuits p y.core) : Suits cfg y := by
  subst hy
  rcases afterLine_goes hq with hdone | ⟨p', hp', q₀, hgoto, hop'⟩
  · exact suits_of_done hdone
  · refine suits_of_running (l := ⟨p', firstMicro p'⟩) ho ?op ?phase hinv hcan ?cntr (coreSuits_of_endSuits hp' hend)
    case op => rw [hgoto, Seq.goto, begin_op, hop', hop]
    case phase => rw [hgoto, Seq.goto, begin_phase]
    case cntr => exact fun h => absurd h (firstMicro_not_writingBack p')

/-! The statuses in which a place's line finds the core -/

theorem needs_of_start (p : Place) : firstMicro p = .start1 → p ≠ .t2 → ∀ st ∈ needs p, st ∈ byteDoneSet := by
  cases p <;> decide

theorem needs_of_stop (p : Place) : firstMicro p = .stop1 → ∀ st ∈ needs p, st ∈ pausedSet := by cases p <;> decide

theorem needs_of_data (p : Place) : firstMicro p = .data1 → ∀ st ∈ needs p, st ∈ afterStartSet ∨ st ∈ mtxSet := by
  cases p <;> decide

theorem needs_of_clear (p : Place) : firstMicro p = .clear1 → ∀ st ∈ needs p, st ∈ mrxGoSet := by cases p <;> decide

theorem expects_of_wait (p : Place) : firstMicro p = .wait1 → (expects p).isSome := by cases p <;> decide

theorem stopRow_of_pausedSet {st : Status} (h : st ∈ pausedSet) : ∃ a, StopRow st a := by
  simp only [pausedSet, List.mem_append, List.mem_cons, List.not_mem_nil, or_false] at h
  rcases h with h | rfl | rfl
  · exact ⟨_, .inl ⟨h, rfl⟩⟩
  · exact ⟨_, .inr (.inr ⟨rfl, rfl⟩)⟩
  · exact ⟨_, .inr (.inl ⟨rfl, rfl⟩)⟩

/-- A core whose action will pause it is one a wait may wait for. -/
theorem awaited_of_action {c : CoreState} {a : Action} (hact : c.act = some a)
    (ha : a ∉ [Action.stop, .release, .berrRelease]) (hflag : c.iflg = false) (hrst : c.rstPending = false) : Awaited c :=
  .inl ⟨by simpa [hact] using ha, hflag, hrst⟩

theorem pausedIn_of_flag {c : CoreState} (h : Awaited c) (hflag : c.iflg = true) : PausedIn pausedSet c := by
  rcases h with ⟨-, hclear, -⟩ | hp
  · rw [hclear] at hflag; cases hflag
  · exact hp

/-! The steps of a transaction -/

section Steps
variable {cfg : Params} {bus : Nat} {o : SeqOp} {p : Place} {μ ν : Micro} {x : Inst}

theorem Transacts.ne_alone (h : Transacts cfg o p μ x) : p ≠ .alone := (transaction_place h.transaction h.runs.2.2.1).1

theorem Transacts.firstMicro (h : Transacts cfg o p μ x) : firstMicro p = lineHead μ :=
  firstMicro_eq_lineHead p μ (microsAt_of_ne_alone o h.ne_alone ▸ h.micro)

theorem Transacts.lineHead_mem (h : Transacts cfg o p μ x) : lineHead μ ∈ transactionLines :=
  h.firstMicro ▸ (transaction_place h.transaction h.runs.2.2.1).2

/-- A step that makes no access or a read keeps to its line, on a core that suits the next step too. -/
theorem Transacts.stays (h : Transacts cfg o p μ x) {q : Seq} {y : Inst} (hν : ν ∈ followers μ) (hrun : RunsAt o p q)
    (hbuf : bufferOk p q) (hpolls : pollsOk cfg ⟨p, ν⟩ q) (hexp : expOk cfg ⟨p, ν⟩ q) (hy : y.seq = q.at ⟨p, ν⟩)
    (hcan : y.core.canTrigger) (hcntr : ν ∈ writingBack → q.c = cntrWord cfg.pos y.core)
    (hcore : CoreSuits cfg ⟨p, ν⟩ q.w y.core) : Suits cfg y := by
  have hinv := at_inv (cfg := cfg) hrun (microsAt_closed o p μ h.micro ν hν) hbuf hpolls hexp
  have ⟨_, hop, _⟩ := hrun
  exact suits_of_running (l := ⟨p, ν⟩) h.transaction (hy ▸ hop) (hy ▸ rfl) (hy ▸ hinv) hcan (hy ▸ hcntr) (hy ▸ hcore)

/-- A step that ends its line without a fetch. -/
theorem Transacts.ends (h : Transacts cfg o p μ x) (hne : μ ≠ .fetch) (r : Result) {q : Seq} (hrun : RunsAt o p q)
    (hbuf : bufferOk p q) : ∃ q', afterLine cfg p r q = .next q' ∧
      ∀ y : Inst, y.seq = q' → y.core.canTrigger → EndSuits p y.core → Suits cfg y := by
  obtain ⟨q', hq, hinv⟩ := afterLine_next_of_sound (lineEnd_sound (cfg := cfg) (r := r) hrun hbuf h.micro hne)
  have ⟨_, hop, _⟩ := hrun
  exact ⟨q', hq, fun y hy => lineEnd_suits h.transaction hop hq hinv hy⟩

/-- A step that reads a register and stays on its line. -/
theorem Transacts.readThen (h : Transacts cfg o p μ x) {r : Reg} {f : Word → Seq → Seq} {q : Seq}
    (hf : f (x.readValue cfg bus r) x.seq = q.at ⟨p, ν⟩) (hν : ν ∈ followers μ) (hrun : RunsAt o p q) (hbuf : bufferOk p q)
    (hpolls : pollsOk cfg ⟨p, ν⟩ q) (hexp : expOk cfg ⟨p, ν⟩ q)
    (hcntr : ν ∈ writingBack → q.c = cntrWord cfg.pos x.core) (hcore : CoreSuits cfg ⟨p, ν⟩ q.w x.core) :
    ∃ y, Machine.readThen cfg bus r f x = .next y ∧ Suits cfg y := by
  refine ⟨_, rfl, h.stays hν hrun hbuf hpolls hexp hf ?_ ?_ ?_⟩ <;> rw [setSeq_core, afterRead_core]
  · exact h.can
  · exact hcntr
  · exact hcore

/-- A step that reads CNTR to write it back next. -/
theorem Transacts.readCntr (h : Transacts cfg o p μ x) (hν : ν ∈ followers μ) (hw : ν ∉ [Micro.wait1, .wait2, .wait3])
    (hk : pollsOk cfg ⟨p, ν⟩ x.seq) (hcore : CoreSuits cfg ⟨p, ν⟩ x.seq.w x.core) :
    ∃ y, Machine.readThen cfg bus .cntr (fun v q => { q with c := v }.at ⟨p, ν⟩) x = .next y ∧ Suits cfg y :=
  h.readThen (q := { x.seq with c := cntrWord cfg.pos x.core }) rfl hν h.runs h.buffer hk (expOk_of_not_wait hw)
    (fun _ => rfl) hcore

/-- A step that writes a register, leaving the core `c`, and stays on its line. -/
theorem Transacts.writeThen (h : Transacts cfg o p μ x) {r : Reg} {v : Word} {f : Seq → Seq} {c : CoreState}
    (hw : writeReg cfg r v x.core = .next c) {q : Seq} (hf : f x.seq = q.at ⟨p, ν⟩) (hν : ν ∈ followers μ)
    (hrun : RunsAt o p q) (hbuf : bufferOk p q) (hpolls : pollsOk cfg ⟨p, ν⟩ q) (hexp : expOk cfg ⟨p, ν⟩ q)
    (hnot : ν ∉ writingBack) (hcan : c.canTrigger) (hcore : CoreSuits cfg ⟨p, ν⟩ q.w c) :
    ∃ y, Machine.writeThen cfg r v f x = .next y ∧ Suits cfg y := by
  refine ⟨((x.setCore c).log (.write r v :: triggerEvents x.core c)).setSeq (f x.seq), ?_, ?_⟩
  · rw [Machine.writeThen, Inst.write, hw]; rfl
  · exact h.stays hν hrun hbuf hpolls hexp hf hcan (fun hmem => absurd hmem hnot) hcore

/-- A step that writes a register, leaving the core `c`, and ends its line. -/
theorem Transacts.writeEnd (h : Transacts cfg o p μ x) (hne : μ ≠ .fetch) {r : Reg} {v : Word} {res : Result}
    {c : CoreState} (hw : writeReg cfg r v x.core = .next c) (hcan : c.canTrigger) (hend : EndSuits p c) :
    ∃ y, Machine.writeEnd cfg r v p res x = .next y ∧ Suits cfg y := by
  obtain ⟨q, hq, hsuits⟩ := h.ends hne res h.runs h.buffer
  exact ⟨_, writeEnd_of_performed hw hq, hsuits _ rfl hcan hend⟩

/-- A step without an access that ends its line. -/
theorem Transacts.silentEnd (h : Transacts cfg o p μ x) (hne : μ ≠ .fetch) {r : Result} (hend : EndSuits p x.core) :
    ∃ y, silently (afterLine cfg p r x.seq) x = .next y ∧ Suits cfg y := by
  obtain ⟨q, hq, hsuits⟩ := h.ends hne r h.runs h.buffer
  exact ⟨x.setSeq q, by rw [silently, hq]; rfl, hsuits _ rfl h.can hend⟩

/-! The writes of a transaction, on the cores their steps find -/

/-- SEND_START's write: a START from idle, a repeated START after a byte. -/
theorem Transacts.start_write (h : Transacts cfg o p .start2 x) (hl : cfg.pos.wf) : ∃ c,
    writeReg cfg .cntr (clrForm cfg x.seq.c ||| bitMask cfg.pos.mSta) x.core = .next c ∧ c.canTrigger ∧ Awaited c := by
  have hcore : if p = .t2 then x.core.isIdle else PausedIn (needs p) x.core := h.core
  rw [h.cntr (by decide)]
  split at hcore
  next =>
    have ⟨_, hflag, hrst, _⟩ := hcore
    have hs := startsWith_of_idle hl hcore h.can
    exact ⟨_, hs.write, h.can, awaited_of_action rfl (by decide) hflag hrst⟩
  next hp =>
    obtain ⟨st, hst, hpaused⟩ := hcore
    have ⟨_, _, hrst, _⟩ := hpaused
    have hs := startsWith_of_byteDone hl (needs_of_start p h.firstMicro hp st hst) hpaused h.can
    exact ⟨_, hs.write, h.can, awaited_of_action rfl (by decide) rfl hrst⟩

/-- A plain clear write that lets a paused core send a byte or receive one. -/
theorem clear_write_awaited {c : CoreState} {st : Status} {a : Action} (hl : cfg.pos.wf) (hpaused : c.isPausedIn st)
    (hcan : c.canTrigger) (ht : triggerAction st false false c.data = .next a)
    (ha : a ∉ [Action.stop, .release, .berrRelease]) : ∃ c',
    writeReg cfg .cntr (clrForm cfg (cntrWord cfg.pos c)) c = .next c' ∧ c'.canTrigger ∧ Awaited c' := by
  have ⟨_, _, hrst, _⟩ := hpaused
  exact ⟨_, writeCntr_clrForm_triggers hl hpaused hcan ht, hcan, awaited_of_action rfl ha rfl hrst⟩

/-- SEND_DATA's clear write sends the address byte after a START and a data byte after another byte. -/
theorem Transacts.data_write (h : Transacts cfg o p .data3 x) (hl : cfg.pos.wf) : ∃ c,
    writeReg cfg .cntr (clrForm cfg x.seq.c) x.core = .next c ∧ c.canTrigger ∧ Awaited c := by
  obtain ⟨st, hst, hpaused⟩ : PausedIn (needs p) x.core := h.core
  rw [h.cntr (by decide)]
  rcases needs_of_data p h.firstMicro st hst with hst | hst
  · exact clear_write_awaited hl hpaused h.can (triggerAction_afterStart hst) (by simp)
  · exact clear_write_awaited hl hpaused h.can (triggerAction_txData hst) (by simp)

/-- CLEAR_IF's write begins a receive. -/
theorem Transacts.clear_write (h : Transacts cfg o p .clear2 x) (hl : cfg.pos.wf) : ∃ c,
    writeReg cfg .cntr (clrForm cfg x.seq.c) x.core = .next c ∧ c.canTrigger ∧ Awaited c := by
  obtain ⟨st, hst, hpaused⟩ : PausedIn (needs p) x.core := h.core
  rw [h.cntr (by decide)]
  exact clear_write_awaited hl hpaused h.can (triggerAction_rxData (needs_of_clear p h.firstMicro st hst)) (by decide)

/-- SEND_STOP's write is allowed in every status the core can be paused in. -/
theorem Transacts.stop_write (h : Transacts cfg o p .stop2 x) (hl : cfg.pos.wf) : ∃ c,
    writeReg cfg .cntr (clrForm cfg x.seq.c ||| bitMask cfg.pos.mStp) x.core = .next c ∧ c.canTrigger := by
  obtain ⟨st, hst, hpaused⟩ : PausedIn (needs p) x.core := h.core
  obtain ⟨a, hrow⟩ := stopRow_of_pausedSet (needs_of_stop p h.firstMicro st hst)
  rw [h.cntr (by decide)]
  exact ⟨_, writeCntr_stop hl hpaused h.can hrow, h.can⟩

/-- The acknowledge primitives write A_ACK alone to a paused core. -/
theorem ack_write {c : CoreState} {v : Word} {ack : Bool} {sts : List Status} (hpaused : PausedIn sts c)
    (hcan : c.canTrigger) (hv : ShowsFields cfg.pos v { c with iflg := !cfg.iflgW1c && c.iflg, aAck := ack }) : ∃ c',
    writeReg cfg .cntr v c = .next c' ∧ c'.canTrigger ∧ PausedIn sts c' := by
  obtain ⟨st, hst, hp⟩ := hpaused
  have ⟨_, _, hrst, _⟩ := hp
  exact ⟨_, writeCntr_aAck hrst (.inl ⟨st, hp⟩) hv, hcan, st, hst, hp⟩

/-- EXPECT of a transaction: a timeout ends the request, another status ends it or sends STOP, and the expected one is the
one in which the core is paused. -/
theorem Transacts.expect (h : Transacts cfg o p .wait3 x) (hwf : cfg.wf) :
    ∃ y, waitLast cfg p x = .next y ∧ Suits cfg y := by
  have ⟨hres, hop, hplace, hpay⟩ := h.runs
  obtain ⟨-, hseen⟩ : Awaited x.core ∧ (x.seq.w.timedOut = false →
    ∃ st ∈ pausedSet, x.core.isPausedIn st ∧ x.seq.w.status = statusCode cfg st) := h.core
  have hlast : ∀ {q}, waitEnd cfg p x.seq = .next q → ∃ note,
      waitLast cfg p x = .next ((x.noteStranded note).setSeq q) :=
    fun hq => ⟨_, by rw [waitLast, hq]; rfl⟩
  cases hw : x.seq.w.timedOut with
  | true =>
    obtain ⟨note, hy⟩ := hlast (waitEnd_timedOut h.ne_alone hw)
    exact ⟨_, hy, suits_of_done rfl⟩
  | false =>
    obtain ⟨st, hst, hpaused, hstatus⟩ := hseen hw
    by_cases heq : x.seq.w.status = x.seq.exp
    · obtain ⟨q, hq, hsuits⟩ := h.ends (by decide) (.ok 0 []) h.runs h.buffer
      obtain ⟨note, hy⟩ := hlast ((waitEnd_expected h.ne_alone hw heq).trans hq)
      obtain ⟨st', hst'⟩ := Option.isSome_iff_exists.mp (expects_of_wait p h.firstMicro)
      have hcode : statusCode cfg st = statusCode cfg st' := by
        rw [← hstatus, heq]
        exact h.expected (show Micro.wait3 ∈ _ by decide) st' ((expectedAt_eq_expects p).trans hst')
      obtain ⟨-, -, hcodes, -⟩ := hwf
      obtain rfl := statusCode_inj hcodes hcode
      have hend : EndSuits p x.core := by
        rw [EndSuits, h.firstMicro]
        exact ⟨st, hst', hpaused⟩
      exact ⟨_, hy, hsuits _ rfl h.can hend⟩
    · obtain ⟨note, hy⟩ := hlast (waitEnd_mismatch h.ne_alone hw heq)
      refine ⟨_, hy, ?_⟩
      split
      · refine suits_of_running (l := ⟨.abort, .stop1⟩) h.transaction hop rfl ?_ h.can nofun ⟨st, hst, hpaused⟩
        exact at_inv ⟨hres, hop, h.transaction, hpay⟩ (by cases o <;> decide) trivial trivial (expOk_of_not_wait (by decide))
      · exact suits_of_done rfl

/-- T1's poll: an idle core is not seen busy, so the line ends, or the budget is used up. -/
theorem Transacts.idle (h : Transacts cfg o p .idle1 x) (hwf : cfg.wf) :
    ∃ y, idlePoll cfg bus p x = .next y ∧ Suits cfg y := by
  have hidle : x.core.isIdle := h.core
  have ⟨hact, _, _, _, _, hsta⟩ := hidle
  have hfree : ¬ SeenBusy x := by simp [SeenBusy, hact, hsta]
  have hend : EndSuits p x.core := by
    rw [EndSuits, h.firstMicro]
    exact hidle
  unfold idlePoll
  split
  · exact ⟨_, rfl, suits_of_done rfl⟩
  · obtain ⟨q, hq, hsuits⟩ := h.ends (by decide) (.ok 0 [])
      (q := { x.seq with s := statByte cfg (x.readValue cfg bus .stat), k := x.seq.k + 1 }) h.runs h.buffer
    refine ⟨(x.afterRead cfg bus .stat).setSeq q, ?_, hsuits _ rfl (by simpa using h.can) (by simpa using hend)⟩
    rw [if_neg (mt (idleTest_iff hwf).mp hfree), readEnd, hq]
    rfl

/-- The registers after a poll of CNTR. -/
def polledCntr (cfg : Params) (x : Inst) : Seq := { x.seq with c := cntrWord cfg.pos x.core, k := x.seq.k + 1 }

/-- S3's poll, or the end of its budget. -/
theorem Transacts.startPolls (h : Transacts cfg o p .start3 x) : ∃ y, startPoll cfg bus p x = .next y ∧ Suits cfg y := by
  have hcore : Awaited x.core := h.core
  unfold startPoll
  split
  · exact ⟨_, rfl, h.stays (ν := .start4) (by decide) h.runs h.buffer trivial (expOk_of_not_wait (by decide)) rfl h.can
      nofun hcore⟩
  next hk =>
    by_cases hsta : (x.readValue cfg bus .cntr).getLsbD cfg.pos.mSta = true
    · exact h.readThen (ν := .start3) (q := polledCntr cfg x) (congrArg (fun ν => Seq.at _ ⟨p, ν⟩) (if_pos hsta))
        (by decide) h.runs h.buffer (Nat.lt_of_le_of_ne h.polls hk) (expOk_of_not_wait (by decide)) nofun hcore
    · exact h.readThen (ν := .start4) (q := polledCntr cfg x) (congrArg (fun ν => Seq.at _ ⟨p, ν⟩) (if_neg hsta))
        (by decide) h.runs h.buffer trivial (expOk_of_not_wait (by decide)) nofun hcore

/-- W1's poll, which sees the flag only on a paused core, or the end of its budget. -/
theorem Transacts.waitPolls (h : Transacts cfg o p .wait1 x) (hl : cfg.pos.wf) :
    ∃ y, waitPoll cfg bus p x = .next y ∧ Suits cfg y := by
  have hcore : Awaited x.core := h.core
  have hexp := h.expected (show Micro.wait1 ∈ _ by decide)
  have hread : (x.readValue cfg bus .cntr).getLsbD cfg.pos.iflg = x.core.iflg := (cntrWord_fields hl x.core).2.2.2.2.1
  unfold waitPoll
  split
  · exact ⟨_, rfl, h.stays (ν := .wait3) (q := { x.seq with w := ⟨true, statusCode cfg .busError⟩ }) (by decide) h.runs
      h.buffer trivial (fun _ => hexp) rfl h.can nofun ⟨hcore, nofun⟩⟩
  next hk =>
    by_cases hset : (x.readValue cfg bus .cntr).getLsbD cfg.pos.iflg = true
    · exact h.readThen (ν := .wait2) (q := polledCntr cfg x) (congrArg (fun ν => Seq.at _ ⟨p, ν⟩) (if_pos hset))
        (by decide) h.runs h.buffer trivial (fun _ => hexp) nofun (pausedIn_of_flag hcore (hread.symm.trans hset))
    · exact h.readThen (ν := .wait1) (q := polledCntr cfg x) (congrArg (fun ν => Seq.at _ ⟨p, ν⟩) (if_neg hset))
        (by decide) h.runs h.buffer (Nat.lt_of_le_of_ne h.polls hk) (fun _ => hexp) nofun hcore

/-- W2 reads the code of the status the core is paused in. -/
theorem Transacts.readStatus (h : Transacts cfg o p .wait2 x) (hl : cfg.pos.wf) : ∃ y, Machine.readThen cfg bus .stat
    (fun v q => { q with s := statByte cfg v, w := ⟨false, statByte cfg v⟩ }.at ⟨p, .wait3⟩) x = .next y ∧ Suits cfg y := by
  obtain ⟨st, hst, hpaused⟩ : PausedIn pausedSet x.core := h.core
  have hexp := h.expected (show Micro.wait2 ∈ _ by decide)
  have hread : statByte cfg (statWord cfg x.core) = statusCode cfg st := by
    obtain ⟨-, -, -, -, -, rfl⟩ := hpaused
    exact statByte_statWord hl x.core
  exact h.readThen (ν := .wait3)
    (q := { x.seq with s := statByte cfg (statWord cfg x.core), w := ⟨false, statByte cfg (statWord cfg x.core)⟩ }) rfl
    (by decide) h.runs h.buffer trivial (fun _ => hexp) nofun
    ⟨.inr ⟨st, hst, hpaused⟩, fun _ => ⟨st, hst, hpaused, hread⟩⟩

/-- The registers after a fetch at place `p`. -/
def fetched (cfg : Params) (p : Place) (x : Inst) : Seq :=
  { x.seq with
    d := dataWord cfg.pos x.core
    rbuf := bufSet x.seq.rbuf (entryAt p x.seq) (dataByte cfg (dataWord cfg.pos x.core)) }

/-- A fetch fills its entry of `rbuf` and ends its line. -/
theorem Transacts.fetch (h : Transacts cfg o p .fetch x) : ∃ y, stepAt cfg bus p .fetch x = .next y ∧ Suits cfg y := by
  have ⟨_, hop, _⟩ := h.runs
  have hrun : RunsAt o p (fetched cfg p x) := h.runs
  have hbuf : bufferAfter p (fetched cfg p x) := fetch_bufferAfter _ _ h.runs h.micro h.buffer
  obtain ⟨q, hq, hinv⟩ := afterLine_next_of_sound (afterLine_sound (cfg := cfg) (r := .ok 0 []) hrun hbuf)
  have hstep : stepAt cfg bus p .fetch x = Out.bind (afterLine cfg p (.ok 0 []) (fetched cfg p x)) fun q =>
    .next ((x.afterRead cfg bus .data).setSeq q) := rfl
  have hend : EndSuits p x.core := by
    rw [EndSuits, h.firstMicro]
    exact h.core
  rw [hq, bind_next] at hstep
  exact ⟨_, hstep, lineEnd_suits (q := fetched cfg p x) h.transaction hop hq hinv rfl (by simpa using h.can)
    (by simpa using hend)⟩

/-- Every step of a transaction's program on a core that suits it is made, and leaves such a core or the end. -/
theorem Transacts.step (h : Transacts cfg o p μ x) (hwf : cfg.wf) :
    ∃ y, stepAt cfg bus p μ x = .next y ∧ Suits cfg y := by
  have ⟨_, hl, _⟩ := hwf
  have hline := h.lineHead_mem
  cases μ <;> simp only [stepAt]
  case start1 | stop1 | data2 | clear1 | setAck1 | clrAck1 =>
    exact h.readCntr (by decide) (by decide) trivial h.core
  case start2 =>
    obtain ⟨c, hw, hcan, hcore⟩ := h.start_write hl
    exact h.writeThen (ν := .start3) (q := { x.seq with k := 0 }) hw rfl (by decide) h.runs h.buffer (Nat.zero_le _)
      (expOk_of_not_wait (by decide)) (by decide) hcan hcore
  case start3 => exact h.startPolls
  case start4 => exact h.silentEnd (by decide) (by rw [EndSuits, h.firstMicro]; exact h.core)
  case stop2 =>
    obtain ⟨c, hw, hcan⟩ := h.stop_write hl
    exact h.writeEnd (by decide) hw hcan (by rw [EndSuits, h.firstMicro]; trivial)
  case data1 =>
    obtain ⟨byte, hbyte⟩ := Option.isSome_iff_exists.mp (byteAt_isSome h.runs h.micro h.buffer)
    obtain ⟨st, hst, hpaused⟩ : PausedIn (needs p) x.core := h.core
    have ⟨hact, _, hrst, _⟩ := hpaused
    rw [dataFirst, hbyte]
    exact h.writeThen (ν := .data2) (q := x.seq) (writeData_stores hl hrst hact byte) rfl (by decide) h.runs h.buffer
      trivial (expOk_of_not_wait (by decide)) (by decide) h.can ⟨st, hst, hpaused⟩
  case data3 =>
    obtain ⟨c, hw, hcan, hcore⟩ := h.data_write hl
    exact h.writeEnd (by decide) hw hcan (by rw [EndSuits, h.firstMicro]; exact hcore)
  case clear2 =>
    obtain ⟨c, hw, hcan, hcore⟩ := h.clear_write hl
    exact h.writeEnd (by decide) hw hcan (by rw [EndSuits, h.firstMicro]; exact hcore)
  case setAck2 =>
    obtain ⟨c, hw, hcan, hcore⟩ := ack_write h.core h.can (keepForm_or_aAck_shows hl x.core)
    rw [← h.cntr (by decide)] at hw
    exact h.writeEnd (by decide) hw hcan (by rw [EndSuits, h.firstMicro]; exact hcore)
  case clrAck2 =>
    obtain ⟨c, hw, hcan, hcore⟩ := ack_write h.core h.can (keepForm_and_not_aAck_shows hl x.core)
    rw [← h.cntr (by decide)] at hw
    exact h.writeEnd (by decide) hw hcan (by rw [EndSuits, h.firstMicro]; exact hcore)
  case wait1 => exact h.waitPolls hl
  case wait2 => exact h.readStatus hl
  case wait3 => exact h.expect hwf
  case idle1 => exact h.idle hwf
  case test => exact h.silentEnd (by decide) (by rw [EndSuits, h.firstMicro]; exact h.core)
  case fetch => exact h.fetch
  all_goals exact absurd hline (by decide)

end Steps

/-! The steps of the engine, and whole runs -/

/-- A transaction finds its core idle or paused, or waits for what the core does. -/
theorem Transacts.core_cases {cfg : Params} {o : SeqOp} {p : Place} {μ : Micro} {x : Inst} (h : Transacts cfg o p μ x) :
    x.core.isIdle ∨ PausedIn pausedSet x.core ∨ (Awaited x.core ∧ μ ∈ [Micro.start3, .start4, .wait1, .wait3]) := by
  have hneeds : needs p ⊆ pausedSet := by cases p <;> decide
  have hcore := h.core
  simp only [CoreSuits] at hcore
  split at hcore
  · exact .inl hcore
  · split at hcore
    · exact .inl hcore
    · exact .inr (.inl (pausedIn_mono hcore hneeds))
  · split at hcore
    · exact .inl hcore
    · exact .inr (.inl (pausedIn_mono hcore hneeds))
  · exact .inr (.inr ⟨hcore, by decide⟩)
  · exact .inr (.inr ⟨hcore, by decide⟩)
  · exact .inr (.inr ⟨hcore, by decide⟩)
  · exact .inr (.inl hcore)
  · exact .inr (.inr ⟨hcore.1, by decide⟩)
  · exact .inr (.inl (pausedIn_mono hcore hneeds))

theorem Transacts.noReset {cfg : Params} {o : SeqOp} {p : Place} {μ : Micro} {x : Inst} (h : Transacts cfg o p μ x) :
    x.core.rstPending = false := by
  rcases h.core_cases with ⟨-, -, hrst, -⟩ | ⟨st, -, -, -, hrst, -⟩ | ⟨⟨-, -, hrst⟩ | ⟨st, -, -, -, hrst, -⟩, -⟩ <;>
    exact hrst

/-- An action in flight while a transaction runs is one that its step waits for. -/
theorem Transacts.action_cases {cfg : Params} {o : SeqOp} {p : Place} {μ : Micro} {x : Inst} {a : Action}
    (h : Transacts cfg o p μ x) (hact : x.core.act = some a) :
    a ∉ [Action.stop, .release, .berrRelease] ∧ μ ∈ [Micro.start3, .start4, .wait1, .wait3] := by
  rcases h.core_cases with ⟨hnone, -⟩ | ⟨st, -, hnone, -⟩ | ⟨⟨hwaits, -⟩ | ⟨st, -, hnone, -⟩, hμ⟩
  · cases hact.symm.trans hnone
  · cases hact.symm.trans hnone
  · exact ⟨by simpa [hact] using hwaits, hμ⟩
  · cases hact.symm.trans hnone

/-- A completion is answered, or refused because the core would become a slave. -/
theorem complete_answers (d : Draw) (a : Action) (c : CoreState) :
    (∃ c', complete d a c = .next c') ∨ complete d a c = .refused .slaveMode := by
  cases a with
  | txAddr byte =>
    simp only [complete, completeAddr]
    split
    · exact .inl ⟨_, rfl⟩
    · exact .inl ⟨_, rfl⟩
    · exact .inl ⟨_, rfl⟩
    · split
      · exact .inr rfl
      · exact .inl ⟨_, rfl⟩
    · exact .inl ⟨_, rfl⟩
  | _ => exact .inl ⟨_, rfl⟩

theorem pausedSet_of_admitted (st : Status) : st ∈ admitted → st ≠ .idle → st ∈ pausedSet := by cases st <;> decide

/-- Whatever the bus answers, the completion a transaction waits for pauses the core. -/
theorem complete_pauses {d : Draw} {a : Action} {c c' : CoreState} (h : complete d a c = .next c')
    (ha : a ∉ [Action.stop, .release, .berrRelease]) (hrst : c.rstPending = false) (hcan : c.canTrigger) :
    PausedIn pausedSet c' ∧ c'.canTrigger := by
  rcases complete_next h with ⟨st, byte, hadm, hidle, rfl⟩ | ⟨hstop, -⟩
  · exact ⟨⟨st, pausedSet_of_admitted st hadm hidle, rfl, rfl, hrst, rfl, rfl, rfl⟩, hcan⟩
  · exact absurd hstop ha

/-- A wait that waits for an action finds the core paused once it has completed. -/
theorem coreSuits_of_completed {cfg : Params} {p : Place} {μ : Micro} {w : WaitResult} {c c' : CoreState} {a : Action}
    (h : CoreSuits cfg ⟨p, μ⟩ w c) (hμ : μ ∈ [Micro.start3, .start4, .wait1, .wait3]) (hact : c.act = some a)
    (hp : PausedIn pausedSet c') : CoreSuits cfg ⟨p, μ⟩ w c' := by
  simp only [List.mem_cons, List.not_mem_nil, or_false] at hμ
  rcases hμ with rfl | rfl | rfl | rfl
  · exact .inr hp
  · exact .inr hp
  · exact .inr hp
  · obtain ⟨-, hseen⟩ := h
    refine ⟨.inr hp, fun hw => ?_⟩
    obtain ⟨st, -, hpaused, -⟩ := hseen hw
    cases hact.symm.trans hpaused.1

/-- A step of the engine's completion leaves the sequencer. -/
theorem completeAct_seq {bus : Nat} {x y : Inst} (h : x.completeAct bus = .next y) : y.seq = x.seq := by
  rcases completeAct_next h with ⟨-, rfl⟩ | ⟨a, c, -, -, rfl⟩
  · rfl
  · simp only [log_seq, setCore_seq, apply_ite Inst.seq, useDraw_seq, ite_self]

section Agents
variable {cfg : Params} {bus : Nat} {x : Inst}

/-- What a step of a suiting instance may answer. -/
abbrev SuitsOrSlave (cfg : Params) (out : Out Inst) : Prop :=
  (∃ y, out = .next y ∧ Suits cfg y) ∨ out = .refused .slaveMode

theorem suits_phase_cases (h : Suits cfg x) :
    x.seq.phase = .done ∨ ∃ o p μ, x.seq.phase = .running ⟨p, μ⟩ ∧ Transacts cfg o p μ x := by
  cases hphase : x.seq.phase with
  | ready => simp only [Suits, hphase] at h
  | done => exact .inl rfl
  | running l =>
    obtain ⟨o, ht⟩ := transacts_of_suits h (p := l.place) (μ := l.micro) hphase
    exact .inr ⟨o, l.place, l.micro, rfl, ht⟩

theorem seqStep_suits (h : Suits cfg x) (hwf : cfg.wf) : SuitsOrSlave cfg (x.seqStep cfg bus) := by
  rcases suits_phase_cases h with hphase | ⟨o, p, μ, hphase, ht⟩
  · rw [Inst.seqStep, hphase]
    exact .inl ⟨x, rfl, h⟩
  · rw [seqStep_of_running hphase]
    exact .inl (ht.step hwf)

theorem completeAct_suits (h : Suits cfg x) : SuitsOrSlave cfg (x.completeAct bus) := by
  cases hact : x.core.act with
  | none => exact .inl ⟨x, by rw [Inst.completeAct, hact], h⟩
  | some a =>
    rcases complete_answers (x.nextDraw bus) a x.core with ⟨c, hc⟩ | hc
    · have hy : x.completeAct bus =
          .next (((if drawsAnswer a then x.useDraw else x).setCore c).log [.complete a c.sta]) := by
        rw [Inst.completeAct, hact]
        simp only [hc, bind_next]
      have hseq := completeAct_seq hy
      refine .inl ⟨_, hy, ?_⟩
      rcases suits_phase_cases h with hphase | ⟨o, p, μ, hphase, ht⟩
      · exact suits_of_done (hseq ▸ hphase)
      · obtain ⟨ha, hμ⟩ := ht.action_cases hact
        obtain ⟨hp, hcan⟩ := complete_pauses hc ha ht.noReset ht.can
        have ⟨_, hop, _⟩ := ht.runs
        have hinv : x.seq.inv cfg := by simp only [Suits, hphase] at h; exact h.2.1
        have hnot : μ ∉ writingBack := by
          simp only [List.mem_cons, List.not_mem_nil, or_false] at hμ
          rcases hμ with rfl | rfl | rfl | rfl <;> decide
        exact suits_of_running (l := ⟨p, μ⟩) ht.transaction (hseq ▸ hop) (hseq ▸ hphase) (hseq ▸ hinv) hcan
          (fun hmem => absurd hmem hnot) (hseq ▸ coreSuits_of_completed ht.core hμ hact hp)
    · refine .inr ?_
      rw [Inst.completeAct, hact]
      simp only [hc, bind_refused]

theorem completeReset_suits (h : Suits cfg x) : Suits cfg x.completeReset := by
  unfold Inst.completeReset
  split
  next hrst =>
    rcases suits_phase_cases h with hphase | ⟨o, p, μ, hphase, ht⟩
    · exact suits_of_done hphase
    · cases hrst.symm.trans ht.noReset
  · exact h

theorem slaveStep_suits (h : Suits cfg x) : SuitsOrSlave cfg (slaveStep x) := by
  unfold slaveStep
  split
  · exact .inr rfl
  · exact .inl ⟨x, rfl, h⟩

/-- Every step of the instance's own agents keeps the relation, or is refused because the core would become a slave. -/
theorem agentStep_suits {s : State} {a : Agent} (h : Suits s.params x) (hwf : s.params.wf) (hx : s.insts[bus]? = some x)
    (ha : a ∈ [Agent.seq bus, .eng bus, .reset bus, .slave bus]) :
    (∃ y, agentStep a s = .next (s.setInst bus y) ∧ Suits s.params y) ∨ agentStep a s = .refused .slaveMode := by
  have hlocal : ∀ {f : Inst → Out Inst}, SuitsOrSlave s.params (f x) →
      (∃ y, localStep bus f s = .next (s.setInst bus y) ∧ Suits s.params y) ∨ localStep bus f s = .refused .slaveMode := by
    rintro f (⟨y, hf, hy⟩ | hf) <;> rw [localStep_of_get f hx, hf]
    · exact .inl ⟨y, rfl, hy⟩
    · exact .inr rfl
  simp only [List.mem_cons, List.not_mem_nil, or_false] at ha
  rcases ha with rfl | rfl | rfl | rfl
  · exact hlocal (seqStep_suits h hwf)
  · exact hlocal (completeAct_suits h)
  · exact hlocal (.inl ⟨_, rfl, completeReset_suits h⟩)
  · exact hlocal (slaveStep_suits h)

/-- So does every schedule of them. -/
theorem runSchedule_suits {s : State} (h : Suits s.params x) (hwf : s.params.wf) (hx : s.insts[bus]? = some x)
    (as : List Agent) (has : ∀ a ∈ as, a ∈ [Agent.seq bus, .eng bus, .reset bus, .slave bus]) :
    (∃ u, runSchedule as s = .next u) ∨ runSchedule as s = .refused .slaveMode := by
  induction as generalizing s x with
  | nil => exact .inl ⟨s, rfl⟩
  | cons a as ih =>
    rw [runSchedule]
    rcases agentStep_suits h hwf hx (has a List.mem_cons_self) with ⟨y, hstep, hy⟩ | hstep <;> rw [hstep]
    · exact ih (s := s.setInst bus y) hy hwf (setInst_get _ _ _ hx) fun a' ha' => has a' (List.mem_cons_of_mem _ ha')
    · exact .inr rfl

end Agents

/-- An accepted transaction on an idle core that may trigger begins at T1, or has ended as invalid. -/
theorem exec_transaction_suits {i : Instr} {s t : State} {x : Inst} {op : SeqOp} {n k : Nat} (hready : Ready s i.bus x)
    (hidle : x.core.isIdle) (hcan : x.core.canTrigger) (hreq : requestOf i = some (op, n, k)) (hop : op ∈ transactions)
    (h : exec i s = .next t) : ∃ y, t = s.setInst i.bus y ∧ Suits s.params y := by
  cases hrange : i.operandsInRange s.params.nMax with
  | false =>
    cases (exec_request_invalid hready hreq hrange).symm.trans h
    exact ⟨_, rfl, suits_of_done rfl⟩
  | true =>
    cases (exec_request_begins hready hreq hrange).symm.trans h
    have hinv : (begun s.params i op).inv s.params := begin_first_inv (loadOperands_res _ _) (loadOperands_op _ _)
      (by rw [loadOperands_op]; exact loadOperands_payloadOk hreq _ hrange)
    refine ⟨_, rfl, suits_of_running (l := ⟨.t1, .idle1⟩) hop ?op ?phase hinv hcan nofun hidle⟩
    case op => rw [setSeq_seq, begin_op, loadOperands_op]
    case phase => rw [setSeq_seq, begin_phase, firstLabel_of_transaction hop]

/-- Settles O54: the relation holds at acceptance, every step of every label keeps it, and so does every schedule. -/
theorem transactionsNeverFault : Obligations.TransactionsNeverFault := by
  unfold Obligations.TransactionsNeverFault
  refine ⟨fun i s t x op n k hready _ hidle hcan hreq hop h => exec_transaction_suits hready hidle hcan hreq hop h,
    fun s b x a hwf hx h ha => agentStep_suits h hwf hx ha, ?_⟩
  intro i s t x op n k as hready hwf hidle hcan hreq hop h has
  obtain ⟨y, rfl, hy⟩ := exec_transaction_suits hready hidle hcan hreq hop h
  exact runSchedule_suits (s := s.setInst i.bus y) hy hwf (setInst_get _ _ _ hready.1) as has

/-! Eager runs (95_test_vectors.md section 0) -/

/-- From `x` some rounds of the eager schedule lead instance `b` of `s` to `y`, adding `n` accesses, the triggers `tr` and
completions in the statuses `sts` to its history. -/
def EagerLeads (s : State) (b : Nat) (x y : Inst) (n : Nat) (tr : List Action) (sts : List Status) : Prop :=
  ∃ k h, runSchedule (eager b k) (s.setInst b x) = .next (s.setInst b y) ∧ y.history = x.history ++ h ∧
    (accesses h).length = n ∧ busTrace h = tr ∧ completions h = sts

/-- How the core `c` a write has left settles in the same round: nothing is in flight, or the action the write triggered
completes, with an answer or without one. -/
inductive Settles (c : CoreState) : CoreState → List Action → List Status → List Draw → List Draw → Prop where
  | quiet (ds : List Draw) (hact : c.act = none) : Settles c c [] [] ds ds
  | answered {a : Action} {c' : CoreState} (d : Draw) (ds : List Draw) (hact : c.act = some a)
      (hdraws : drawsAnswer a = true) (hc : complete d a c = .next c') : Settles c c' [a] [c'.sta] (d :: ds) ds
  | unanswered {a : Action} {c' : CoreState} (ds : List Draw) (hact : c.act = some a) (hdraws : drawsAnswer a = false)
      (hc : ∀ d, complete d a c = .next c') : Settles c c' [a] [c'.sta] ds ds

/-- The instance has the sequencer's registers `q`, the core `c`, and the bus's next answers `ds`. -/
structure Holds (q : Seq) (c : CoreState) (ds : List Draw) (x : Inst) : Prop where
  seq : x.seq = q
  core : x.core = c
  script : x.script = ds

/-- Nothing is in flight or pending on the core. -/
abbrev Rests (c : CoreState) : Prop := c.act = none ∧ c.rstPending = false

theorem eager_add (b j k : Nat) : eager b (j + k) = eager b j ++ eager b k := by
  induction j with
  | zero => rw [Nat.zero_add]; rfl
  | succ j ih => rw [Nat.succ_add, eager, ih]; rfl

theorem nextDraw_of_script {b : Nat} {x : Inst} {d : Draw} {ds : List Draw} (h : x.script = d :: ds) :
    x.nextDraw b = d := by
  rw [Inst.nextDraw, h]

theorem useDraw_script {x : Inst} {d : Draw} {ds : List Draw} (h : x.script = d :: ds) : x.useDraw.script = ds := by
  rw [Inst.useDraw, h]

section Rounds
variable {s : State} {b : Nat} {x y z w : Inst} {n m : Nat} {tr tr' : List Action} {sts sts' : List Status}
  {q q' : Seq} {c c' c'' : CoreState} {ds ds' : List Draw}

theorem EagerLeads.refl (s : State) (b : Nat) (x : Inst) : EagerLeads s b x x 0 [] [] :=
  ⟨0, [], rfl, (List.append_nil _).symm, rfl, rfl, rfl⟩

/-- Eager runs after one another are one. -/
theorem EagerLeads.append (hxy : EagerLeads s b x y n tr sts) (hyz : EagerLeads s b y z m tr' sts') :
    EagerLeads s b x z (n + m) (tr ++ tr') (sts ++ sts') := by
  obtain ⟨j, h, hrun, hhist, hn, htr, hsts⟩ := hxy
  obtain ⟨k, h', hrun', hhist', hm, htr', hsts'⟩ := hyz
  refine ⟨j + k, h ++ h', by rw [eager_add, runSchedule_append, hrun, bind_next, hrun'], ?history, ?accesses, ?trace,
    ?statuses⟩
  case history => rw [hhist', hhist, List.append_assoc]
  case accesses => rw [accesses, List.filter_append, List.length_append, ← hn, ← hm]; rfl
  case trace => rw [busTrace, List.filterMap_append, ← htr, ← htr']; rfl
  case statuses => rw [completions, List.filterMap_append, ← hsts, ← hsts']; rfl

variable (hget : s.insts[b]? = some w)
include hget

/-- A round in which nothing completes. -/
theorem EagerLeads.quiet {h : List Event} (hstep : x.seqStep s.params b = .next y) (hhist : y.history = x.history ++ h)
    (hrests : Rests y.core) : EagerLeads s b x y (accesses h).length (busTrace h) (completions h) :=
  ⟨1, h, ((Leads.seq hget hstep hhist).eager_round hget hrests.1 hrests.2).1, hhist, rfl, rfl, rfl⟩

/-- A round in which the action in flight completes. -/
theorem EagerLeads.completes {h : List Event} {a : Action} (hstep : x.seqStep s.params b = .next y)
    (hhist : y.history = x.history ++ h) (hact : y.core.act = some a) (hc : complete (y.nextDraw b) a y.core = .next c)
    (hrst : c.rstPending = false) :
    EagerLeads s b x (completed (if drawsAnswer a then y.useDraw else y) a c) (accesses h).length (busTrace h)
      (completions h ++ [c.sta]) := by
  have heng := agentStep_eng_completes (setInst_get s b y hget) hact hc
  rw [setInst_setInst] at heng
  have hreset := (Leads.reset_of_noReset hget (x := completed (if drawsAnswer a then y.useDraw else y) a c) hrst).1
  refine ⟨1, h ++ [.complete a c.sta], ?run, ?history, ?accesses, ?trace, ?statuses⟩
  case run =>
    rw [eager, eager, runSchedule_seq_cons hget, hstep, bind_next, runSchedule, heng, bind_next, hreset]
  case history => simp only [completed, withCore, apply_ite Inst.history, useDraw_history, ite_self, hhist, List.append_assoc]
  case accesses => simp [accesses]
  case trace => simp [busTrace]
  case statuses => simp [completions]

/-- A round whose step makes no access. -/
theorem Holds.silent_round (hx : Holds q c ds x) (hrests : Rests c) (hstep : x.seqStep s.params b = .next (x.setSeq q')) :
    ∃ y, EagerLeads s b x y 0 [] [] ∧ Holds q' c ds y :=
  ⟨_, EagerLeads.quiet hget hstep (List.append_nil _).symm (hx.core ▸ hrests), rfl, hx.core, hx.script⟩

/-- A round whose step is a read access. -/
theorem Holds.read_round {r : Reg} (hx : Holds q c ds x) (hrests : Rests c) (hr : r ≠ .lcr)
    (hstep : x.seqStep s.params b = .next ((x.afterRead s.params b r).setSeq q')) :
    ∃ y, EagerLeads s b x y 1 [] [] ∧ Holds q' c ds y := by
  rw [afterRead_eq_log _ _ _ _ hr] at hstep
  exact ⟨_, EagerLeads.quiet hget hstep rfl (hx.core ▸ hrests), rfl, hx.core, hx.script⟩

/-- A round whose step is a write access, with what the write triggers. -/
theorem Holds.write_round {r : Reg} {v : Word} (hx : Holds q c ds x) (hact : c.act = none)
    (hstep : x.seqStep s.params b = Out.bind (x.write s.params r v) fun x' => .next (x'.setSeq q'))
    (hw : writeReg s.params r v c = .next c') (hs : Settles c' c'' tr sts ds ds') (hrst : c''.rstPending = false) :
    ∃ y, EagerLeads s b x y 1 tr sts ∧ Holds q' c'' ds' y := by
  obtain ⟨hseq, hcore, hscript⟩ := hx
  rw [Inst.write, hcore, hw, bind_next, bind_next] at hstep
  have haccess := accesses_of_write r v c c'
  cases hs with
  | quiet _ hact' =>
    have hrun := EagerLeads.quiet hget hstep rfl ⟨hact', hrst⟩
    rw [haccess, triggerEvents_of_act_eq (hact'.trans hact.symm)] at hrun
    exact ⟨_, hrun, rfl, rfl, hscript⟩
  | answered d _ hact' hdraws hc =>
    have hdraw := nextDraw_of_script (b := b) hscript
    have hrun := EagerLeads.completes hget hstep rfl hact' (hdraw.symm ▸ hc) hrst
    rw [haccess, triggerEvents, hact, hact', if_pos hdraws] at hrun
    exact ⟨_, hrun, useDraw_seq _, rfl, useDraw_script hscript⟩
  | unanswered _ hact' hdraws hc =>
    have hrun := EagerLeads.completes hget hstep rfl hact' (hc _) hrst
    rw [haccess, triggerEvents, hact, hact', hdraws] at hrun
    exact ⟨_, hrun, rfl, rfl, hscript⟩

end Rounds

/-! The lines of the transactions, eagerly run -/

/-- The registers of a transaction that its lines carry on: its operands, the bytes received and the byte index. -/
structure Job where
  op : Option SeqOp
  chip : BitVec 7
  sub : Byte
  n : Nat
  wbuf : List Byte
  rbuf : List (Option Byte)
  i : Nat

/-- The job a sequencer works at. -/
def Seq.job (q : Seq) : Job := ⟨q.op, q.chip, q.sub, q.n, q.wbuf, q.rbuf, q.i⟩

/-- The line of place `p` ends, with job `j`, at the line of place `p'`, with job `j'`. -/
def Goes (cfg : Params) (p : Place) (j : Job) (p' : Place) (j' : Job) : Prop :=
  ∀ r q, q.job = j → ∃ q' : Seq, q'.job = j' ∧ afterLine cfg p r q = .next (q'.goto cfg p')

/-- The line of place `p` begins, with job `j`, on a core that is paused in `st`, may trigger, has A_ACK at `ack` and
`byte` in DATA; `ds` are the bus's next answers. -/
structure Begins (cfg : Params) (p : Place) (j : Job) (st : Status) (ack : Bool) (byte : Byte) (ds : List Draw) (x : Inst) :
    Prop where
  seq : ∃ q : Seq, q.job = j ∧ x.seq = q.goto cfg p
  pausedIn : x.core.isPausedIn st
  can : x.core.canTrigger
  ack : x.core.aAck = ack
  data : x.core.data = byte
  script : x.script = ds

theorem goto_eq_at {cfg : Params} {p : Place} {μ : Micro} (q : Seq) (h : firstMicro p = μ) (hμ : μ ∉ [Micro.wait1, .idle1]) :
    q.goto cfg p = q.at ⟨p, μ⟩ := by
  subst h
  unfold Seq.goto Seq.begin
  split
  next h => exact absurd (h ▸ List.mem_cons_self) hμ
  next h => exact absurd (h ▸ List.mem_cons_of_mem _ List.mem_cons_self) hμ
  · rfl

section Lines
variable {s : State} {b : Nat} {w x : Inst} {p p' : Place} {μ ν : Micro} {q : Seq} {j j' : Job} {c c' c'' : CoreState}
  {st st' : Status} {ack : Bool} {byte : Byte} {d : Draw} {ds ds' : List Draw} {tr : List Action} {sts : List Status}

theorem Holds.seqStep_eq (hx : Holds (q.at ⟨p, μ⟩) c ds x) : x.seqStep s.params b = stepAt s.params b p μ x :=
  seqStep_of_running (l := ⟨p, μ⟩) (hx.seq ▸ rfl)

theorem Begins.rests {cfg : Params} (hx : Begins cfg p j st ack byte ds x) : Rests x.core := by
  obtain ⟨hact, -, hrst, -⟩ := hx.pausedIn
  exact ⟨hact, hrst⟩

/-- Where a line without a wait begins, the program stands at its first step. -/
theorem Begins.holds {cfg : Params} (hx : Begins cfg p j st ack byte ds x) (h : firstMicro p = μ)
    (hμ : μ ∉ [Micro.wait1, .idle1]) : ∃ q : Seq, q.job = j ∧ Holds (q.at ⟨p, μ⟩) x.core ds x := by
  obtain ⟨q, hj, hseq⟩ := hx.seq
  exact ⟨q, hj, hseq.trans (goto_eq_at q h hμ), rfl, hx.script⟩

/-- After a line the next one begins on the core that is left. -/
theorem Begins.of_holds {cfg : Params} {q' : Seq} (hj : q'.job = j) (hx : Holds (q'.goto cfg p) c ds x)
    (hpaused : c.isPausedIn st) (hcan : c.canTrigger) (hack : c.aAck = ack) (hdata : c.data = byte) :
    Begins cfg p j st ack byte ds x := by
  obtain ⟨hseq, rfl, hscript⟩ := hx
  exact ⟨⟨q', hj, hseq⟩, hpaused, hcan, hack, hdata, hscript⟩

variable (hget : s.insts[b]? = some w)
include hget

/-- A read that stays on its line. -/
theorem Holds.readThen_round {r : Reg} {f : Word → Seq → Seq} {q' : Seq} (hx : Holds (q.at ⟨p, μ⟩) c ds x) (hrests : Rests c)
    (hr : r ≠ .lcr) (hstep : stepAt s.params b p μ x = readThen s.params b r f x)
    (hf : f (readWord s.params (x.nextDraw b).levels r c) (q.at ⟨p, μ⟩) = q') :
    ∃ y, EagerLeads s b x y 1 [] [] ∧ Holds q' c ds y := by
  refine hx.read_round hget hrests hr ?_
  rw [hx.seqStep_eq, hstep, readThen, Inst.readValue, hx.core, hx.seq, hf]

/-- A read of CNTR and the write of a value made of it, which ends the line. -/
theorem Holds.cntr_line {form : Word → Word} {res : Result} {q' : Seq} (hx : Holds (q.at ⟨p, μ⟩) c ds x) (hrests : Rests c)
    (hread : ∀ x, stepAt s.params b p μ x = readThen s.params b .cntr (fun v q => { q with c := v }.at ⟨p, ν⟩) x)
    (hwrite : ∀ x, stepAt s.params b p ν x = writeEnd s.params .cntr (form x.seq.c) p res x)
    (hw : writeReg s.params .cntr (form (cntrWord s.params.pos c)) c = .next c') (hs : Settles c' c'' tr sts ds ds')
    (hrst : c''.rstPending = false)
    (hq : afterLine s.params p res ({ q with c := cntrWord s.params.pos c }.at ⟨p, ν⟩) = .next q') :
    ∃ y, EagerLeads s b x y 2 tr sts ∧ Holds q' c'' ds' y := by
  obtain ⟨y, hxy, hy⟩ := hx.readThen_round hget hrests (by decide) (hread x)
    (q' := { q with c := cntrWord s.params.pos c }.at ⟨p, ν⟩) rfl
  have hstep := (hy.seqStep_eq (s := s) (b := b)).trans (hwrite y)
  rw [writeEnd, hy.seq, hq] at hstep
  obtain ⟨z, hyz, hz⟩ := hy.write_round hget hrests.1 hstep hw hs hrst
  exact ⟨z, hxy.append hyz, hz⟩

/-- SEND_START, from idle or after a byte: the START completes before the first poll. -/
theorem Holds.start_line {a : Action} (hx : Holds (q.at ⟨p, .start1⟩) c (d :: ds) x) (hl : s.params.pos.wf)
    (hs : StartsWith s.params c a c') (hline : d.line = .ok) (hbudget : 1 ≤ s.params.startBudget) (hj : q.job = j)
    (hgoes : Goes s.params p j p' j') :
    ∃ (y : Inst) (q' : Seq), EagerLeads s b x y 3 [a] [if a = .rstart then .txRstart else .txStart] ∧ q'.job = j' ∧
      Holds (q'.goto s.params p') (paused (if a = .rstart then .txRstart else .txStart) c') ds y := by
  have hrests : Rests (paused (if a = .rstart then .txRstart else .txStart) c') := ⟨rfl, hs.noResetAfter⟩
  have hsta : (cntrWord s.params.pos (paused (if a = .rstart then .txRstart else .txStart) c')).getLsbD s.params.pos.mSta =
      false := (cntrWord_fields hl _).2.2.1
  obtain ⟨y1, h1, hy1⟩ := hx.readThen_round hget ⟨hs.before, hs.noReset⟩ (r := .cntr) (by decide)
    (f := fun v q => { q with c := v }.at ⟨p, .start2⟩) rfl
    (q' := { q with c := cntrWord s.params.pos c }.at ⟨p, .start2⟩) rfl
  have hstep2 : y1.seqStep s.params b = Out.bind (y1.write s.params .cntr
      (clrForm s.params (cntrWord s.params.pos c) ||| bitMask s.params.pos.mSta)) fun x' =>
        .next (x'.setSeq ({ q with c := cntrWord s.params.pos c, k := 0 }.at ⟨p, .start3⟩)) := by
    rw [hy1.seqStep_eq, stepAt, writeThen, hy1.seq]
    rfl
  have hdone : complete d a c' = .next (paused (if a = .rstart then .txRstart else .txStart) c') := by
    rw [complete_start hs.isStart, hline]
    rfl
  obtain ⟨y2, h2, hy2⟩ := hy1.write_round hget hs.before hstep2 hs.write
    (.answered d ds hs.act (drawsAnswer_of_start hs.isStart) hdone) hs.noResetAfter
  have hstep3 : stepAt s.params b p .start3 y2 = readThen s.params b .cntr (fun v q =>
      { q with c := v, k := q.k + 1 }.at ⟨p, if v.getLsbD s.params.pos.mSta then .start3 else .start4⟩) y2 :=
    if_neg (by rw [hy2.seq]; exact (Nat.ne_of_gt hbudget).symm)
  obtain ⟨y3, h3, hy3⟩ := hy2.readThen_round hget hrests (by decide) hstep3
    (q' := { q with c := cntrWord s.params.pos _, k := 0 + 1 }.at ⟨p, .start4⟩)
    (congrArg (fun ν => Seq.at _ ⟨p, ν⟩) (if_neg (Bool.eq_false_iff.mp hsta)))
  obtain ⟨q', hj', hq'⟩ := hgoes (.ok 0 []) y3.seq (by rw [hy3.seq]; exact hj)
  have hstep4 : y3.seqStep s.params b = .next (y3.setSeq (q'.goto s.params p')) := by
    rw [hy3.seqStep_eq, stepAt, silently, hq']
    rfl
  obtain ⟨y4, h4, hy4⟩ := hy3.silent_round hget hrests hstep4
  exact ⟨y4, q', h1.append (h2.append (h3.append h4)), hj', hy4⟩

/-- A line that is one read and one write of CNTR, on a core paused in `st`, leaves one paused in `st'`. -/
theorem Begins.cntr_line {form : Word → Word} {res : Result} {ack' : Bool} {byte' : Byte}
    (hx : Begins s.params p j st ack byte ds x) (hfirst : firstMicro p = μ) (hμ : μ ∉ [Micro.wait1, .idle1])
    (hread : ∀ x, stepAt s.params b p μ x = readThen s.params b .cntr (fun v q => { q with c := v }.at ⟨p, ν⟩) x)
    (hwrite : ∀ x, stepAt s.params b p ν x = writeEnd s.params .cntr (form x.seq.c) p res x)
    (hw : writeReg s.params .cntr (form (cntrWord s.params.pos x.core)) x.core = .next c')
    (hs : Settles c' c'' tr sts ds ds') (hgoes : Goes s.params p j p' j')
    (hpaused : c''.isPausedIn st') (hcan : c''.canTrigger) (hack : c''.aAck = ack') (hdata : c''.data = byte') :
    ∃ y, EagerLeads s b x y 2 tr sts ∧ Begins s.params p' j' st' ack' byte' ds' y := by
  obtain ⟨q, hj, hq⟩ := hx.holds hfirst hμ
  obtain ⟨q', hj', hq'⟩ := hgoes res ({ q with c := cntrWord s.params.pos x.core }.at ⟨p, ν⟩) hj
  have ⟨_, _, hrst, _⟩ := hpaused
  obtain ⟨y, hxy, hy⟩ := hq.cntr_line hget hx.rests hread hwrite hw hs hrst hq'
  exact ⟨y, hxy, .of_holds hj' hy hpaused hcan hack hdata⟩

/-- CLEAR_IF begins a receive, which stores the slave's byte and is acknowledged as A_ACK says. -/
theorem Begins.receive_line (hx : Begins s.params p j st ack byte (d :: ds) x) (hfirst : firstMicro p = .clear1)
    (hl : s.params.pos.wf) (hst : st ∈ mrxGoSet) (hline : d.line = .ok) (hgoes : Goes s.params p j p' j') :
    ∃ y, EagerLeads s b x y 2 [.rxData] [if ack then .mRxdAck else .mRxdNak] ∧
      Begins s.params p' j' (if ack then .mRxdAck else .mRxdNak) ack d.byte ds y := by
  have ⟨_, _, hrst, _⟩ := hx.pausedIn
  have hw := writeCntr_clrForm_triggers hl hx.pausedIn hx.can (triggerAction_rxData hst)
  rw [if_pos rfl] at hw
  have hc : ∀ {c : CoreState}, c.ackTrig = c.aAck → c.aAck = ack → complete d .rxData c =
      .next (paused (if ack then .mRxdAck else .mRxdNak) { c with data := d.byte }) := by
    rintro c htrig rfl
    rw [complete, completeRx_ok hline, ackUsed_of_eq _ htrig]
  exact hx.cntr_line hget hfirst (by decide) (fun _ => rfl) (fun _ => rfl) hw
    (.answered d ds rfl rfl (hc rfl (by exact hx.ack))) hgoes ⟨rfl, rfl, hrst, rfl, rfl, rfl⟩ hx.can hx.ack rfl

/-- SET_ACK and CLR_ACK leave A_ACK as asked. -/
theorem Begins.setAck_line (hx : Begins s.params p j st ack byte ds x) (hfirst : firstMicro p = .setAck1)
    (hl : s.params.pos.wf) (hgoes : Goes s.params p j p' j') :
    ∃ y, EagerLeads s b x y 2 [] [] ∧ Begins s.params p' j' st true byte ds y := by
  have ⟨hact, _, hrst, _⟩ := hx.pausedIn
  have hw := writeCntr_aAck hrst (.inl ⟨st, hx.pausedIn⟩) (keepForm_or_aAck_shows hl x.core)
  exact hx.cntr_line (form := fun c => keepForm s.params c ||| bitMask s.params.pos.aAck) hget hfirst (by decide)
    (fun _ => rfl) (fun _ => rfl) hw (.quiet ds hact) hgoes hx.pausedIn hx.can rfl hx.data

theorem Begins.clrAck_line (hx : Begins s.params p j st ack byte ds x) (hfirst : firstMicro p = .clrAck1)
    (hl : s.params.pos.wf) (hgoes : Goes s.params p j p' j') :
    ∃ y, EagerLeads s b x y 2 [] [] ∧ Begins s.params p' j' st false byte ds y := by
  have ⟨hact, _, hrst, _⟩ := hx.pausedIn
  have hw := writeCntr_aAck hrst (.inl ⟨st, hx.pausedIn⟩) (keepForm_and_not_aAck_shows hl x.core)
  exact hx.cntr_line (form := fun c => keepForm s.params c &&& ~~~bitMask s.params.pos.aAck) hget hfirst (by decide)
    (fun _ => rfl) (fun _ => rfl) hw (.quiet ds hact) hgoes hx.pausedIn hx.can rfl hx.data

/-- SEND_STOP ends the transaction in an idle core. -/
theorem Begins.stop_line {res : Result} (hx : Begins s.params p j st ack byte ds x) (hfirst : firstMicro p = .stop1)
    (hl : s.params.pos.wf) (hst : st ∈ masterSet)
    (hends : ∀ r q, q.job = j → ∃ q' : Seq, q'.phase = .done ∧ q'.res = some res ∧ afterLine s.params p r q = .next q') :
    ∃ y, EagerLeads s b x y 2 [.stop] [.idle] ∧ y.seq.phase = .done ∧ y.seq.res = some res ∧ y.core.isIdle ∧
      y.core.aAck = ack ∧ y.script = ds := by
  have ⟨_, _, hrst, _⟩ := hx.pausedIn
  obtain ⟨q, hj, hq⟩ := hx.holds hfirst (by decide)
  obtain ⟨q', hphase, hres, hq'⟩ :=
    hends (.ok 0 []) ({ q with c := cntrWord s.params.pos x.core }.at ⟨p, .stop2⟩) hj
  have hw := writeCntr_stop hl hx.pausedIn hx.can (.inl ⟨hst, rfl⟩)
  obtain ⟨y, hxy, hseq, hcore, hscript⟩ := hq.cntr_line (form := fun c => clrForm s.params c ||| bitMask s.params.pos.mStp)
    hget hx.rests (fun _ => rfl) (fun _ => rfl) hw (.unanswered ds rfl rfl fun _ => rfl) hrst hq'
  refine ⟨y, hxy, hseq ▸ hphase, hseq ▸ hres, ?_, ?_, hscript⟩ <;> rw [hcore]
  · exact ⟨rfl, rfl, hrst, rfl, rfl, rfl⟩
  · exact hx.ack

/-- Sent from a core paused in `st` and acknowledged, the byte is the action `a`, which ends in `st'`. -/
structure Sends (st : Status) (byte : Byte) (a : Action) (st' : Status) : Prop where
  triggers : triggerAction st false false byte = .next a
  draws : drawsAnswer a = true
  notReceive : a ≠ .rxData
  completes : ∀ d c, allAcks d → complete d a c = .next (paused st' c)

/-- SEND_DATA sends its byte, and the acknowledged byte pauses the core. -/
theorem Begins.send_line {byte' : Byte} {a : Action} (hx : Begins s.params p j st ack byte (d :: ds) x)
    (hfirst : firstMicro p = .data1) (hl : s.params.pos.wf) (hd : allAcks d)
    (hbyte : ∀ q : Seq, q.job = j → byteAt p q = some byte') (hsends : Sends st byte' a st')
    (hgoes : Goes s.params p j p' j') :
    ∃ y, EagerLeads s b x y 3 [a] [st'] ∧ Begins s.params p' j' st' ack byte' ds y := by
  have ⟨hact, _, hrst, _⟩ := hx.pausedIn
  obtain ⟨q, hj, hq⟩ := hx.holds hfirst (by decide)
  have hstep1 : x.seqStep s.params b = Out.bind (x.write s.params .data (putByte s.params.pos.data byte')) fun x' =>
      .next (x'.setSeq (q.at ⟨p, .data2⟩)) := by
    rw [hq.seqStep_eq, data1_eq_writeThen (byte := byte') (by rw [hq.seq]; exact hbyte _ hj), writeThen, hq.seq]
    rfl
  obtain ⟨y, hxy, hy⟩ := hq.write_round hget hact hstep1 (writeData_stores hl hrst hact byte') (.quiet _ hact) hrst
  have hw := writeCntr_clrForm_triggers (c := { x.core with data := byte' }) hl hx.pausedIn hx.can hsends.triggers
  rw [if_neg hsends.notReceive] at hw
  obtain ⟨q', hj', hq'⟩ :=
    hgoes (.ok 1 []) ({ q with c := cntrWord s.params.pos { x.core with data := byte' } }.at ⟨p, .data3⟩) hj
  obtain ⟨z, hyz, hz⟩ := hy.cntr_line (form := clrForm s.params) hget ⟨hact, hrst⟩ (fun _ => rfl) (fun _ => rfl) hw
    (.answered d ds rfl hsends.draws (hsends.completes d _ hd)) hrst hq'
  exact ⟨z, hxy.append hyz, .of_holds hj' hz ⟨rfl, rfl, hrst, rfl, rfl, rfl⟩ hx.can hx.ack rfl⟩

/-- A wait that expects the status the core is paused in: a poll of the flag, the read of STAT, and EXPECT. -/
theorem Begins.wait_line (hx : Begins s.params p j st ack byte ds x) (hexpects : expects p = some st) (hl : s.params.pos.wf)
    (hbudget : 1 ≤ s.params.waitBudget) (hgoes : Goes s.params p j p' j') :
    ∃ y, EagerLeads s b x y 2 [] [] ∧ Begins s.params p' j' st ack byte ds y := by
  have ⟨_, hflag, _, _, _, hsta⟩ := hx.pausedIn
  have hne := ne_alone_of_expects hexpects
  obtain ⟨q, hj, hseq⟩ := hx.seq
  have hgoto : q.goto s.params p = { q with k := 0, exp := statusCode s.params st }.at ⟨p, .wait1⟩ := by
    cases p <;> cases hexpects <;> rfl
  have hq : Holds ({ q with k := 0, exp := statusCode s.params st }.at ⟨p, .wait1⟩) x.core ds x :=
    ⟨hseq.trans hgoto, rfl, hx.script⟩
  have hset : (cntrWord s.params.pos x.core).getLsbD s.params.pos.iflg = true :=
    (cntrWord_fields hl x.core).2.2.2.2.1.trans hflag
  have hbudgetAt : ∀ q₀, waitBudgetAt s.params p q₀ = s.params.waitBudget := by
    intro q₀; cases p <;> cases hexpects <;> rfl
  have hstep1 : stepAt s.params b p .wait1 x = readThen s.params b .cntr (fun v q =>
      { q with c := v, k := q.k + 1 }.at ⟨p, if v.getLsbD s.params.pos.iflg then .wait2 else .wait1⟩) x :=
    if_neg (by rw [hbudgetAt, hq.seq]; exact (Nat.ne_of_gt hbudget).symm)
  obtain ⟨y1, h1, hy1⟩ := hq.readThen_round hget hx.rests (by decide) hstep1
    (q' := { q with c := cntrWord s.params.pos x.core, k := 0 + 1, exp := statusCode s.params st }.at ⟨p, .wait2⟩)
    (congrArg (fun ν => Seq.at _ ⟨p, ν⟩) (if_pos hset))
  have hcode : statByte s.params (statWord s.params x.core) = statusCode s.params st := hsta ▸ statByte_statWord hl x.core
  obtain ⟨y2, h2, hy2⟩ := hy1.readThen_round hget hx.rests (r := .stat) (by decide)
    (f := fun v q => { q with s := statByte s.params v, w := ⟨false, statByte s.params v⟩ }.at ⟨p, .wait3⟩) rfl
    (q' := { q with
      c := cntrWord s.params.pos x.core
      k := 0 + 1
      exp := statusCode s.params st
      s := statusCode s.params st
      w := ⟨false, statusCode s.params st⟩ }.at ⟨p, .wait3⟩)
    (by rw [← hcode]; rfl)
  obtain ⟨q', hj', hq'⟩ := hgoes (.ok 0 []) y2.seq (by rw [hy2.seq]; exact hj)
  have hw : y2.seq.w.timedOut = false := by rw [hy2.seq]; rfl
  have heq : y2.seq.w.status = y2.seq.exp := by rw [hy2.seq]; rfl
  have hstep3 : y2.seqStep s.params b = .next (y2.setSeq (q'.goto s.params p')) := by
    rw [hy2.seqStep_eq, stepAt, waitLast, waitEnd_expected hne hw heq, hq', hw, Bool.and_false, Bool.false_and]
    rfl
  obtain ⟨y3, h3, hy3⟩ := hy2.silent_round hget hx.rests hstep3
  exact ⟨y3, h1.append (h2.append h3), .of_holds hj' hy3 hx.pausedIn hx.can hx.ack hx.data⟩

/-- A loop test makes no access. -/
theorem Begins.test_line (hx : Begins s.params p j st ack byte ds x) (hfirst : firstMicro p = .test)
    (hgoes : Goes s.params p j p' j') :
    ∃ y, EagerLeads s b x y 0 [] [] ∧ Begins s.params p' j' st ack byte ds y := by
  obtain ⟨q, hj, hq⟩ := hx.holds hfirst (by decide)
  obtain ⟨q', hj', hq'⟩ := hgoes (.ok 0 []) x.seq (by rw [hq.seq]; exact hj)
  have hstep : x.seqStep s.params b = .next (x.setSeq (q'.goto s.params p')) := by
    rw [hq.seqStep_eq, stepAt, silently, hq']
    rfl
  obtain ⟨y, hxy, hy⟩ := hq.silent_round hget hx.rests hstep
  exact ⟨y, hxy, .of_holds hj' hy hx.pausedIn hx.can hx.ack hx.data⟩

/-- A fetch puts DATA's byte in its entry of `rbuf`. -/
theorem Begins.fetch_line {e : Nat} (hx : Begins s.params p j st ack byte ds x) (hfirst : firstMicro p = .fetch)
    (hl : s.params.pos.wf) (hentry : ∀ q : Seq, q.job = j → entryAt p q = e)
    (hgoes : Goes s.params p { j with rbuf := bufSet j.rbuf e byte } p' j') :
    ∃ y, EagerLeads s b x y 1 [] [] ∧ Begins s.params p' j' st ack byte ds y := by
  obtain ⟨q, hj, hq⟩ := hx.holds hfirst (by decide)
  have hjob : (fetched s.params p x).job = { j with rbuf := bufSet j.rbuf e byte } := by
    subst hj
    rw [fetched, dataByte_dataWord hl, hx.data, hq.seq, hentry (q.at ⟨p, .fetch⟩) rfl]
    rfl
  obtain ⟨q', hj', hq'⟩ := hgoes (.ok 0 []) (fetched s.params p x) hjob
  have hstep : x.seqStep s.params b = .next ((x.afterRead s.params b .data).setSeq (q'.goto s.params p')) := by
    rw [hq.seqStep_eq]
    exact congrArg (fun o => Out.bind o fun q => .next ((x.afterRead s.params b .data).setSeq q)) hq'
  obtain ⟨y, hxy, hy⟩ := hq.read_round hget hx.rests (by decide) hstep
  exact ⟨y, hxy, .of_holds hj' hy hx.pausedIn hx.can hx.ack hx.data⟩

end Lines

/-! Where the lines go (rules R231 to R234) -/

section Goes
variable {cfg : Params} {p p' : Place} {j j' : Job}

theorem bindResult_job (p : Place) (r : Result) (q : Seq) : (bindResult p r q).job = q.job := by
  unfold bindResult
  split <;> rfl

theorem Goes.of_nextLine
    (h : ∀ r q, q.job = j → ∃ q' : Seq, q'.job = j' ∧ nextLine cfg p r q = .next (q'.goto cfg p')) : Goes cfg p j p' j' :=
  fun r q hq => h r _ ((bindResult_job p r q).trans hq)

/-- A place with one successor, at which the job stays as it is. -/
theorem Goes.plain (h : ∀ r q, nextLine cfg p r q = .next (q.goto cfg p')) : Goes cfg p j p' j :=
  .of_nextLine fun r q hq => ⟨q, hq, h r q⟩

theorem goes_t7 : Goes cfg .t7 j (if readsAfterT7 j.op then .r8 else .w8) { j with i := 0 } :=
  .of_nextLine fun _ q hq => ⟨{ q with i := 0 }, hq ▸ rfl, hq ▸ rfl⟩

theorem goes_w8 : Goes cfg .w8 j (if j.i = j.n then .w11 else .w9) j :=
  .of_nextLine fun _ q hq => ⟨q, hq, hq ▸ rfl⟩

theorem goes_w10 : Goes cfg .w10 j .w8 { j with i := j.i + 1 } :=
  .of_nextLine fun _ q hq => ⟨{ q with i := q.i + 1 }, hq ▸ rfl, rfl⟩

theorem goes_r12 : Goes cfg .r12 j (if acksLast cfg j.op then .d14 else .r13) { j with i := 0 } :=
  .of_nextLine fun _ q hq => ⟨{ q with exp := statusCode cfg .mRxdAck, i := 0 }, hq ▸ rfl, hq ▸ rfl⟩

theorem goes_r13 : Goes cfg .r13 j (if j.i = j.n - 1 then .r17 else .r14) j :=
  .of_nextLine fun _ q hq => ⟨q, hq, hq ▸ rfl⟩

theorem goes_r16 : Goes cfg .r16 j .r13 { j with i := j.i + 1 } :=
  .of_nextLine fun _ q hq => ⟨{ q with i := q.i + 1 }, hq ▸ rfl, rfl⟩

theorem goes_r17 : Goes cfg .r17 j .r18 j :=
  .of_nextLine fun _ q hq => ⟨{ q with exp := statusCode cfg .mRxdNak }, hq, rfl⟩

variable {q : Seq} (hq : q.job = j)
include hq

theorem byteAt_t4 : byteAt .t4 q = some (addrByte j.chip false) := hq ▸ rfl
theorem byteAt_t6 : byteAt .t6 q = some j.sub := hq ▸ rfl
theorem byteAt_w9 : byteAt .w9 q = j.wbuf[j.i]? := hq ▸ rfl
theorem byteAt_r10 : byteAt .r10 q = some (addrByte j.chip true) := hq ▸ rfl
theorem entryAt_r16 : entryAt .r16 q = j.i := hq ▸ rfl
theorem entryAt_r20 : entryAt .r20 q = j.n - 1 := hq ▸ rfl

end Goes

/-! The entries of `rbuf` -/

/-- Writing the entry after the entries read adds its byte to them. -/
theorem bufRead_bufSet_eq {l : List (Option Byte)} {n : Nat} {got : List Byte} (d : Byte) (h : bufRead n l = some got) :
    bufRead (n + 1) (bufSet l n d) = some (got ++ [d]) := by
  induction n generalizing l got with
  | zero =>
    cases h
    cases l <;> rfl
  | succ n ih =>
    match l with
    | [] => cases h
    | none :: l => cases h
    | some byte :: l =>
      obtain ⟨got', hgot, rfl⟩ := Option.map_eq_some_iff.mp h
      rw [bufSet, bufRead, ih hgot]
      rfl

/-- A read ends with the entries of its job. -/
theorem afterLine_r21 {cfg : Params} {q : Seq} {j : Job} {bs : List Byte} (r : Result) (hq : q.job = j)
    (h : bufRead j.n j.rbuf = some bs) : afterLine cfg .r21 r q = .next ((bindResult .r21 r q).finish (.ok j.n bs)) := by
  subst hq
  have hread : bufRead q.n q.rbuf = some bs := h
  rw [afterLine, nextLine, finishRead, bindResult_n, bindResult_rbuf, hread]
  rfl

theorem afterLine_d21 {cfg : Params} {q : Seq} {j : Job} {bs : List Byte} (r : Result) (hq : q.job = j)
    (h : bufRead 1 j.rbuf = some bs) : afterLine cfg .d21 r q = .next ((bindResult .d21 r q).finish (.ok 1 bs)) := by
  subst hq
  have hread : bufRead 1 q.rbuf = some bs := h
  rw [afterLine, nextLine, finishRead, bindResult_rbuf, hread]

/-! What the bytes of a transaction do on the bus -/

theorem sends_writeAddress (chip : BitVec 7) :
    Sends .txStart (addrByte chip false) (.txAddr (addrByte chip false)) .txAwAck := by
  have hbit : (addrByte chip false).getLsbD 0 = false := by revert chip; decide
  refine ⟨triggerAction_afterStart (by decide), rfl, nofun, fun d c ⟨_, haddr, _⟩ => ?_⟩
  simp only [complete, completeAddr, haddr, hbit]
  rfl

theorem sends_readAddress (chip : BitVec 7) :
    Sends .txRstart (addrByte chip true) (.txAddr (addrByte chip true)) .txArAck := by
  have hbit : (addrByte chip true).getLsbD 0 = true := by revert chip; decide
  refine ⟨triggerAction_afterStart (by decide), rfl, nofun, fun d c ⟨_, haddr, _⟩ => ?_⟩
  simp only [complete, completeAddr, haddr, hbit]
  rfl

theorem sends_data {st : Status} (hst : st ∈ mtxSet) (byte : Byte) : Sends st byte (.txData byte) .mTxdAck := by
  refine ⟨triggerAction_txData hst, rfl, nofun, fun d c ⟨_, _, hdata⟩ => ?_⟩
  simp only [complete, dataStatus, hdata]
  rfl

/-! The programs, eagerly run -/

/-- A transaction has ended with result `r`, its STOP completed: the core is idle with A_ACK at `ack`, and `ds` are the bus's
next answers. -/
structure Stopped (r : Result) (ack : Bool) (ds : List Draw) (x : Inst) : Prop where
  phase : x.seq.phase = .done
  res : x.seq.res = some r
  idle : x.core.isIdle
  ack : x.core.aAck = ack
  script : x.script = ds

section Programs
variable {s : State} {b : Nat} {w x : Inst} {q : Seq} {j : Job} {c : CoreState} {st : Status} {ack : Bool} {byte : Byte}
  {d d1 d2 d3 : Draw} {ds rest : List Draw} (hget : s.insts[b]? = some w) (hwf : s.params.wf)
  (hbudgets : 1 ≤ s.params.idleBudget ∧ 1 ≤ s.params.startBudget ∧ 1 ≤ s.params.waitBudget)
include hget hwf hbudgets

/-- T1 sees the idle core at its first poll. -/
theorem Holds.idle_line (hx : Holds (q.goto s.params .t1) c ds x) (hidle : c.isIdle) : ∃ (y : Inst) (q' : Seq),
    EagerLeads s b x y 1 [] [] ∧ q'.job = q.job ∧ Holds (q'.goto s.params .t2) c ds y := by
  have ⟨hact, _, hrst, _, _, hsta⟩ := hidle
  obtain ⟨hbudget, -⟩ := hbudgets
  have hphase : x.seq.phase = .running ⟨.t1, .idle1⟩ := hx.seq ▸ rfl
  have hpolls : x.seq.k ≠ idleBudgetAt s.params .t1 x.seq := by
    rw [hx.seq]
    exact (Nat.ne_of_gt hbudget).symm
  have hfree : ¬ SeenBusy x := by simp [SeenBusy, hx.core, hact, hsta]
  have hstep := idle_goesOn (b := b) hwf hphase hpolls hfree
  rw [hx.seq] at hstep
  exact ⟨_, { q with k := 0 + 1, s := statusCode s.params x.core.sta, bound := some (.ok 0 []) },
    EagerLeads.quiet hget hstep rfl ⟨hx.core ▸ hact, hx.core ▸ hrst⟩, rfl, rfl, hx.core, hx.script⟩

/-- T1 to T7: START, the write address and the sub-address. -/
theorem addresses_run (hx : Holds (q.goto s.params .t1) c (d1 :: d2 :: d3 :: ds) x) (hidle : c.isIdle)
    (hcan : c.canTrigger) (hd1 : allAcks d1) (hd2 : allAcks d2) (hd3 : allAcks d3) :
    ∃ y, EagerLeads s b x y 16 [.start, .txAddr (addrByte q.chip false), .txData q.sub] [.txStart, .txAwAck, .mTxdAck] ∧
      Begins s.params (if readsAfterT7 q.op then .r8 else .w8) { q.job with i := 0 } .mTxdAck c.aAck q.sub ds y := by
  have ⟨_, hl, _⟩ := hwf
  have ⟨_, hstart, hwait⟩ := hbudgets
  have ⟨_, _, hrst, _⟩ := hidle
  obtain ⟨y1, q1, h1, hj1, hy1⟩ := hx.idle_line hget hwf hbudgets hidle
  obtain ⟨y2, q2, h2, hj2, hy2⟩ := hy1.start_line hget hl (startsWith_of_idle hl hidle hcan) hd1.1 hstart hj1
    (.plain fun _ _ => rfl)
  have hb2 : Begins s.params .t3 q.job .txStart c.aAck c.data (d2 :: d3 :: ds) y2 :=
    .of_holds hj2 hy2 ⟨rfl, rfl, hrst, rfl, rfl, rfl⟩ hcan rfl rfl
  obtain ⟨y3, h3, hb3⟩ := hb2.wait_line hget rfl hl hwait (.plain fun _ _ => rfl)
  obtain ⟨y4, h4, hb4⟩ := hb3.send_line hget rfl hl hd2 (fun _ => byteAt_t4)
    (sends_writeAddress q.chip) (.plain fun _ _ => rfl)
  obtain ⟨y5, h5, hb5⟩ := hb4.wait_line hget rfl hl hwait (.plain fun _ _ => rfl)
  obtain ⟨y6, h6, hb6⟩ := hb5.send_line hget rfl hl hd3 (fun _ => byteAt_t6)
    (sends_data (by decide) q.sub) (.plain fun _ _ => rfl)
  obtain ⟨y7, h7, hb7⟩ := hb6.wait_line hget rfl hl hwait goes_t7
  exact ⟨y7, h1.append (h2.append (h3.append (h4.append (h5.append (h6.append h7))))), hb7⟩

/-- T8 to T11: the bytes `bs` left of the payload, and STOP. -/
theorem payload_run (bs : List Byte) (hx : Begins s.params .w8 j .mTxdAck ack byte (ds ++ rest) x)
    (hi : j.i ≤ j.n) (hn : j.n = j.wbuf.length) (hbs : j.wbuf.drop j.i = bs) (hlen : ds.length = bs.length)
    (hacks : ∀ d ∈ ds, allAcks d) :
    ∃ sts y, EagerLeads s b x y (5 * bs.length + 2) (bs.map .txData ++ [.stop]) sts ∧
      Stopped (.ok j.n []) ack rest y := by
  have ⟨_, hl, _⟩ := hwf
  have ⟨_, _, hwait⟩ := hbudgets
  induction bs generalizing x j byte ds with
  | nil =>
    obtain rfl := List.eq_nil_of_length_eq_zero hlen
    have hend : j.i = j.n := Nat.le_antisymm hi (hn ▸ List.drop_eq_nil_iff.mp hbs)
    obtain ⟨y1, h1, hb1⟩ := hx.test_line hget rfl goes_w8
    rw [if_pos hend] at hb1
    obtain ⟨y2, h2, hphase, hres, hidle, hack, hscript⟩ := hb1.stop_line (res := .ok j.n []) hget rfl hl (by decide)
      fun r q hq => ⟨(bindResult .w11 r q).finish (.ok q.n []), rfl, hq ▸ rfl, rfl⟩
    exact ⟨_, y2, h1.append h2, hphase, hres, hidle, hack, hscript⟩
  | cons byte' bs ih =>
    obtain ⟨d, ds, rfl⟩ := List.exists_cons_of_length_eq_add_one hlen
    have hlt : j.i < j.n := by
      have hlong := congrArg List.length hbs
      rw [List.length_drop, List.length_cons] at hlong
      omega
    have hbyte : j.wbuf[j.i]? = some byte' := by
      rw [← List.head?_drop, hbs, List.head?_cons]
    have hrest : j.wbuf.drop (j.i + 1) = bs := by rw [← List.tail_drop, hbs, List.tail_cons]
    obtain ⟨y1, h1, hb1⟩ := hx.test_line hget rfl goes_w8
    rw [if_neg hlt.ne] at hb1
    obtain ⟨y2, h2, hb2⟩ := hb1.send_line hget rfl hl (hacks d List.mem_cons_self)
      (fun _ hq => (byteAt_w9 hq).trans hbyte) (sends_data (by decide) byte') (.plain fun _ _ => rfl)
    obtain ⟨y3, h3, hb3⟩ := hb2.wait_line hget rfl hl hwait goes_w10
    obtain ⟨sts, y4, h4, hy4⟩ := ih hb3 hlt hn hrest (Nat.succ.inj hlen) fun d' hd' => hacks d' (List.mem_cons_of_mem _ hd')
    have hrun := h1.append (h2.append (h3.append h4))
    rw [show 0 + (3 + (2 + (5 * bs.length + 2))) = 5 * (byte' :: bs).length + 2 by rw [List.length_cons]; omega] at hrun
    exact ⟨_, y4, hrun, hy4⟩

/-- A whole MASTER_WRITE or DEVICE_WRITE. -/
theorem write_run (hx : Holds (q.goto s.params .t1) c (ds ++ rest) x) (hidle : c.isIdle) (hcan : c.canTrigger)
    (hop : readsAfterT7 q.op = false) (hn : q.n = q.wbuf.length) (hlen : ds.length = q.n + 3)
    (hacks : ∀ d ∈ ds, allAcks d) :
    ∃ sts y, EagerLeads s b x y (18 + 5 * q.n)
        ([Action.start, .txAddr (addrByte q.chip false), .txData q.sub] ++ q.wbuf.map Action.txData ++ [Action.stop]) sts ∧
      Stopped (.ok q.n []) c.aAck rest y := by
  match ds, hlen with
  | d1 :: d2 :: d3 :: ds, hlen =>
    simp only [List.forall_mem_cons] at hacks
    obtain ⟨hd1, hd2, hd3, hacks⟩ := hacks
    obtain ⟨y1, h1, hb1⟩ := addresses_run hget hwf hbudgets hx hidle hcan hd1 hd2 hd3
    rw [hop] at hb1
    obtain ⟨sts, y2, h2, hy2⟩ := payload_run (j := { q.job with i := 0 }) hget hwf hbudgets q.wbuf hb1 (Nat.zero_le _) hn
      rfl (by simp only [List.length_cons] at hlen; omega) hacks
    have hrun := h1.append h2
    rw [← hn, show 16 + (5 * q.n + 2) = 18 + 5 * q.n by omega, ← List.append_assoc] at hrun
    exact ⟨_, y2, hrun, hy2⟩

/-- T8 to T12 of a read: repeated START, the read address, and A_ACK set. -/
theorem readAddress_run (hx : Begins s.params .r8 j .mTxdAck ack byte (d1 :: d2 :: ds) x) (hd1 : allAcks d1)
    (hd2 : allAcks d2) :
    ∃ y, EagerLeads s b x y 12 [.rstart, .txAddr (addrByte j.chip true)] [.txRstart, .txArAck] ∧
      Begins s.params (if acksLast s.params j.op then .d14 else .r13) { j with i := 0 } .txArAck true
        (addrByte j.chip true) ds y := by
  have ⟨_, hl, _⟩ := hwf
  have ⟨_, hstart, hwait⟩ := hbudgets
  have ⟨_, _, hrst, _⟩ := hx.pausedIn
  obtain ⟨q, hj, hq⟩ := hx.holds (μ := .start1) rfl (by decide)
  obtain ⟨y1, q1, h1, hj1, hy1⟩ := hq.start_line hget hl (startsWith_of_byteDone hl (by decide) hx.pausedIn hx.can) hd1.1
    hstart hj (.plain fun _ _ => rfl)
  have hb1 : Begins s.params .r9 j .txRstart ack byte (d2 :: ds) y1 :=
    .of_holds hj1 hy1 ⟨rfl, rfl, hrst, rfl, rfl, rfl⟩ hx.can hx.ack hx.data
  obtain ⟨y2, h2, hb2⟩ := hb1.wait_line hget rfl hl hwait (.plain fun _ _ => rfl)
  obtain ⟨y3, h3, hb3⟩ := hb2.send_line hget rfl hl hd2 (fun _ => byteAt_r10)
    (sends_readAddress j.chip) (.plain fun _ _ => rfl)
  obtain ⟨y4, h4, hb4⟩ := hb3.wait_line hget rfl hl hwait (.plain fun _ _ => rfl)
  obtain ⟨y5, h5, hb5⟩ := hb4.setAck_line hget rfl hl goes_r12
  exact ⟨y5, h1.append (h2.append (h3.append (h4.append h5))), hb5⟩

/-- T1 to T12 of a read. -/
theorem readBegins_run (hx : Holds (q.goto s.params .t1) c (ds ++ rest) x) (hidle : c.isIdle) (hcan : c.canTrigger)
    (hop : readsAfterT7 q.op = true) (hlen : ds.length = 5) (hacks : ∀ d ∈ ds, allAcks d) :
    ∃ y, EagerLeads s b x y 28 [.start, .txAddr (addrByte q.chip false), .txData q.sub, .rstart,
          .txAddr (addrByte q.chip true)] [.txStart, .txAwAck, .mTxdAck, .txRstart, .txArAck] ∧
      Begins s.params (if acksLast s.params q.op then .d14 else .r13) { q.job with i := 0 } .txArAck true
        (addrByte q.chip true) rest y := by
  match ds, hlen with
  | [d1, d2, d3, d4, d5], _ =>
    simp only [List.forall_mem_cons] at hacks
    obtain ⟨hd1, hd2, hd3, hd4, hd5, -⟩ := hacks
    obtain ⟨y1, h1, hb1⟩ := addresses_run hget hwf hbudgets hx hidle hcan hd1 hd2 hd3
    rw [hop] at hb1
    obtain ⟨y2, h2, hb2⟩ := readAddress_run hget hwf hbudgets hb1 hd4 hd5
    exact ⟨y2, h1.append h2, hb2⟩

/-- T13 to T21: a byte for each of the answers `ds`, every one but the last acknowledged, and STOP. -/
theorem receive_run (ds : List Draw) {got : List Byte} (hne : ds ≠ [])
    (hx : Begins s.params .r13 j st true byte (ds ++ rest) x) (hst : st ∈ mrxGoSet) (hn : j.n = j.i + ds.length)
    (hgot : bufRead j.i j.rbuf = some got) (hacks : ∀ d ∈ ds, allAcks d) :
    ∃ y, EagerLeads s b x y (5 * ds.length + 4) (List.replicate ds.length .rxData ++ [.stop])
        (List.replicate (ds.length - 1) .mRxdAck ++ [.mRxdNak, .idle]) ∧
      Stopped (.ok j.n (got ++ ds.map Draw.byte)) false rest y := by
  have ⟨_, hl, _⟩ := hwf
  have ⟨_, _, hwait⟩ := hbudgets
  induction ds generalizing x j st byte got with
  | nil => exact absurd rfl hne
  | cons d ds ih =>
    simp only [List.forall_mem_cons] at hacks
    obtain ⟨⟨hline, -⟩, hacks⟩ := hacks
    rw [List.length_cons] at hn
    obtain ⟨y1, h1, hb1⟩ := hx.test_line hget rfl goes_r13
    cases ds with
    | nil =>
      have hlast : j.i = j.n - 1 := by rw [hn]; rfl
      rw [if_pos hlast] at hb1
      obtain ⟨y2, h2, hb2⟩ := hb1.clrAck_line hget rfl hl goes_r17
      obtain ⟨y3, h3, hb3⟩ := hb2.receive_line hget rfl hl hst hline (.plain fun _ _ => rfl)
      obtain ⟨y4, h4, hb4⟩ := hb3.wait_line hget rfl hl hwait (.plain fun _ _ => rfl)
      obtain ⟨y5, h5, hb5⟩ := hb4.fetch_line hget rfl hl (fun _ => entryAt_r20) (.plain fun _ _ => rfl)
      have hread : bufRead j.n (bufSet j.rbuf (j.n - 1) d.byte) = some (got ++ [d.byte]) := by
        rw [← hlast, hn]
        exact bufRead_bufSet_eq d.byte hgot
      obtain ⟨y6, h6, hphase, hres, hidle, hack, hscript⟩ := hb5.stop_line (res := .ok j.n (got ++ [d.byte])) hget rfl hl
        (by decide) fun r q hq => ⟨_, rfl, rfl, afterLine_r21 r hq hread⟩
      exact ⟨y6, h1.append (h2.append (h3.append (h4.append (h5.append h6)))), hphase, hres, hidle, hack, hscript⟩
    | cons d' ds =>
      have hmore : j.i ≠ j.n - 1 := by rw [hn, List.length_cons]; omega
      rw [if_neg hmore] at hb1
      obtain ⟨y2, h2, hb2⟩ := hb1.receive_line hget rfl hl hst hline (.plain fun _ _ => rfl)
      obtain ⟨y3, h3, hb3⟩ := hb2.wait_line hget rfl hl hwait (.plain fun _ _ => rfl)
      obtain ⟨y4, h4, hb4⟩ := hb3.fetch_line hget rfl hl (fun _ => entryAt_r16) goes_r16
      have hleft : j.n = j.i + 1 + (d' :: ds).length := by omega
      obtain ⟨y5, h5, hy5⟩ := ih (List.cons_ne_nil _ _) hb4 (by decide) hleft (bufRead_bufSet_eq d.byte hgot) hacks
      have hrun := h1.append (h2.append (h3.append (h4.append h5)))
      rw [List.append_assoc] at hy5
      rw [show 0 + (2 + (2 + (1 + (5 * (d' :: ds).length + 4)))) = 5 * (d :: d' :: ds).length + 4 by
        rw [List.length_cons (a := d)]; omega] at hrun
      exact ⟨y5, hrun, hy5⟩

/-- A whole read whose bytes but the last are acknowledged: MASTER_READ, and DEVICE_READ without `DEVICE_READ_ACK_LAST`. -/
theorem read_run (hx : Holds (q.goto s.params .t1) c (ds ++ rest) x) (hidle : c.isIdle) (hcan : c.canTrigger)
    (hop : readsAfterT7 q.op = true) (hack : acksLast s.params q.op = false) (hpos : 1 ≤ q.n) (hlen : ds.length = q.n + 5)
    (hacks : ∀ d ∈ ds, allAcks d) :
    ∃ y, EagerLeads s b x y (32 + 5 * q.n)
        ([Action.start, .txAddr (addrByte q.chip false), .txData q.sub, .rstart, .txAddr (addrByte q.chip true)] ++
          List.replicate q.n Action.rxData ++ [Action.stop])
        ([Status.txStart, .txAwAck, .mTxdAck, .txRstart, .txArAck] ++ List.replicate (q.n - 1) Status.mRxdAck ++
          [Status.mRxdNak, .idle]) ∧
      Stopped (.ok q.n ((ds.drop 5).map Draw.byte)) false rest y := by
  have hdrop : (ds.drop 5).length = q.n := by rw [List.length_drop, hlen]; omega
  rw [← List.take_append_drop 5 ds, List.append_assoc] at hx
  obtain ⟨y1, h1, hb1⟩ := readBegins_run hget hwf hbudgets hx hidle hcan hop (by rw [List.length_take, hlen]; omega)
    fun d hd => hacks d (List.mem_of_mem_take hd)
  rw [hack] at hb1
  obtain ⟨y2, h2, hy2⟩ := receive_run (got := []) hget hwf hbudgets (ds.drop 5)
    (List.ne_nil_of_length_pos (hdrop ▸ hpos)) hb1 (by decide) (by rw [hdrop]; exact (Nat.zero_add _).symm) rfl
    fun d hd => hacks d (List.mem_of_mem_drop hd)
  have hrun := h1.append h2
  rw [hdrop, show 28 + (5 * q.n + 4) = 32 + 5 * q.n by omega, ← List.append_assoc, ← List.append_assoc] at hrun
  exact ⟨y2, hrun, hy2⟩

/-- A whole DEVICE_READ under `DEVICE_READ_ACK_LAST`: the one byte is acknowledged. -/
theorem ackedRead_run (hx : Holds (q.goto s.params .t1) c (ds ++ d :: rest) x) (hidle : c.isIdle) (hcan : c.canTrigger)
    (hop : readsAfterT7 q.op = true) (hack : acksLast s.params q.op = true) (hlen : ds.length = 5)
    (hacks : ∀ d ∈ ds, allAcks d) (hd : allAcks d) :
    ∃ y, EagerLeads s b x y 35
        [.start, .txAddr (addrByte q.chip false), .txData q.sub, .rstart, .txAddr (addrByte q.chip true), .rxData, .stop]
        [.txStart, .txAwAck, .mTxdAck, .txRstart, .txArAck, .mRxdAck, .idle] ∧
      Stopped (.ok 1 [d.byte]) true rest y := by
  have ⟨_, hl, _⟩ := hwf
  have ⟨_, _, hwait⟩ := hbudgets
  obtain ⟨y1, h1, hb1⟩ := readBegins_run hget hwf hbudgets hx hidle hcan hop hlen hacks
  rw [hack] at hb1
  obtain ⟨y2, h2, hb2⟩ := hb1.receive_line hget rfl hl (by decide) hd.1 (.plain fun _ _ => rfl)
  obtain ⟨y3, h3, hb3⟩ := hb2.wait_line hget rfl hl hwait (.plain fun _ _ => rfl)
  obtain ⟨y4, h4, hb4⟩ := hb3.fetch_line hget rfl hl (fun _ _ => rfl) (.plain fun _ _ => rfl)
  obtain ⟨y5, h5, hphase, hres, hidle, hack, hscript⟩ := hb4.stop_line (res := .ok 1 [d.byte]) hget rfl hl (by decide)
    fun r q hq => ⟨_, rfl, rfl, afterLine_d21 r hq (bufRead_bufSet_eq (n := 0) (got := []) d.byte rfl)⟩
  exact ⟨y5, h1.append (h2.append (h3.append (h4.append h5))), hphase, hres, hidle, hack, hscript⟩

end Programs

/-! From the acceptance to the end -/

theorem addrByte_write {chip : Nat} (h : chip ≤ 0x7F) : addrByte (chipReg chip) false = BitVec.ofNat 8 (2 * chip) := by
  have hall : ∀ a : BitVec 7, addrByte a false = BitVec.ofNat 8 (2 * a.toNat) := by decide
  rw [hall, chipReg_toNat h]

theorem addrByte_read {chip : Nat} (h : chip ≤ 0x7F) : addrByte (chipReg chip) true = BitVec.ofNat 8 (2 * chip + 1) := by
  have hall : ∀ a : BitVec 7, addrByte a true = BitVec.ofNat 8 (2 * a.toNat + 1) := by decide
  rw [hall, chipReg_toNat h]

/-- The sequencer's registers where an accepted request is loaded (rule R230). -/
abbrev loaded (i : Instr) (o : SeqOp) : Seq := loadOperands i { Seq.unwritten with op := some o }

/-- An accepted transaction begins at T1. -/
theorem holds_begun {p : Params} {i : Instr} {o : SeqOp} {x : Inst} {ds : List Draw} (ho : o ∈ transactions)
    (hscript : x.script = ds) : Holds ((loaded i o).goto p .t1) x.core ds (x.setSeq (begun p i o)) := by
  refine ⟨?_, rfl, hscript⟩
  rw [setSeq_seq, begun, firstLabel_of_transaction ho]
  rfl

/-- An eager run of a transaction's program to its end is a run of the request. -/
theorem EagerLeads.runsTo {s : State} {i : Instr} {x y : Inst} {o : SeqOp} {n k m : Nat} {tr : List Action}
    {sts : List Status} {r : Result} {ack : Bool} {ds : List Draw}
    (hlead : EagerLeads s i.bus (x.setSeq (begun s.params i o)) y m tr sts) (hend : Stopped r ack ds y)
    (hready : Ready s i.bus x) (hreq : requestOf i = some (o, n, k)) (hrange : i.operandsInRange s.params.nMax = true) :
    ∃ k y h, RunsTo i (eager i.bus k) s i.bus x r y h ∧ (accesses h).length = m ∧ busTrace h = tr ∧ completions h = sts ∧
      y.core.isIdle ∧ y.core.aAck = ack ∧ y.script = ds := by
  obtain ⟨k, h, hrun, hhist, hm, htr, hsts⟩ := hlead
  exact ⟨k, y, h, ⟨_, exec_request_begins hready hreq hrange, hrun, hend.phase, hend.res, hhist⟩, hm, htr, hsts, hend.idle,
    hend.ack, hend.script⟩

/-- Settles O50: the write program, whose payload is that of the operands. -/
theorem masterWriteSucceeds : Obligations.MasterWriteSucceeds := by
  unfold Obligations.MasterWriteSucceeds
  intro s b chip sub bytes x ds rest ⟨hwf, hready, hidle, hcan, hi, hs, hw, hscript, hlen, hacks⟩ hchip hsub hbytes hn
  have hrange : (Instr.masterWrite b chip sub bytes).operandsInRange s.params.nMax = true := by
    simpa [Instr.operandsInRange, chipInRange, byteInRange, hchip, hsub, hn] using hbytes
  have hx := holds_begun (p := s.params) (i := .masterWrite b chip sub bytes) (o := .masterWrite) (by decide) hscript
  obtain ⟨sts, y, hlead, hend⟩ := write_run hready.1 hwf ⟨hi, hs, hw⟩ hx hidle hcan rfl (List.length_map _).symm hlen hacks
  obtain ⟨k, y, h, hrun, hm, htr, -, hdone, -, hrest⟩ := hlead.runsTo hend hready rfl hrange
  refine ⟨k, y, h, hrun, hm, htr.trans ?_, hdone, hrest⟩
  rw [← addrByte_write hchip]
  exact congrArg (fun l => _ ++ l ++ _) (List.map_map ..)

/-- Settles O51: the read program, which leaves A_ACK cleared. -/
theorem masterReadSucceeds : Obligations.MasterReadSucceeds := by
  unfold Obligations.MasterReadSucceeds
  intro s b chip sub n x ds rest ⟨hwf, hready, hidle, hcan, hi, hs, hw, hscript, hlen, hacks⟩ hchip hsub hpos hn
  have hrange : (Instr.masterRead b chip sub n).operandsInRange s.params.nMax = true := by
    simp [Instr.operandsInRange, chipInRange, byteInRange, hchip, hsub, hn]
    omega
  have hx := holds_begun (p := s.params) (i := .masterRead b chip sub n) (o := .masterRead) (by decide) hscript
  obtain ⟨y, hlead, hend⟩ :=
    read_run hready.1 hwf ⟨hi, hs, hw⟩ hx hidle hcan rfl (Bool.and_false _) hpos hlen hacks
  obtain ⟨k, y, h, hrun, hm, htr, hsts, hdone, hack, hrest⟩ := hlead.runsTo hend hready rfl hrange
  rw [← addrByte_write hchip, ← addrByte_read hchip]
  exact ⟨k, y, h, hrun, hm, htr, hsts, hdone, hack, hrest⟩

/-- Settles O52: the write program with a payload of one byte, and the read program with one byte, which the parameter has
acknowledged or not. -/
theorem deviceTransactionsSucceed : Obligations.DeviceTransactionsSucceed := by
  unfold Obligations.DeviceTransactionsSucceed
  constructor
  · intro s b chip sub value x ds rest ⟨hwf, hready, hidle, hcan, hi, hs, hw, hscript, hlen, hacks⟩ hchip hsub hvalue
    have hrange : (Instr.deviceWrite b chip sub value).operandsInRange s.params.nMax = true := by
      simp [Instr.operandsInRange, chipInRange, byteInRange, hchip, hsub, hvalue]
    have hx := holds_begun (p := s.params) (i := .deviceWrite b chip sub value) (o := .deviceWrite) (by decide) hscript
    obtain ⟨sts, y, hlead, hend⟩ := write_run hready.1 hwf ⟨hi, hs, hw⟩ hx hidle hcan rfl rfl hlen hacks
    obtain ⟨k, y, h, hrun, hm, htr, -, hdone, -⟩ := hlead.runsTo hend hready rfl hrange
    rw [← addrByte_write hchip]
    exact ⟨k, y, h, hrun, hm, htr, hdone⟩
  · intro s b chip sub x ds rest d ⟨hwf, hready, hidle, hcan, hi, hs, hw, hscript, hlen, hacks⟩ hchip hsub
    have hrange : (Instr.deviceRead b chip sub).operandsInRange s.params.nMax = true := by
      simp [Instr.operandsInRange, chipInRange, byteInRange, hchip, hsub]
    have hfive : ds.length = 5 := by simpa using hlen
    rw [← addrByte_write hchip, ← addrByte_read hchip]
    cases hparam : s.params.deviceReadAckLast with
    | false =>
      have hx := holds_begun (p := s.params) (i := .deviceRead b chip sub) (o := .deviceRead) (by decide) hscript
      obtain ⟨y, hlead, hend⟩ := read_run hready.1 hwf ⟨hi, hs, hw⟩ hx hidle hcan rfl
        (by rw [acksLast, hparam, Bool.false_and]) le_rfl hlen hacks
      obtain ⟨k, y, h, hrun, hm, htr, hsts, hdone, -⟩ := hlead.runsTo hend hready rfl hrange
      rw [List.drop_left' hfive] at hrun
      exact ⟨k, y, h, hrun, hm, htr, hsts, hdone⟩
    | true =>
      rw [List.append_assoc] at hscript
      have hx := holds_begun (p := s.params) (i := .deviceRead b chip sub) (o := .deviceRead) (by decide) hscript
      obtain ⟨y, hlead, hend⟩ := ackedRead_run hready.1 hwf ⟨hi, hs, hw⟩ hx hidle hcan rfl
        (by rw [acksLast, hparam]; rfl) hfive (fun d' hd' => hacks d' (List.mem_append_left _ hd'))
        (hacks d (List.mem_append_right _ List.mem_cons_self))
      obtain ⟨k, y, h, hrun, hm, htr, hsts, hdone, -⟩ := hlead.runsTo hend hready rfl hrange
      exact ⟨k, y, h, hrun, hm, htr, hsts, hdone⟩

/-! INIT (rule R235) -/

/-- Replacing the field at BUS_EN's place replaces BUS_EN. -/
theorem replaceField_busEn {l : Positions} (hl : l.wf) (a : Bool) (c : CoreState) :
    replaceField l l.busEn a c = { c with busEn := a } := by
  obtain ⟨⟨hint, -⟩, ⟨hsta, hstp, hflag, hack⟩, -⟩ := cntr_places_ne hl
  simp [replaceField, hint, hsta.symm, hstp.symm, hflag.symm, hack.symm]

/-- N3's value: the keep form with BUS_EN set. -/
theorem keepForm_or_busEn_shows {p : Params} (hl : p.pos.wf) (c : CoreState) :
    ShowsFields p.pos (keepForm p (cntrWord p.pos c) ||| bitMask p.pos.busEn)
      { c with iflg := !p.iflgW1c && c.iflg, busEn := true } := by
  have hreplaced := replaceField_busEn hl true { c with iflg := !p.iflgW1c && c.iflg }
  exact hreplaced ▸ (keepForm_shows hl c).replace hl (or_bitMask_replacesBit _ _)

/-- In idle, paused, and in flight on an enabled bus, N3's write sets BUS_EN alone. -/
theorem writeCntr_busEn {p : Params} {c : CoreState} (hl : p.pos.wf) (hrst : c.rstPending = false)
    (hc : c.isIdle ∨ (∃ st, c.isPausedIn st) ∨ (c.act ≠ none ∧ c.busEn = true)) :
    writeReg p .cntr (keepForm p (cntrWord p.pos c) ||| bitMask p.pos.busEn) c = .next { c with busEn := true } := by
  obtain ⟨hvint, hvbus, hvsta, hvstp, hvflag, hvack⟩ := keepForm_or_busEn_shows hl c
  rw [writeReg_of_noReset _ _ hrst]
  rcases hc with ⟨hact, hflag, -, hsta, hstp, -⟩ | ⟨st, hact, hflag, -, hsta, hstp, -⟩ | ⟨hact, hbus⟩
  · refine (cntrWrite_idle hact hflag).trans ?_
    simp [idleWrite, cntrFields, latch, hvint, hvbus, hvsta, hvack, hsta, hstp]
  · have hkeep : cntrWrite p (keepForm p (cntrWord p.pos c) ||| bitMask p.pos.busEn) c =
        .next (cntrFields p (keepForm p (cntrWord p.pos c) ||| bitMask p.pos.busEn) c) := by
      simp [cntrWrite, isClearValue, hact, hflag, hvflag]
    refine hkeep.trans ?_
    simp only [cntrFields, latch, hvint, hvbus, hvsta, hvstp, hvack, Bool.or_self]
  · refine (cntrWrite_inFlight hact).trans ?_
    simp [cntrWriteInFlight, hvint, hvbus, hvsta, hvstp, hvack, hbus]

/-- N4's write starts a soft reset. -/
theorem writeSrst_softRst {p : Params} {c : CoreState} (hl : p.pos.wf) (hrst : c.rstPending = false) :
    writeReg p .srst (bitMask p.pos.softRst) c = .next (softResetStart c) := by
  obtain ⟨-, -, -, -, -, -, hsoft, -⟩ := hl
  have hbit : (bitMask p.pos.softRst).getLsbD p.pos.softRst = true := by rw [bitMask_getLsbD]; simp [hsoft]
  rw [writeReg_of_noReset _ _ hrst, storeWord, srstStore, if_pos hbit]

/-- N6's write stores the own address, with GCE 0. -/
theorem writeAddr_ownWord {p : Params} {c : CoreState} (hl : p.pos.wf) (hrst : c.rstPending = false) (a : BitVec 7) :
    writeReg p .addr (ownWord p.pos a) c = .next { c with sla := a, gce := false } := by
  obtain ⟨⟨hsla, hgce, hapart⟩, -⟩ := hl
  have hlow : (putSeven p.pos.sla a).getLsbD p.pos.gce = false := by
    rw [putSeven_getLsbD]
    by_cases hle : p.pos.sla ≤ p.pos.gce
    · rw [BitVec.getLsbD_of_ge a _ (by omega), Bool.and_false]
    · simp [hle]
  rw [writeReg_of_noReset _ _ hrst, storeWord, addrStore, ownWord, getSeven_putSeven _ _ hsla, hlow]

theorem triggerEvents_of_no_action {c c' : CoreState} (h : c'.act = none) : triggerEvents c c' = [] := by
  unfold triggerEvents
  split
  next ha => cases h.symm.trans ha
  · rfl

/-- The instance runs INIT and stands at step `μ` of place `p`, with `own` as its own address; its core is `c`, and `d` is the
bus's next answer. -/
structure Initialises (b : Nat) (p : Place) (μ : Micro) (own : Option (BitVec 7)) (c : CoreState) (d : Draw) (x : Inst) :
    Prop where
  phase : x.seq.phase = .running ⟨p, μ⟩
  own : x.seq.own = own
  core : x.core = c
  draw : x.nextDraw b = d

section Engine
variable {s : State} {b : Nat} {x w : Inst} {c : CoreState} (hget : s.insts[b]? = some w)
include hget

/-- The engine completes the action in flight. -/
theorem Leads.eng_completes {a : Action} (hact : x.core.act = some a)
    (hc : complete (x.nextDraw b) a x.core = .next c) :
    Leads s b [.eng b] x (completed (if drawsAnswer a then x.useDraw else x) a c) 0 [] := by
  have heng := agentStep_eng_completes (setInst_get s b x hget) hact hc
  rw [setInst_setInst] at heng
  refine ⟨by rw [runSchedule, heng]; rfl, [.complete a c.sta], ?_, rfl, rfl⟩
  simp only [completed, withCore, apply_ite Inst.history, useDraw_history, ite_self]

/-- The engine completes the pending soft reset. -/
theorem Leads.reset_completes (hrst : x.core.rstPending = true) :
    Leads s b [.reset b] x ((x.setCore (resetComplete x.core)).log [.resetDone]) 0 [] := by
  refine ⟨?_, [.resetDone], rfl, rfl, rfl⟩
  rw [runSchedule, agentStep, localStep_of_get _ (setInst_get _ _ _ hget), Inst.completeReset, if_pos hrst, bind_next,
    setInst_setInst]
  rfl

end Engine

section InitSteps
variable {s : State} {b : Nat} {x w : Inst} {p : Place} {μ : Micro} {own : Option (BitVec 7)} {c c' : CoreState} {d : Draw}
  (hget : s.insts[b]? = some w)
include hget

/-- N1 writes the CCR value. -/
theorem Initialises.clock_step (hx : Initialises b .n1 .clock1 own c d x) (hhz : x.seq.hz ≠ 0)
    (hrst : c.rstPending = false) : ∃ y, Leads s b [.seq b] x y 1 [] ∧ Initialises b .n2 .enable1 own
      (ccrStore s.params.pos (ccrVal s.params.pos (divider s.params x.seq.hz) s.params.clkNVal) c) d y := by
  obtain ⟨hphase, hown, rfl, hdraw⟩ := hx
  have hstep := (seqStep_of_running (p := s.params) (b := b) hphase).trans (clockLine_writes .n1 hhz hrst)
  exact ⟨_, Leads.seq hget hstep rfl, rfl, hown, rfl, hdraw⟩

/-- N2 reads CNTR. -/
theorem Initialises.enable_step (hx : Initialises b .n2 .enable1 own c d x) :
    ∃ y, Leads s b [.seq b] x y 1 [] ∧ Initialises b .n3 .enable2 own c d y ∧ y.seq.c = cntrWord s.params.pos c := by
  obtain ⟨hphase, hown, rfl, hdraw⟩ := hx
  have hstep : x.seqStep s.params b = .next ((x.log [.read .cntr (cntrWord s.params.pos x.core)]).setSeq
      ({ x.seq with c := cntrWord s.params.pos x.core }.at ⟨.n3, .enable2⟩)) := seqStep_of_running hphase
  exact ⟨_, Leads.seq hget hstep rfl, ⟨rfl, hown, rfl, hdraw⟩, rfl⟩

/-- A performed write that ends a line. -/
theorem Initialises.writeEnd_step {r : Reg} {v : Word} {q : Seq} (hx : Initialises b p μ own c d x)
    (hstep : stepAt s.params b p μ x = writeEnd s.params r v p (.ok 0 []) x) (hw : writeReg s.params r v c = .next c')
    (hq : afterLine s.params p (.ok 0 []) x.seq = .next q) :
    ∃ y, Leads s b [.seq b] x y 1 (busTrace (triggerEvents c c')) ∧ y.seq = q ∧ y.core = c' ∧ y.nextDraw b = d := by
  obtain ⟨hphase, -, rfl, hdraw⟩ := hx
  have hlead := Leads.seq hget
    ((seqStep_of_running (p := s.params) (b := b) hphase).trans (hstep.trans (writeEnd_of_performed hw hq))) rfl
  rw [accesses_of_write] at hlead
  exact ⟨_, hlead, rfl, rfl, hdraw⟩

/-- N3 writes the value made of the CNTR value that N2 has read. -/
theorem Initialises.busEn_step {v : Word} (hx : Initialises b .n3 .enable2 own c d x) (hv : x.seq.c = v)
    (hw : writeReg s.params .cntr (keepForm s.params v ||| bitMask s.params.pos.busEn) c = .next c') :
    ∃ y, Leads s b [.seq b] x y 1 (busTrace (triggerEvents c c')) ∧ Initialises b .n4 .softReset own c' d y := by
  subst hv
  obtain ⟨y, hlead, hseq, hcore, hdraw⟩ := hx.writeEnd_step hget rfl hw rfl
  exact ⟨y, hlead, hseq ▸ rfl, hseq ▸ hx.own, hcore, hdraw⟩

/-- N4 starts the soft reset. -/
theorem Initialises.softReset_step (hx : Initialises b .n4 .softReset own c d x) (hl : s.params.pos.wf)
    (hrst : c.rstPending = false) : ∃ y, Leads s b [.seq b] x y 1 [] ∧
      Initialises b .n5 .poll own (softResetStart c) d y ∧ y.seq.k = 0 := by
  obtain ⟨y, hlead, hseq, hcore, hdraw⟩ := hx.writeEnd_step hget rfl (writeSrst_softRst hl hrst) rfl
  rw [triggerEvents_of_no_action rfl] at hlead
  exact ⟨y, hlead, ⟨hseq ▸ rfl, hseq ▸ hx.own, hcore, hdraw⟩, hseq ▸ rfl⟩

/-- While the reset is pending N5 polls on. -/
theorem Initialises.poll_step (hx : Initialises b .n5 .poll own c d x) (hl : s.params.pos.wf) (hrst : c.rstPending = true)
    (hk : x.seq.k < s.params.resetBudget) :
    ∃ y, Leads s b [.seq b] x y 1 [] ∧ Initialises b .n5 .poll own c d y ∧ y.seq.k = x.seq.k + 1 := by
  obtain ⟨hphase, hown, rfl, hdraw⟩ := hx
  have hstep : x.seqStep s.params b = .next ((x.log [.read .srst (srstWord s.params.pos x.core)]).setSeq
      ({ x.seq with r := srstWord s.params.pos x.core, k := x.seq.k + 1 }.at ⟨.n5, .poll⟩)) :=
    (seqStep_of_running hphase).trans ((if_neg hk.ne).trans (if_pos ((srstWord_softRst hl x.core).trans hrst)))
  exact ⟨_, Leads.seq hget hstep rfl, ⟨rfl, hown, rfl, hdraw⟩, rfl⟩

theorem Initialises.polls_lead (hx : Initialises b .n5 .poll own c d x) (hk : x.seq.k = 0) (hl : s.params.pos.wf)
    (hrst : c.rstPending = true) {j : Nat} (hj : j ≤ s.params.resetBudget) :
    ∃ y, Leads s b (seqOnly b j) x y j [] ∧ Initialises b .n5 .poll own c d y ∧ y.seq.k = j := by
  refine Leads.iterate (P := fun k y => Initialises b .n5 .poll own c d y ∧ y.seq.k = k) (fun k y hlt hy => ?_) ⟨hx, hk⟩ j hj
  obtain ⟨z, hyz, hz, hk'⟩ := hy.1.poll_step hget hl hrst (hy.2 ▸ hlt)
  exact ⟨z, hyz, hz, hk'.trans (congrArg (· + 1) hy.2)⟩

/-- Once the reset has completed N5's poll sees it. -/
theorem Initialises.pollEnds_step (hx : Initialises b .n5 .poll own c d x) (hl : s.params.pos.wf)
    (hrst : c.rstPending = false) (hk : x.seq.k < s.params.resetBudget) :
    ∃ y, Leads s b [.seq b] x y 1 [] ∧ Initialises b .n6 .own own c d y := by
  obtain ⟨hphase, hown, rfl, hdraw⟩ := hx
  have hclear := Bool.eq_false_iff.mp ((srstWord_softRst hl x.core).trans hrst)
  have hstep : x.seqStep s.params b = .next ((x.log [.read .srst (srstWord s.params.pos x.core)]).setSeq
      ({ x.seq with r := srstWord s.params.pos x.core, k := x.seq.k + 1 }.at ⟨.n6, .own⟩)) :=
    (seqStep_of_running hphase).trans ((if_neg hk.ne).trans (if_neg hclear))
  exact ⟨_, Leads.seq hget hstep rfl, rfl, hown, rfl, hdraw⟩

/-- At the end of the budget INIT times out without an access. -/
theorem Initialises.timesOut (hx : Initialises b .n5 .poll own c d x) (hk : x.seq.k = s.params.resetBudget) :
    ∃ y, Leads s b [.seq b] x y 0 [] ∧ Ended c (.fail .timeout (statusCode s.params .busError)) y := by
  have hstep : x.seqStep s.params b =
      .next (x.setSeq (x.seq.finish (.fail .timeout (statusCode s.params .busError)))) :=
    (seqStep_of_running hx.phase).trans (if_pos hk)
  exact ⟨_, Leads.seq hget hstep (List.append_nil _).symm, rfl, rfl, hx.core⟩

/-- N6 without an own address makes no access. -/
theorem Initialises.noOwn_step (hx : Initialises b .n6 .own none c d x) :
    ∃ y, Leads s b [.seq b] x y 0 [] ∧ Ended c (.ok 0 []) y := by
  have hstep : stepAt s.params b .n6 .own x = .next (x.setSeq (x.seq.finish (.ok 0 []))) := by
    rw [stepAt, ownLine, hx.own]
    rfl
  exact ⟨_, Leads.seq hget ((seqStep_of_running hx.phase).trans hstep) (List.append_nil _).symm, rfl, rfl, hx.core⟩

/-- N6 with one writes it to ADDR. -/
theorem Initialises.own_step {a : BitVec 7} (hx : Initialises b .n6 .own (some a) c d x) (hl : s.params.pos.wf)
    (hrst : c.rstPending = false) :
    ∃ y, Leads s b [.seq b] x y 1 [] ∧ Ended { c with sla := a, gce := false } (.ok 0 []) y := by
  have hstep : stepAt s.params b .n6 .own x = writeEnd s.params .addr (ownWord s.params.pos a) .n6 (.ok 0 []) x := by
    rw [stepAt, ownLine, hx.own]
  obtain ⟨y, hlead, hseq, hcore, -⟩ := hx.writeEnd_step hget hstep (writeAddr_ownWord hl hrst a) rfl
  have htr : busTrace (triggerEvents c { c with sla := a, gce := false }) = [] := busTrace_triggerEvents_of_act_eq rfl
  exact ⟨y, htr ▸ hlead, hseq ▸ rfl, hseq ▸ rfl, hcore⟩

end InitSteps

/-! The runs of INIT -/

theorem init_inRange (b : Nat) {hz : Nat} {own : Option Nat} (hhz : 0 < hz) (hown : ∀ a ∈ own, a ≤ 0x7F) (nMax : Nat) :
    (Instr.init b hz own).operandsInRange nMax = true := by
  cases own with
  | none => simp [Instr.operandsInRange, ownInRange, hhz]
  | some a => simp [Instr.operandsInRange, ownInRange, chipInRange, hhz, hown a rfl]

/-- The core with the divider of `hz` in CCR. -/
def clocked (p : Params) (hz : Nat) (c : CoreState) : CoreState :=
  { c with
    clkM := BitVec.ofNat 32 (p.fIn / 2 ^ p.predivShift / hz % 2 ^ p.pos.clkM.width)
    clkN := BitVec.ofNat 32 (p.clkNVal % 2 ^ p.pos.clkN.width) }

/-- The core INIT leaves, before its own address is stored. -/
def initialised (p : Params) (hz : Nat) (c : CoreState) : CoreState :=
  { clocked p hz c with
    busEn := true
    act := none
    iflg := false
    mSta := false
    mStp := false
    sta := .idle }

section InitRuns
variable {s : State} {b hz : Nat} {own : Option Nat} {x : Inst} (hready : Ready s b x) (hl : s.params.pos.wf) (hhz : 0 < hz)
include hready hl hhz

/-- N1 and N2: the clock, and the read of CNTR. -/
theorem init_begins (hrst : x.core.rstPending = false) :
    ∃ y, Leads s b (seqOnly b 2) (x.setSeq (begun s.params (.init b hz own) .init)) y 2 [] ∧
      Initialises b .n3 .enable2 (ownReg own) (clocked s.params hz x.core) (x.nextDraw b) y ∧
      y.seq.c = cntrWord s.params.pos (clocked s.params hz x.core) := by
  have hstart : Initialises b .n1 .clock1 (ownReg own) x.core (x.nextDraw b)
    (x.setSeq (begun s.params (.init b hz own) .init)) := ⟨rfl, rfl, rfl, rfl⟩
  obtain ⟨y1, h1, hy1⟩ := hstart.clock_step hready.1 (Nat.pos_iff_ne_zero.mp hhz) hrst
  obtain ⟨y2, h2, hy2, hc⟩ := hy1.enable_step hready.1
  have hcore : ccrStore s.params.pos (ccrVal s.params.pos (divider s.params hz) s.params.clkNVal) x.core =
      clocked s.params hz x.core := by
    rw [ccrStore_ccrVal _ _ hl, divider_eq]
    rfl
  exact ⟨y2, h1.append h2, hcore ▸ hy2, hcore ▸ hc⟩

/-- N1 to N4: the soft reset has begun, and nothing has been triggered. -/
theorem init_resets (hrst : x.core.rstPending = false)
    (hc : x.core.isIdle ∨ (∃ st, x.core.isPausedIn st) ∨ (x.core.act ≠ none ∧ x.core.busEn = true)) :
    ∃ y, Leads s b (seqOnly b 4) (x.setSeq (begun s.params (.init b hz own) .init)) y 4 [] ∧
      Initialises b .n5 .poll (ownReg own) { initialised s.params hz x.core with rstPending := true } (x.nextDraw b) y ∧
      y.seq.k = 0 := by
  obtain ⟨y2, h2, hy2, hread⟩ := init_begins (own := own) hready hl hhz hrst
  obtain ⟨y3, h3, hy3⟩ := hy2.busEn_step hready.1 hread (writeCntr_busEn (c := clocked s.params hz x.core) hl hrst hc)
  have htr : busTrace (triggerEvents (clocked s.params hz x.core) { clocked s.params hz x.core with busEn := true }) = [] :=
    busTrace_triggerEvents_of_act_eq rfl
  rw [htr] at h3
  obtain ⟨y4, h4, hy4⟩ := hy3.softReset_step hready.1 hl hrst
  exact ⟨y4, h2.append (h3.append h4), hy4⟩

/-- The reset completes after `j` polls. -/
theorem init_succeeds (hown : ∀ a ∈ own, a ≤ 0x7F) (hrst : x.core.rstPending = false)
    (hc : x.core.isIdle ∨ (∃ st, x.core.isPausedIn st) ∨ (x.core.act ≠ none ∧ x.core.busEn = true)) {j : Nat}
    (hj : j < s.params.resetBudget) :
    ∃ y h, RunsTo (.init b hz own) (seqOnly b (4 + j) ++ .reset b :: seqOnly b 2) s b x (.ok 0 []) y h ∧
      (accesses h).length = own.elim (5 + j) (fun _ => 6 + j) ∧ busTrace h = [] ∧
      y.core = own.elim (initialised s.params hz x.core) fun a =>
        { initialised s.params hz x.core with sla := BitVec.ofNat 7 a, gce := false } := by
  obtain ⟨y1, h1, hy1, hk⟩ := init_resets (own := own) hready hl hhz hrst hc
  obtain ⟨y2, h2, hy2, hk2⟩ := hy1.polls_lead hready.1 hk hl rfl hj.le
  have h3 := Leads.reset_completes hready.1 (x := y2) (hy2.core ▸ rfl)
  have hdone : resetComplete y2.core = initialised s.params hz x.core := by
    rw [hy2.core]
    simp only [resetComplete, initialised, clocked, hrst]
  have hy3 : Initialises b .n5 .poll (ownReg own) (initialised s.params hz x.core) (x.nextDraw b)
    ((y2.setCore (resetComplete y2.core)).log [.resetDone]) := ⟨hy2.phase, hy2.own, hdone, hy2.draw⟩
  obtain ⟨y4, h4, hy4⟩ := hy3.pollEnds_step hready.1 hl hrst (hk2.trans_lt hj)
  have hlead := (h1.append h2).append (h3.append h4)
  have hrange := init_inRange b hhz hown s.params.nMax
  rw [← seqOnly_add] at hlead
  cases own with
  | none =>
    obtain ⟨y5, h5, hy5⟩ := hy4.noOwn_step hready.1
    have hall := hlead.append h5
    rw [List.append_assoc, show 4 + j + (0 + 1) + 0 = 5 + j by omega] at hall
    exact hall.runsTo hready rfl hrange hy5
  | some a =>
    obtain ⟨y5, h5, hy5⟩ := hy4.own_step hready.1 hl hrst
    have hall := hlead.append h5
    rw [List.append_assoc, show 4 + j + (0 + 1) + 1 = 6 + j by omega] at hall
    exact hall.runsTo hready rfl hrange hy5

/-- The reset does not complete within the budget. -/
theorem init_timesOut (hown : ∀ a ∈ own, a ≤ 0x7F) (hrst : x.core.rstPending = false)
    (hc : x.core.isIdle ∨ (∃ st, x.core.isPausedIn st) ∨ (x.core.act ≠ none ∧ x.core.busEn = true)) :
    ∃ y h, RunsTo (.init b hz own) (seqOnly b (s.params.resetBudget + 5)) s b x
        (.fail .timeout (statusCode s.params .busError)) y h ∧
      (accesses h).length = 4 + s.params.resetBudget ∧ busTrace h = [] ∧
      y.core = { initialised s.params hz x.core with rstPending := true } := by
  obtain ⟨y1, h1, hy1, hk⟩ := init_resets (own := own) hready hl hhz hrst hc
  obtain ⟨y2, h2, hy2, hk2⟩ := hy1.polls_lead hready.1 hk hl rfl le_rfl
  obtain ⟨y3, h3, hend⟩ := hy2.timesOut hready.1 hk2
  have hall := (h1.append h2).append h3
  rw [← seqOnly_add, show [Agent.seq b] = seqOnly b 1 from rfl, ← seqOnly_add,
    show 4 + s.params.resetBudget + 1 = s.params.resetBudget + 5 by omega] at hall
  exact hall.runsTo hready rfl (init_inRange b hhz hown s.params.nMax) hend

omit hl in
/-- N1 writes to a core whose reset is pending. -/
theorem init_duringReset (hown : ∀ a ∈ own, a ≤ 0x7F) (hrst : x.core.rstPending = true) :
    FaultsWith (.init b hz own) (seqOnly b 1) s .writeDuringReset := by
  refine faultsWith_of_program hready rfl (init_inRange b hhz hown s.params.nMax) ?_
  refine (runSchedule_seq_cons hready.1 _ []).trans ?_
  rw [seqStep_of_running (l := ⟨.n1, .clock1⟩) rfl]
  exact congrArg (Out.bind · _)
    (clockLine_duringReset (x := x.setSeq (begun s.params (.init b hz own) .init)) .n1 (Nat.pos_iff_ne_zero.mp hhz) hrst)

/-- A data byte that completes between N2 and N3 is cleared by N3's write, which so sends the byte in DATA. -/
theorem init_resends {v : Byte} (hown : ∀ a ∈ own, a ≤ 0x7F) (hact : x.core.act = some (.txData v))
    (hrst : x.core.rstPending = false) (hflag : x.core.iflg = false) (hsta : x.core.mSta = false)
    (hstp : x.core.mStp = false) (hcan : x.core.canTrigger) (hw1c : s.params.iflgW1c = false)
    (hack : (x.nextDraw b).data = .ack) :
    ∃ t u y, exec (.init b hz own) s = .next t ∧ runSchedule (seqOnly b 2 ++ [.eng b, .seq b]) t = .next u ∧
      u.insts[b]? = some y ∧ y.core.act = some (.txData x.core.data) := by
  obtain ⟨y2, h2, hy2, hread⟩ := init_begins (own := own) hready hl hhz hrst
  have hdone : complete (y2.nextDraw b) (.txData v) y2.core = .next (pauseIn .mTxdAck (clocked s.params hz x.core)) := by
    rw [hy2.draw, hy2.core, complete, hack]
    rfl
  have h3 := Leads.eng_completes hready.1 ((congrArg CoreState.act hy2.core).trans hact) hdone
  have hy3 : Initialises b .n3 .enable2 (ownReg own) (pauseIn .mTxdAck (clocked s.params hz x.core)) (y2.useDraw.nextDraw b)
      (completed y2.useDraw (.txData v) (pauseIn .mTxdAck (clocked s.params hz x.core))) :=
    ⟨(congrArg Seq.phase (useDraw_seq _)).trans hy2.phase, (congrArg Seq.own (useDraw_seq _)).trans hy2.own, rfl, rfl⟩
  have hpaused : (pauseIn .mTxdAck (clocked s.params hz x.core)).isPausedIn .mTxdAck := ⟨rfl, rfl, hrst, rfl, rfl, rfl⟩
  have hshows : ShowsFields s.params.pos
      (keepForm s.params (cntrWord s.params.pos (clocked s.params hz x.core)) ||| bitMask s.params.pos.busEn)
      { pauseIn .mTxdAck (clocked s.params hz x.core) with iflg := s.params.iflgW1c, mSta := false, mStp := false } := by
    obtain ⟨hvint, hvbus, hvsta, hvstp, hvflag, hvack⟩ := keepForm_or_busEn_shows hl (clocked s.params hz x.core)
    refine ⟨hvint, hvbus.trans hcan.1.symm, hvsta.trans hsta, hvstp.trans hstp, hvflag.trans ?_, hvack⟩
    exact (congrArg (!s.params.iflgW1c && ·) hflag).trans (by simp [hw1c])
  have hwrite := (writeCntr_paused_clear hpaused hcan hshows).trans
    (congrArg (Out.bind · _) (triggerAction_txData (by decide)))
  obtain ⟨y4, h4, hy4⟩ := hy3.busEn_step hready.1 ((congrArg Seq.c (useDraw_seq _)).trans hread) hwrite
  exact ⟨_, _, y4, exec_request_begins hready rfl (init_inRange b hhz hown s.params.nMax),
    (h2.append (h3.append h4)).1, setInst_get _ _ _ hready.1, congrArg CoreState.act hy4.core⟩

end InitRuns

/-- Settles O49: the steps of N1 to N6 composed, the reset completing between polls or not at all; the two hazards are the
first write's refusal and N3's clear. -/
theorem initProgramsTheInstance : Obligations.InitProgramsTheInstance := by
  intro s b hz own x hready hwf hhz hown m after
  have hl := hwf.2.1
  refine ⟨fun hrst hc => ⟨fun j hj => ?_, ?_⟩, init_duringReset hready hhz hown, fun v => init_resends hready hl hhz hown⟩
  · obtain ⟨y, h, hrun, hcount, htr, hcore⟩ := init_succeeds hready hl hhz hown hrst hc hj
    refine ⟨y, h, hrun, htr, ?_⟩
    cases own <;> exact ⟨hcount, hcore⟩
  · obtain ⟨y, h, hrun, hcount, htr, hcore⟩ := init_timesOut hready hl hhz hown hrst hc
    exact ⟨y, h, hrun, htr, hcount, hcore⟩

end Sys2Proof.Machine

/-! PROOFS. The statements of 60_exceptions.md: a marked machine has no step, the port and the sequencer have one requester at
a time, and a step on one instance neither writes nor reads another. -/

namespace Sys2Proof.Machine

/-- Settles O10: a step that answers a next state is one of an unmarked machine. -/
theorem markedMachineHasNoStep : Obligations.MarkedMachineHasNoStep := by
  intro s hmark t h
  obtain ⟨hf, hr⟩ := unmarked_of_step_next h
  exact hmark.elim (· hf) (· hr)

/-! One requester at a time (rule R265) -/

/-- A direct access is refused while the sequencer owns the port, whatever it would do. -/
theorem onInst_asOwner_of_running {s : State} {b : Nat} {x : Inst} (f : Inst → Out Inst) (hx : s.insts[b]? = some x)
    (hrun : x.seq.phase.isRunning = true) : s.onInst b (Inst.asOwner f) = .refused .portContention := by
  rw [onInst_of_get _ hx, Inst.asOwner, if_pos hrun, bind_refused]

theorem accept_of_not_ready {s : State} {b : Nat} {x : Inst} (op : SeqOp) (valid : Bool) (load : Seq → Seq) (first : Label)
    (hx : s.insts[b]? = some x) (hphase : x.seq.phase ≠ .ready) :
    accept b op valid load first s = .refused .concurrentRequest := by
  rw [accept, onInst_of_get _ hx, if_neg hphase, bind_refused]

/-- Settles O13: an instruction is a direct access or the acceptance of a request, and each looks at the phase first. -/
theorem oneRequesterAtATime : Obligations.OneRequesterAtATime := by
  intro i s x hx
  refine ⟨fun hreq hrun => ?_, fun hreq hphase => ?_⟩
  · rcases exec_access hreq s with ⟨r, -, h⟩ | ⟨r, v, -, h⟩
    · exact h.trans (onInst_asOwner_of_running _ hx hrun)
    · exact h.trans (onInst_asOwner_of_running _ hx hrun)
  · obtain ⟨⟨op, n, k⟩, hreq⟩ := Option.ne_none_iff_exists'.mp hreq
    exact (exec_request_eq_accept hreq s).trans (accept_of_not_ready _ _ _ _ hx hphase)

/-! Operations on one instance -/

/-- With the parameters `p`, the operation `g` is the step of one instance, `b`: what it makes of that instance depends on
nothing else in the machine. Where there is no such instance it may be refused. -/
def OnlyOn (p : Params) (b : Nat) (g : State → Out State) : Prop :=
  ∃ f : Inst → Out Inst, ∀ s : State, s.params = p → g s = localStep b f s ∨ s.insts[b]? = none ∧ ∃ r, g s = .refused r

section OnlyOn
variable {p : Params} {b : Nat} {g g' : State → Out State}

theorem OnlyOn.refused (r : Refusal) : OnlyOn p b fun _ => .refused r := by
  refine ⟨fun _ => .refused r, fun s _ => ?_⟩
  cases hx : s.insts[b]? with
  | none => exact .inr ⟨rfl, r, rfl⟩
  | some x => exact .inl (localStep_of_get (fun _ => .refused r) hx).symm

theorem OnlyOn.of_localStep {f : Inst → Out Inst} (h : ∀ s : State, s.params = p → g s = localStep b f s) : OnlyOn p b g :=
  ⟨f, fun s hs => .inl (h s hs)⟩

theorem OnlyOn.of_onInst {f : Inst → Out Inst} (h : ∀ s : State, s.params = p → g s = s.onInst b f) : OnlyOn p b g := by
  refine ⟨f, fun s hs => ?_⟩
  rw [h s hs]
  cases hx : s.insts[b]? with
  | none => exact .inr ⟨rfl, .badInstance, onInst_of_out_of_range f (List.getElem?_eq_none_iff.mp hx)⟩
  | some x => exact .inl ((onInst_of_get f hx).trans (localStep_of_get f hx).symm)

/-- An operation that is refused where there is no instance `b` has to agree with one on `b` only where there is. -/
theorem OnlyOn.of_eq_inRange (h : OnlyOn p b g) (heq : ∀ s : State, s.params = p → b < s.insts.length → g' s = g s)
    (hout : ∀ s : State, s.insts.length ≤ b → ∃ r, g' s = .refused r) : OnlyOn p b g' := by
  obtain ⟨f, hf⟩ := h
  refine ⟨f, fun s hs => ?_⟩
  rcases Nat.lt_or_ge b s.insts.length with hb | hb
  · exact heq s hs hb ▸ hf s hs
  · exact .inr ⟨List.getElem?_eq_none hb, hout s hb⟩

theorem OnlyOn.congr (h : OnlyOn p b g) (heq : ∀ s : State, s.params = p → g' s = g s) : OnlyOn p b g' := by
  obtain ⟨f, hf⟩ := h
  exact ⟨f, fun s hs => heq s hs ▸ hf s hs⟩

theorem OnlyOn.next {s t : State} (h : OnlyOn p b g) (hs : s.params = p) (ht : g s = .next t) :
    t = s ∨ ∃ y, t = s.setInst b y := by
  obtain ⟨f, hf⟩ := h
  rcases hf s hs with hg | ⟨-, r, hg⟩
  · exact (localStep_next (hg.symm.trans ht)).imp_right fun ⟨_, y, _, _, hy⟩ => ⟨y, hy⟩
  · cases hg.symm.trans ht

/-- Two machines with the same parameters and the same instance `b` show the same of it after the operation. -/
theorem OnlyOn.seenAt_eq {s u : State} {x : Inst} (h : OnlyOn p b g) (hs : s.params = p) (hu : u.params = p)
    (hxs : s.insts[b]? = some x) (hxu : u.insts[b]? = some x) : Claims.seenAt b (g s) = Claims.seenAt b (g u) := by
  obtain ⟨f, hf⟩ := h
  have hseen : ∀ {w : State}, w.params = p → w.insts[b]? = some x →
      Claims.seenAt b (g w) = Out.bind (f x) fun y => .next (some y) := by
    intro w hw hxw
    rcases hf w hw with hg | ⟨hnone, -⟩
    · rw [hg, localStep_of_get f hxw]
      cases f x with
      | next y => exact congrArg _ (setInst_get w b y hxw)
      | fault r => rfl
      | refused r => rfl
    · cases hnone.symm.trans hxw
  exact (hseen hs hxs).trans (hseen hu hxu).symm

end OnlyOn

/-! What the host issues is an operation on the instance it names -/

theorem exec_readOf_onlyOn (p : Params) (r : Reg) (b : Nat) : OnlyOn p b (exec (readOf r b)) :=
  .of_onInst (f := Inst.asOwner fun x => .next (x.afterRead p b r)) fun s hs => hs ▸ exec_readOf r b s

theorem exec_writeOf_onlyOn (p : Params) (r : Reg) (b : Nat) (v : Word) : OnlyOn p b (exec (writeOf r b v)) :=
  .of_onInst (f := Inst.asOwner fun x => x.write p r v) fun s hs => hs ▸ exec_writeOf r b v s

/-- The acceptance of a request, as its instance sees it (45_transactions.md rule R230). -/
def Inst.accepted (p : Params) (op : SeqOp) (valid : Bool) (load : Seq → Seq) (first : Label) (x : Inst) : Out Inst :=
  if x.seq.phase = .ready then
    .next (x.setSeq
      (if valid then (load { Seq.unwritten with op := some op }).begin p first
       else (load { Seq.unwritten with op := some op }).finish (.fail .invalid 0#8)))
  else .refused .concurrentRequest

theorem accept_eq_onInst (b : Nat) (op : SeqOp) (valid : Bool) (load : Seq → Seq) (first : Label) (s : State) :
    accept b op valid load first s = s.onInst b (Inst.accepted s.params op valid load first) := rfl

/-- An instruction is an operation on its instance. -/
theorem exec_onlyOn (p : Params) (i : Instr) : OnlyOn p i.bus (exec i) := by
  cases hreq : requestOf i with
  | none =>
    -- the form of an access does not depend on the state it is executed in
    rcases exec_access hreq (State.powerOn p 0) with ⟨r, hi, -⟩ | ⟨r, v, hi, -⟩
    all_goals generalize i.bus = b at hi ⊢
    · exact hi ▸ exec_readOf_onlyOn p r b
    · exact hi ▸ exec_writeOf_onlyOn p r b v
  | some request =>
    obtain ⟨op, n, k⟩ := request
    refine .of_onInst (f := Inst.accepted p op (i.operandsInRange p.nMax) (loadOperands i) (Claims.firstLabel op)) ?_
    rintro s rfl
    exact (exec_request_eq_accept hreq s).trans (accept_eq_onInst ..)

/-- A raw access in range is a refusal or the access of the register at its offset. -/
theorem runPort_onlyOn (p : Params) (b width off : Nat) (value : Option Word) :
    OnlyOn p b (runPort b width off value) := by
  have hout : ∀ s : State, s.insts.length ≤ b → ∃ r, runPort b width off value s = .refused r :=
    fun s hb => ⟨_, runPort_badInstance width off value hb⟩
  by_cases hw : width = 32
  case neg => exact (OnlyOn.refused .badWidth).of_eq_inRange (fun s _ hb => runPort_badWidth off value hb hw) hout
  by_cases ho : off % 4 = 0
  case neg =>
    exact (OnlyOn.refused .misaligned).of_eq_inRange (fun s _ hb => hw ▸ runPort_misaligned value hb ho) hout
  have hport : ∀ s : State, s.params = p → b < s.insts.length → runPort b width off value s =
      (regAt p.off off).elim (.refused .unmappedOffset)
        fun r => value.elim (exec (readOf r b) s) fun v => exec (writeOf r b v) s := by
    rintro s rfl hb
    rw [runPort, if_neg (by omega), if_neg (by omega), if_neg (by omega)]
    cases regAt s.params.off off with
    | none => rfl
    | some r => cases value <;> rfl
  cases hreg : regAt p.off off with
  | none => exact (OnlyOn.refused .unmappedOffset).of_eq_inRange (fun s hs hb => by rw [hport s hs hb, hreg]; rfl) hout
  | some r =>
    cases value with
    | none => exact (exec_readOf_onlyOn p r b).of_eq_inRange (fun s hs hb => by rw [hport s hs hb, hreg]; rfl) hout
    | some v => exact (exec_writeOf_onlyOn p r b v).of_eq_inRange (fun s hs hb => by rw [hport s hs hb, hreg]; rfl) hout

theorem runMem_onlyOn {p : Params} {b addr : Nat} (len : Nat) (value : Option Word) (hb : windowOf p addr = some b) :
    OnlyOn p b (runMem addr len value) := by
  by_cases hbus : 2 ^ p.addrBits ≤ addr
  · refine (OnlyOn.refused .unmappedAddress).congr ?_
    rintro s rfl
    exact runMem_beyondBus len value hbus
  · refine (runPort_onlyOn p b (8 * len) (addr - p.bases.getD b 0) value).congr ?_
    rintro s rfl
    rw [runMem, if_neg hbus, hb]

/-- What the host issues is an operation on the instance it names. -/
theorem runCmd_onlyOn {p : Params} {cmd : HostCmd} {b : Nat} (hb : Claims.busOf p cmd = some b) :
    OnlyOn p b (runCmd cmd) := by
  cases cmd with
  | instr t =>
    cases hdec : decode p.off t with
    | ok i =>
      obtain rfl : i.bus = b := by simpa [Claims.busOf, hdec] using hb
      refine (exec_onlyOn p i).congr ?_
      rintro s rfl
      exact runTerm_ok hdec
    | error e => simp [Claims.busOf, hdec] at hb
  | port bus width off value =>
    cases hb
    exact runPort_onlyOn p b width off value
  | mem addr len value => exact runMem_onlyOn len value hb
  | take bus =>
    cases hb
    exact .of_onInst fun _ _ => rfl

theorem refuseTerm_refused (e : DecodeError) (t : Term) (s : State) : ∃ r, refuseTerm e t s = .refused r := by
  unfold refuseTerm
  split
  · split
    · split <;> exact ⟨_, rfl⟩
    · exact ⟨_, rfl⟩
  · exact ⟨_, rfl⟩

/-- A command that names no instance is refused. -/
theorem runCmd_of_no_bus {s : State} {cmd : HostCmd} (hb : Claims.busOf s.params cmd = none) :
    ∃ r, runCmd cmd s = .refused r := by
  cases cmd with
  | instr t =>
    cases hdec : decode s.params.off t with
    | ok i => simp [Claims.busOf, hdec] at hb
    | error e =>
      have hrefuse : runCmd (.instr t) s = refuseTerm e t s := runTerm_error hdec
      exact hrefuse ▸ refuseTerm_refused e t s
  | port bus width off value => cases hb
  | mem addr len value =>
    have hwindow : windowOf s.params addr = none := hb
    exact ⟨.unmappedAddress, by rw [runCmd, runMem, hwindow, ite_self]⟩
  | take bus => cases hb

/-! What a step keeps -/

/-- `t` has the parameters of `s`, as many instances, and each instance of `s` but the named one. -/
def KeepsOthers (named : Option Nat) (s t : State) : Prop :=
  t.params = s.params ∧ t.insts.length = s.insts.length ∧ ∀ b : Nat, named ≠ some b → t.insts[b]? = s.insts[b]?

theorem KeepsOthers.refl (named : Option Nat) (s : State) : KeepsOthers named s s := ⟨rfl, rfl, fun _ _ => rfl⟩

theorem KeepsOthers.setInst (s : State) (b : Nat) (x : Inst) : KeepsOthers (some b) s (s.setInst b x) :=
  ⟨rfl, List.length_set, fun _ hb => setInst_get_ne s b x fun h => hb (congrArg some h.symm)⟩

theorem localStep_keepsOthers {s t : State} {b : Nat} {f : Inst → Out Inst} (h : localStep b f s = .next t) :
    KeepsOthers (some b) s t := by
  rcases localStep_next h with rfl | ⟨x, y, -, -, rfl⟩
  · exact .refl _ _
  · exact .setInst s b y

theorem runCmd_keepsOthers {cmd : HostCmd} {s t : State} (h : runCmd cmd s = .next t) :
    KeepsOthers (Claims.busOf s.params cmd) s t := by
  cases hb : Claims.busOf s.params cmd with
  | none =>
    obtain ⟨r, hr⟩ := runCmd_of_no_bus hb
    cases hr.symm.trans h
  | some b =>
    rcases (runCmd_onlyOn hb).next rfl h with rfl | ⟨y, rfl⟩
    · exact .refl _ _
    · exact .setInst s b y

theorem actsOn_host {s : State} {cmd : HostCmd} {rest : List HostCmd} (hi : s.inbox = cmd :: rest) :
    Claims.actsOn s .host = Claims.busOf s.params cmd := by
  rw [Claims.actsOn, hi]

theorem agentStep_keepsOthers {a : Agent} {s t : State} (h : agentStep a s = .next t) :
    KeepsOthers (Claims.actsOn s a) s t := by
  cases a with
  | host =>
    rcases hostStep_next h with rfl | ⟨cmd, rest, hi, hcmd⟩
    · exact .refl _ _
    · rw [actsOn_host hi]
      exact runCmd_keepsOthers (s := { s with inbox := rest }) hcmd
  | seq b | eng b | reset b | slave b => exact localStep_keepsOthers h
  | wait =>
    cases h
    exact .refl _ _

/-! Whose step it is -/

/-- The schedule lets agent `a` move: it is the schedule's next, or the schedule is empty and `a` is enabled or nobody
(log entry 2). -/
def MayMove (s : State) (a : Agent) : Prop :=
  s.sched.head? = some a ∨ (s.sched = [] ∧ (a = .wait ∨ a ∈ enabledAgents s))

/-- A free choice picks one of the enabled agents, or nobody. -/
theorem getD_append_wait_mem (as : List Agent) (n : Nat) :
    (as ++ [Agent.wait]).getD (n % (as.length + 1)) .wait = .wait ∨
      (as ++ [Agent.wait]).getD (n % (as.length + 1)) .wait ∈ as := by
  have hn : n % (as.length + 1) < (as ++ [Agent.wait]).length := by
    rw [List.length_append]
    exact Nat.mod_lt _ (Nat.succ_pos _)
  have hmem := List.getElem_mem hn
  rw [← List.getD_eq_getElem _ .wait hn] at hmem
  exact (List.mem_append.mp hmem).symm.imp_left List.mem_singleton.mp

/-- A step that answers a next state is the step of an agent that may move, on a machine that differs in its schedule and
its count of choices alone. -/
theorem step_of_mayMove {s t : State} (h : step s = .next t) :
    ∃ a s', MayMove s a ∧ agentStep a s' = .next t ∧ s'.params = s.params ∧ s'.insts = s.insts ∧ s'.inbox = s.inbox := by
  obtain ⟨hf, hr⟩ := unmarked_of_step_next h
  unfold step markedStep at h
  rw [hf, hr] at h
  simp only [scheduledStep] at h
  split at h
  next a rest hsched => exact ⟨a, _, .inl (congrArg List.head? hsched), h, rfl, rfl, rfl⟩
  next hsched =>
    unfold freeStep at h
    split at h
    next => exact ⟨.wait, s, .inr ⟨hsched, .inl rfl⟩, h, rfl, rfl, rfl⟩
    next hen => exact ⟨.host, s, .inr ⟨hsched, .inr (hen ▸ List.mem_singleton_self _)⟩, h, rfl, rfl, rfl⟩
    next => exact ⟨_, _, .inr ⟨hsched, getD_append_wait_mem _ _⟩, h, rfl, rfl, rfl⟩

theorem actsOn_congr {s s' : State} (hp : s'.params = s.params) (hi : s'.inbox = s.inbox) (a : Agent) :
    Claims.actsOn s' a = Claims.actsOn s a := by
  cases a <;> simp only [Claims.actsOn, hp, hi]

theorem step_keepsOthers {s t : State} (h : step s = .next t) :
    ∃ a, MayMove s a ∧ KeepsOthers (Claims.actsOn s a) s t := by
  obtain ⟨a, s', hmove, hstep, hp, hinsts, hi⟩ := step_of_mayMove h
  have hkeeps := agentStep_keepsOthers hstep
  rw [actsOn_congr hp hi, KeepsOthers, hp, hinsts] at hkeeps
  exact ⟨a, hmove, hkeeps⟩

/-! What a step reads -/

/-- Whether the host's command can be issued depends on the instance it names alone. -/
theorem cmdEnabled_congr {p : Params} {cmd : HostCmd} {b : Nat} {s u : State} (hb : Claims.busOf p cmd = some b)
    (hinst : s.insts[b]? = u.insts[b]?) : cmdEnabled cmd s = cmdEnabled cmd u := by
  cases cmd with
  | take bus =>
    cases hb
    simp only [cmdEnabled, hinst]
  | _ => rfl

section Reads
variable {s u : State} {b : Nat} {x : Inst} (hp : s.params = u.params) (hxs : s.insts[b]? = some x)
  (hxu : u.insts[b]? = some x)
include hp hxs hxu

theorem hostStep_seenAt_eq (hi : s.inbox = u.inbox) (hb : Claims.actsOn s .host = some b) :
    Claims.seenAt b (hostStep s) = Claims.seenAt b (hostStep u) := by
  cases hinbox : s.inbox with
  | nil => simp [Claims.actsOn, hinbox] at hb
  | cons cmd rest =>
    rw [actsOn_host hinbox] at hb
    have hen : cmdEnabled cmd s = cmdEnabled cmd u := cmdEnabled_congr hb (hxs.trans hxu.symm)
    simp only [hostStep, hinbox, ← hi, hen]
    split
    · exact (runCmd_onlyOn hb).seenAt_eq (s := { s with inbox := rest }) (u := { u with inbox := rest }) rfl hp.symm hxs hxu
    · exact congrArg Host.Outcome.next (hxs.trans hxu.symm)

/-- The step of an agent on instance `b` shows the same of it in both machines. -/
theorem agentStep_seenAt_eq {a : Agent} (hi : s.inbox = u.inbox) (hb : Claims.actsOn s a = some b) :
    Claims.seenAt b (agentStep a s) = Claims.seenAt b (agentStep a u) := by
  cases a with
  | host => exact hostStep_seenAt_eq hp hxs hxu hi hb
  | seq j =>
    cases hb
    have honly : OnlyOn u.params b (agentStep (.seq b)) :=
      .of_localStep (f := Inst.seqStep u.params b) fun w hw => by rw [agentStep, hw]
    exact honly.seenAt_eq hp rfl hxs hxu
  | eng j | reset j | slave j =>
    cases hb
    exact (OnlyOn.of_localStep fun _ _ => rfl).seenAt_eq hp rfl hxs hxu
  | wait => cases hb

end Reads

/-- Settles O57: an agent's step is an operation on the instance it acts on, and the machine's step is that of an agent which
may move. -/
theorem instancesAreIndependent : Obligations.InstancesAreIndependent := by
  refine ⟨fun a s t h => agentStep_keepsOthers h, fun s t h => ?_, fun a s u b x hp hi hxs hxu hb => ?_⟩
  · obtain ⟨a, hmove, hp, hlen, hkeep⟩ := step_keepsOthers h
    exact ⟨hp, hlen, a, hmove, hkeep⟩
  · exact agentStep_seenAt_eq hp hxs hxu hi hb

end Sys2Proof.Machine

/-! PROOFS. The statement of 70_reset_and_hazards.md: how many steps the rest of a line can take, how many the rest of a program,
and so every request under every schedule of the machine's own agents. -/

namespace Sys2Proof.Machine

open Sys2Proof.Claims

/-! One step of a line -/

/-- The most steps the rest of a line can take from step `μ` at place `p`: a polling loop has its budget less the polls made,
and one step more to see the budget used up (44_status_waiter.md rules R210, R211, 43_primitives.md rule R191). -/
def lineSteps (cfg : Params) (p : Place) (q : Seq) : Micro → Nat
  | .start1 => cfg.startBudget + 4
  | .start2 => cfg.startBudget + 3
  | .start3 => cfg.startBudget - q.k + 2
  | .wait1 => waitBudgetAt cfg p q - q.k + 2
  | .idle1 => idleBudgetAt cfg p q - q.k + 1
  | .poll => cfg.resetBudget - q.k + 1
  | .data1 | .read1 => 3
  | .stop1 | .data2 | .read2 | .clear1 | .setAck1 | .clrAck1 | .wait2 => 2
  | .start4 | .stop2 | .data3 | .read3 | .clear2 | .busy1 | .setAck2 | .clrAck2 | .wait3 | .clock1 | .test | .fetch
  | .enable1 | .enable2 | .softReset | .own => 1

/-- What a step can make of the registers: it goes on in its line with fewer steps left, ends the line, aborts the
transaction at its EXPECT, or ends the request. -/
inductive LineStep (cfg : Params) (p : Place) (μ : Micro) (q q' : Seq) : Prop where
  | goesOn (ν : Micro) (hphase : q'.phase = .running ⟨p, ν⟩) (hjob : q'.job = q.job) (hpolls : pollsOk cfg ⟨p, ν⟩ q')
      (hwait : lineHead ν = .wait1 → lineHead μ = .wait1) (hless : lineSteps cfg p q' ν < lineSteps cfg p q μ)
  | endsLine (r : Result) (q₁ : Seq) (hq : afterLine cfg p r q₁ = .next q') (rbuf : List (Option Byte))
      (hjob : q₁.job = { q.job with rbuf := rbuf })
  | aborts (hwait : lineHead μ = .wait1) (hplace : p ≠ .alone) (hq : q' = q.goto cfg .abort)
  | ends (hq : q'.phase = .done)

section Steps
variable {cfg : Params} {bus : Nat} {p : Place} {μ : Micro} {x y : Inst}

/-- EXPECT goes on, aborts or ends the request (44_status_waiter.md rules R212, R213). -/
theorem waitEnd_lineStep {q q' : Seq} (h : waitEnd cfg p q = .next q') : LineStep cfg p .wait3 q q' := by
  by_cases hp : p = .alone
  · subst hp
    cases h
    exact .ends rfl
  · rw [waitEnd_of_ne_alone hp] at h
    split at h
    · cases h
      rw [abort_timeout]
      exact .ends rfl
    · split at h
      · cases h
        rw [abort_mismatch]
        split
        · exact .aborts rfl hp rfl
        · exact .ends rfl
      · exact .endsLine _ _ h _ rfl

/-- A poll within the budget leaves fewer. -/
theorem pollsLeft_lt {k budget : Nat} (hk : k ≤ budget) (hne : k ≠ budget) : budget - (k + 1) < budget - k := by omega

/-- Every step of a line, from registers whose polls are within the budget. -/
theorem stepAt_lineStep (h : stepAt cfg bus p μ x = .next y) (hpolls : pollsOk cfg ⟨p, μ⟩ x.seq) :
    LineStep cfg p μ x.seq y.seq := by
  cases μ <;> simp only [stepAt] at h
  case start1 | stop1 | data2 | read1 | read2 | clear1 | setAck1 | clrAck1 =>
    cases readThen_next h
    exact .goesOn _ rfl rfl trivial nofun (Nat.lt_succ_self _)
  case wait2 =>
    cases readThen_next h
    exact .goesOn _ rfl rfl trivial (fun _ => rfl) (Nat.lt_succ_self _)
  case start2 =>
    obtain ⟨z, -, rfl⟩ := writeThen_next h
    exact .goesOn _ rfl rfl (Nat.zero_le _) nofun (Nat.lt_succ_self _)
  case data1 =>
    unfold dataFirst at h
    split at h
    · cases h
    · obtain ⟨z, -, rfl⟩ := writeThen_next h
      exact .goesOn _ rfl rfl trivial nofun (Nat.lt_succ_self _)
  case stop2 | data3 | read3 | clear2 | setAck2 | clrAck2 | enable2 | softReset =>
    obtain ⟨z, q, -, hq, rfl⟩ := writeEnd_next h
    exact .endsLine _ _ hq _ rfl
  case start4 | test =>
    obtain ⟨q, hq, rfl⟩ := silently_next h
    exact .endsLine _ _ hq _ rfl
  case busy1 | fetch | enable1 =>
    obtain ⟨q, hq, rfl⟩ := readEnd_next h
    exact .endsLine _ _ hq _ rfl
  case start3 =>
    unfold startPoll at h
    split at h
    · cases h
      exact .goesOn _ rfl rfl trivial nofun (Nat.lt_add_left _ Nat.one_lt_two)
    next hne =>
      cases readThen_next h
      rw [setSeq_seq]
      split
      · exact .goesOn _ rfl rfl (Nat.lt_of_le_of_ne hpolls hne) nofun (Nat.add_lt_add_right (pollsLeft_lt hpolls hne) 2)
      · exact .goesOn _ rfl rfl trivial nofun (Nat.lt_add_left _ Nat.one_lt_two)
  case wait1 =>
    unfold waitPoll at h
    split at h
    · cases h
      exact .goesOn _ rfl rfl trivial (fun _ => rfl) (Nat.lt_add_left _ Nat.one_lt_two)
    next hne =>
      have hleft := pollsLeft_lt hpolls hne
      cases readThen_next h
      rw [setSeq_seq]
      split
      · exact .goesOn _ rfl rfl trivial (fun _ => rfl) (Nat.lt_add_of_pos_left (Nat.zero_lt_of_lt hleft))
      · exact .goesOn _ rfl rfl (Nat.lt_of_le_of_ne hpolls hne) (fun _ => rfl) (Nat.add_lt_add_right hleft 2)
  case wait3 =>
    obtain ⟨q, hq, rfl⟩ := silently_next h
    exact waitEnd_lineStep hq
  case idle1 =>
    unfold idlePoll at h
    split at h
    · cases h
      exact .ends rfl
    next hne =>
      split at h
      · cases readThen_next h
        exact .goesOn _ rfl rfl (Nat.lt_of_le_of_ne hpolls hne) nofun (Nat.add_lt_add_right (pollsLeft_lt hpolls hne) 1)
      · obtain ⟨q, hq, rfl⟩ := readEnd_next h
        exact .endsLine _ _ hq _ rfl
  case clock1 =>
    unfold clockLine at h
    split at h
    · cases h
      exact .ends rfl
    · obtain ⟨z, -, hrest⟩ := bind_eq_next.mp h
      obtain ⟨q, hq, hy⟩ := bind_eq_next.mp hrest
      cases hy
      exact .endsLine _ _ hq _ rfl
  case poll =>
    unfold resetPoll at h
    split at h
    · cases h
      exact .ends rfl
    next hne =>
      split at h
      · cases readThen_next h
        exact .goesOn _ rfl rfl (Nat.lt_of_le_of_ne hpolls hne) nofun (Nat.add_lt_add_right (pollsLeft_lt hpolls hne) 1)
      · obtain ⟨q, hq, rfl⟩ := readEnd_next h
        exact .endsLine _ _ hq _ rfl
  case own =>
    unfold ownLine at h
    split at h
    · obtain ⟨q, hq, rfl⟩ := silently_next h
      exact .endsLine _ _ hq _ rfl
    · obtain ⟨z, q, -, hq, rfl⟩ := writeEnd_next h
      exact .endsLine _ _ hq _ rfl

end Steps

/-! Programs that end within a number of steps -/

/-- From the registers `q` the request has ended when the sequencer has made `n` steps, whatever instance around the registers
each of them finds: the other agents may act in between. -/
def EndsWithin (cfg : Params) (bus : Nat) : Nat → Seq → Prop
  | 0, q => q.phase = .done
  | n + 1, q => ∀ x y : Inst, x.seq = q → x.seqStep cfg bus = .next y → EndsWithin cfg bus n y.seq

/-- The request ends within `m` steps of the end of the line of place `p` with job `j`, whatever bytes it has received. -/
def EndsAfter (cfg : Params) (bus m : Nat) (p : Place) (j : Job) : Prop :=
  ∀ r q q' rbuf, q.job = { j with rbuf := rbuf } → afterLine cfg p r q = .next q' → EndsWithin cfg bus m q'

/-- The request ends within `m` steps of the beginning of the line of place `p` with job `j`, whatever bytes it has received. -/
def EndsFrom (cfg : Params) (bus m : Nat) (p : Place) (j : Job) : Prop :=
  ∀ (q : Seq) rbuf, q.job = { j with rbuf := rbuf } → EndsWithin cfg bus m (q.goto cfg p)

section Bounds
variable {cfg : Params} {bus n m c : Nat} {p p' : Place} {μ : Micro} {j j' : Job} {q : Seq}

theorem endsWithin_of_done (h : q.phase = .done) : EndsWithin cfg bus n q := by
  induction n generalizing q with
  | zero => exact h
  | succ n ih =>
    rintro x y rfl hstep
    rw [Inst.seqStep, h] at hstep
    cases hstep
    exact ih h

theorem EndsWithin.mono (h : EndsWithin cfg bus n q) (hnm : n ≤ m) : EndsWithin cfg bus m q := by
  induction n generalizing q m with
  | zero => exact endsWithin_of_done h
  | succ n ih =>
    obtain ⟨m, rfl⟩ := Nat.exists_eq_add_of_lt hnm
    exact fun x y hx hstep => ih (h x y hx hstep) (Nat.le_add_right n m)

theorem EndsFrom.mono (h : EndsFrom cfg bus n p j) (hnm : n ≤ m) : EndsFrom cfg bus m p j :=
  fun q rbuf hq => (h q rbuf hq).mono hnm

/-- The line of a place that no other follows ends the request. -/
theorem endsAfter_last (h : successors p = []) : EndsAfter cfg bus m p j := by
  intro r q q' rbuf _ hafter
  rcases afterLine_goes hafter with hdone | ⟨p', hp', -⟩
  · exact endsWithin_of_done hdone
  · rw [h] at hp'
    cases hp'

theorem EndsFrom.after (h : EndsFrom cfg bus m p' j')
    (hgoes : ∀ rbuf, Goes cfg p { j with rbuf := rbuf } p' { j' with rbuf := rbuf }) : EndsAfter cfg bus m p j := by
  intro r q q' rbuf hq hafter
  obtain ⟨q₁, hq₁, hgoto⟩ := hgoes rbuf r q hq
  cases hgoto.symm.trans hafter
  exact h q₁ rbuf hq₁

/-- From a step of a line the request ends within the line's own steps and `m` more, where `m` steps are enough after the
line's end and for the abort at its EXPECT. -/
theorem endsWithin_of_line
    (habort : lineHead μ = .wait1 → p ≠ .alone → ∀ q₁ : Seq, EndsWithin cfg bus m (q₁.goto cfg .abort))
    (hphase : q.phase = .running ⟨p, μ⟩) (hpolls : pollsOk cfg ⟨p, μ⟩ q) (hafter : EndsAfter cfg bus m p q.job)
    (hn : lineSteps cfg p q μ ≤ n) : EndsWithin cfg bus (n + m) q := by
  induction n generalizing μ q with
  | zero => cases μ <;> cases hn
  | succ n ih =>
    rw [Nat.succ_add]
    rintro x y rfl hstep
    rw [seqStep_of_running hphase] at hstep
    rcases stepAt_lineStep hstep hpolls with ⟨ν, hphase', hjob, hpolls', hwait, hless⟩ | ⟨r, q₁, hq, rbuf, hjob⟩ |
      ⟨hwait, hplace, hq⟩ | hdone
    · exact ih (fun hν => habort (hwait hν)) hphase' hpolls' (hjob ▸ hafter)
        (Nat.le_of_lt_succ (Nat.lt_of_lt_of_le hless hn))
    · exact (hafter r q₁ y.seq rbuf hjob hq).mono (Nat.le_add_left m n)
    · rw [hq]
      exact (habort hwait hplace x.seq).mono (Nat.le_add_left m n)
    · exact endsWithin_of_done hdone

theorem abort_endsWithin (q : Seq) : EndsWithin cfg bus 2 (q.goto cfg .abort) :=
  endsWithin_of_line (n := 2) (m := 0) (p := .abort) (μ := .stop1) (fun hwait => nomatch hwait) rfl trivial
    (endsAfter_last rfl) le_rfl

end Bounds

/-! The lines of the transactions and of INIT (45_transactions.md rules R231 to R235) -/

/-- The most steps the line of a place can take. -/
def lineLength (cfg : Params) (p : Place) : Nat :=
  match firstMicro p with
  | .idle1 => cfg.idleBudget + 1
  | .start1 => cfg.startBudget + 4
  | .wait1 => cfg.waitBudget + 2
  | .poll => cfg.resetBudget + 1
  | .data1 => 3
  | .stop1 | .clear1 | .setAck1 | .clrAck1 => 2
  | _ => 1

theorem goto_job (cfg : Params) (q : Seq) (p : Place) : (q.goto cfg p).job = q.job := by
  unfold Seq.goto Seq.begin
  split <;> rfl

theorem lineHead_firstMicro (p : Place) : lineHead (firstMicro p) = firstMicro p := by cases p <;> rfl

/-- The polls of a line begin at none; those of N5 at what `k` holds. -/
theorem goto_lineSteps {cfg : Params} {p : Place} {q : Seq} (hp : p ≠ .alone) (hk : p = .n5 → q.k = 0) :
    pollsOk cfg ⟨p, firstMicro p⟩ (q.goto cfg p) ∧ lineSteps cfg p (q.goto cfg p) (firstMicro p) ≤ lineLength cfg p := by
  cases p
  case alone => exact absurd rfl hp
  case n5 =>
    have hzero : (q.goto cfg .n5).k = 0 := hk rfl
    exact ⟨hzero.trans_le (Nat.zero_le _), Nat.add_le_add_right (Nat.sub_le _ _) 1⟩
  case t1 | t3 | t5 | t7 | w10 | r9 | r11 | r15 | r19 | d15 => exact ⟨Nat.zero_le _, le_rfl⟩
  all_goals exact ⟨trivial, le_rfl⟩

section Lines
variable {cfg : Params} {bus m : Nat} {p p' : Place} {j j' : Job}

/-- Going to a line is followed by what follows its end. -/
theorem goto_endsWithin {q : Seq} {rbuf : List (Option Byte)} (hq : q.job = { j with rbuf := rbuf })
    (hafter : EndsAfter cfg bus m p j) (hp : p ≠ .alone) (hk : p = .n5 → q.k = 0) (hm : firstMicro p = .wait1 → 2 ≤ m) :
    EndsWithin cfg bus (lineLength cfg p + m) (q.goto cfg p) := by
  obtain ⟨hpolls, hsteps⟩ := goto_lineSteps (cfg := cfg) hp hk
  refine endsWithin_of_line (fun hwait _ q₁ => ?_) (begin_phase _ _ _) hpolls ?_ hsteps
  · exact (abort_endsWithin q₁).mono (hm (lineHead_firstMicro p ▸ hwait))
  · rw [goto_job, hq]
    exact fun r q₁ q' rbuf' hq₁ => hafter r q₁ q' rbuf' hq₁

theorem EndsFrom.of_line (hafter : EndsAfter cfg bus m p j) (hp : p ≠ .alone ∧ p ≠ .n5)
    (hm : firstMicro p = .wait1 → 2 ≤ m) : EndsFrom cfg bus (lineLength cfg p + m) p j :=
  fun _ _ hq => goto_endsWithin hq hafter hp.1 (fun h => absurd h hp.2) hm

/-- A line of a transaction before one that leaves at least the abort's steps. -/
theorem EndsFrom.before (h : EndsFrom cfg bus m p' j')
    (hgoes : ∀ rbuf, Goes cfg p { j with rbuf := rbuf } p' { j' with rbuf := rbuf })
    (hp : p ≠ .alone ∧ p ≠ .n5 := by decide) (hm : 2 ≤ m := by omega) :
    EndsFrom cfg bus (lineLength cfg p + m) p j :=
  .of_line (h.after hgoes) hp fun _ => hm

/-- Such a line with one successor, at which the job stays as it is. -/
theorem EndsFrom.before_plain (h : EndsFrom cfg bus m p' j) (p : Place)
    (hgoes : ∀ r q, nextLine cfg p r q = .next (q.goto cfg p') := by intros; rfl)
    (hp : p ≠ .alone ∧ p ≠ .n5 := by decide) (hm : 2 ≤ m := by omega) : EndsFrom cfg bus (lineLength cfg p + m) p j :=
  h.before (fun _ => .plain hgoes) hp hm

/-- Where the condition of a place that branches is decided. -/
theorem Goes.branch {place : Place} (h : Goes cfg p j place j') (hplace : place = p') : Goes cfg p j p' j' := hplace ▸ h

/-- The last line of a program. -/
theorem EndsFrom.of_last (p : Place)
    (h : successors p = [] ∧ (p ≠ .alone ∧ p ≠ .n5) ∧ firstMicro p ≠ .wait1 := by decide) :
    EndsFrom cfg bus (lineLength cfg p) p j := by
  obtain ⟨hlast, hp, hwait⟩ := h
  exact .of_line (m := 0) (endsAfter_last hlast) hp fun hfirst => absurd hfirst hwait

/-- T8 to T11 of a write with `left` bytes to send. -/
theorem payload_endsFrom (left : Nat) (h : j.i + left = j.n) :
    EndsFrom cfg bus (left * (cfg.waitBudget + 6) + 3) .w8 j := by
  induction left generalizing j with
  | zero =>
    have h11 : EndsFrom cfg bus 2 .w11 j := .of_last .w11
    have h8 := h11.before fun _ => goes_w8.branch (if_pos h)
    exact h8.mono (Nat.le_add_left 3 _)
  | succ left ih =>
    have hmore : j.i ≠ j.n := by omega
    have h8' := ih (j := { j with i := j.i + 1 }) (show j.i + 1 + left = j.n by omega)
    have h10 := h8'.before fun _ => goes_w10 (j := { j with rbuf := _ })
    have h9 := h10.before_plain .w9
    have h8 := h9.before fun _ => goes_w8.branch (if_neg hmore)
    exact h8.mono (by simp only [lineLength, firstMicro, Nat.succ_mul]; omega)

/-- T13 to T21 of a read with `left` bytes to receive before the last. -/
theorem receive_endsFrom (left : Nat) (h : j.i + left + 1 = j.n) :
    EndsFrom cfg bus (left * (cfg.waitBudget + 6) + cfg.waitBudget + 10) .r13 j := by
  induction left generalizing j with
  | zero =>
    have hlast : j.i = j.n - 1 := by omega
    have h21 : EndsFrom cfg bus 2 .r21 j := .of_last .r21
    have h18 := ((h21.before_plain .r20).before_plain .r19).before_plain .r18
    have h17 := h18.before fun _ => goes_r17
    have h13 := h17.before fun _ => goes_r13.branch (if_pos hlast)
    exact h13.mono (by simp only [lineLength, firstMicro]; omega)
  | succ left ih =>
    have hmore : j.i ≠ j.n - 1 := by omega
    have h13' := ih (j := { j with i := j.i + 1 }) (show j.i + 1 + left + 1 = j.n by omega)
    have h16 := h13'.before fun _ => goes_r16 (j := { j with rbuf := _ })
    have h14 := (h16.before_plain .r15).before_plain .r14
    have h13 := h14.before fun _ => goes_r13.branch (if_neg hmore)
    exact h13.mono (by simp only [lineLength, firstMicro, Nat.succ_mul]; omega)

/-- T14' to T21' of a DEVICE_READ that acknowledges its byte (rule R234). -/
theorem ackedReceive_endsFrom : EndsFrom cfg bus (cfg.waitBudget + 7) .d14 j := by
  have h21 : EndsFrom cfg bus 2 .d21 j := .of_last .d21
  have h14 := ((h21.before_plain .d16).before_plain .d15).before_plain .d14
  exact h14.mono (by simp only [lineLength, firstMicro]; omega)

/-- T8 to T21 of a read. -/
theorem read_endsFrom (hn : 1 ≤ j.n) :
    EndsFrom cfg bus (cfg.startBudget + 3 * cfg.waitBudget + (j.n - 1) * (cfg.waitBudget + 6) + 23) .r8 j := by
  have hreceive : EndsFrom cfg bus ((j.n - 1) * (cfg.waitBudget + 6) + cfg.waitBudget + 10)
      (if acksLast cfg j.op then .d14 else .r13) { j with i := 0 } := by
    split
    · exact ackedReceive_endsFrom.mono (by omega)
    · exact receive_endsFrom _ (show 0 + (j.n - 1) + 1 = j.n by omega)
  have h12 := hreceive.before fun _ => goes_r12 (j := { j with rbuf := _ })
  have h8 := (((h12.before_plain .r11).before_plain .r10).before_plain .r9).before_plain .r8
  exact h8.mono (by simp only [lineLength, firstMicro]; omega)

/-- T1 to T7 before the rest of a transaction. -/
theorem addresses_endsFrom (h : EndsFrom cfg bus m (if readsAfterT7 j.op then .r8 else .w8) { j with i := 0 }) (hm : 2 ≤ m) :
    EndsFrom cfg bus (cfg.idleBudget + cfg.startBudget + 3 * cfg.waitBudget + 17 + m) .t1 j := by
  have h7 := h.before fun _ => goes_t7 (j := { j with rbuf := _ })
  have h4 := ((h7.before_plain .t6).before_plain .t5).before_plain .t4
  have h1 := ((h4.before_plain .t3).before_plain .t2).before_plain .t1
  exact h1.mono (by simp only [lineLength, firstMicro]; omega)

/-- INIT, whose soft reset sets the polls of N5 to none (rule R235). -/
theorem init_endsFrom : EndsFrom cfg bus (cfg.resetBudget + 6) .n1 j := by
  have h6 : EndsFrom cfg bus 1 .n6 j := .of_last .n6
  have h5 : EndsAfter cfg bus 1 .n5 j := h6.after fun _ => .plain fun _ _ => rfl
  have hreset : EndsAfter cfg bus (cfg.resetBudget + 2) .n4 j := by
    intro r q q' rbuf hq hafter
    cases hafter
    exact goto_endsWithin (q := { bindResult .n4 r q with k := 0 }) ((bindResult_job _ _ _).trans hq) h5 (by decide) (fun _ => rfl) nofun
  have h4 : EndsFrom cfg bus (1 + (cfg.resetBudget + 2)) .n4 j := .of_line hreset (by decide) nofun
  have h1 := ((h4.before_plain .n3).before_plain .n2).before_plain .n1
  exact h1.mono (by simp only [lineLength, firstMicro]; omega)

end Lines

/-! Whole programs -/

section Programs
variable {cfg : Params} {bus : Nat} {o : SeqOp} {q : Seq}

theorem write_endsWithin (h : readsAfterT7 q.op = false) : EndsWithin cfg bus
    (cfg.idleBudget + cfg.startBudget + 3 * cfg.waitBudget + 17 + (q.n * (cfg.waitBudget + 6) + 3)) (q.goto cfg .t1) := by
  refine addresses_endsFrom (j := q.job) ?_ (by omega) q q.rbuf rfl
  rw [show q.job.op = q.op from rfl, h]
  exact payload_endsFrom q.n (Nat.zero_add _)

theorem read_endsWithin (h : readsAfterT7 q.op = true) (hn : 1 ≤ q.n) : EndsWithin cfg bus
    (cfg.idleBudget + cfg.startBudget + 3 * cfg.waitBudget + 17 +
      (cfg.startBudget + 3 * cfg.waitBudget + (q.n - 1) * (cfg.waitBudget + 6) + 23)) (q.goto cfg .t1) := by
  refine addresses_endsFrom (j := q.job) ?_ (by omega) q q.rbuf rfl
  rw [show q.job.op = q.op from rfl, h]
  exact read_endsFrom (j := { q.job with i := 0 }) hn

/-- A primitive or a wait run as a request of its own is one line, which begins with no polls made. -/
theorem alone_endsWithin (ho : (firstLabel o).place = .alone) :
    EndsWithin cfg bus (stepBound cfg o q.n q.budget) (q.begin cfg (firstLabel o)) := by
  have hbegins : ∃ μ, (q.begin cfg (firstLabel o)).phase = .running ⟨.alone, μ⟩ ∧
      pollsOk cfg ⟨.alone, μ⟩ (q.begin cfg (firstLabel o)) ∧
      lineSteps cfg .alone (q.begin cfg (firstLabel o)) μ ≤ stepBound cfg o q.n q.budget := by
    cases o
    case masterWrite | masterRead | deviceWrite | deviceRead | init => cases ho
    case waitStatus | waitIdle => exact ⟨_, rfl, Nat.zero_le _, le_rfl⟩
    all_goals exact ⟨_, rfl, trivial, le_rfl⟩
  obtain ⟨μ, hphase, hpolls, hsteps⟩ := hbegins
  exact endsWithin_of_line (m := 0) (fun _ h => absurd rfl h) hphase hpolls (endsAfter_last rfl) hsteps

/-- Every program, with a payload that suits its operation, ends within the bound (rule R302). -/
theorem program_endsWithin (hop : q.op = some o) (hread : o ∈ readOps → 1 ≤ q.n)
    (hdevice : o ∈ [SeqOp.deviceWrite, .deviceRead] → q.n = 1) :
    EndsWithin cfg bus (stepBound cfg o q.n q.budget) (q.begin cfg (firstLabel o)) := by
  cases o
  case masterWrite =>
    refine (write_endsWithin (hop ▸ rfl)).mono ?_
    simp only [stepBound, Nat.add_mul, Nat.mul_add]
    omega
  case deviceWrite =>
    refine (write_endsWithin (hop ▸ rfl)).mono ?_
    simp only [stepBound, hdevice (by decide)]
    omega
  case masterRead =>
    have hn := hread (by decide)
    refine (read_endsWithin (hop ▸ rfl) hn).mono ?_
    obtain ⟨n, hn⟩ := Nat.exists_eq_add_of_le' hn
    simp only [stepBound, hn, Nat.add_sub_cancel, Nat.add_mul, Nat.mul_add]
    omega
  case deviceRead =>
    have hn := hdevice (by decide)
    refine (read_endsWithin (hop ▸ rfl) hn.ge).mono ?_
    simp only [stepBound, hn]
    omega
  case init => exact init_endsFrom (j := q.job) q q.rbuf rfl
  all_goals exact alone_endsWithin rfl

end Programs

/-- The operands of a request are the payload length and the budget its bound speaks of. -/
theorem loadOperands_bounds {i : Instr} {o : SeqOp} {n k : Nat} (h : requestOf i = some (o, n, k)) :
    let q := loadOperands i { Seq.unwritten with op := some o }
    q.n = n ∧ q.budget = k ∧ (o ∈ [SeqOp.deviceWrite, .deviceRead] → n = 1) := by
  cases i <;> simp only [requestOf, reduceCtorEq, Option.some.injEq, Prod.mk.injEq] at h <;> obtain ⟨rfl, rfl, rfl⟩ := h
  case deviceWrite | deviceRead => exact ⟨rfl, rfl, fun _ => rfl⟩
  all_goals exact ⟨rfl, rfl, fun h => absurd h (by decide)⟩

/-- An accepted request ends within its bound. -/
theorem exec_request_endsWithin {i : Instr} {s t : State} {o : SeqOp} {n k : Nat} (hreq : requestOf i = some (o, n, k))
    (h : exec i s = .next t) : ∃ x, t.insts[i.bus]? = some x ∧
      EndsWithin t.params i.bus (stepBound s.params o n k) x.seq := by
  rw [exec_request_eq_accept hreq] at h
  obtain ⟨x, hx, -, rfl⟩ := accept_next h
  refine ⟨_, setInst_get _ _ _ hx, ?_⟩
  rw [setSeq_seq]
  split
  next hrange =>
    obtain ⟨rfl, rfl, hdevice⟩ := loadOperands_bounds hreq
    have ⟨_, hread, _⟩ := loadOperands_payloadOk hreq { Seq.unwritten with op := some o } hrange
    exact program_endsWithin (loadOperands_op _ _) hread hdevice
  · exact endsWithin_of_done rfl

/-! Schedules -/

theorem completeReset_seq (x : Inst) : x.completeReset.seq = x.seq := by
  unfold Inst.completeReset
  split <;> rfl

theorem slaveStep_next {x y : Inst} (h : slaveStep x = .next y) : y = x := by
  unfold slaveStep at h
  split at h <;> cases h
  rfl

/-- A step of an agent but the host: the sequencer of instance `b` makes its step, or its registers stay. -/
theorem agentStep_seq_cases {a : Agent} {s t : State} {b : Nat} {x y : Inst} (ha : a ≠ .host)
    (h : agentStep a s = .next t) (hx : s.insts[b]? = some x) (hy : t.insts[b]? = some y) :
    (a = .seq b ∧ x.seqStep s.params b = .next y) ∨ (a ≠ .seq b ∧ y.seq = x.seq) := by
  cases a with
  | host => exact absurd rfl ha
  | seq j =>
    by_cases hj : j = b
    · subst hj
      obtain ⟨z, hz, ht⟩ := bind_eq_next.mp ((localStep_of_get _ hx).symm.trans h)
      cases ht
      rw [setInst_get _ _ _ hx] at hy
      cases hy
      exact .inl ⟨rfl, hz⟩
    · refine .inr ⟨fun heq => hj (Agent.seq.inj heq), ?_⟩
      rcases localStep_at h hx hy with rfl | ⟨rfl, -⟩
      · rfl
      · exact absurd rfl hj
  | eng j =>
    refine .inr ⟨nofun, ?_⟩
    rcases localStep_at h hx hy with rfl | ⟨-, hstep⟩
    · rfl
    · exact completeAct_seq hstep
  | reset j =>
    refine .inr ⟨nofun, ?_⟩
    rcases localStep_at h hx hy with rfl | ⟨-, hstep⟩
    · rfl
    · cases hstep
      exact completeReset_seq x
  | slave j =>
    refine .inr ⟨nofun, ?_⟩
    rcases localStep_at h hx hy with rfl | ⟨-, hstep⟩
    · rfl
    · rw [slaveStep_next hstep]
  | wait =>
    cases h
    cases hx.symm.trans hy
    exact .inr ⟨nofun, rfl⟩

/-- A request that ends within `n` steps has ended under every schedule that gives its sequencer as many. -/
theorem EndsWithin.done_of_runSchedule {s u : State} {b n : Nat} {x y : Inst} {as : List Agent}
    (hx : s.insts[b]? = some x) (h : EndsWithin s.params b n x.seq) (hhost : Agent.host ∉ as) (hn : n ≤ as.count (.seq b))
    (hrun : runSchedule as s = .next u) (hy : u.insts[b]? = some y) : y.seq.phase = .done := by
  induction as generalizing s n x with
  | nil =>
    obtain rfl := Nat.le_zero.mp hn
    cases hrun
    cases hx.symm.trans hy
    exact h
  | cons a as ih =>
    obtain ⟨t, hstep, hrest⟩ := bind_eq_next.mp hrun
    obtain ⟨ha, has⟩ := not_or.mp fun hmem => hhost (List.mem_cons.mpr hmem)
    obtain ⟨hparams, hlen, -⟩ := agentStep_keepsOthers hstep
    have hb : b < t.insts.length := hlen ▸ (List.getElem?_eq_some_iff.mp hx).1
    have hz : t.insts[b]? = some t.insts[b] := List.getElem?_eq_getElem hb
    rcases agentStep_seq_cases (Ne.symm ha) hstep hx hz with ⟨rfl, hseq⟩ | ⟨hne, hseq⟩
    · rw [List.count_cons_self] at hn
      have hnext : EndsWithin t.params b (as.count (.seq b)) t.insts[b].seq := hparams ▸ h.mono hn x _ rfl hseq
      exact ih hz hnext has le_rfl hrest
    · rw [List.count_cons_of_ne hne] at hn
      exact ih hz (hparams ▸ hseq ▸ h) has hn hrest

/-- Settles O55: a request's program is a chain of lines, each of which ends within its polls and steps, and no agent but the
host and the sequencer itself touches the sequencer's registers. -/
theorem requestsEndWithinABound : Obligations.RequestsEndWithinABound := by
  unfold Obligations.RequestsEndWithinABound
  intro i s t u op n k as y hreq hexec hhost hn hrun hy
  obtain ⟨x, hx, hends⟩ := exec_request_endsWithin hreq hexec
  exact hends.done_of_runSchedule hx hhost hn hrun hy

end Sys2Proof.Machine
